-- ==== Sys2Proof/Word.lean ====
section
/-! DEFINITION. The word types of the DT6: what the manual treats as bits. -/

namespace Sys2Proof

/-- A byte of the local port or of a message's payload (R156, R116). -/
abbrev Byte := BitVec 8

/-- A sixteen-bit word: tags, values, ticks, digests, sequence numbers (R54, R177). -/
abbrev Word := BitVec 16

/-- An epoch number, and a write number of the ring: 32 bits (R54, R100). -/
abbrev Word32 := BitVec 32

/-- A station number as it stands in a frame's sender field: 5 bits (R116, R136). -/
abbrev Station := BitVec 5

/-- A converter code, 0 to 4095 (R67). -/
abbrev Code := BitVec 12

end Sys2Proof
end

