-- ==== Sys2Proof/Config.lean ====
section
/-! DEFINITION. What is fixed for every DT6: the limits that the manual names.

The station's operating parameters are no constants: CONFIGURE sets them, so they are state.
No free value stands here: everything the manual leaves open reaches the model as an operand of a command (log 1). -/

namespace Sys2Proof.Config

/-- The open-mark list holds up to 6 entries (R7). -/
abbrev openMarkMax : Nat := 6

/-- A mark pulse lasts four ticks (R2). -/
abbrev pulseTicks : Nat := 4

/-- MARK_STUCK is raised when the stuck count reaches 65 (R6). -/
abbrev stuckLimit : Nat := 65

/-- CLAIM matching allows two ticks in either direction (R15, R16). -/
abbrev matchTicks : Int := 2

/-- At most 11 messages other than EPOCH stand in the transmit queue (R125). -/
abbrev otherMessagesMax : Nat := 11

/-- The 16th failed attempt drops a message (R127). -/
abbrev attemptLimit : Nat := 16

/-- The transmit failure count at which LC enters MUTE (R130). -/
abbrev failureLimit : Nat := 32

/-- The veto count at which LC enters MUTE (R130). -/
abbrev vetoLimit : Nat := 16

/-- The recessive bit times that make the pair idle (R115). -/
abbrev idleBits : Nat := 11

/-- The bits of a frame beside its payload, and the bits of its end field (R116). -/
abbrev frameBits : Nat := 36
abbrev endFieldBits : Nat := 3

/-- The words of the ring and of each slot (R54, R33). -/
abbrev storeWords : Nat := 4096

/-- The frame bytes of a READ chunk (R170). -/
abbrev chunkBytes : Nat := 240

/-- The marker of an absent value word, 8000h (R69, R182). -/
abbrev absentValue : Word := 0x8000

/-- The conversions of a self-check, and the band of means that pass (R81, R82). -/
abbrev selfCheckCount : Nat := 8
abbrev selfCheckLow : Nat := 1984
abbrev selfCheckHigh : Nat := 2112

/-- A PRESENT entry expires when it was last heard 3 or more epochs back (R149). -/
abbrev expiryEpochs : Nat := 3

/-- The largest epoch number; its successor is 1 (R100). -/
abbrev lastEpoch : Nat := 4294967295

/-- DESIGN CHOICE (log 2, unsafe): the straps as they stand at State.reset. A PIN_RESET command carries its own. -/
abbrev resetNumber : Station := 0
abbrev resetRate : BitVec 2 := 0

end Sys2Proof.Config
end

