-- ==== Sys2Proof/Syntax.lean ====
section
/-! DEFINITION. The commands that the DT6 takes: one constructor of `Instr` per row of spec/opcode_table.json. -/

namespace Sys2Proof

/-- A part of an event that the manual leaves unordered against the event's other parts (R98, R101, R102, R145, R149).
A command carries a list of them: the order in which they are taken (log 1). -/
inductive Part where
  /-- CC's own tick: the mark pulse and the stuck count (R2, R6). -/
  | ccTick
  /-- AS closes and begins a frame, HR writes it, TM evaluates it and CC takes the alerts (R70, R55, R88, R92). -/
  | acquisition
  /-- ET submits EPOCH at a wrap (R100, step 4). -/
  | epochSubmit
  /-- LC takes the epoch start (R133). -/
  | lcEpoch
  /-- CC takes the epoch start (R22, R26). -/
  | ccEpoch
  /-- MU takes the epoch start (R148, R149). -/
  | muEpoch
  /-- MU takes an accepted message (R144 to R150). -/
  | muTake
  /-- A win comes together with a tick, the tick taken first (R105). It is part of a tick only where the command names it,
  and then it follows ET's counter, wherever in the list it stands (log 20). -/
  | win
  deriving DecidableEq, Repr

/-- How an attempt to send fails (R127): by a dominant veto bit (R123) or by a bit error (R120). -/
inductive FailReason where
  | veto
  | bitError
  deriving DecidableEq, Repr

/-- A frame of the peer link as this station reads it, up to and with its presence bit (R116, Table 10-1).
The length field is the payload's length: a receiver takes as many payload bytes as the length it read. -/
structure WireFrame where
  kind      : BitVec 3
  sender    : Station
  /-- both bits recessive as sent (R116); the check takes them as they were read (R117) -/
  delimiter : BitVec 2
  payload   : List Byte
  crc       : Word
  /-- the presence bit reads dominant (R121) -/
  presence  : Bool
  deriving DecidableEq, Repr

/-- The commands, in the order of spec/opcode_table.json but for the groups. -/
inductive Instr where
  | pinReset (addr : Station) (rate : BitVec 2)
  | initialisationComplete
  | selNRelease
  | readResponseShiftedOut
  | unknownCommand (frame : List Byte)
  | status (args : List Byte)
  | configure (args : List Byte)
  | join (args : List Byte)
  | leave (args : List Byte)
  | trigger (args : List Byte)
  | spot (args : List Byte)
  | spotRead (args : List Byte)
  | records (args : List Byte)
  | openRead (args : List Byte)
  | read (args : List Byte)
  | closeRead (args : List Byte)
  | release (args : List Byte)
  | peers (args : List Byte)
  | ackAttn (args : List Byte)
  | softReset (args : List Byte)
  | tick (order : List Part)
  | markPulseEnd (order : List Part)
  | markStuck (order : List Part)
  | tickWrap (order : List Part)
  | peerExpiry (order : List Part)
  | claimTimeout (order : List Part)
  | answerWindowExpiry (order : List Part)
  | listenWindowExpiry (order : List Part)
  | markEvent
  | markRelease
  | copyStep (slot : Fin 4)
  | sweepConversionEnd (code : Code)
  | sweepResume
  | spotRunBegin
  | spotConversionEnd (code : Code)
  | selfCheckBegin
  | selfCheckConversionEnd (code : Code)
  | frameStart (bits : Nat)
  | arbitrationWin
  | arbitrationLoss
  | txAttemptFail (reason : FailReason)
  | frameVetoed (frame : WireFrame)
  | frameDiscarded (frame : WireFrame)
  | frameAccepted (frame : WireFrame) (muFirst : Bool) (order : List Part)
  | transactionBegin
  | wholeByteClocked (sdi : Byte) (wait : Bool)
  | startBitRead (bits : Nat)
  deriving DecidableEq, Repr

end Sys2Proof
end

