-- ==== Sys2Proof/Machine/State.lean ====
section
/-! DEFINITION. The state of one DT6, block by block, and the state right after reset. Plain data. -/

namespace Sys2Proof.Machine

/-- No event of the manual stops the machine: FAULT is a station state (R151), reached as a next state.
So no meaning answers a fault (safe: nothing that the hardware does is cut off). -/
inductive Fault where
  deriving DecidableEq, Repr

/-- Refusals. -/
inductive Refusal where
  /-- Raised only in `exec`'s arm of a command that has no meaning yet, by its mnemonic (safe). No arm does. -/
  | notModelled (mnemonic : String)
  deriving DecidableEq, Repr

/-! ## Membership Unit -/

/-- R151. -/
inductive FaultReason where
  | strap | selfcheck | mismatch | duplicate
  deriving DecidableEq, Repr

/-- R138. The fault reason is present only in FAULT. -/
inductive StationState where
  | config | checking | listen | member | leaving
  | fault (reason : FaultReason)
  deriving DecidableEq, Repr

/-- A sweep entry of the configuration: channel 0 to 6, sample code 0 to 3, offset 0 to 4095 (Table 0-3). -/
structure SweepEntry where
  channel    : Nat
  sampleCode : Nat
  offset     : Nat
  deriving DecidableEq, Repr

/-- A spot entry (Table 0-3). -/
structure SpotEntry where
  channel    : Nat
  sampleCode : Nat
  deriving DecidableEq, Repr

/-- A monitor's parameters (R86). The entry index counts from 1. -/
structure MonitorParams where
  entry       : Nat
  persistence : Nat
  low         : Int
  high        : Int
  deriving DecidableEq, Repr

/-- The configuration in force (R137, Table 9-3). L, S and M are the lengths of the three lists. -/
structure Configuration where
  tickPeriod : Nat
  epochLen   : Nat
  npre       : Nat
  npost      : Nat
  /-- slot policy: REPLACE when true, KEEP_OLD when false -/
  replace    : Bool
  /-- retain COMPLETE records on soft reset -/
  retain     : Bool
  sweep      : List SweepEntry
  spots      : List SpotEntry
  monitors   : List MonitorParams
  deriving DecidableEq, Repr

/-- R144. -/
inductive PeerState where
  | absent | present | mismatch
  deriving DecidableEq, Repr

/-- An entry of the peer table (R144). -/
structure Peer where
  state         : PeerState
  lastHeard     : Option Word32
  digestMatches : Option Bool
  freeSlots     : Option Byte
  announced     : Option Word32
  deriving DecidableEq, Repr

/-- An entry of a cleared table (R144). -/
def Peer.cleared : Peer := ⟨.absent, none, none, none, none⟩

structure Mu where
  station      : StationState
  number       : Station
  rate         : BitVec 2
  /-- the configuration in force; the configured flag is its presence (R137) -/
  config       : Option Configuration
  digest       : Word
  listenLength : Nat
  listenCount  : Nat
  spoken       : Bool
  peers        : Vector Peer 24
  deriving DecidableEq, Repr

/-! ## Epoch Timer -/

/-- An instant: epoch and tick (Table 0-5, mark point). -/
structure Point where
  epoch : Word32
  tick  : Word
  deriving DecidableEq, Repr

/-- The own EPOCH as ET follows it (R104). -/
inductive OwnEpoch where
  | none
  | queued (n : Word32)
  | inTransmission (n : Word32)
  deriving DecidableEq, Repr

structure Et where
  running : Bool
  counter : Word
  epoch   : Word32
  /-- the transit allowance W (R103) -/
  transit : Nat
  own     : OwnEpoch
  deriving DecidableEq, Repr

/-! ## Link Controller -/

/-- A capture key: origin station, origin mark epoch and tick. The origin is a byte, as FROZEN carries it (R178). -/
structure Key where
  origin : Byte
  point  : Point
  deriving DecidableEq, Repr

/-- A message's kind and payload, fields as carried (R178, R179). -/
inductive Payload where
  | epoch (n : Word32) (lag : Word) (digest : Word)
  | claim (p : Point)
  | frozen (key : Key) (offset : Byte) (outcome : Byte)
  | hello (digest : Word) (n : Word32) (free : Byte)
  | present (digest : Word) (n : Word32) (free : Byte)
  | bye
  deriving DecidableEq, Repr

/-- R125. -/
inductive MsgCondition where
  | queued | contending | inTransmission
  deriving DecidableEq, Repr

/-- A message of the transmit queue (R125). Its submitting block follows from its kind. -/
structure Msg where
  payload : Payload
  /-- the order of its admission -/
  age     : Nat
  fails   : Nat
  cond    : MsgCondition
  /-- for a CLAIM, the open-mark entry it stands for (the model's own reference, log 4) -/
  mark    : Option Nat
  deriving DecidableEq, Repr

/-- R133. -/
inductive Observation where
  | empty | accepted | spoiled
  deriving DecidableEq, Repr

/-- Whether a frame is in progress on the pair as this station reads it (R115). -/
inductive FrameView where
  | none
  /-- up to the veto bit -/
  | reading
  /-- up to the veto bit, by a sender that stopped at a bit error: it drives no veto (R120) -/
  | readingNoVeto
  /-- behind the veto bit: so many bits of the end field are to come -/
  | ending (left : Nat)
  deriving DecidableEq, Repr

structure Lc where
  /-- the idle count, 0 to 11 (R115) -/
  idle      : Nat
  view      : FrameView
  queue     : List Msg
  nextAge   : Nat
  failCount : Nat
  vetoCount : Nat
  mute      : Bool
  obsCur    : Observation
  obsPrev   : Observation
  deriving DecidableEq, Repr

/-! ## Frames and the History Ring -/

/-- A closed frame: two tag words and L value words (R182). -/
structure Frame where
  tag0   : Word
  tag1   : Word
  values : List Word
  deriving DecidableEq, Repr

/-- The ring's geometry: frame word count w and depth D (R54). -/
structure Geometry where
  words : Nat
  depth : Nat
  deriving DecidableEq, Repr

structure Hr where
  geometry  : Option Geometry
  /-- the next write number n -/
  nextWrite : Word32
  /-- the place that the next frame will take, n mod D on the count of writes -/
  writePos  : Nat
  /-- the frames the ring holds, oldest first; c is their number -/
  frames    : List Frame
  deriving DecidableEq, Repr

/-! ## Capture Controller and Capture Store -/

/-- The outcomes of a participant entry (R45). -/
inductive OutcomeCode where
  | ok | late | noSlot | missed | noAnswer
  deriving DecidableEq, Repr

/-- A participant entry (R45). The offset is signed, as carried. -/
structure Participant where
  station : Station
  outcome : OutcomeCode
  offset  : Byte
  deriving DecidableEq, Repr

/-- The fields that a record takes when it becomes FILLING (R17, R20, R44, R45). -/
structure Capture where
  key           : Key
  outcome       : OutcomeCode
  expected      : BitVec 24
  participants  : List Participant
  answersClosed : Bool
  /-- epoch starts since the claim, 0 or 1 (R26) -/
  answerCount   : Nat
  deriving DecidableEq, Repr

/-- The state of a record that is not FREE, with the fields present in it (Table 2-2). -/
inductive Phase where
  | opened
  | filling (c : Capture)
  | complete (c : Capture)
  deriving DecidableEq, Repr

/-- Table 2-3. -/
structure RecordFlags where
  originator       : Bool := false
  shortPre         : Bool := false
  incompleteFrames : Bool := false
  timeSlip         : Bool := false
  cutShort         : Bool := false
  announceLost     : Bool := false
  deriving DecidableEq, Repr

/-- R43, R181. -/
inductive SpotRequest where
  | none | placed | withdrawn | served
  deriving DecidableEq, Repr

/-- A record that is not FREE (Table 2-2). Frames stored is the length of its frames.
Its reader field is the read session's slot (R46), held once, in LP. -/
structure CapRecord where
  phase       : Phase
  seq         : Word
  words       : Nat
  total       : Nat
  spotCount   : Nat
  mark        : Point
  pre         : Nat
  flags       : RecordFlags
  /-- the slot's contents, frame 0 first (R33) -/
  frames      : List Frame
  cursor      : Option Word32
  framesDone  : Bool
  spotRequest : SpotRequest
  spotValues  : Option (List Code)
  deriving DecidableEq, Repr

/-- Table 1-3. -/
inductive ClaimStatus where
  | none | queued | inTransmission | sent | lost
  deriving DecidableEq, Repr

/-- An open-mark entry (Table 1-2), with the identity by which the line entry and its CLAIM refer to it (log 4). -/
structure Mark where
  id         : Nat
  point      : Point
  originator : Bool
  slot       : Option (Fin 4)
  claim      : ClaimStatus
  /-- epoch starts since mark, 0 or 1 -/
  starts     : Nat
  deferred   : Bool
  deriving DecidableEq, Repr

/-- R2. -/
inductive Driver where
  | idle
  | driving (ticks : Nat)
  deriving DecidableEq, Repr

/-- R3. -/
inductive LineEntry where
  | empty
  | entry (id : Nat)
  | claimed
  deriving DecidableEq, Repr

structure Cc where
  driver      : Driver
  /-- whether another station drives MARK_N, as far as the commands have told (log 5) -/
  othersDrive : Bool
  /-- our own pulse has asserted the line and CC has not yet taken the edge (log 5) -/
  edgePending : Bool
  lineEntry   : LineEntry
  stuck       : Nat
  /-- the open-mark list, oldest first -/
  marks       : List Mark
  nextMark    : Nat
  /-- the capture table; `none` is FREE -/
  records     : Vector (Option CapRecord) 4
  /-- the opening order, earliest first (R39) -/
  opening     : List (Fin 4)
  seqCounter  : Word
  deriving DecidableEq, Repr

/-! ## Acquisition Sequencer -/

/-- What the converter is doing (R67, R68). -/
inductive Converter where
  | idle | sweep | spot | selfCheck
  deriving DecidableEq, Repr

/-- The frame under assembly (R69). INCOMPLETE is set only at its closing. -/
structure Assembly where
  tick   : Word
  epoch  : Word32
  values : List Word
  spot   : Bool
  slip   : Bool
  mark   : Bool
  /-- the sweep position: how many entries have been stored -/
  pos    : Nat
  deriving DecidableEq, Repr

/-- R75. -/
inductive Requester where
  | capture (slot : Fin 4) (seq : Word)
  | localPort
  deriving DecidableEq, Repr

/-- A place of the spot request list: waiting, or in the run (R75). -/
structure SpotPlace where
  requester : Requester
  inRun     : Bool
  deriving DecidableEq, Repr

/-- A spot run in progress (R76). -/
structure SpotRun where
  spots : List SpotEntry
  codes : List Code
  began : StationState
  stamp : Option Point
  deriving DecidableEq, Repr

/-- The last spot result (R80). -/
structure SpotResult where
  codes   : List Code
  station : StationState
  stamp   : Option Point
  deriving DecidableEq, Repr

/-- Self-check progress: conversions made and the sum of their codes (R81). -/
structure SelfCheck where
  made : Nat
  sum  : Nat
  deriving DecidableEq, Repr

structure Acq where
  converter    : Converter
  assembly     : Option Assembly
  slipPending  : Bool
  spotList     : List SpotPlace
  run          : Option SpotRun
  localPending : Bool
  lastSpot     : Option SpotResult
  selfCheck    : Option SelfCheck
  lastMean     : Option Nat
  deriving DecidableEq, Repr

/-! ## Threshold Monitors -/

/-- R89 to R91. -/
inductive MonitorPhase where
  | armed | pending | tripped
  deriving DecidableEq, Repr

structure MonitorState where
  phase : MonitorPhase
  count : Nat
  deriving DecidableEq, Repr

/-- The monitors in use; their parameters stand in the configuration in force (R86). -/
structure Tm where
  monitors : List MonitorState
  deriving DecidableEq, Repr

/-! ## Local Port -/

/-- Table 9-4, in the order of the mask's bits (section 10.3). -/
inductive Cause where
  | captureComplete | captureAbandoned | captureRefused | spotDone | slip
  | peerChange | linkMute | fault | markStuck | alertSuppressed
  deriving DecidableEq, Repr

/-- What an OK response to READ does to the session when its check byte is shifted out (R172). -/
inductive ReadAdvance where
  | chunk (frames : Nat)
  | list
  deriving DecidableEq, Repr

/-- An answer of a block to a command: status code, data, and READ's advance. -/
structure Answer where
  status  : Byte
  data    : List Byte
  advance : Option ReadAdvance
  deriving DecidableEq, Repr

/-- The pending response: its bytes and how many have been shifted out. -/
structure Response where
  bytes   : List Byte
  shifted : Nat
  advance : Option ReadAdvance
  deriving DecidableEq, Repr

/-- A transaction in progress (R156). It is in the response phase when the response is there.
`deaf`: it began while the initialisation flag was set (R158). -/
structure Transaction where
  deaf     : Bool
  decoder  : List Byte
  response : Option Response
  deriving DecidableEq, Repr

/-- R169. -/
inductive SessionPhase where
  | frames | list | done
  deriving DecidableEq, Repr

structure Session where
  slot  : Fin 4
  seq   : Word
  index : Nat
  phase : SessionPhase
  deriving DecidableEq, Repr

structure Lp where
  initialising : Bool
  transaction  : Option Transaction
  /-- the last byte shifted out on SDO -/
  sdo          : Byte
  session      : Option Session
  /-- the pending attention causes, one bit each (section 10.3) -/
  causes       : BitVec 10
  deriving DecidableEq, Repr

/-! ## The station -/

structure State where
  mu      : Mu
  et      : Et
  lc      : Lc
  cc      : Cc
  hr      : Hr
  acq     : Acq
  tm      : Tm
  lp      : Lp
  /-- the commands that are waiting, first in, first out -/
  pending : List Instr
  deriving DecidableEq, Repr

/-- The station right after a pin reset (R32, R53, R65, R85, R96, R114, R135, R155, R176), the straps standing at
`Config.resetNumber` and `Config.resetRate` (DESIGN CHOICE, log 2), MARK_N released by the others (log 5), SDO at 00h (log 6). -/
def State.reset : State where
  mu :=
    { station := .config, number := Config.resetNumber, rate := Config.resetRate, config := none, digest := 0
      listenLength := 0, listenCount := 0, spoken := false, peers := Vector.replicate 24 Peer.cleared }
  et := { running := false, counter := 0, epoch := 0, transit := 0, own := .none }
  lc :=
    { idle := 0, view := .none, queue := [], nextAge := 0, failCount := 0, vetoCount := 0, mute := false
      obsCur := .empty, obsPrev := .empty }
  cc :=
    { driver := .idle, othersDrive := false, edgePending := false, lineEntry := .empty, stuck := 0, marks := []
      nextMark := 0, records := Vector.replicate 4 none, opening := [], seqCounter := 0 }
  hr := { geometry := none, nextWrite := 0, writePos := 0, frames := [] }
  acq :=
    { converter := .idle, assembly := none, slipPending := false, spotList := [], run := none, localPending := false
      lastSpot := none, selfCheck := none, lastMean := none }
  tm := { monitors := [] }
  lp := { initialising := true, transaction := none, sdo := 0, session := none, causes := 0 }
  pending := []

end Sys2Proof.Machine
end

