-- ==== Sys2Proof/Machine/Operands.lean ====
section
/-! DEFINITION. Operand forms: byte order, message payloads, the CRC, command frames, points and epoch succession. -/

namespace Sys2Proof.Machine

/-! ## Byte order (R177) -/

/-- A 16-bit field, most significant byte first. -/
def bytes16 (w : Word) : List Byte := [w.extractLsb' 8 8, w.extractLsb' 0 8]

/-- A 32-bit field, most significant byte first. -/
def bytes32 (w : Word32) : List Byte :=
  [w.extractLsb' 24 8, w.extractLsb' 16 8, w.extractLsb' 8 8, w.extractLsb' 0 8]

/-- A set of stations: three bytes, stations 23 to 16 first. -/
def bytes24 (w : BitVec 24) : List Byte := [w.extractLsb' 16 8, w.extractLsb' 8 8, w.extractLsb' 0 8]

/-- The 16-bit field that two bytes carry. -/
def word16 (hi lo : Byte) : Word := hi ++ lo

/-- The 32-bit field that four bytes carry. -/
def word32 (a b c d : Byte) : Word32 := (a ++ b) ++ (c ++ d)

/-- A count as one byte. -/
def byteOf (n : Nat) : Byte := BitVec.ofNat 8 n

/-- A count as a 16-bit field. -/
def wordOf (n : Nat) : Word := BitVec.ofNat 16 n

/-! ## Messages (R116, R178) -/

/-- The kind codes of R116. -/
def Payload.kind : Payload → BitVec 3
  | .epoch _ _ _ => 0
  | .claim _ => 1
  | .frozen _ _ _ => 2
  | .hello _ _ _ => 3
  | .present _ _ _ => 4
  | .bye => 5

/-- The payload bytes of Table 10-2. -/
def Payload.encode : Payload → List Byte
  | .epoch n lag digest => bytes32 n ++ bytes16 lag ++ bytes16 digest
  | .claim p => bytes32 p.epoch ++ bytes16 p.tick
  | .frozen key offset outcome => [key.origin] ++ bytes32 key.point.epoch ++ bytes16 key.point.tick ++ [offset, outcome]
  | .hello digest n free => bytes16 digest ++ bytes32 n ++ [free]
  | .present digest n free => bytes16 digest ++ bytes32 n ++ [free]
  | .bye => []

/-- The message of a kind and its payload bytes; none for kinds 6 and 7 and for a length wrong for the kind (R121).
Every field is taken as carried (R179). -/
def decodePayload (kind : BitVec 3) (bytes : List Byte) : Option Payload :=
  match kind.toNat, bytes with
  | 0, [a, b, c, d, e, f, g, h] => some (.epoch (word32 a b c d) (word16 e f) (word16 g h))
  | 1, [a, b, c, d, e, f] => some (.claim ⟨word32 a b c d, word16 e f⟩)
  | 2, [o, a, b, c, d, e, f, off, out] => some (.frozen ⟨o, ⟨word32 a b c d, word16 e f⟩⟩ off out)
  | 3, [g, h, a, b, c, d, free] => some (.hello (word16 g h) (word32 a b c d) free)
  | 4, [g, h, a, b, c, d, free] => some (.present (word16 g h) (word32 a b c d) free)
  | 5, [] => some .bye
  | _, _ => none

/-- The bits of a field, most significant first (R116). -/
def bitsOf {n : Nat} (w : BitVec n) : List Bool := (List.range n).map w.getMsbD

/-- One bit taken into the check register (R117). -/
def crcStep (r : Word) (b : Bool) : Word :=
  let shifted := r <<< 1
  if (r.msb ^^ b) = true then shifted ^^^ 0x1021 else shifted

/-- The 10-bit arbitration field: kind, sender, delimiter (R116). -/
def arbitrationField (kind : BitVec 3) (sender : Station) (delimiter : BitVec 2) : BitVec 10 := kind ++ sender ++ delimiter

/-- The delimiter as every contender drives it: both bits recessive (R116). -/
def sentDelimiter : BitVec 2 := 3

/-- The bits that the check takes in, in the order sent: arbitration field, length field, payload (R117). -/
def checkedBits (kind : BitVec 3) (sender : Station) (delimiter : BitVec 2) (payload : List Byte) : List Bool :=
  bitsOf (arbitrationField kind sender delimiter) ++ bitsOf (BitVec.ofNat 4 payload.length) ++ payload.flatMap bitsOf

/-- The CRC, from FFFFh, with no final inversion (R117). -/
def crcOf (kind : BitVec 3) (sender : Station) (delimiter : BitVec 2) (payload : List Byte) : Word :=
  (checkedBits kind sender delimiter payload).foldl crcStep 0xFFFF

/-- The CRC that the receiver computes over the bits as it read them equals the one that it read (R117). -/
def crcGood (f : WireFrame) : Bool := f.crc == crcOf f.kind f.sender f.delimiter f.payload

/-- The frame that a station sends for a message (R116): its presence bit is dominant. -/
def wireOf (sender : Station) (p : Payload) : WireFrame :=
  { kind := p.kind, sender := sender, delimiter := sentDelimiter, payload := p.encode
    crc := crcOf p.kind sender sentDelimiter p.encode, presence := true }

/-- The bits of a frame in the order sent, a recessive bit as true (R116): start bit, the fields that the check takes in,
CRC, presence bit, veto bit, end field. `veto`: the veto bit is dominant. -/
def sentBits (f : WireFrame) (veto : Bool) : List Bool :=
  [false] ++ checkedBits f.kind f.sender f.delimiter f.payload ++ bitsOf f.crc ++ [!f.presence, !veto] ++
    List.replicate Config.endFieldBits true

/-- The start bit and the arbitration field that a contender drives (R116, R118). -/
def contenderBits (sender : Station) (p : Payload) : List Bool :=
  [false] ++ bitsOf (arbitrationField p.kind sender sentDelimiter)

/-- The length of a frame by the length field read in it: 36 + 8 × p bits (R115, R116). -/
def frameLength (p : Nat) : Nat := Config.frameBits + 8 * p

/-- The place of the veto bit, the start bit being bit 1 (R116): start bit, arbitration field, length field, payload, CRC,
presence bit, veto bit. -/
def vetoPlace (p : Nat) : Nat := 1 + 10 + 4 + 8 * p + 16 + 1 + 1

/-- The signed 8-bit offset of a tick difference (R16, R177). -/
def offsetByte (d : Int) : Byte := BitVec.ofInt 8 d

/-- The outcome codes of R178; NO_ANSWER is 5 and is never sent. -/
def OutcomeCode.code : OutcomeCode → Byte
  | .ok => 1
  | .late => 2
  | .noSlot => 3
  | .missed => 4
  | .noAnswer => 5

/-- The outcome of a FROZEN's code; none for a code that is not 1 to 4 (R28, R179). -/
def outcomeOfCode (b : Byte) : Option OutcomeCode :=
  match b.toNat with
  | 1 => some .ok
  | 2 => some .late
  | 3 => some .noSlot
  | 4 => some .missed
  | _ => none

/-! ## Command frames (R156, R159) -/

/-- The sum of bytes modulo 256. -/
def byteSum (bytes : List Byte) : Byte := bytes.foldl (· + ·) 0

/-- The check byte that makes the sum 0 modulo 256 (R159, R180). -/
def checkByte (bytes : List Byte) : Byte := 0 - byteSum bytes

/-- Bytes followed by their check byte. -/
def withCheck (bytes : List Byte) : List Byte := bytes ++ [checkByte bytes]

/-- The command frame of a code and its argument bytes (R156). -/
def commandFrame (code : Byte) (args : List Byte) : List Byte := withCheck (code :: byteOf args.length :: args)

/-- The decoder's bytes make a complete frame: 3 + n bytes (R156). -/
def decoderComplete (bytes : List Byte) : Bool :=
  match bytes with
  | _ :: n :: rest => rest.length == n.toNat + 1
  | _ => false

/-! ## Points and epoch succession (R100) -/

/-- The successor of an epoch number: 1 follows 4294967295 (R100). -/
def epochSucc (e : Word32) : Word32 := if e.toNat = Config.lastEpoch then 1 else e + 1

/-- The number of epochs from `a` forward to `b`, in the order of succession (R100, R149).
Epoch 0, no epoch, stands before epoch 1 (DEDUCED, log 11). -/
def epochsForward (a b : Word32) : Nat :=
  if a.toNat ≤ b.toNat then b.toNat - a.toNat else b.toNat + Config.lastEpoch - a.toNat

/-- The signed number of epochs from `b` to `a` in succession: across the rollover the short way round (R100).
With epoch 0 on one side, which no DT6 sends, the plain difference (DEDUCED, log 11). -/
def epochDelta (a b : Word32) : Int :=
  if a = 0 ∨ b = 0 then (a.toNat : Int) - b.toNat
  else
    let f := epochsForward b a
    if f ≤ Config.lastEpoch / 2 then (f : Int) else (f : Int) - Config.lastEpoch

/-- The signed number of ticks from `q` to `p`, points compared as epoch × E + tick (R15, R100). -/
def pointDelta (epochLen : Nat) (p q : Point) : Int :=
  epochDelta p.epoch q.epoch * epochLen + ((p.tick.toNat : Int) - q.tick.toNat)

/-- Two points lie within ±2 ticks (R15). -/
def pointsNear (epochLen : Nat) (p q : Point) : Bool :=
  decide (-Config.matchTicks ≤ pointDelta epochLen p q) && decide (pointDelta epochLen p q ≤ Config.matchTicks)

/-! ## Times (R67, R103) -/

/-- A conversion's duration in µs: the sample time plus 2 (R67). -/
def conversionTime (sampleCode : Nat) : Nat := 2 ^ sampleCode + 2

/-- The duration in µs of an EPOCH frame, 100 bit times, at a rate code (R103, R115). -/
def epochFrameTime (rate : BitVec 2) : Nat := 400 / 2 ^ rate.toNat

/-- W: the frame's duration over the tick period, rounded to nearest, a half rounded up (R103). -/
def transitAllowance (rate : BitVec 2) (tickPeriod : Nat) : Nat :=
  (2 * epochFrameTime rate + tickPeriod) / (2 * tickPeriod)

/-- The history depth D = floor(4096 / (L + 2)) (R54). -/
def ringDepth (sweepLen : Nat) : Nat := Config.storeWords / (sweepLen + 2)

/-! ## The order of an event's parts (log 1) -/

/-- The parts in the given order, without repeats. -/
def keepFirst : List Part → List Part
  | [] => []
  | p :: ps => p :: (keepFirst ps).filter (· ≠ p)

/-- The parts `all`, each once: those that `given` names in its order, then the others in the order of `all`. -/
def completeOrder (all given : List Part) : List Part :=
  keepFirst (given.filter (· ∈ all)) ++ all.filter (fun p => decide (p ∉ given))

end Sys2Proof.Machine
end

