-- ==== Sys2Proof/Machine/Flags.lean ====
section
/-! DEFINITION. Flags: a frame's tag word, a record's flag and condition bytes, the attention causes. -/

namespace Sys2Proof.Machine

/-- A byte with bit `n` set when `b` holds. -/
def bitAt (b : Bool) (n : Nat) : Byte := if b then 1 <<< n else 0

/-- A word with bit `n` set when `b` holds. -/
def wordBit (b : Bool) (n : Nat) : Word := if b then 1 <<< n else 0

/-! ## Frame flags (R182) -/

/-- Tag word 1: the low 12 bits of the epoch, INCOMPLETE in bit 12, SPOT 13, SLIP 14, MARK 15 (R182). -/
def tagWord (epoch : Word32) (incomplete spot slip mark : Bool) : Word :=
  ((epoch.setWidth 12).setWidth 16) ||| wordBit incomplete 12 ||| wordBit spot 13 ||| wordBit slip 14 ||| wordBit mark 15

def Frame.incomplete (f : Frame) : Bool := f.tag1.getLsbD 12
def Frame.spot (f : Frame) : Bool := f.tag1.getLsbD 13
def Frame.slip (f : Frame) : Bool := f.tag1.getLsbD 14
def Frame.marked (f : Frame) : Bool := f.tag1.getLsbD 15

/-- The epoch part of tag word 1 (R63). -/
def Frame.epochLow (f : Frame) : BitVec 12 := f.tag1.setWidth 12

/-- A frame's words: two tag words, then the value words (R33, R182). -/
def Frame.wordList (f : Frame) : List Word := f.tag0 :: f.tag1 :: f.values

/-! ## Record flags (R181) -/

/-- The record flags byte (R181). -/
def RecordFlags.byte (f : RecordFlags) : Byte :=
  bitAt f.originator 0 ||| bitAt f.shortPre 1 ||| bitAt f.incompleteFrames 2 ||| bitAt f.timeSlip 3 |||
    bitAt f.cutShort 4 ||| bitAt f.announceLost 5

/-! ## Attention causes (section 10.3) -/

/-- The bit of a cause. -/
def Cause.index : Cause → Nat
  | .captureComplete => 0
  | .captureAbandoned => 1
  | .captureRefused => 2
  | .spotDone => 3
  | .slip => 4
  | .peerChange => 5
  | .linkMute => 6
  | .fault => 7
  | .markStuck => 8
  | .alertSuppressed => 9

/-- The set of one cause. -/
def Cause.mask (c : Cause) : BitVec 10 := 1#10 <<< c.index

/-- The cause is pending. -/
def State.hasCause (s : State) (c : Cause) : Bool := s.lp.causes.getLsbD c.index

/-- LP adds a raised cause to the pending set; one already pending stays pending once (R174). -/
def State.raise (c : Cause) (s : State) : State :=
  { s with lp := { s.lp with causes := s.lp.causes ||| c.mask } }

/-- ATTN_N is asserted while at least one cause is pending (R174). -/
def State.attnAsserted (s : State) : Bool := s.lp.causes != 0

end Sys2Proof.Machine
end

