-- ==== Sys2Proof/Machine/Ops.lean ====
section
/-! DEFINITION. The shared operations: reading the state, records, the transmit queue, the spot request list. -/

namespace Sys2Proof.Machine

/-! ## Reading the state -/

def State.isMember (s : State) : Bool := s.mu.station == .member
def State.isListen (s : State) : Bool := s.mu.station == .listen
def State.isLeaving (s : State) : Bool := s.mu.station == .leaving
def State.isChecking (s : State) : Bool := s.mu.station == .checking
def State.isConfig (s : State) : Bool := s.mu.station == .config

/-- The station is in FAULT, whatever the reason. -/
def State.isFault (s : State) : Bool :=
  match s.mu.station with
  | .fault _ => true
  | _ => false

/-- A configuration of zeros, read where none is in force; no rule reads a parameter there. -/
def Configuration.none : Configuration := ⟨0, 0, 0, 0, false, false, [], [], []⟩

/-- The configuration in force. -/
def State.cfg (s : State) : Configuration := s.mu.config.getD Configuration.none

/-- The receiver is on while the station is LISTEN, MEMBER or LEAVING (R115). -/
def State.receiverOn (s : State) : Bool := s.isListen || s.isMember || s.isLeaving

/-- CC is driving MARK_N. -/
def State.driving (s : State) : Bool := s.cc.driver != .idle

/-- The level of MARK_N: asserted while at least one station drives it (section 1.1). -/
def State.markAsserted (s : State) : Bool := s.driving || s.cc.othersDrive

/-! ## Records -/

/-- The slots, lowest first. -/
def slots : List (Fin 4) := [0, 1, 2, 3]

/-- The record in a slot; none when it is FREE. -/
def State.recordAt (s : State) (i : Fin 4) : Option CapRecord := s.cc.records[i]

/-- Puts a record, or FREE, into a slot. -/
def State.setRecord (i : Fin 4) (r : Option CapRecord) (s : State) : State :=
  { s with cc := { s.cc with records := s.cc.records.set i r } }

/-- Changes the record in a slot that is not FREE. -/
def State.modifyRecord (i : Fin 4) (f : CapRecord → CapRecord) (s : State) : State :=
  match s.recordAt i with
  | none => s
  | some r => s.setRecord i (some (f r))

/-- Changes every record that is not FREE. -/
def State.mapRecords (f : CapRecord → CapRecord) (s : State) : State :=
  { s with cc := { s.cc with records := s.cc.records.map (Option.map f) } }

/-- The fields of a FILLING or COMPLETE record. -/
def CapRecord.capture (r : CapRecord) : Option Capture :=
  match r.phase with
  | .opened => none
  | .filling c => some c
  | .complete c => some c

def CapRecord.isOpen (r : CapRecord) : Bool :=
  match r.phase with
  | .opened => true
  | _ => false

def CapRecord.isFilling (r : CapRecord) : Bool :=
  match r.phase with
  | .filling _ => true
  | _ => false

def CapRecord.isComplete (r : CapRecord) : Bool :=
  match r.phase with
  | .complete _ => true
  | _ => false

/-- answers-closed: no in OPEN (Table 2-2). -/
def CapRecord.answersClosed (r : CapRecord) : Bool :=
  match r.capture with
  | none => false
  | some c => c.answersClosed

/-- The reader field: yes while a read session is open on the record (R46). -/
def State.reader (s : State) (i : Fin 4) : Bool :=
  match s.lp.session with
  | none => false
  | some n => n.slot == i

/-- The number of FREE records (R50). -/
def State.freeCount (s : State) : Nat := (slots.filter (fun i => (s.recordAt i).isNone)).length

/-- The record's words in its slot, from the slot's first word (R33): frame k from word k × w on. -/
def CapRecord.slotWords (r : CapRecord) : List Word := r.frames.flatMap Frame.wordList

/-! ## The spot request list (R75, R78) -/

/-- The place belongs to the record in a slot. -/
def SpotPlace.ofSlot (i : Fin 4) (p : SpotPlace) : Bool :=
  match p.requester with
  | .capture j _ => j == i
  | .localPort => false

/-- The place is the local requester's. -/
def SpotPlace.isLocal (p : SpotPlace) : Bool :=
  match p.requester with
  | .capture _ _ => false
  | .localPort => true

/-- Withdraws the place of the record in a slot (R78). -/
def State.withdrawPlace (i : Fin 4) (s : State) : State :=
  { s with acq := { s.acq with spotList := s.acq.spotList.filter (fun p => !p.ofSlot i) } }

/-- Withdraws every record's place (R83). -/
def State.withdrawRecordPlaces (s : State) : State :=
  { s with acq := { s.acq with spotList := s.acq.spotList.filter SpotPlace.isLocal } }

/-- A placed spot request becomes withdrawn; any other stays (R43). -/
def CapRecord.withdrawSpot (r : CapRecord) : CapRecord :=
  if r.spotRequest = .placed then { r with spotRequest := .withdrawn } else r

/-- A place is waiting (R76). -/
def State.spotWaiting (s : State) : Bool := s.acq.spotList.any (fun p => !p.inRun)

/-- A record becomes FREE: it leaves the opening order, its slot contents are lost and its place is withdrawn
(R33, R38, R39, R43). -/
def State.freeRecord (i : Fin 4) (s : State) : State :=
  let s := s.withdrawPlace i
  { s with cc := { s.cc with records := s.cc.records.set i none, opening := s.cc.opening.filter (· ≠ i) } }

/-! ## The transmit queue (R125, R126) -/

def Payload.isEpoch : Payload → Bool
  | .epoch _ _ _ => true
  | _ => false

def Payload.isHelloOrPresent : Payload → Bool
  | .hello _ _ _ => true
  | .present _ _ _ => true
  | _ => false

def Payload.isBye : Payload → Bool
  | .bye => true
  | _ => false

def Msg.moving (m : Msg) : Bool := m.cond == .inTransmission
def Msg.contends (m : Msg) : Bool := m.cond == .contending

/-- The message in transmission. -/
def State.sending (s : State) : Option Msg := s.lc.queue.find? Msg.moving

/-- The message that contends. -/
def State.contender (s : State) : Option Msg := s.lc.queue.find? Msg.contends

/-- The order of the queue: ascending arbitration field, which for one sender is the kind; among equals, age (R125). -/
def Msg.before (m x : Msg) : Bool :=
  decide (m.payload.kind.toNat < x.payload.kind.toNat) || (m.payload.kind == x.payload.kind && decide (m.age < x.age))

/-- Puts a message at its place by the order. A message in transmission stays at the head (R125). -/
def insertMsg (m : Msg) : List Msg → List Msg
  | [] => [m]
  | x :: xs => if !x.moving && m.before x then m :: x :: xs else x :: insertMsg m xs

/-- What Table 7-1 answers a submission. -/
inductive Admission where
  | refused
  | plain
  /-- the messages of these kinds leave the queue (an EPOCH by an EPOCH, a HELLO or PRESENT by a BYE) -/
  | replacing
  deriving DecidableEq, Repr

/-- Table 7-1, row by row (R126). -/
def State.admission (s : State) (p : Payload) : Admission :=
  let q := s.lc.queue
  if !(s.isMember || s.isLeaving) then .refused
  else if s.lc.mute then .refused
  else if s.isLeaving && !p.isBye then .refused
  else if p.isEpoch && q.any (fun m => m.payload.isEpoch && m.moving) then .refused
  else if p.isEpoch && q.any (fun m => m.payload.isEpoch) then .replacing
  else if p.isEpoch then .plain
  else if p.isBye && q.any (fun m => m.payload.isHelloOrPresent && !m.moving) then .replacing
  else if p.isBye && q.any (fun m => m.payload.isHelloOrPresent && m.moving) then .refused
  else if p.isHelloOrPresent && q.any (fun m => m.payload.isHelloOrPresent || m.payload.isBye) then .refused
  else if Config.otherMessagesMax ≤ (q.filter (fun m => !m.payload.isEpoch)).length then .refused
  else .plain

/-- The messages that leave by replacement: an EPOCH makes an older EPOCH leave, a BYE a HELLO or PRESENT (R126). -/
def replacedBy (p : Payload) (m : Msg) : Bool :=
  (p.isEpoch && m.payload.isEpoch) || (p.isBye && m.payload.isHelloOrPresent)

/-- An admitted message enters as queued, with 0 failed attempts and the newest age, at its place by the order (R126). -/
def State.enqueue (p : Payload) (mark : Option Nat) (s : State) : State :=
  let m : Msg := { payload := p, age := s.lc.nextAge, fails := 0, cond := .queued, mark := mark }
  { s with lc := { s.lc with queue := insertMsg m s.lc.queue, nextAge := s.lc.nextAge + 1 } }

/-- A submission: the state after it when it is admitted, none when it is refused (R126). -/
def State.submit (p : Payload) (mark : Option Nat) (s : State) : Option State :=
  match s.admission p with
  | .refused => none
  | .plain => some (s.enqueue p mark)
  | .replacing =>
    some (State.enqueue p mark
      { s with lc := { s.lc with queue := s.lc.queue.filter (fun m => !replacedBy p m) } })

/-- A withdrawal: the messages that `sel` names leave, but for one in transmission (R126). -/
def State.withdrawMsg (sel : Msg → Bool) (s : State) : State :=
  { s with lc := { s.lc with queue := s.lc.queue.filter (fun m => m.moving || !sel m) } }

/-- A submission whose refusal has no effect (HELLO, PRESENT and BYE: R143, R147, R148). -/
def State.submitOrDrop (p : Payload) (s : State) : State := (s.submit p none).getD s

/-! ## The spot results and the local port's answers have their own files. -/

/-- The receiver is turned on or off: no frame is in progress and the idle count starts again (R115). -/
def State.lineQuiet (s : State) : State := { s with lc := { s.lc with view := .none, idle := 0 } }

/-- The veto bit of a frame has been read; the frame ends with its end field, reckoned from the length `p` read in it
(R115, R116). -/
def State.endFrame (p : Nat) (s : State) : State :=
  { s with lc := { s.lc with view := .ending (frameLength p - vetoPlace p), idle := 0 } }

/-- The station becomes CONFIG from LEAVING (R153) or on a LEAVE in MUTE (R152): the receiver is off. -/
def State.toConfig (s : State) : State :=
  let s := s.lineQuiet
  { s with mu := { s.mu with station := .config } }

end Sys2Proof.Machine
end

