-- ==== Sys2Proof/Machine/Records.lean ====
section
/-! DEFINITION. Capture records: completion, answer windows, slot opening, copying, closing CUT_SHORT (chapters 1 to 3). -/

namespace Sys2Proof.Machine

/-! ## Completion and the answer window -/

/-- A FILLING record that is frames-done with its answers closed becomes COMPLETE, and CAPTURE_COMPLETE is raised (R37). -/
def State.completeIfReady (i : Fin 4) (s : State) : State :=
  match s.recordAt i with
  | none => s
  | some r =>
    match r.phase with
    | .filling c =>
      if r.framesDone && c.answersClosed then
        (s.setRecord i (some { r with phase := .complete c })).raise .captureComplete
      else s
    | .opened => s
    | .complete _ => s

/-- The station has a participant entry (R28). -/
def Capture.hasEntry (c : Capture) (t : Station) : Bool := c.participants.any (fun p => p.station == t)

/-- The stations of a set, ascending (R25). -/
def stationsOf (set : BitVec 24) : List Station :=
  ((List.range 24).filter (fun n => set.getLsbD n)).map (BitVec.ofNat 5)

/-- The expected stations that have no participant entry, ascending (R25). -/
def Capture.silent (c : Capture) : List Station := (stationsOf c.expected).filter (fun t => !c.hasEntry t)

/-- The window closed: NO_ANSWER entries for the silent stations, answers-closed yes (R25). -/
def Capture.close (c : Capture) : Capture :=
  { c with
    participants := c.participants ++ c.silent.map (fun t => ⟨t, .noAnswer, 0⟩)
    answersClosed := true }

/-- The open answer window of a FILLING record closes; the record completes if it is frames-done (R25, R37). -/
def State.closeWindow (i : Fin 4) (s : State) : State :=
  match s.recordAt i with
  | none => s
  | some r =>
    match r.phase with
    | .filling c =>
      if c.answersClosed then s
      else (s.setRecord i (some { r with phase := .filling c.close })).completeIfReady i
    | .opened => s
    | .complete _ => s

/-- The window closes at once when every expected station has its entry (R27). -/
def State.closeIfAnswered (i : Fin 4) (s : State) : State :=
  match s.recordAt i with
  | none => s
  | some r =>
    match r.phase with
    | .filling c => if c.silent.isEmpty then s.closeWindow i else s
    | .opened => s
    | .complete _ => s

/-- A record's answer window at an epoch start: the count becomes 1, or the window closes (R26). -/
def State.windowEpoch (i : Fin 4) (s : State) : State :=
  match s.recordAt i with
  | none => s
  | some r =>
    match r.phase with
    | .filling c =>
      if c.answersClosed then s
      else if c.answerCount = 0 then s.setRecord i (some { r with phase := .filling { c with answerCount := 1 } })
      else s.closeWindow i
    | .opened => s
    | .complete _ => s

/-! ## Copying a frame into a record (R59) -/

/-- The record after frame `f` is copied into it: stored, cursor moved, flags, frames-done (R35, R36, R41, R42, R59). -/
def CapRecord.take (r : CapRecord) (f : Frame) : CapRecord :=
  let stored := r.frames.length
  let done := decide (stored + 1 = r.total)
  { r with
    frames := r.frames ++ [f]
    cursor := if done then none else r.cursor.map (· + 1)
    framesDone := done
    flags :=
      { r.flags with
        incompleteFrames := r.flags.incompleteFrames || f.incomplete
        timeSlip := r.flags.timeSlip || (f.slip && decide (r.pre + 1 ≤ stored)) } }

/-- Copying into the record of a slot, and its completion if its window has already closed (R59, R37). -/
def State.copyInto (i : Fin 4) (f : Frame) (s : State) : State :=
  (s.modifyRecord i (fun r => r.take f)).completeIfReady i

/-- The record's copy cursor stands on write number `k`. -/
def State.cursorAt (s : State) (i : Fin 4) (k : Word32) : Bool :=
  match s.recordAt i with
  | none => false
  | some r => r.cursor == some k

/-- Copies a frame into every record whose cursor stands on `k` (R61, R62). -/
def State.copyToAll (k : Word32) (f : Frame) (s : State) : State :=
  slots.foldl (fun t i => if t.cursorAt i k then t.copyInto i f else t) s

/-! ## Slot opening (R10, R11, R12, R34, R39, R49) -/

/-- A FREE record, lowest-numbered. -/
def State.lowestFree (s : State) : Option (Fin 4) := slots.find? (fun i => (s.recordAt i).isNone)

/-- The record in the slot may be replaced: COMPLETE, with no read session open on it (R10). -/
def State.replaceable (s : State) (i : Fin 4) : Bool :=
  match s.recordAt i with
  | none => false
  | some r => r.isComplete && !s.reader i

/-- The slot that slot opening takes, or none when the opening is refused (R10). -/
def State.chooseSlot (s : State) : Option (Fin 4) :=
  match s.lowestFree with
  | some i => some i
  | none => if s.cfg.replace then s.cc.opening.find? s.replaceable else none

/-- The sequence numbers of the records that are not FREE. -/
def State.heldSeqs (s : State) : List Word := slots.filterMap (fun i => (s.recordAt i).map CapRecord.seq)

/-- The counter advanced until it holds a value that no record holds (R10). At most three records hold one, so four
advances are enough. -/
def pickSeq (held : List Word) : Nat → Word → Word
  | 0, c => c
  | n + 1, c => if c ∈ held then pickSeq held n (c + 1) else c

/-- The record as it stands at slot opening at a mark event; the late-join path then fills it (R10, R11, R34).
`h` counts the ring frames older than the mark frame, `base` is the write number of the mark frame. -/
def State.newRecord (s : State) (seq : Word) (point : Point) (h : Nat) (base : Word32) (originator : Bool) : CapRecord :=
  let cfg := s.cfg
  let pre := min cfg.npre h
  { phase := .opened
    seq := seq
    words := cfg.sweep.length + 2
    total := pre + cfg.npost
    spotCount := cfg.spots.length
    mark := point
    pre := pre
    flags := { originator := originator, shortPre := decide (h < cfg.npre) }
    frames := []
    cursor := some (base - BitVec.ofNat 32 pre)
    framesDone := false
    spotRequest := if cfg.spots.isEmpty then .none else .placed
    spotValues := none }

/-- The place of a record's spot request, when the spot list is not empty (R12, R75). -/
def State.placeSpot (i : Fin 4) (seq : Word) (s : State) : State :=
  if s.cfg.spots.isEmpty then s
  else { s with acq := { s.acq with spotList := s.acq.spotList ++ [⟨.capture i seq, false⟩] } }

/-- Slot opening: the slot taken and the state with its new record, or none when it is refused.
A COMPLETE record that is replaced is discarded first (R49). -/
def State.openSlot (point : Point) (h : Nat) (base : Word32) (originator : Bool) (s : State) : Option (Fin 4 × State) :=
  match s.chooseSlot with
  | none => none
  | some i =>
    let s := s.freeRecord i
    let seq := pickSeq s.heldSeqs 4 s.cc.seqCounter
    let r := s.newRecord seq point h base originator
    let s :=
      { s with
        cc := { s.cc with
          records := s.cc.records.set i (some r)
          opening := s.cc.opening ++ [i]
          seqCounter := seq + 1 } }
    some (i, s.placeSpot i seq)

/-! ## Leaving (R51) -/

/-- A FILLING record closed: cursor dropped, frames-done, spot request withdrawn, CUT_SHORT (R51). -/
def CapRecord.cut (r : CapRecord) : CapRecord :=
  CapRecord.withdrawSpot
    { r with cursor := none, framesDone := true, flags := { r.flags with cutShort := true } }

/-- What leaving MEMBER or faulting does to the record in a slot (R51): a COMPLETE record is kept unchanged, and its place
leaves the spot request list with the others (R83; log 8). -/
def State.leaveRecord (i : Fin 4) (s : State) : State :=
  match s.recordAt i with
  | none => s
  | some r =>
    match r.phase with
    | .opened => s.freeRecord i
    | .filling _ => (((s.withdrawPlace i).setRecord i (some r.cut)).closeWindow i).completeIfReady i
    | .complete _ => s.withdrawPlace i

/-! ## Soft reset (R52) -/

/-- Whether a soft reset keeps a record: COMPLETE, with the retain flag set (Table 2-6). -/
def keptBySoftReset (retain : Bool) (r : Option CapRecord) : Option CapRecord :=
  match r with
  | none => none
  | some r => if r.isComplete && retain then some r.withdrawSpot else none

end Sys2Proof.Machine
end

