-- ==== Sys2Proof/Machine/Capture.lean ====
section
/-! DEFINITION. The Capture Controller: alerts, marks, claims, answers (chapter 1). -/

namespace Sys2Proof.Machine

/-! ## Open-mark entries -/

/-- Changes the open-mark entry of an identity. -/
def State.modifyMark (id : Nat) (f : Mark → Mark) (s : State) : State :=
  { s with cc := { s.cc with marks := s.cc.marks.map (fun m => if m.id = id then f m else m) } }

/-- The open-mark entry of an identity. -/
def State.markOf (s : State) (id : Nat) : Option Mark := s.cc.marks.find? (fun m => m.id == id)

/-- An entry leaves the list; the others keep their order (R7). -/
def State.dropMark (id : Nat) (s : State) : State :=
  { s with cc := { s.cc with marks := s.cc.marks.filter (fun m => m.id ≠ id) } }

/-- When the line entry refers to the entry, it becomes `dest` (R3). -/
def State.retireLine (id : Nat) (dest : LineEntry) (s : State) : State :=
  if s.cc.lineEntry = .entry id then { s with cc := { s.cc with lineEntry := dest } } else s

/-- The message is the CLAIM of an entry. -/
def claimOf (id : Nat) (m : Msg) : Bool := m.mark == some id

/-- ANNOUNCE_LOST on a record (R13, R29). -/
def CapRecord.loseAnnounce (r : CapRecord) : CapRecord := { r with flags := { r.flags with announceLost := true } }

/-- An entry's own CLAIM is lost: status lost, and ANNOUNCE_LOST on the record of its slot (Table 1-3). -/
def State.claimLost (id : Nat) (s : State) : State :=
  match s.markOf id with
  | none => s
  | some m =>
    let s := s.modifyMark id (fun m => { m with claim := .lost })
    match m.slot with
    | none => s
    | some i => s.modifyRecord i CapRecord.loseAnnounce

/-- The record holds a key (R15). -/
def CapRecord.hasKey (key : Key) (r : CapRecord) : Bool :=
  match r.capture with
  | none => false
  | some c => c.key == key

/-- A FROZEN is lost: ANNOUNCE_LOST on the record that holds its key, if there is one, whatever the FROZEN's outcome (R29;
DESIGN CHOICE where a NO_SLOT or MISSED is lost while a record opened since holds its key, log 19). -/
def State.frozenLost (key : Key) (s : State) : State :=
  s.mapRecords (fun r => if r.hasKey key then r.loseAnnounce else r)

/-- CC submits the CLAIM of an entry (R13). -/
def State.submitClaim (id : Nat) (s : State) : State :=
  match s.markOf id with
  | none => s
  | some m =>
    match s.submit (.claim m.point) (some id) with
    | none => s.claimLost id
    | some t => t.modifyMark id (fun m => { m with claim := .queued })

/-- CC submits a FROZEN; a refusal is a loss (R29). -/
def State.submitFrozen (key : Key) (offset : Byte) (outcome : OutcomeCode) (s : State) : State :=
  match s.submit (.frozen key offset outcome.code) none with
  | none => s.frozenLost key
  | some t => t

/-- Abandonment of an entry (R23). -/
def State.abandon (id : Nat) (s : State) : State :=
  match s.markOf id with
  | none => s
  | some m =>
    let s := (s.dropMark id).withdrawMsg (claimOf id)
    let s := match m.slot with
      | none => s
      | some i => s.freeRecord i
    (s.retireLine id .empty).raise .captureAbandoned

/-! ## Alerts (R1, R4) -/

/-- An alert taken while MARK_N is asserted (R4). -/
def State.coOriginate (s : State) : State :=
  match s.cc.lineEntry with
  | .claimed => s
  | .empty => s.raise .captureRefused
  | .entry id =>
    match s.markOf id with
    | none => s.raise .captureRefused
    | some m =>
      if m.originator then (if m.claim = .lost then s.submitClaim id else s)
      else
        let s := s.modifyMark id (fun m => { m with originator := true })
        let s := match m.slot with
          | none => s
          | some i => s.modifyRecord i (fun r => { r with flags := { r.flags with originator := true } })
        s.submitClaim id

/-- An alert reaches CC (Table 1-1). While the edge of this station's own pulse is not yet taken, an alert merges into
the mark that the pulse creates (R1, R93; log 5). -/
def State.alert (s : State) : State :=
  if !s.isMember then s
  else if s.lc.mute then s.raise .alertSuppressed
  else if !s.markAsserted then
    { s with cc := { s.cc with driver := .driving Config.pulseTicks, edgePending := true } }
  else if s.cc.edgePending then s
  else s.coOriginate

/-- Alerts taken one after another (R93). -/
def State.alerts : Nat → State → State
  | 0, s => s
  | n + 1, s => State.alerts n s.alert

/-- CC observes MARK_N released, when no station drives it: line entry EMPTY, stuck count 0 (R3, R5, R6). An edge of the
own pulse that has not been taken by then is not taken any more (log 5). -/
def State.observeRelease (s : State) : State :=
  if s.markAsserted then s
  else { s with cc := { s.cc with lineEntry := .empty, stuck := 0, edgePending := false } }

/-- A mark pulse in progress is cut, or ends: CC releases MARK_N, and observes the release in the same event when no other
station drives it (R2, R5). -/
def State.releaseLine (s : State) : State :=
  if s.driving then State.observeRelease { s with cc := { s.cc with driver := .idle } } else s

/-! ## The mark event (R8, R9) -/

/-- The entry that a mark event adds (R9). -/
def State.newMark (s : State) (point : Point) : Mark :=
  { id := s.cc.nextMark, point := point, originator := s.driving, slot := none, claim := .none, starts := 0, deferred := false }

/-- The entry added, slot opening, and the CLAIM of an originator (R9). -/
def State.addMark (point : Point) (s : State) : State :=
  if Config.openMarkMax ≤ s.cc.marks.length then
    State.raise .captureRefused { s with cc := { s.cc with lineEntry := .empty } }
  else
    let m := s.newMark point
    let s :=
      { s with cc := { s.cc with marks := s.cc.marks ++ [m], nextMark := m.id + 1, lineEntry := .entry m.id } }
    let s := match s.openSlot point s.hr.frames.length s.hr.nextWrite m.originator with
      | none => s.raise .captureRefused
      | some (i, t) => t.modifyMark m.id (fun m => { m with slot := some i })
    if m.originator then s.submitClaim m.id else s

/-- The mark event in MEMBER (R8): the mark frame is the frame under assembly. -/
def State.takeMark (s : State) : State :=
  match s.acq.assembly with
  | none => { s with cc := { s.cc with lineEntry := .empty } }
  | some a =>
    State.addMark ⟨a.epoch, a.tick⟩ { s with acq := { s.acq with assembly := some { a with mark := true } } }

/-! ## The peer table, as CC reads it -/

/-- The entry of a station number (R144). -/
def State.peerAt (s : State) (n : Nat) : Peer := (s.mu.peers[n]?).getD Peer.cleared

/-- The state in which a CLAIM or FROZEN leaves an entry (Table 8-3). Taking it twice changes nothing. -/
def Peer.afterCapture (p : Peer) : PeerState :=
  match p.state with
  | .absent => if p.digestMatches = some false then .mismatch else .present
  | .present => .present
  | .mismatch => .mismatch

/-- The sender's entry is MISMATCH as MU leaves it after this CLAIM or FROZEN, whichever of the two is first (R15, R28). -/
def State.senderMismatch (s : State) (sender : Station) : Bool :=
  sender != s.mu.number && (s.peerAt sender.toNat).afterCapture == .mismatch

/-- A set of one station. -/
def stationBit (t : Station) : BitVec 24 := 1#24 <<< t.toNat

/-- The stations whose entry is PRESENT (R17). -/
def State.presentSet (s : State) : BitVec 24 :=
  (List.range 24).foldl (fun set n => if (s.peerAt n).state = .present then set ||| (1#24 <<< n) else set) 0

/-- The expected set of a record that becomes FILLING: PRESENT peers, the sender, this station (R17, R44). -/
def State.expectedSet (s : State) (sender : Station) : BitVec 24 :=
  s.presentSet ||| stationBit sender ||| stationBit s.mu.number

/-! ## An accepted CLAIM (R15 to R21) -/

/-- The capture key of a CLAIM (R15). -/
def claimKey (sender : Station) (p : Point) : Key := ⟨sender.setWidth 8, p⟩

/-- The oldest entry within ±2 ticks of the point (R16). -/
def State.findMark (s : State) (p : Point) : Option Mark :=
  s.cc.marks.find? (fun m => pointsNear s.cfg.epochLen m.point p)

/-- A FILLING or COMPLETE record holds the key (R15, case 3). -/
def State.keyHeld (s : State) (key : Key) : Bool :=
  slots.any (fun i => match s.recordAt i with
    | none => false
    | some r => r.hasKey key)

/-- The point lies within ±2 ticks of the local mark point of a FILLING or COMPLETE record (R15, case 4). -/
def State.nearRecord (s : State) (p : Point) : Bool :=
  slots.any (fun i => match s.recordAt i with
    | none => false
    | some r => r.capture.isSome && pointsNear s.cfg.epochLen p r.mark)

/-- A record becomes FILLING (R17, R20). -/
def State.fillRecord (i : Fin 4) (key : Key) (outcome : OutcomeCode) (offset : Byte) (expected : BitVec 24) (s : State) : State :=
  let c : Capture :=
    { key := key, outcome := outcome, expected := expected, participants := [⟨s.mu.number, outcome, offset⟩]
      answersClosed := false, answerCount := 0 }
  s.modifyRecord i (fun r => { r with phase := .filling c })

/-- A record becomes FILLING, its FROZEN is submitted, and its window closes at once if it waits for no other (R17, R20, R27). -/
def State.fillAndAnswer (i : Fin 4) (key : Key) (outcome : OutcomeCode) (offset : Byte) (expected : BitVec 24) (s : State) :
    State :=
  ((s.fillRecord i key outcome offset expected).submitFrozen key offset outcome).closeIfAnswered i

/-- The CLAIM matches an entry (R16 to R18). -/
def State.matchMark (m : Mark) (sender : Station) (p : Point) (s : State) : State :=
  let expected := s.expectedSet sender
  let offset := offsetByte (pointDelta s.cfg.epochLen m.point p)
  let s := ((s.dropMark m.id).withdrawMsg (claimOf m.id)).retireLine m.id .claimed
  match m.slot with
  | some i => s.fillAndAnswer i (claimKey sender p) .ok offset expected
  | none => s.submitFrozen (claimKey sender p) offset .noSlot

/-- The frame carries the tags of a point (R19, R63). -/
def Frame.taggedAs (p : Point) (f : Frame) : Bool := f.tag0 == p.tick && f.epochLow == p.epoch.setWidth 12

/-- The search from the newest frame back: the index, from the oldest, of the most recent frame tagged as the point (R63). -/
def searchRing (p : Point) : List Frame → Option Nat
  | [] => none
  | f :: fs =>
    match searchRing p fs with
    | some j => some (j + 1)
    | none => if f.taggedAs p then some 0 else none

/-- The write number of the frame at an index from the oldest (R54). -/
def State.writeNumber (s : State) (j : Nat) : Word32 :=
  s.hr.nextWrite - BitVec.ofNat 32 s.hr.frames.length + BitVec.ofNat 32 j

/-- The late-join path (R19 to R21). -/
def State.lateJoin (sender : Station) (p : Point) (s : State) : State :=
  let key := claimKey sender p
  match searchRing p s.hr.frames with
  | none => s.submitFrozen key 0 .missed
  | some h =>
    match s.openSlot p h (s.writeNumber h) false with
    | none => (s.submitFrozen key 0 .noSlot).raise .captureRefused
    | some (i, t) => t.fillAndAnswer i key .late 0 (s.expectedSet sender)

/-- CC takes an accepted CLAIM (R15; R179 for a tick field of E or more). -/
def State.claimAccepted (sender : Station) (p : Point) (s : State) : State :=
  if !s.isMember then s
  else if 24 ≤ sender.toNat then s
  else if s.cfg.epochLen ≤ p.tick.toNat then s
  else if s.senderMismatch sender then s
  else if s.keyHeld (claimKey sender p) then s
  else match s.findMark p with
    | some m => s.matchMark m sender p
    | none => if s.nearRecord p then s else s.lateJoin sender p

/-- This station's own CLAIM has completed and been processed: an entry that is still in the list is abandoned if its
timeout was deferred, and has status sent otherwise (R24, Table 1-3). -/
def State.settleClaim (mark : Option Nat) (s : State) : State :=
  match mark with
  | none => s
  | some id =>
    match s.markOf id with
    | none => s
    | some m => if m.deferred then s.abandon id else s.modifyMark id (fun m => { m with claim := .sent })

/-! ## An accepted FROZEN (R28) -/

/-- The record takes the answer: FILLING, its key, its window open, no entry of the station's yet. -/
def CapRecord.takesAnswer (r : CapRecord) (key : Key) (t : Station) : Bool :=
  match r.phase with
  | .filling c => c.key == key && !c.answersClosed && !c.hasEntry t
  | .opened => false
  | .complete _ => false

/-- The answer appended to the participant list. -/
def CapRecord.addAnswer (r : CapRecord) (p : Participant) : CapRecord :=
  match r.phase with
  | .filling c => { r with phase := .filling { c with participants := c.participants ++ [p] } }
  | .opened => r
  | .complete _ => r

/-- The slot whose record takes the answer. -/
def State.answerSlot (s : State) (key : Key) (t : Station) : Option (Fin 4) :=
  slots.find? (fun i => match s.recordAt i with
    | none => false
    | some r => r.takesAnswer key t)

/-- CC takes an accepted FROZEN (R28, R27; R179). -/
def State.frozenAccepted (sender : Station) (key : Key) (offset outcome : Byte) (s : State) : State :=
  if !s.isMember then s
  else if 24 ≤ sender.toNat then s
  else if s.cfg.epochLen ≤ key.point.tick.toNat then s
  else if s.senderMismatch sender then s
  else match outcomeOfCode outcome, s.answerSlot key sender with
    | some o, some i => (s.modifyRecord i (fun r => r.addAnswer ⟨sender, o, offset⟩)).closeIfAnswered i
    | _, _ => s

/-! ## Epoch starts at CC (R22, R26) -/

/-- An entry at an epoch start (R22). -/
def State.markEpoch (s : State) (id : Nat) : State :=
  match s.markOf id with
  | none => s
  | some m =>
    if m.deferred then s
    else if m.starts = 0 then s.modifyMark id (fun m => { m with starts := 1 })
    else if m.claim = .inTransmission then s.modifyMark id (fun m => { m with deferred := true })
    else s.abandon id

/-- CC takes an epoch start: every open-mark entry, then every answer window (R22, R26). -/
def State.ccEpochStart (s : State) : State :=
  let s := (s.cc.marks.map Mark.id).foldl State.markEpoch s
  slots.foldl (fun t i => t.windowEpoch i) s

/-! ## A slip at CC (R42) -/

/-- A record that is OPEN or FILLING and not frames-done gets TIME_SLIP (R42, R110). -/
def CapRecord.slipped (r : CapRecord) : CapRecord :=
  if (r.isOpen || r.isFilling) && !r.framesDone then { r with flags := { r.flags with timeSlip := true } } else r

/-! ## Leaving MEMBER (R30) -/

/-- CC stops the capture protocol (R30, R51). -/
def State.ccLeave (s : State) : State :=
  let s :=
    { s with cc := { s.cc with
        driver := .idle, edgePending := false, lineEntry := .empty, stuck := 0, marks := [] } }
  slots.foldl (fun t i => t.leaveRecord i) s

end Sys2Proof.Machine
end

