-- ==== Sys2Proof/Machine/Ring.lean ====
section
/-! DEFINITION. The History Ring: writing, forced copies, copy steps, emptying (chapter 3). -/

namespace Sys2Proof.Machine

/-- The ring's depth D; 0 while it has no geometry (R54, R66). -/
def State.depth (s : State) : Nat :=
  match s.hr.geometry with
  | none => 0
  | some g => g.depth

/-- The place of the frame at an index from the oldest: frames lie behind the write position, newest next to it (R54). -/
def State.ringPlaceOf (s : State) (j : Nat) : Nat := (s.hr.writePos + s.depth - s.hr.frames.length + j) % s.depth

/-- The index, from the oldest, of the frame that lies in a place; none for a place that holds no frame (R54). -/
def State.ringIndexAt (s : State) (place : Nat) : Option Nat :=
  let back := (s.hr.writePos + s.depth - 1 - place) % s.depth
  if place < s.depth ∧ back < s.hr.frames.length then some (s.hr.frames.length - 1 - back) else none

/-- The ring's word at an address 0 to 4095: place p lies at the words p × w to p × w + w − 1. None for a word of a place
that holds no frame, and for the words above the last place, which are not used (R54; log 17). -/
def State.ringWordAt (s : State) (addr : Nat) : Option Word :=
  match s.hr.geometry with
  | none => none
  | some g =>
    match s.ringIndexAt (addr / g.words) with
    | none => none
    | some j => s.hr.frames[j]?.bind (fun f => f.wordList[addr % g.words]?)

/-- The frame is held: its write number, at an index from the oldest, is at or after some record's cursor (R56). -/
def State.holds (s : State) (j : Nat) : Bool :=
  slots.any (fun i => match s.recordAt i with
    | none => false
    | some r => match r.cursor with
      | none => false
      | some k => decide (s.hr.frames.length ≤ (s.hr.nextWrite - k).toNat + j))

/-- Emptying: c and n become 0 and every frame is lost (R64). -/
def State.emptyRing (s : State) : State :=
  { s with hr := { s.hr with nextWrite := 0, writePos := 0, frames := [] } }

/-- Emptying on becoming MEMBER, which takes the geometry from the configuration in force (R54, R64). -/
def State.formRing (s : State) : State :=
  let len := s.cfg.sweep.length
  { s with hr := { geometry := some ⟨len + 2, ringDepth len⟩, nextWrite := 0, writePos := 0, frames := [] } }

/-- Step 1 of a write: in a full ring the oldest frame is copied into every record whose cursor stands on it (R55, R61). -/
def State.makeRoom (s : State) : State :=
  match s.hr.frames with
  | [] => s
  | f :: _ => if s.hr.frames.length = s.depth then s.copyToAll (s.hr.nextWrite - BitVec.ofNat 32 s.depth) f else s

/-- Step 2: the frame is stored; in a full ring the oldest is gone (R55). -/
def State.storeFrame (f : Frame) (s : State) : State :=
  let kept := if s.hr.frames.length = s.depth then s.hr.frames.drop 1 else s.hr.frames
  { s with hr := { s.hr with frames := kept ++ [f] } }

/-- Step 4: n increases by 1, and the write position moves on (R55). -/
def State.advanceRing (s : State) : State :=
  { s with hr := { s.hr with nextWrite := s.hr.nextWrite + 1, writePos := (s.hr.writePos + 1) % s.depth } }

/-- A closed frame is written (R55): making room, storing, appending to caught-up records (R62), advancing. -/
def State.writeFrame (f : Frame) (s : State) : State :=
  (((s.makeRoom).storeFrame f).copyToAll s.hr.nextWrite f).advanceRing

/-- The frame at a record's cursor, when the cursor lags (R60). -/
def State.frameAt (s : State) (k : Word32) : Option Frame :=
  let lag := (s.hr.nextWrite - k).toNat
  if lag = 0 ∨ s.hr.frames.length < lag then none else s.hr.frames[s.hr.frames.length - lag]?

/-- A copy step for the record of a slot; nothing when its cursor does not lag (R60). -/
def State.copyStep (i : Fin 4) (s : State) : State :=
  match s.recordAt i with
  | none => s
  | some r =>
    match r.cursor with
    | none => s
    | some k =>
      match s.frameAt k with
      | none => s
      | some f => s.copyInto i f

/-- COPY_STEP (R60). -/
def execCopyStep (slot : Fin 4) (s : State) : Host.Outcome State Fault Refusal := .next (s.copyStep slot)

end Sys2Proof.Machine
end

