-- ==== Sys2Proof/Machine/Monitors.lean ====
section
/-! DEFINITION. The Threshold Monitors (chapter 5). -/

namespace Sys2Proof.Machine

/-- R88. -/
inductive ValueClass where
  | absent | outside | inside
  deriving DecidableEq, Repr

/-- The class of a value word against a window (R88). -/
def classify (p : MonitorParams) (v : Word) : ValueClass :=
  if v = Config.absentValue then .absent
  else if v.toInt < p.low ∨ p.high < v.toInt then .outside
  else .inside

/-- A monitor's step on a value, and whether it trips (Table 5-1, R88 to R91). -/
def monitorStep (p : MonitorParams) (v : Word) (m : MonitorState) : MonitorState × Bool :=
  match classify p v, m.phase with
  | .absent, _ => (m, false)
  | .inside, .armed => (⟨.armed, 0⟩, false)
  | .outside, .armed => if p.persistence = 1 then (⟨.tripped, 0⟩, true) else (⟨.pending, 1⟩, false)
  | .outside, .pending => if m.count + 1 = p.persistence then (⟨.tripped, 0⟩, true) else (⟨.pending, m.count + 1⟩, false)
  | .inside, .pending => (⟨.armed, 0⟩, false)
  | .outside, .tripped => (⟨.tripped, 0⟩, false)
  | .inside, .tripped => if m.count + 1 = p.persistence then (⟨.armed, 0⟩, false) else (⟨.tripped, m.count + 1⟩, false)

/-- Value word i of a frame, i from 1 (R88). -/
def Frame.valueWord (f : Frame) (i : Nat) : Word := (f.values[i - 1]?).getD Config.absentValue

/-- Every monitor in use evaluates a frame: the new states, and how many tripped (R88, R93). -/
def evaluate (f : Frame) : List MonitorParams → List MonitorState → List MonitorState × Nat
  | p :: ps, m :: ms =>
    let r := monitorStep p (f.valueWord p.entry) m
    let rest := evaluate f ps ms
    (r.1 :: rest.1, (if r.2 then 1 else 0) + rest.2)
  | _, ms => (ms, 0)

/-- A closed frame is handed to the monitors; each trip raises an alert to CC (R88, R92, R93). -/
def State.handOn (f : Frame) (s : State) : State :=
  let r := evaluate f s.cfg.monitors s.tm.monitors
  State.alerts r.2 { s with tm := { monitors := r.1 } }

/-- Every monitor in use in ARMED with a run count of 0 (R87, R94, R96). -/
def State.armMonitors (s : State) : State :=
  { s with tm := { monitors := s.cfg.monitors.map (fun _ => ⟨.armed, 0⟩) } }

end Sys2Proof.Machine
end

