-- ==== Sys2Proof/Machine/Membership.lean ====
section
/-! DEFINITION. The Membership Unit: the peer table, becoming MEMBER, leaving, faults (chapter 8), with what the other
blocks do in the same events. -/

namespace Sys2Proof.Machine

/-! ## Submissions of MU -/

/-- The number of FREE records as a message's field (R50). -/
def State.freeField (s : State) : Byte := byteOf s.freeCount

/-- MU submits HELLO (R143). -/
def State.submitHello (s : State) : State := s.submitOrDrop (.hello s.mu.digest s.et.epoch s.freeField)

/-- MU submits PRESENT (R147, R148). -/
def State.submitPresent (s : State) : State := s.submitOrDrop (.present s.mu.digest s.et.epoch s.freeField)

/-! ## ET's submission (R104) -/

/-- ET submits EPOCH for a number, unless its own EPOCH is in transmission (R100, R104, R107). -/
def State.submitEpoch (n : Word32) (s : State) : State :=
  match s.et.own with
  | .inTransmission _ => s
  | _ =>
    match s.submit (.epoch n 0 s.mu.digest) none with
    | none => { s with et := { s.et with own := .none } }
    | some t => { t with et := { t.et with own := .queued n } }

/-! ## The end of speaking: stopping, flushing (R129) -/

/-- A transmission stops and the queue is flushed, with no loss (R129, R114). -/
def State.flushQueue (s : State) : State :=
  { s with lc := { s.lc with queue := [] }, et := { s.et with own := .none } }

/-- A flushed message's loss, told to its submitter (R29, R104, R128, R131). -/
def State.noticeLoss (s : State) (m : Msg) : State :=
  match m.payload with
  | .epoch _ _ _ => { s with et := { s.et with own := .none } }
  | .claim _ => match m.mark with
    | none => s
    | some id => s.claimLost id
  | .frozen key _ _ => s.frozenLost key
  | .hello _ _ _ => s
  | .present _ _ _ => s
  | .bye => s

/-- LC enters MUTE (R131): the queue is flushed with losses, both observations are spoiled, LINK_MUTE is raised, a mark
pulse is cut (R2), and LEAVING ends (R153). -/
def State.enterMute (s : State) : State :=
  let q := s.lc.queue
  let s := { s with lc := { s.lc with mute := true, queue := [], obsCur := .spoiled, obsPrev := .spoiled } }
  let s := ((q.foldl State.noticeLoss s).raise .linkMute).releaseLine
  if s.isLeaving then s.toConfig else s

/-! ## Leaving MEMBER and faulting (Table 8-4) -/

/-- What leaving MEMBER does at AS: the frame under assembly is discarded, sweeps stop, record places go (R83, R74). -/
def State.acqLeave (s : State) : State :=
  let acq := s.withdrawRecordPlaces.acq
  { s with acq := { acq with
      converter := if acq.converter = .sweep then .idle else acq.converter
      assembly := none
      slipPending := false } }

/-- What the departure from MEMBER does at every block but MU (Table 8-4, R30, R51, R64, R83, R98, R114, R129). -/
def State.departMember (s : State) : State :=
  let s := s.ccLeave.emptyRing.acqLeave.flushQueue
  { s with et := { s.et with running := false }, mu := { s.mu with spoken := false } }

/-- What an entry into FAULT does at AS (R84). -/
def State.acqFault (s : State) : State :=
  { s with acq := { s.acq with
      converter := .idle, assembly := none, slipPending := false, spotList := [], run := none
      localPending := false, selfCheck := none } }

/-- The station enters FAULT (R151): a fault from MEMBER is also a departure from it. -/
def State.enterFault (reason : FaultReason) (s : State) : State :=
  let s := if s.isMember then s.departMember else s
  let s := s.acqFault.flushQueue.lineQuiet
  State.raise .fault
    { s with et := { s.et with running := false }, mu := { s.mu with station := .fault reason, spoken := false } }

/-- LEAVE in MEMBER (R152): with LC MUTE the station is CONFIG at once; otherwise it is LEAVING with its BYE queued. -/
def State.leaveStation (s : State) : State :=
  let s := s.departMember
  if s.lc.mute then s.toConfig
  else State.submitOrDrop .bye { s with mu := { s.mu with station := .leaving } }

/-! ## Becoming MEMBER (R143) -/

/-- PRESENT and MISMATCH entries take the station's new epoch as last heard (R143). -/
def Peer.restamp (e : Word32) (p : Peer) : Peer := if p.state = .absent then p else { p with lastHeard := some e }

/-- The station becomes MEMBER: what every block does (R143, R64, R94, R83, R133, R6, R3); MU submits HELLO. -/
def State.becomeMember (s : State) : State :=
  let s :=
    { s with mu := { s.mu with
        station := .member, spoken := false, peers := s.mu.peers.map (Peer.restamp s.et.epoch) } }
  let s := s.formRing.armMonitors
  let s :=
    { s with
      acq := { s.acq with slipPending := false, assembly := none }
      lc := { s.lc with obsCur := .spoiled, obsPrev := .spoiled }
      cc := { s.cc with stuck := 0, lineEntry := .empty } }
  s.submitHello

/-! ## The peer table (R144 to R149) -/

/-- Puts an entry into the table; PEER_CHANGE when its state changes (R146). -/
def State.setPeer (n : Nat) (p : Peer) (s : State) : State :=
  let t := { s with mu := { s.mu with peers := s.mu.peers.setIfInBounds n p } }
  if (s.peerAt n).state = p.state then t else t.raise .peerChange

/-- The digest and epoch fields of an EPOCH, HELLO or PRESENT, and its free-slots field (Table 8-3). -/
def Payload.announcement : Payload → Option (Word × Word32 × Option Byte)
  | .epoch n _ digest => some (digest, n, none)
  | .hello digest n free => some (digest, n, some free)
  | .present digest n free => some (digest, n, some free)
  | .claim _ => none
  | .frozen _ _ _ => none
  | .bye => none

/-- An entry after an accepted message of its station (Table 8-3), stamped with the epoch as MU reads it (R145). -/
def Peer.update (digest : Word) (epoch : Word32) (m : Payload) (p : Peer) : Peer :=
  let p := { p with lastHeard := some epoch }
  match m.announcement with
  | some (d, n, free) =>
    { p with
      state := if d = digest then .present else .mismatch
      digestMatches := some (decide (d = digest))
      freeSlots := match free with
        | none => p.freeSlots
        | some f => some f
      announced := some n }
  | none => if m.isBye then { p with state := .absent } else { p with state := p.afterCapture }

/-- MU answers a HELLO: the entry was ABSENT before it and the digests are equal (R147). -/
def answersHello (before : Peer) (digest : Word) (m : Payload) : Bool :=
  match m with
  | .hello d _ _ => before.state == .absent && d == digest
  | _ => false

/-- An EPOCH whose digest is unequal (R142). -/
def foreignEpoch (digest : Word) (m : Payload) : Bool :=
  match m with
  | .epoch _ _ d => d != digest
  | _ => false

/-- MU takes an accepted message that is not this station's own transmission (R142, R144, R147, R150). -/
def State.muTake (sender : Station) (m : Payload) (s : State) : State :=
  if !s.receiverOn then s
  else if sender = s.mu.number then (if s.isLeaving then s else s.enterFault .duplicate)
  else if 24 ≤ sender.toNat then s
  else
    let before := s.peerAt sender.toNat
    let t := s.setPeer sender.toNat (before.update s.mu.digest s.et.epoch m)
    if s.isListen && foreignEpoch s.mu.digest m then t.enterFault .mismatch
    else if s.isMember && answersHello before s.mu.digest m then t.submitPresent
    else t

/-- A PRESENT entry that was last heard 3 or more epochs back expires (R149). -/
def Peer.expires (epoch : Word32) (p : Peer) : Bool :=
  p.state == .present && decide (Config.expiryEpochs ≤ epochsForward (p.lastHeard.getD 0) epoch)

/-- An entry at an epoch start: when it expires it becomes ABSENT, its other fields kept (R149). -/
def Peer.expire (epoch : Word32) (p : Peer) : Peer := if p.expires epoch then { p with state := .absent } else p

/-- Every PRESENT entry examined; PEER_CHANGE when one expires (R149). -/
def State.expirePeers (s : State) : State :=
  let t := { s with mu := { s.mu with peers := s.mu.peers.map (Peer.expire s.et.epoch) } }
  if s.mu.peers.toList.any (Peer.expires s.et.epoch) then t.raise .peerChange else t

/-- MU takes an epoch start in MEMBER: PRESENT if the spoken flag is clear, the flag cleared, expiry (R148, R149). -/
def State.muEpochStart (s : State) : State :=
  if !s.isMember then s
  else
    let s := if s.mu.spoken then s else s.submitPresent
    State.expirePeers { s with mu := { s.mu with spoken := false } }

end Sys2Proof.Machine
end

