-- ==== Sys2Proof/Machine/Acquire.lean ====
section
/-! DEFINITION. The Acquisition Sequencer: frames, sweeps, spot runs, the self-check (chapter 4). -/

namespace Sys2Proof.Machine

/-! ## The sweep -/

/-- The frame's sweep has entries left to convert (R68, Table 4-1). -/
def State.sweepLeft (s : State) : Bool :=
  match s.acq.assembly with
  | none => false
  | some a => decide (a.pos < s.cfg.sweep.length)

/-- A sweep conversion may start: row 3 of Table 4-1, no waiting place standing before it. -/
def State.sweepMayStart (s : State) : Bool :=
  s.isMember && s.sweepLeft && !s.spotWaiting && s.acq.converter == .idle

/-- The sweep starts, or goes on, when the converter is free for it (R68, R71). -/
def State.startSweep (s : State) : State :=
  if s.sweepMayStart then { s with acq := { s.acq with converter := .sweep } } else s

/-! ## Frames at a tick (R69 to R72, R79) -/

/-- The frame that a closed assembly makes: INCOMPLETE when a value word is still absent (R70, R72, R182). -/
def Assembly.close (a : Assembly) : Frame :=
  { tag0 := a.tick
    tag1 := tagWord a.epoch (a.values.any (· == Config.absentValue)) a.spot a.slip a.mark
    values := a.values }

/-- A tick cuts a sweep conversion in progress (R70, step 1). -/
def State.cutSweep (s : State) : State :=
  if s.acq.converter = .sweep then { s with acq := { s.acq with converter := .idle } } else s

/-- A new frame: the tags of this tick, all values absent, SLIP if slip-pending is set, SPOT while a spot run holds the
converter (R69, R74, R79). -/
def State.beginFrame (s : State) : State :=
  let a : Assembly :=
    { tick := s.et.counter, epoch := s.et.epoch
      values := List.replicate s.cfg.sweep.length Config.absentValue
      spot := s.acq.run.isSome, slip := s.acq.slipPending, mark := false, pos := 0 }
  { s with acq := { s.acq with assembly := some a, slipPending := false } }

/-- A tick in MEMBER at AS, HR and TM (R70): cut, close, begin, write, hand on; the new frame's sweep starts (R71). -/
def State.acquire (s : State) : State :=
  match s.acq.assembly with
  | none => s.cutSweep.beginFrame.startSweep
  | some a => ((s.cutSweep.beginFrame.startSweep).writeFrame a.close).handOn a.close

/-- A value stored: the code minus the entry's offset (R71). -/
def storedValue (code : Code) (offset : Nat) : Word := code.setWidth 16 - wordOf offset

/-- A sweep conversion ends (R71): its value goes into the frame and the next conversion starts, subject to R68. -/
def State.endSweepConversion (code : Code) (s : State) : State :=
  match s.acq.converter, s.acq.assembly with
  | .sweep, some a =>
    match s.cfg.sweep[a.pos]? with
    | none => s
    | some e =>
      let a := { a with values := a.values.set a.pos (storedValue code e.offset), pos := a.pos + 1 }
      State.startSweep { s with acq := { s.acq with converter := .idle, assembly := some a } }
  | _, _ => s

/-! ## Spot runs (R76, R77) -/

/-- A spot run may begin: a place waits, the converter is IDLE or sweeping, and no self-check is due (R68, R76). -/
def State.spotRunMayBegin (s : State) : Bool :=
  s.spotWaiting && (s.acq.converter == .idle || s.acq.converter == .sweep) && s.acq.run.isNone &&
    !(s.isChecking && s.acq.selfCheck.isSome)

/-- The run stamp: the frame under assembly in MEMBER (R76). -/
def State.runStamp (s : State) : Option Point :=
  if s.isMember then s.acq.assembly.map (fun a => ⟨a.epoch, a.tick⟩) else none

/-- A spot run begins (R76): preemption, served set, spot list, SPOT flag, run stamp, first conversion. -/
def State.beginSpotRun (s : State) : State :=
  if s.spotRunMayBegin then
    { s with acq := { s.acq with
        converter := .spot
        assembly := s.acq.assembly.map (fun a => { a with spot := true })
        spotList := s.acq.spotList.map (fun p => { p with inRun := true })
        run := some { spots := s.cfg.spots, codes := [], began := s.mu.station, stamp := s.runStamp } } }
  else s

/-- The record takes the codes when it holds the sequence number and its request is placed (R43, R77). -/
def CapRecord.serve (seq : Word) (codes : List Code) (r : CapRecord) : CapRecord :=
  if r.seq = seq ∧ r.spotRequest = .placed then { r with spotRequest := .served, spotValues := some codes } else r

/-- The codes delivered to one place of the served set (R77, R80). -/
def State.deliver (run : SpotRun) (codes : List Code) (s : State) (p : SpotPlace) : State :=
  if !p.inRun then s
  else match p.requester with
    | .capture i seq => s.modifyRecord i (CapRecord.serve seq codes)
    | .localPort =>
      State.raise .spotDone
        { s with acq := { s.acq with
            lastSpot := some { codes := codes, station := run.began, stamp := run.stamp }
            localPending := false } }

/-- The run ends: the served places leave the list, the converter is free, the codes are delivered (R77). -/
def State.endSpotRun (run : SpotRun) (codes : List Code) (s : State) : State :=
  let served := s.acq.spotList
  let s :=
    { s with acq := { s.acq with
        converter := .idle, run := none, spotList := s.acq.spotList.filter (fun p => !p.inRun) } }
  served.foldl (State.deliver run codes) s

/-- A spot conversion ends (R77). -/
def State.endSpotConversion (code : Code) (s : State) : State :=
  match s.acq.converter, s.acq.run with
  | .spot, some run =>
    let codes := run.codes ++ [code]
    if run.spots.length ≤ codes.length then s.endSpotRun run codes
    else { s with acq := { s.acq with run := some { run with codes := codes } } }
  | _, _ => s

/-! ## The self-check (R81, R82) -/

/-- A self-check conversion may start: row 1 of Table 4-1, with the converter free. -/
def State.selfCheckMayBegin (s : State) : Bool :=
  s.isChecking && s.acq.selfCheck.isSome && s.acq.converter == .idle

/-- The self-check begins (R81). -/
def State.beginSelfCheck (s : State) : State :=
  if s.selfCheckMayBegin then { s with acq := { s.acq with converter := .selfCheck } } else s

/-- The result of the eight conversions (R82, R140): LISTEN with the receiver on and the listen count 0, or FAULT(SELFCHECK). -/
def State.endSelfCheck (sum : Nat) (s : State) : State :=
  let mean := sum / Config.selfCheckCount
  let s := { s with acq := { s.acq with converter := .idle, selfCheck := none, lastMean := some mean } }
  if Config.selfCheckLow ≤ mean ∧ mean ≤ Config.selfCheckHigh then
    State.lineQuiet { s with mu := { s.mu with station := .listen, listenCount := 0 } }
  else s.enterFault .selfcheck

/-- A self-check conversion ends (R81). -/
def State.endSelfCheckConversion (code : Code) (s : State) : State :=
  match s.acq.converter, s.acq.selfCheck with
  | .selfCheck, some c =>
    let sum := c.sum + code.toNat
    if c.made + 1 = Config.selfCheckCount then s.endSelfCheck sum
    else { s with acq := { s.acq with selfCheck := some ⟨c.made + 1, sum⟩ } }
  | _, _ => s

/-! ## The commands -/

/-- SWEEP_CONVERSION_END (R71). -/
def execSweepConversionEnd (code : Code) (s : State) : Host.Outcome State Fault Refusal := .next (s.endSweepConversion code)

/-- SWEEP_RESUME (R79): the sweep of the frame under assembly resumes at its sweep position. -/
def execSweepResume (s : State) : Host.Outcome State Fault Refusal := .next s.startSweep

/-- SPOT_RUN_BEGIN (R76). -/
def execSpotRunBegin (s : State) : Host.Outcome State Fault Refusal := .next s.beginSpotRun

/-- SPOT_CONVERSION_END (R77). -/
def execSpotConversionEnd (code : Code) (s : State) : Host.Outcome State Fault Refusal := .next (s.endSpotConversion code)

/-- SELF_CHECK_BEGIN (R81). -/
def execSelfCheckBegin (s : State) : Host.Outcome State Fault Refusal := .next s.beginSelfCheck

/-- SELF_CHECK_CONVERSION_END (R81, R82). -/
def execSelfCheckConversionEnd (code : Code) (s : State) : Host.Outcome State Fault Refusal :=
  .next (s.endSelfCheckConversion code)

end Sys2Proof.Machine
end

