-- ==== Sys2Proof/Machine/Arbitration.lean ====
section
/-! DEFINITION. A station's own frame: the win of arbitration, and the bits that the station drives (R105, R116, R119). -/

namespace Sys2Proof.Machine

/-- The payload fields that are fixed at the win: an EPOCH's lag, the free slots of HELLO and PRESENT (R105, R119). -/
def State.fixPayload (s : State) (p : Payload) : Payload :=
  match p with
  | .epoch n _ digest => .epoch n s.et.counter digest
  | .hello digest n _ => .hello digest n s.freeField
  | .present digest n _ => .present digest n s.freeField
  | .claim q => .claim q
  | .frozen key offset outcome => .frozen key offset outcome
  | .bye => .bye

/-- The notice "in transmission" to the submitter (R128, R14, R104). -/
def State.noticeWin (s : State) (m : Msg) : State :=
  match m.payload with
  | .epoch n _ _ => { s with et := { s.et with own := .inTransmission n } }
  | .claim _ => match m.mark with
    | none => s
    | some id => s.modifyMark id (fun e => { e with claim := .inTransmission })
  | .frozen _ _ _ => s
  | .hello _ _ _ => s
  | .present _ _ _ => s
  | .bye => s

/-- A contender wins: its message is in transmission, at the head (R119, R125). -/
def State.winArbitration (s : State) : State :=
  match s.contender with
  | none => s
  | some m =>
    let won := { m with payload := s.fixPayload m.payload, cond := .inTransmission }
    let s := { s with lc := { s.lc with queue := won :: s.lc.queue.filter (fun x => !x.contends) } }
    s.noticeWin won

/-- The bits that this station drives in a frame, in the order sent (R116): the whole frame while a message of its is in
transmission, start bit and arbitration field while one contends, none otherwise. -/
def State.drivenBits (s : State) : List Bool :=
  match s.sending with
  | some m => sentBits (wireOf s.mu.number m.payload) false
  | none =>
    match s.contender with
    | some m => contenderBits s.mu.number m.payload
    | none => []

end Sys2Proof.Machine
end

