-- ==== Sys2Proof/Machine/Timebase.lean ====
section
/-! DEFINITION. The Epoch Timer: ticks, wraps, epoch starts, adoption (chapter 6), and what a tick brings about at the
other blocks. -/

namespace Sys2Proof.Machine

/-! ## Epoch starts at LC (R133) -/

/-- LC takes an epoch start: it leaves MUTE when both observations are ACCEPTED; then the observations move on (R133). -/
def State.lcEpochStart (s : State) : State :=
  let s :=
    if s.lc.mute && s.lc.obsCur == .accepted && s.lc.obsPrev == .accepted then
      State.raise .linkMute { s with lc := { s.lc with mute := false, failCount := 0, vetoCount := 0 } }
    else s
  { s with lc := { s.lc with obsPrev := s.lc.obsCur, obsCur := .empty } }

/-! ## A tick in MEMBER (R98, R99, R100) -/

/-- The counter stands at E−1 (R100). -/
def State.atEpochEnd (s : State) : Bool := decide (s.et.counter.toNat + 1 = s.cfg.epochLen)

/-- ET's own counter: it advances by 1, or wraps with the epoch number's successor (R99, R100). -/
def State.advanceCounter (s : State) : State :=
  if s.atEpochEnd then { s with et := { s.et with counter := 0, epoch := epochSucc s.et.epoch } }
  else { s with et := { s.et with counter := s.et.counter + 1 } }

/-- A tick that arrives with MARK_N asserted: the stuck count grows up to 65, where MARK_STUCK is raised (R6). -/
def State.countStuck (asserted : Bool) (s : State) : State :=
  if asserted && decide (s.cc.stuck < Config.stuckLimit) then
    let t := { s with cc := { s.cc with stuck := s.cc.stuck + 1 } }
    if t.cc.stuck = Config.stuckLimit then t.raise .markStuck else t
  else s

/-- A pulse counts down at a tick and ends at 0 (R2). -/
def State.countPulse (driver : Driver) (s : State) : State :=
  match driver with
  | .idle => s
  | .driving n => if n ≤ 1 then s.releaseLine else { s with cc := { s.cc with driver := .driving (n - 1) } }

/-- CC's own tick, from the line and the driver as the tick found them: the stuck count, for the tick arrived with the line
as it was (R6), then the pulse, whose end may release the line and return the count to 0 (R2, R5). -/
def State.ccTick (asserted : Bool) (driver : Driver) (s : State) : State := (s.countStuck asserted).countPulse driver

/-- The parts of a tick in MEMBER, in the order the model takes when the command gives none (log 1). -/
def tickParts : List Part := [.ccTick, .acquisition, .lcEpoch, .ccEpoch, .muEpoch, .epochSubmit]

/-- One part of a tick in MEMBER. `wrapped`: the tick wrapped the counter; `before`: the state that the tick found. -/
def State.tickPart (wrapped : Bool) (before : State) (s : State) (p : Part) : State :=
  match p with
  | .ccTick => s.ccTick before.markAsserted before.cc.driver
  | .acquisition => s.acquire
  | .epochSubmit => if wrapped then s.submitEpoch s.et.epoch else s
  | .lcEpoch => if wrapped then s.lcEpochStart else s
  | .ccEpoch => if wrapped then s.ccEpochStart else s
  | .muEpoch => if wrapped then s.muEpochStart else s
  | .muTake => s
  | .win => s

/-- A win that comes together with a tick, when the command's order names it (R105, log 20). -/
def State.winWith (order : List Part) (s : State) : State := if Part.win ∈ order then s.winArbitration else s

/-- A tick in MEMBER: ET's counter first, for AS tags its frame with it (R69, R99); then a win that comes together with the
tick, which so takes the counter after it and keeps its EPOCH from the wrap's submission (R105, R107); then the parts in
the given order. -/
def State.memberTick (order : List Part) (s : State) : State :=
  (completeOrder tickParts order).foldl (State.tickPart s.atEpochEnd s) (s.advanceCounter.winWith order)

/-! ## A tick in LISTEN (R141, R113) -/

/-- The listen window expires: epoch 1, counter 0, MEMBER, EPOCH(1) (R113, R141, R143). -/
def State.foundTimebase (s : State) : State :=
  (State.becomeMember { s with et := { s.et with epoch := 1, counter := 0 } }).submitEpoch 1

/-- A tick in LISTEN (R141). -/
def State.listenTick (s : State) : State :=
  let s := { s with mu := { s.mu with listenCount := s.mu.listenCount + 1 } }
  if s.mu.listenCount = s.mu.listenLength then s.foundTimebase else s

/-- A tick, delivered in the station state of the moment (R98). A stopped generator makes no ticks; a tick in CHECKING
has no effect. -/
def State.takeTick (order : List Part) (s : State) : State :=
  if !s.et.running then s
  else if s.isListen then s.listenTick
  else if s.isMember then s.memberTick order
  else s

/-! ## Adoption (R105 to R113) -/

/-- The smaller of lag + W and E−1 (R106, R109, R112). -/
def State.adoptedCounter (s : State) (lag : Word) : Word := wordOf (min (lag.toNat + s.et.transit) (s.cfg.epochLen - 1))

/-- ET's own EPOCH completes (R106). -/
def State.ownEpochDone (n : Word32) (lag : Word) (s : State) : State :=
  let c := if n = s.et.epoch then s.adoptedCounter lag else s.et.counter
  { s with et := { s.et with counter := c, own := .none } }

/-- A slip (R110): SLIP raised, slip-pending set, TIME_SLIP on the records in progress. -/
def State.slip (s : State) : State :=
  (State.raise .slip { s with acq := { s.acq with slipPending := true } }).mapRecords CapRecord.slipped

/-- A MEMBER station adopts an eligible EPOCH (R109, Table 6-2); the Bool says that it is an epoch start. -/
def State.adopt (n : Word32) (lag : Word) (s : State) : State × Bool :=
  let e := s.et.epoch
  let t := s.withdrawMsg (fun m => m.payload.isEpoch)
  let t := { t with et := { t.et with counter := s.adoptedCounter lag, epoch := n, own := .none } }
  if n = e then (t, false)
  else if n = epochSucc e then (t, true)
  else (t.slip, true)

/-- An eligible EPOCH in LISTEN (R112). -/
def State.listenAdopt (n : Word32) (lag : Word) (s : State) : State :=
  State.becomeMember { s with et := { s.et with epoch := n, counter := s.adoptedCounter lag } }

/-- The EPOCH is eligible, but for the station state (R108). -/
def State.epochEligible (s : State) (sender : Station) (n : Word32) (digest : Word) : Bool :=
  decide (sender.toNat < 24) && sender != s.mu.number && n != 0 && digest == s.mu.digest

/-- ET takes another station's accepted EPOCH (R108); the Bool says that it gives an epoch start. -/
def State.epochAccepted (sender : Station) (n : Word32) (lag digest : Word) (s : State) : State × Bool :=
  if !s.epochEligible sender n digest then (s, false)
  else if s.isListen then (s.listenAdopt n lag, false)
  else if s.isMember then s.adopt n lag
  else (s, false)

/-! ## The ticks that the table names by what they bring about (log 12)

Each of these commands is a tick, whole, when the tick would bring the named consequence about; in any other state that
event cannot happen, and the command leaves the state as it is. -/

/-- A tick in MEMBER would come. -/
def State.memberTicks (s : State) : Bool := s.et.running && s.isMember

/-- A tick would wrap the counter (R100). -/
def State.wrapsNext (s : State) : Bool := s.memberTicks && s.atEpochEnd

/-- A tick would end the mark pulse (R2). -/
def State.pulseEndsNext (s : State) : Bool := s.memberTicks && s.cc.driver == .driving 1

/-- A tick would bring the stuck count to 65 (R6). -/
def State.stuckNext (s : State) : Bool := s.memberTicks && s.markAsserted && s.cc.stuck + 1 == Config.stuckLimit

/-- A tick would make a peer entry expire (R149). -/
def State.peerExpiresNext (s : State) : Bool :=
  s.wrapsNext && s.mu.peers.toList.any (Peer.expires (epochSucc s.et.epoch))

/-- A tick would time out or defer an open-mark entry (R22). -/
def State.claimTimesOutNext (s : State) : Bool :=
  s.wrapsNext && s.cc.marks.any (fun m => decide (m.starts ≠ 0) && !m.deferred)

/-- The record's window closes at its next epoch start (R26). -/
def CapRecord.windowDue (r : CapRecord) : Bool :=
  match r.phase with
  | .filling c => !c.answersClosed && decide (c.answerCount ≠ 0)
  | .opened => false
  | .complete _ => false

/-- A tick would close an answer window (R26). -/
def State.windowExpiresNext (s : State) : Bool :=
  s.wrapsNext && slots.any (fun i => match s.recordAt i with
    | none => false
    | some r => r.windowDue)

/-- A tick would expire the listen window (R141). -/
def State.listenExpiresNext (s : State) : Bool :=
  s.et.running && s.isListen && decide (s.mu.listenCount + 1 = s.mu.listenLength)

/-- A tick, when it brings a consequence about. -/
def State.tickWhen (due : Bool) (order : List Part) (s : State) : State := if due then s.takeTick order else s

/-- TICK (R98). -/
def execTick (order : List Part) (s : State) : Host.Outcome State Fault Refusal := .next (s.takeTick order)

/-- MARK_PULSE_END (R2): the tick at which the pulse count reaches 0. -/
def execMarkPulseEnd (order : List Part) (s : State) : Host.Outcome State Fault Refusal :=
  .next (s.tickWhen s.pulseEndsNext order)

/-- MARK_STUCK (R6): the tick at which the stuck count reaches 65. -/
def execMarkStuck (order : List Part) (s : State) : Host.Outcome State Fault Refusal := .next (s.tickWhen s.stuckNext order)

/-- TICK_WRAP (R100): the tick that finds the counter at E−1. -/
def execTickWrap (order : List Part) (s : State) : Host.Outcome State Fault Refusal := .next (s.tickWhen s.wrapsNext order)

/-- PEER_EXPIRY (R149): the tick whose epoch start expires a peer entry. -/
def execPeerExpiry (order : List Part) (s : State) : Host.Outcome State Fault Refusal :=
  .next (s.tickWhen s.peerExpiresNext order)

/-- CLAIM_TIMEOUT (R22): the tick whose epoch start times out or defers an open-mark entry. -/
def execClaimTimeout (order : List Part) (s : State) : Host.Outcome State Fault Refusal :=
  .next (s.tickWhen s.claimTimesOutNext order)

/-- ANSWER_WINDOW_EXPIRY (R26): the tick whose epoch start closes an answer window. -/
def execAnswerWindowExpiry (order : List Part) (s : State) : Host.Outcome State Fault Refusal :=
  .next (s.tickWhen s.windowExpiresNext order)

/-- LISTEN_WINDOW_EXPIRY (R141): the tick that brings the listen count to the window length. -/
def execListenWindowExpiry (order : List Part) (s : State) : Host.Outcome State Fault Refusal :=
  .next (s.tickWhen s.listenExpiresNext order)

/-! ## The mark line (R5) -/

/-- MARK_N is asserted (R5). When our own pulse's edge waits, CC takes it; otherwise another station drives the line,
and if it was released that is an assertion edge. A further station on an asserted line makes no edge (log 5). -/
def State.markEdge (s : State) : State :=
  if s.cc.edgePending then
    let s := { s with cc := { s.cc with edgePending := false } }
    if s.isMember then s.takeMark else s
  else
    let edge := !s.markAsserted
    let s := { s with cc := { s.cc with othersDrive := true } }
    if edge && s.isMember then s.takeMark else s

/-- The other stations release MARK_N; when this station does not drive it, CC observes the release (R5). -/
def State.markRelease (s : State) : State := State.observeRelease { s with cc := { s.cc with othersDrive := false } }

/-- MARK_EVENT (R8, R5). -/
def execMarkEvent (s : State) : Host.Outcome State Fault Refusal := .next s.markEdge

/-- MARK_RELEASE (R5). -/
def execMarkRelease (s : State) : Host.Outcome State Fault Refusal := .next s.markRelease

end Sys2Proof.Machine
end

