-- ==== Sys2Proof/Machine/Link.lean ====
section
/-! DEFINITION. The Link Controller: contention, transmission, veto, acceptance and delivery (chapter 7). -/

namespace Sys2Proof.Machine

/-! ## The line view (R115, R118) -/

/-- Recessive bit times pass: in the end field they bring the frame's end nearer, outside a frame they count as idle, up to
11; in a frame up to its veto bit, or with the receiver off, nothing is counted (R115). -/
def State.passBits (bits : Nat) (s : State) : State :=
  if !s.receiverOn then s
  else match s.lc.view with
    | .none => { s with lc := { s.lc with idle := min Config.idleBits (s.lc.idle + bits) } }
    | .ending left =>
      if bits < left then { s with lc := { s.lc with view := .ending (left - bits) } }
      else { s with lc := { s.lc with view := .none, idle := min Config.idleBits (bits - left) } }
    | .reading => s
    | .readingNoVeto => s

/-- R118's conditions for beginning a frame. -/
def State.mayStart (s : State) : Bool :=
  (s.isMember || s.isLeaving) && !s.lc.mute && !s.lc.queue.isEmpty && s.lc.view == .none && s.lc.idle == Config.idleBits

/-- The head of the queue contends (R118). -/
def contendHead : List Msg → List Msg
  | [] => []
  | m :: ms => { m with cond := .contending } :: ms

/-- The station drives a start bit and its head message contends (R118). -/
def State.driveStart (s : State) : State :=
  { s with lc := { s.lc with idle := 0, view := .reading, queue := contendHead s.lc.queue } }

/-- After `bits` recessive bit times the station begins a frame if it may (R118). -/
def State.startFrame (bits : Nat) (s : State) : State :=
  let s := s.passBits bits
  if s.mayStart then s.driveStart else s

/-- A dominant bit read. Outside a frame it is a start bit when the idle count stands at 11, and otherwise returns the count
to 0 (R115); in the end field it is one of its bits, without further effect (R120). -/
def State.readDominant (s : State) : State :=
  if !s.receiverOn then s
  else match s.lc.view with
    | .none =>
      { s with lc := { s.lc with idle := 0, view := if s.lc.idle = Config.idleBits then .reading else .none } }
    | .ending left => { s with lc := { s.lc with idle := 0, view := if left ≤ 1 then .none else .ending (left - 1) } }
    | .reading => s
    | .readingNoVeto => s

/-- A dominant bit read after `bits` recessive bit times (R115). -/
def State.readStartBit (bits : Nat) (s : State) : State := (s.passBits bits).readDominant

/-! ## Losing arbitration (R119) -/

/-- A contender loses: its message is queued again, its failed attempts unchanged (R119). -/
def State.loseArbitration (s : State) : State :=
  { s with lc := { s.lc with
      queue := s.lc.queue.map (fun m => if m.contends then { m with cond := .queued } else m) } }

/-! ## Failed attempts (R127) -/

/-- The 16th failed attempt drops the message (R127): the submitter's loss. ET submits anew when the number is stale
(R107); a deferred entry is abandoned (R24); the end of the BYE ends LEAVING (R153). -/
def State.noticeDrop (s : State) (m : Msg) : State :=
  match m.payload with
  | .epoch n _ _ =>
    let s := { s with et := { s.et with own := .none } }
    if n = s.et.epoch then s else s.submitEpoch s.et.epoch
  | .claim _ => match m.mark with
    | none => s
    | some id =>
      let s := s.claimLost id
      match s.markOf id with
      | none => s
      | some e => if e.deferred then s.abandon id else s
  | .frozen key _ _ => s.frozenLost key
  | .hello _ _ _ => s
  | .present _ _ _ => s
  | .bye => if s.isLeaving then s.toConfig else s

/-- The attempt failed below the limit and the message is queued again (R127): Table 1-3, R24, R107. -/
def State.noticeRetry (s : State) (m : Msg) : State :=
  match m.payload with
  | .epoch n _ _ =>
    let s := { s with et := { s.et with own := .queued n } }
    if n = s.et.epoch then s else s.submitEpoch s.et.epoch
  | .claim _ => match m.mark with
    | none => s
    | some id =>
      let s := s.modifyMark id (fun e => { e with claim := .queued })
      match s.markOf id with
      | none => s
      | some e => if e.deferred then s.abandon id else s
  | .frozen _ _ _ => s
  | .hello _ _ _ => s
  | .present _ _ _ => s
  | .bye => s

/-- The transmit failure count increases by 1; at 32 LC enters MUTE (R127, R130, R131). -/
def State.countFailure (s : State) : State :=
  let s := { s with lc := { s.lc with failCount := min Config.failureLimit (s.lc.failCount + 1) } }
  if s.lc.failCount = Config.failureLimit then s.enterMute else s

/-- An attempt of the message in transmission fails (R127): retry or drop, then counting. -/
def State.failAttempt (m : Msg) (s : State) : State :=
  let rest := s.lc.queue.filter (fun x => !x.moving)
  let m := { m with fails := m.fails + 1, cond := .queued }
  let s :=
    if m.fails < Config.attemptLimit then
      State.noticeRetry { s with lc := { s.lc with queue := insertMsg m rest } } m
    else State.noticeDrop { s with lc := { s.lc with queue := rest } } m
  s.countFailure

/-- The current observation is spoiled by a frame read with its veto bit dominant (R122, R133). -/
def State.spoil (s : State) : State := { s with lc := { s.lc with obsCur := .spoiled } }

/-- TX_ATTEMPT_FAIL. By a veto the frame ends with its veto bit dominant (R123); at a bit error the station stops driving
and reads the rest of the frame without vetoing it (R120). -/
def State.attemptFails (reason : FailReason) (s : State) : State :=
  match s.sending with
  | none => s
  | some m =>
    match reason with
    | .veto => (s.endFrame m.payload.encode.length).spoil.failAttempt m
    | .bitError => State.failAttempt m { s with lc := { s.lc with view := .readingNoVeto } }

/-! ## Judging a frame (R121) -/

/-- R121's table. -/
inductive Judgement where
  | discard
  | veto
  | accept (m : Payload)
  deriving DecidableEq, Repr

/-- The station's judgement of a frame at its presence bit (R121). No row of the table is that bit, so MUTE, which decides on
the veto, is read as it stands at the event at the frame's veto bit, one bit time later (DESIGN CHOICE, log 21). -/
def State.judge (s : State) (f : WireFrame) : Judgement :=
  if !f.presence then .discard
  else if !crcGood f then (if !s.lc.mute && s.lc.view == .reading then .veto else .discard)
  else match decodePayload f.kind f.payload with
    | none => .discard
    | some m => .accept m

/-- The station reads a frame as a receiver, its veto bit still to come: its receiver is on, a frame is in progress, and it
is neither contending nor sending. -/
def State.receives (s : State) : Bool :=
  s.receiverOn && (s.lc.view == .reading || s.lc.view == .readingNoVeto) && s.contender.isNone && s.sending.isNone

/-- The veto count increases by 1; at 16 LC enters MUTE (R121, R130, R131). -/
def State.countVeto (s : State) : State :=
  let s := { s with lc := { s.lc with vetoCount := min Config.vetoLimit (s.lc.vetoCount + 1) } }
  if s.lc.vetoCount = Config.vetoLimit then s.enterMute else s

/-- FRAME_VETOED (R121, R122, R133): the sender's attempt is vetoed; a receiver discards the frame, its current observation
is spoiled, whatever it judged, and it counts its veto if it drove one. -/
def State.frameVetoed (f : WireFrame) (s : State) : State :=
  match s.sending with
  | some _ => s.attemptFails .veto
  | none =>
    if s.receives then
      let t := (s.endFrame f.payload.length).spoil
      if s.judge f = .veto then t.countVeto else t
    else s

/-- FRAME_DISCARDED (R121): a frame that this station's judgement discards without a veto, its veto bit recessive. -/
def State.frameDiscarded (f : WireFrame) (s : State) : State :=
  if s.receives && s.judge f == .discard then s.endFrame f.payload.length else s

/-! ## Acceptance and delivery (R122 to R124) -/

/-- What acceptance does at LC: the frame comes to its end field, the veto count returns to 0, the observation moves on
(R122, R130, R133). `p` is the payload's length. -/
def State.acceptEffects (p : Nat) (s : State) : State :=
  let s := s.endFrame p
  { s with lc := { s.lc with
      vetoCount := 0
      obsCur := if s.lc.obsCur = .empty then .accepted else s.lc.obsCur } }

/-- The message's owner other than MU takes it (R124); the Bool says that ET delivers an epoch start. -/
def State.ownerTake (sender : Station) (m : Payload) (s : State) : State × Bool :=
  match m with
  | .epoch n lag digest => s.epochAccepted sender n lag digest
  | .claim p => (s.claimAccepted sender p, false)
  | .frozen key offset outcome => (s.frozenAccepted sender key offset outcome, false)
  | .hello _ _ _ => (s, false)
  | .present _ _ _ => (s, false)
  | .bye => (s, false)

/-- The parts of a delivery that follow the owner, in the order the model takes when the command gives none (log 1). -/
def deliveryParts : List Part := [.muTake, .lcEpoch, .ccEpoch, .muEpoch]

/-- One part of a delivery. `muDone`: MU has already taken the message; `started`: ET delivered an epoch start. -/
def State.deliveryPart (sender : Station) (m : Payload) (muDone started : Bool) (s : State) (p : Part) : State :=
  match p with
  | .muTake => if muDone then s else s.muTake sender m
  | .lcEpoch => if started then s.lcEpochStart else s
  | .ccEpoch => if started then s.ccEpochStart else s
  | .muEpoch => if started then s.muEpochStart else s
  | .ccTick => s
  | .acquisition => s
  | .epochSubmit => s
  | .win => s

/-- Delivery of another sender's message to the blocks that own it (R124, R145, R149, R150). -/
def State.deliverOther (sender : Station) (m : Payload) (muFirst : Bool) (order : List Part) (s : State) : State :=
  let s := if muFirst then s.muTake sender m else s
  let r := s.ownerTake sender m
  (completeOrder deliveryParts order).foldl (State.deliveryPart sender m muFirst r.2) r.1

/-- Delivery of this station's own completed message (R123, R106, R24, R148, R153). -/
def State.deliverOwn (m : Msg) (s : State) : State :=
  let s := { s with mu := { s.mu with spoken := true } }
  match m.payload with
  | .epoch n lag _ => s.ownEpochDone n lag
  | .claim p => (s.claimAccepted s.mu.number p).settleClaim m.mark
  | .frozen key offset outcome => s.frozenAccepted s.mu.number key offset outcome
  | .hello _ _ _ => s
  | .present _ _ _ => s
  | .bye => if s.isLeaving then s.toConfig else s

/-- The sender's attempt succeeds (R123): the message leaves the queue and the failure count decreases. -/
def State.completeOwn (m : Msg) (s : State) : State :=
  let s := s.acceptEffects m.payload.encode.length
  let s :=
    { s with lc := { s.lc with
        queue := s.lc.queue.filter (fun x => !x.moving)
        failCount := s.lc.failCount - 1 } }
  s.deliverOwn m

/-- FRAME_ACCEPTED (R122): by the sender its own frame, whatever the operand says of its contents; by a receiver a frame
that it judged to be accepted. -/
def State.frameAccepted (f : WireFrame) (muFirst : Bool) (order : List Part) (s : State) : State :=
  match s.sending with
  | some m => s.completeOwn m
  | none =>
    if s.receives then
      match s.judge f with
      | .accept m => (s.acceptEffects f.payload.length).deliverOther f.sender m muFirst order
      | .veto => s
      | .discard => s
    else s

/-! ## The commands -/

/-- FRAME_START (R118). -/
def execFrameStart (bits : Nat) (s : State) : Host.Outcome State Fault Refusal := .next (s.startFrame bits)

/-- START_BIT_READ (R115). -/
def execStartBitRead (bits : Nat) (s : State) : Host.Outcome State Fault Refusal := .next (s.readStartBit bits)

/-- ARBITRATION_WIN (R119). -/
def execArbitrationWin (s : State) : Host.Outcome State Fault Refusal := .next s.winArbitration

/-- ARBITRATION_LOSS (R119). -/
def execArbitrationLoss (s : State) : Host.Outcome State Fault Refusal := .next s.loseArbitration

/-- TX_ATTEMPT_FAIL (R127). -/
def execTxAttemptFail (reason : FailReason) (s : State) : Host.Outcome State Fault Refusal := .next (s.attemptFails reason)

/-- FRAME_VETOED (R121). -/
def execFrameVetoed (f : WireFrame) (s : State) : Host.Outcome State Fault Refusal := .next (s.frameVetoed f)

/-- FRAME_DISCARDED (R121). -/
def execFrameDiscarded (f : WireFrame) (s : State) : Host.Outcome State Fault Refusal := .next (s.frameDiscarded f)

/-- FRAME_ACCEPTED (R122). -/
def execFrameAccepted (f : WireFrame) (muFirst : Bool) (order : List Part) (s : State) : Host.Outcome State Fault Refusal :=
  .next (s.frameAccepted f muFirst order)

end Sys2Proof.Machine
end

