-- ==== Sys2Proof/Machine/Reset.lean ====
section
/-! DEFINITION. The two resets, block by block (Table 9-5; R31, R32, R52, R53, R65, R85, R96, R114, R135, R155, R176). -/

namespace Sys2Proof.Machine

/-- CC after a soft reset (R31, R52): line and list clear, kept records in their opening order, sequence counter kept. -/
def Cc.softReset (retain : Bool) (cc : Cc) : Cc :=
  let records := cc.records.map (keptBySoftReset retain)
  { cc with
    driver := .idle, edgePending := false, lineEntry := .empty, stuck := 0, marks := []
    records := records
    opening := cc.opening.filter (fun i => records[i].isSome) }

/-- HR after a soft reset: empty, geometry kept (R65). -/
def Hr.softReset (hr : Hr) : Hr := { geometry := hr.geometry, nextWrite := 0, writePos := 0, frames := [] }

/-- AS after a soft reset (Table 4-2). -/
def Acq.softReset (acq : Acq) : Acq :=
  { converter := .idle, assembly := none, slipPending := false, spotList := [], run := none, localPending := false
    lastSpot := none, selfCheck := none, lastMean := acq.lastMean }

/-- ET after either reset (Table 6-3). -/
def Et.stopped : Et := { running := false, counter := 0, epoch := 0, transit := 0, own := .none }

/-- LC after a soft reset (R135). -/
def Lc.softReset (lc : Lc) : Lc :=
  { lc with
    idle := 0, view := .none, queue := [], failCount := 0, vetoCount := 0, mute := false
    obsCur := .empty, obsPrev := .empty }

/-- The station state after a soft reset: CONFIG, but FAULT(STRAP) stays (R155). -/
def StationState.softReset : StationState → StationState
  | .fault .strap => .fault .strap
  | _ => .config

/-- MU after a soft reset (Table 8-5). -/
def Mu.softReset (mu : Mu) : Mu :=
  { mu with
    station := mu.station.softReset
    listenLength := 0, listenCount := 0, spoken := false, peers := Vector.replicate 24 Peer.cleared }

/-- LP after a soft reset (R176): no session, no causes, no partial frame. The transaction that carried SOFT_RESET goes on,
for its OK is shifted out in it (R168). -/
def Lp.softReset (lp : Lp) : Lp :=
  { lp with
    session := none, causes := 0
    transaction := lp.transaction.map (fun t => { t with decoder := [], response := none }) }

/-- A soft reset: every block takes its soft-reset state (R168). The monitors in use are armed (R96). -/
def State.softReset (s : State) : State :=
  State.armMonitors
    { s with
      mu := s.mu.softReset
      et := Et.stopped
      lc := s.lc.softReset
      cc := s.cc.softReset s.cfg.retain
      hr := s.hr.softReset
      acq := s.acq.softReset
      lp := s.lp.softReset }

/-- The station state that the straps give: 24 to 31 are invalid (R136). -/
def strapState (addr : Station) : StationState := if 24 ≤ addr.toNat then .fault .strap else .config

/-- A pin reset: the straps are read and every block takes its pin-reset state (R136, R155). What other stations do to
MARK_N is not this station's to change (log 5), and the commands that wait stay waiting. -/
def State.pinReset (addr : Station) (rate : BitVec 2) (s : State) : State :=
  { State.reset with
    mu := { State.reset.mu with station := strapState addr, number := addr, rate := rate }
    cc := { State.reset.cc with othersDrive := s.cc.othersDrive }
    pending := s.pending }

/-- PIN_RESET (R136, R155, R158). -/
def execPinReset (addr : Station) (rate : BitVec 2) (s : State) : Host.Outcome State Fault Refusal :=
  .next (s.pinReset addr rate)

/-- Initialisation completes: LP clears the flag (R158). -/
def State.initialised (s : State) : State := { s with lp := { s.lp with initialising := false } }

/-- INITIALISATION_COMPLETE (R158). -/
def execInitialisationComplete (s : State) : Host.Outcome State Fault Refusal := .next s.initialised

end Sys2Proof.Machine
end

