-- ==== Sys2Proof/Machine/Responses.lean ====
section
/-! DEFINITION. The responses of the local port: status codes, snapshot codes and the data layouts of chapter 10. -/

namespace Sys2Proof.Machine

/-! ## Status codes (Table 9-2) -/

abbrev codeOk : Byte := 0x80
abbrev codeDataWait : Byte := 0x81
abbrev codeEnd : Byte := 0x82
abbrev codeBadState : Byte := 0xC1
abbrev codeBadArg : Byte := 0xC2
abbrev codeBadCheck : Byte := 0xC3
abbrev codeUnknown : Byte := 0xC4
abbrev codeBusy : Byte := 0xC5
abbrev codeStale : Byte := 0xC6

/-- OK with its data. -/
def Answer.ok (data : List Byte) : Answer := ⟨codeOk, data, none⟩

/-- An answer without data. -/
def Answer.bare (code : Byte) : Answer := ⟨code, [], none⟩

/-- BAD_ARG carries the offset of the offending byte (R159, R180). -/
def Answer.badArg (offset : Nat) : Answer := ⟨codeBadArg, [byteOf offset], none⟩

/-- The bytes of a response: status, length, data, check (R156, R180). -/
def Answer.bytes (a : Answer) : List Byte := withCheck (a.status :: byteOf a.data.length :: a.data)

/-! ## Codes of the snapshots (R181) -/

def StationState.code : StationState → Byte
  | .config => 0
  | .checking => 1
  | .listen => 2
  | .member => 3
  | .leaving => 4
  | .fault _ => 5

def FaultReason.code : FaultReason → Byte
  | .strap => 1
  | .selfcheck => 2
  | .mismatch => 3
  | .duplicate => 4

/-- The fault reason's code; 0 outside FAULT. -/
def StationState.reasonCode : StationState → Byte
  | .fault r => r.code
  | .config => 0
  | .checking => 0
  | .listen => 0
  | .member => 0
  | .leaving => 0

def CapRecord.stateCode (r : CapRecord) : Byte :=
  match r.phase with
  | .opened => 1
  | .filling _ => 2
  | .complete _ => 3

def MonitorPhase.code : MonitorPhase → Byte
  | .armed => 0
  | .pending => 1
  | .tripped => 2

def PeerState.code : PeerState → Byte
  | .absent => 0
  | .present => 1
  | .mismatch => 2

def SpotRequest.code : SpotRequest → Byte
  | .none => 0
  | .placed => 1
  | .withdrawn => 2
  | .served => 3

/-- The record conditions byte (R181). -/
def State.conditions (s : State) (i : Fin 4) (r : CapRecord) : Byte :=
  bitAt r.framesDone 0 ||| bitAt r.answersClosed 1 ||| bitAt (s.reader i) 2

/-- A point: epoch, then tick (R177). -/
def Point.bytes (p : Point) : List Byte := bytes32 p.epoch ++ bytes16 p.tick

/-- A point that may be absent: six zero bytes (R177). -/
def pointBytes (p : Option Point) : List Byte := (p.map Point.bytes).getD [0, 0, 0, 0, 0, 0]

/-- A key: origin, then point (Tables 10-7, 10-9). -/
def Key.bytes (k : Key) : List Byte := k.origin :: k.point.bytes

/-- Codes of the converter as 16-bit fields. -/
def codeBytes (codes : List Code) : List Byte := codes.flatMap (fun c => bytes16 (c.setWidth 16))

/-! ## STATUS (Table 10-5) -/

/-- The flag byte at offset 4. -/
def State.statusFlags (s : State) : Byte :=
  bitAt s.mu.config.isSome 0 ||| bitAt s.et.running 1 ||| bitAt s.lc.mute 2 ||| bitAt s.markAsserted 3 |||
    bitAt s.acq.localPending 4 ||| bitAt s.acq.lastSpot.isSome 5 ||| bitAt s.acq.lastMean.isSome 6 |||
    bitAt s.lp.session.isSome 7

/-- The session's slot and sequence number; zero bytes when no session is open. -/
def State.sessionBytes (s : State) : List Byte :=
  match s.lp.session with
  | none => [0, 0, 0]
  | some n => byteOf n.slot.val :: bytes16 n.seq

/-- The pending causes as a 16-bit field (section 10.3). -/
def causeBytes (causes : BitVec 10) : List Byte := bytes16 (causes.setWidth 16)

def MonitorState.bytes (m : MonitorState) : List Byte := [m.phase.code, byteOf m.count]

/-- STATUS data, 30 + 2M bytes (R160, Table 10-5). -/
def State.statusData (s : State) : List Byte :=
  [s.mu.station.code, s.mu.station.reasonCode, s.mu.number.setWidth 8, s.mu.rate.setWidth 8, s.statusFlags] ++
    bytes16 s.mu.digest ++ bytes32 s.et.epoch ++ bytes16 s.et.counter ++
    [byteOf s.et.transit, byteOf s.lc.failCount, byteOf s.lc.vetoCount, byteOf s.lc.queue.length] ++
    bytes16 (wordOf s.depth) ++ bytes16 (wordOf s.hr.frames.length) ++ [byteOf s.cc.marks.length] ++
    bytes16 (wordOf (s.acq.lastMean.getD 0)) ++ s.sessionBytes ++ causeBytes s.lp.causes ++
    [byteOf s.tm.monitors.length] ++ s.tm.monitors.flatMap MonitorState.bytes

/-! ## SPOT_READ (Table 10-6) -/

/-- SPOT_READ data, 9 + 2S′ bytes (R165). -/
def State.spotReadData (s : State) : List Byte :=
  match s.acq.lastSpot with
  | none => [bitAt s.acq.localPending 1, 0, 0, 0, 0, 0, 0, 0, 0]
  | some r =>
    [bitAt true 0 ||| bitAt s.acq.localPending 1 ||| bitAt r.stamp.isSome 2, byteOf r.codes.length, r.station.code] ++
      pointBytes r.stamp ++ codeBytes r.codes

/-! ## RECORDS (Table 10-7) -/

/-- An entry of the RECORDS response. -/
def State.recordEntry (s : State) (i : Fin 4) : List Byte :=
  match s.recordAt i with
  | none => [0]
  | some r =>
    r.stateCode :: (bytes16 r.seq ++ [r.flags.byte, s.conditions i r] ++ bytes16 (wordOf r.frames.length) ++
      bytes16 (wordOf r.total) ++
      (match r.capture with
        | none => []
        | some c => c.key.bytes ++ [c.outcome.code]))

/-- RECORDS data, record 0 first (R166). -/
def State.recordsData (s : State) : List Byte := slots.flatMap s.recordEntry

/-! ## PEERS (Table 10-8) -/

/-- An entry of the PEERS response, 10 bytes. -/
def Peer.bytes (p : Peer) : List Byte :=
  [p.state.code ||| bitAt (p.digestMatches == some true) 2 ||| bitAt p.lastHeard.isSome 4 |||
      bitAt p.digestMatches.isSome 5 ||| bitAt p.freeSlots.isSome 6 ||| bitAt p.announced.isSome 7] ++
    bytes32 (p.lastHeard.getD 0) ++ [p.freeSlots.getD 0] ++ bytes32 (p.announced.getD 0)

/-- PEERS data: 24 entries, station 0 first (R166). -/
def State.peersData (s : State) : List Byte := s.mu.peers.toList.flatMap Peer.bytes

/-! ## The record header (Table 10-9) -/

/-- The fields that a record takes when it becomes FILLING: key, own outcome, expected set; absent in OPEN. -/
def CapRecord.captureBytes (r : CapRecord) : List Byte :=
  match r.capture with
  | none => [0, 0, 0, 0, 0, 0, 0, 0, 0, 0, 0]
  | some c => c.key.bytes ++ [c.outcome.code] ++ bytes24 c.expected

/-- OPEN_READ data, 33 bytes, or 33 + 2S with spot values (R169). -/
def State.header (s : State) (i : Fin 4) (r : CapRecord) : List Byte :=
  [byteOf i.val, r.stateCode] ++ bytes16 r.seq ++
    [byteOf (s.cc.opening.idxOf i), r.flags.byte, s.conditions i r, byteOf r.words] ++
    bytes16 (wordOf r.total) ++ bytes16 (wordOf r.frames.length) ++ bytes16 (wordOf r.pre) ++ r.mark.bytes ++
    r.captureBytes ++ [byteOf r.spotCount, r.spotRequest.code] ++
    (if r.spotRequest = .served then codeBytes (r.spotValues.getD []) else [])

/-! ## READ (Table 10-10) -/

/-- A frame as it is sent: 2w bytes, word 0 first (R182). -/
def Frame.bytes (f : Frame) : List Byte := f.wordList.flatMap bytes16

/-- q, the most frames of a chunk (R170). -/
def CapRecord.chunkFrames (r : CapRecord) : Nat := Config.chunkBytes / (2 * r.words)

/-- The frames of the chunk from index k (R170). -/
def CapRecord.chunk (r : CapRecord) (k : Nat) : List Frame := (r.frames.drop k).take r.chunkFrames

/-- A frame chunk's data. -/
def chunkData (k : Nat) (frames : List Frame) : List Byte :=
  [0] ++ bytes16 (wordOf k) ++ [byteOf frames.length] ++ frames.flatMap Frame.bytes

def Participant.bytes (p : Participant) : List Byte := [p.station.setWidth 8, p.outcome.code, p.offset]

/-- The participant list's data. -/
def listData (entries : List Participant) : List Byte :=
  [1, byteOf entries.length] ++ entries.flatMap Participant.bytes

/-- The participant list of a record (R45). -/
def CapRecord.participants (r : CapRecord) : List Participant :=
  match r.capture with
  | none => []
  | some c => c.participants

end Sys2Proof.Machine
end

