-- ==== Sys2Proof/WellFormed.lean ====
section
/-! DEFINITION. Which commands the outside can give: the checks of a command's operands. -/

namespace Sys2Proof

/-- The argument bytes of a command frame are counted by one length byte (R156). -/
def argsOk (args : List Byte) : Bool := args.length ≤ 255

/-- A complete command frame: a code byte that is not 00h, a length byte n, n argument bytes, one check byte (R156). -/
def frameComplete (frame : List Byte) : Bool :=
  match frame with
  | code :: n :: rest => code != 0 && rest.length == n.toNat + 1
  | _ => false

/-- The length field of a wire frame is 4 bits (R116). -/
def WireFrame.ok (f : WireFrame) : Bool := f.payload.length ≤ 15

/-- An order names no part twice. -/
def orderOk (order : List Part) : Bool := decide order.Nodup

/-- The operands are such as the wires can carry. -/
def Instr.wellFormed : Instr → Bool
  | .pinReset _ _ => true
  | .initialisationComplete => true
  | .selNRelease => true
  | .readResponseShiftedOut => true
  | .unknownCommand frame => frameComplete frame
  | .status args => argsOk args
  | .configure args => argsOk args
  | .join args => argsOk args
  | .leave args => argsOk args
  | .trigger args => argsOk args
  | .spot args => argsOk args
  | .spotRead args => argsOk args
  | .records args => argsOk args
  | .openRead args => argsOk args
  | .read args => argsOk args
  | .closeRead args => argsOk args
  | .release args => argsOk args
  | .peers args => argsOk args
  | .ackAttn args => argsOk args
  | .softReset args => argsOk args
  | .tick order => orderOk order
  | .markPulseEnd order => orderOk order
  | .markStuck order => orderOk order
  | .tickWrap order => orderOk order
  | .peerExpiry order => orderOk order
  | .claimTimeout order => orderOk order
  | .answerWindowExpiry order => orderOk order
  | .listenWindowExpiry order => orderOk order
  | .markEvent => true
  | .markRelease => true
  | .copyStep _ => true
  | .sweepConversionEnd _ => true
  | .sweepResume => true
  | .spotRunBegin => true
  | .spotConversionEnd _ => true
  | .selfCheckBegin => true
  | .selfCheckConversionEnd _ => true
  | .frameStart _ => true
  | .arbitrationWin => true
  | .arbitrationLoss => true
  | .txAttemptFail _ => true
  | .frameVetoed f => f.ok
  | .frameDiscarded f => f.ok
  | .frameAccepted f _ order => f.ok && orderOk order
  | .transactionBegin => true
  | .wholeByteClocked _ _ => true
  | .startBitRead _ => true

end Sys2Proof
end

