-- ==== Sys2Proof/Machine/LocalPort.lean ====
section
/-! DEFINITION. The Local Port: the fifteen commands' answers, transactions and the read session (chapter 9). -/

namespace Sys2Proof.Machine

/-! ## Answers that need no more than the state -/

/-- A command without arguments: a length byte that differs from 0 gives BAD_ARG at offset 0 (R159). -/
def withoutArgs (args : List Byte) (s : State) (taken : State × Answer) : State × Answer :=
  match args with
  | [] => taken
  | _ :: _ => (s, .badArg 0)

/-- The slot that an argument byte names, 0 to 3 (R159). -/
def slotOf (b : Byte) : Option (Fin 4) := if h : b.toNat < 4 then some ⟨b.toNat, h⟩ else none

/-- The slot and sequence number of OPEN_READ and RELEASE, or the offset of BAD_ARG (R159). -/
def slotArgs (args : List Byte) : Except Nat (Fin 4 × Word) :=
  match args with
  | [b, hi, lo] =>
    match slotOf b with
    | none => .error 0
    | some i => .ok (i, word16 hi lo)
  | _ => .error (min args.length 3)

/-- STATUS (R160). -/
def takeStatus (args : List Byte) (s : State) : State × Answer := withoutArgs args s (s, .ok s.statusData)

/-- SPOT_READ (R165). -/
def takeSpotRead (args : List Byte) (s : State) : State × Answer := withoutArgs args s (s, .ok s.spotReadData)

/-- RECORDS (R166). -/
def takeRecords (args : List Byte) (s : State) : State × Answer := withoutArgs args s (s, .ok s.recordsData)

/-- PEERS (R166). -/
def takePeers (args : List Byte) (s : State) : State × Answer := withoutArgs args s (s, .ok s.peersData)

/-! ## CONFIGURE (R161, R162) -/

/-- The byte at an offset of the block; a missing one is reported at the given length (R162). -/
def byteAt (block : List Byte) (o : Nat) : Except Nat Nat :=
  match block[o]? with
  | none => .error block.length
  | some b => .ok b.toNat

/-- The 16-bit field at an offset; a field of which any byte is missing is not checked for its value (R162). -/
def wordAt (block : List Byte) (o : Nat) : Except Nat Word :=
  match block[o]?, block[o + 1]? with
  | some hi, some lo => .ok (word16 hi lo)
  | _, _ => .error block.length

/-- A check that reports an offset (R162). -/
def require (good : Bool) (o : Nat) : Except Nat Unit := if good then .ok () else .error o

/-- `n` sweep entries from offset `o` on, `t` being the sweep time before them (Table 9-3). -/
def parseSweep (block : List Byte) (period : Nat) : Nat → Nat → Nat → Except Nat (List SweepEntry)
  | 0, _, _ => .ok []
  | n + 1, o, t => do
    let channel ← byteAt block o
    require (decide (channel ≤ 6)) o
    let code ← byteAt block (o + 1)
    require (decide (code ≤ 3) && decide (t + conversionTime code ≤ period)) (o + 1)
    let offset ← wordAt block (o + 2)
    require (decide (offset.toNat ≤ 4095)) (o + 2)
    let rest ← parseSweep block period n (o + 4) (t + conversionTime code)
    .ok (⟨channel, code, offset.toNat⟩ :: rest)

/-- `n` spot entries from offset `o` on, `t` being the spot time before them (Table 9-3). -/
def parseSpots (block : List Byte) (period : Nat) : Nat → Nat → Nat → Except Nat (List SpotEntry)
  | 0, _, _ => .ok []
  | n + 1, o, t => do
    let channel ← byteAt block o
    require (decide (channel ≤ 6)) o
    let code ← byteAt block (o + 1)
    require (decide (code ≤ 3) && decide (t + conversionTime code ≤ period)) (o + 1)
    let rest ← parseSpots block period n (o + 2) (t + conversionTime code)
    .ok (⟨channel, code⟩ :: rest)

/-- A monitor limit's range, −4095 to +4095. -/
def limitOk (v : Int) : Bool := decide (-4095 ≤ v) && decide (v ≤ 4095)

/-- `n` monitors from offset `o` on (Table 9-3). -/
def parseMonitors (block : List Byte) (len : Nat) : Nat → Nat → Except Nat (List MonitorParams)
  | 0, _ => .ok []
  | n + 1, o => do
    let entry ← byteAt block o
    require (decide (1 ≤ entry) && decide (entry ≤ len)) o
    let persistence ← byteAt block (o + 1)
    require (decide (1 ≤ persistence)) (o + 1)
    let low ← wordAt block (o + 2)
    require (limitOk low.toInt) (o + 2)
    let high ← wordAt block (o + 4)
    require (limitOk high.toInt && decide (low.toInt ≤ high.toInt)) (o + 4)
    let rest ← parseMonitors block len n (o + 6)
    .ok (⟨entry, persistence, low.toInt, high.toInt⟩ :: rest)

/-- The block of Table 9-3, checked field by field; the error is the lowest offending offset (R162). -/
def parseConfig (block : List Byte) : Except Nat Configuration := do
  let period ← wordAt block 0
  require (decide (20 ≤ period.toNat) && decide (period.toNat ≤ 10000)) 0
  let epochLen ← wordAt block 2
  require (decide (256 ≤ epochLen.toNat)) 2
  let len ← byteAt block 4
  require (decide (1 ≤ len) && decide (len ≤ 12)) 4
  let spotLen ← byteAt block 5
  require (decide (spotLen ≤ 4)) 5
  let count ← byteAt block 6
  require (decide (count ≤ 8)) 6
  let npre ← wordAt block 7
  require (decide (npre.toNat + 1 ≤ ringDepth len)) 7
  let npost ← wordAt block 9
  require (decide (1 ≤ npost.toNat) && decide (npre.toNat + npost.toNat ≤ ringDepth len)) 9
  let flags ← byteAt block 11
  require (decide (flags < 4)) 11
  let sweep ← parseSweep block period.toNat len 12 0
  let spots ← parseSpots block period.toNat spotLen (12 + 4 * len) 0
  let monitors ← parseMonitors block len count (12 + 4 * len + 2 * spotLen)
  require (decide (block.length ≤ 12 + 4 * len + 2 * spotLen + 6 * count)) (12 + 4 * len + 2 * spotLen + 6 * count)
  .ok
    { tickPeriod := period.toNat, epochLen := epochLen.toNat, npre := npre.toNat, npost := npost.toNat
      replace := flags.testBit 0, retain := flags.testBit 1, sweep := sweep, spots := spots, monitors := monitors }

/-- The configuration digest (R137). -/
def Configuration.digest (c : Configuration) : Word :=
  wordOf (c.tickPeriod + 3 * c.epochLen + 5 * c.npre + 7 * c.npost + 11 * c.sweep.length)

/-- The accepted block comes into force: MU stores it, the monitors take their parameters (R137, R87, R161). -/
def State.configured (c : Configuration) (s : State) : State :=
  State.armMonitors { s with mu := { s.mu with config := some c, digest := c.digest } }

/-- CONFIGURE (R161). -/
def takeConfigure (block : List Byte) (s : State) : State × Answer :=
  if !s.isConfig then (s, .bare codeBadState)
  else if s.acq.localPending then (s, .bare codeBusy)
  else match parseConfig block with
    | .error o => (s, .badArg o)
    | .ok c => (s.configured c, .ok (bytes16 c.digest))

/-! ## JOIN, LEAVE, TRIGGER, SPOT -/

/-- The join begins (R139): CHECKING, the listen window, the table cleared; ET starts (R98, R103); the self-check is due
(R81). -/
def State.beginJoin (s : State) : State :=
  { s with
    mu := { s.mu with
      station := .checking
      listenLength := 2 * s.cfg.epochLen + 64 * s.mu.number.toNat
      listenCount := 0, spoken := false, peers := Vector.replicate 24 Peer.cleared }
    et := { running := true, counter := 0, epoch := 0, transit := transitAllowance s.mu.rate s.cfg.tickPeriod, own := .none }
    acq := { s.acq with selfCheck := some ⟨0, 0⟩ } }

/-- JOIN (R163, R139). -/
def takeJoin (args : List Byte) (s : State) : State × Answer :=
  withoutArgs args s (if s.isConfig && s.mu.config.isSome then (s.beginJoin, .ok []) else (s, .bare codeBadState))

/-- LEAVE (R163, R152). -/
def takeLeave (args : List Byte) (s : State) : State × Answer :=
  withoutArgs args s (if s.isMember then (s.leaveStation, .ok []) else (s, .bare codeBadState))

/-- TRIGGER (R164): an alert; the answer is from the station state alone. -/
def takeTrigger (args : List Byte) (s : State) : State × Answer :=
  withoutArgs args s (if s.isMember then (s.alert, .ok []) else (s, .bare codeBadState))

/-- SPOT is refused BAD_STATE (R80). -/
def State.spotRefused (s : State) : Bool :=
  s.isLeaving || s.isFault || s.mu.config.isNone || s.cfg.spots.isEmpty

/-- The local requester's place joins the list (R75, R80). -/
def State.placeLocal (s : State) : State :=
  { s with acq := { s.acq with spotList := s.acq.spotList ++ [⟨.localPort, false⟩], localPending := true } }

/-- SPOT (R165, R80). -/
def takeSpot (args : List Byte) (s : State) : State × Answer :=
  withoutArgs args s
    (if s.spotRefused then (s, .bare codeBadState)
     else if s.acq.localPending then (s, .bare codeBusy)
     else (s.placeLocal, .ok []))

/-! ## The read session -/

/-- The session opens (R169); the record's reader is yes from then on (R46). -/
def State.beginSession (i : Fin 4) (seq : Word) (s : State) : State :=
  { s with lp := { s.lp with session := some { slot := i, seq := seq, index := 0, phase := .frames } } }

/-- The answer of OPEN_READ, case by case (R169). -/
def State.openSession (i : Fin 4) (seq : Word) (s : State) : State × Answer :=
  if s.lp.session.isSome then (s, .bare codeBusy)
  else match s.recordAt i with
    | none => (s, .bare codeBadState)
    | some r =>
      if r.seq ≠ seq then (s, .bare codeStale)
      else if r.isOpen then (s, .bare codeBadState)
      else
        let t := s.beginSession i seq
        (t, .ok (t.header i r))

/-- OPEN_READ (R169). -/
def takeOpenRead (args : List Byte) (s : State) : State × Answer :=
  match slotArgs args with
  | .error o => (s, .badArg o)
  | .ok a => s.openSession a.1 a.2

/-- The participant list in one response (R171). -/
def CapRecord.listAnswer (r : CapRecord) : Answer := ⟨codeOk, listData r.participants, some .list⟩

/-- The answer of READ in a session on a record (R170, R171). -/
def CapRecord.readAnswer (r : CapRecord) (n : Session) : Answer :=
  match n.phase with
  | .frames =>
    if n.index < r.frames.length then
      ⟨codeOk, chunkData n.index (r.chunk n.index), some (.chunk (r.chunk n.index).length)⟩
    else if r.framesDone && r.answersClosed then r.listAnswer
    else .bare codeDataWait
  | .list => if r.answersClosed then r.listAnswer else .bare codeDataWait
  | .done => .bare codeEnd

/-- The answer of READ. A record under a session is never FREE (R46), so the last case is no station's. -/
def State.readAnswer (s : State) : Answer :=
  match s.lp.session with
  | none => .bare codeBadState
  | some n =>
    match s.recordAt n.slot with
    | some r => r.readAnswer n
    | none => .bare codeBadState

/-- READ (R170, R171). It changes nothing when it is taken (R172). -/
def takeRead (args : List Byte) (s : State) : State × Answer := withoutArgs args s (s, s.readAnswer)

/-- The session ends (R173). -/
def State.endSession (s : State) : State := { s with lp := { s.lp with session := none } }

/-- CLOSE_READ (R173). -/
def takeCloseRead (args : List Byte) (s : State) : State × Answer :=
  withoutArgs args s (if s.lp.session.isSome then (s.endSession, .ok []) else (s, .bare codeBadState))

/-- RELEASE of a slot and sequence number, case by case (Table 2-5). -/
def State.releaseRecord (i : Fin 4) (seq : Word) (s : State) : State × Answer :=
  match s.recordAt i with
  | none => (s, .bare codeBadState)
  | some r =>
    if r.seq ≠ seq then (s, .bare codeStale)
    else if !r.isComplete then (s, .bare codeBadState)
    else if s.reader i then (s, .bare codeBusy)
    else (s.freeRecord i, .ok [])

/-- RELEASE (R167, R47). -/
def takeRelease (args : List Byte) (s : State) : State × Answer :=
  match slotArgs args with
  | .error o => (s, .badArg o)
  | .ok a => s.releaseRecord a.1 a.2

/-! ## ACK_ATTN and SOFT_RESET -/

/-- The causes that a mask names are removed (R175). -/
def State.acknowledge (mask : BitVec 10) (s : State) : State :=
  { s with lp := { s.lp with causes := s.lp.causes &&& ~~~mask } }

/-- ACK_ATTN (R175): a mask bit that names no cause lies in the first byte (R159). -/
def takeAckAttn (args : List Byte) (s : State) : State × Answer :=
  match args with
  | [hi, lo] =>
    if hi.toNat < 4 then
      let t := s.acknowledge ((word16 hi lo).setWidth 10)
      (t, .ok (causeBytes t.lp.causes))
    else (s, .badArg 0)
  | _ => (s, .badArg (min args.length 2))

/-- SOFT_RESET (R168): the reset first, then its OK. -/
def takeSoftReset (args : List Byte) (s : State) : State × Answer := withoutArgs args s (s.softReset, .ok [])

/-! ## Taking a frame (R159) -/

/-- The code byte names a command (R159). -/
def knownCode (code : Byte) : Bool := decide (1 ≤ code.toNat) && decide (code.toNat ≤ 15)

/-- The command of a code byte (Table 9-1). -/
def takeCommand (code : Byte) (args : List Byte) (s : State) : State × Answer :=
  match code.toNat with
  | 1 => takeStatus args s
  | 2 => takeConfigure args s
  | 3 => takeJoin args s
  | 4 => takeLeave args s
  | 5 => takeTrigger args s
  | 6 => takeSpot args s
  | 7 => takeSpotRead args s
  | 8 => takeRecords args s
  | 9 => takeOpenRead args s
  | 10 => takeRead args s
  | 11 => takeCloseRead args s
  | 12 => takeRelease args s
  | 13 => takePeers args s
  | 14 => takeAckAttn args s
  | 15 => takeSoftReset args s
  | _ => (s, .bare codeUnknown)

/-- A complete frame is taken: its check, its code, then the command (R159). -/
def takeFrame (frame : List Byte) (s : State) : State × Answer :=
  if byteSum frame ≠ 0 then (s, .bare codeBadCheck)
  else takeCommand (frame.headD 0) ((frame.drop 2).dropLast) s

/-! ## Transactions (R156, R157) -/

/-- Replaces the transaction in progress, and shifts a byte out. -/
def State.setTransaction (t : Transaction) (sdo : Byte) (s : State) : State :=
  { s with lp := { s.lp with transaction := some t, sdo := sdo } }

/-- The response is formed in the event in which the command was taken (R157). -/
def State.respond (r : State × Answer) : State :=
  match r.1.lp.transaction with
  | none => r.1
  | some t =>
    { r.1 with lp := { r.1.lp with
        transaction := some { t with response := some { bytes := r.2.bytes, shifted := 0, advance := r.2.advance } } } }

/-- The decoder holds a frame whole; it is taken and answered. The byte on SDO is still 00h (R156). -/
def State.answerFrame (t : Transaction) (frame : List Byte) (answer : State → State × Answer) (s : State) : State :=
  State.respond (answer (s.setTransaction { t with decoder := frame } 0))

/-- The transaction can receive the rest of a frame: it is decoded, in the command phase, and the decoder holds a proper
initial part of the frame (R156, R158; log 14). -/
def Transaction.awaits (frame : List Byte) (t : Transaction) : Bool :=
  !t.deaf && t.response.isNone && t.decoder.isPrefixOf frame && t.decoder != frame

/-- The rest of a frame is clocked and the frame is answered; with no transaction that awaits it, the event cannot happen
(log 7, log 14). -/
def State.clockFrame (frame : List Byte) (answer : State → State × Answer) (s : State) : State :=
  match s.lp.transaction with
  | none => s
  | some t => if t.awaits frame then s.answerFrame t frame answer else s

/-- A command's frame is clocked to its end. A length byte counts at most 255 argument bytes (R156). -/
def State.clockCommand (code : Byte) (args : List Byte) (answer : State → State × Answer) (s : State) : State :=
  if argsOk args then s.clockFrame (commandFrame code args) answer else s

/-- The frame is complete, and its check fails or its code names no command (R159). -/
def unknownFrame (frame : List Byte) : Bool :=
  frameComplete frame && (byteSum frame != 0 || !knownCode (frame.headD 0))

/-- The session position advances (R172). -/
def State.advanceSession (a : ReadAdvance) (s : State) : State :=
  match s.lp.session with
  | none => s
  | some n =>
    match a with
    | .list => { s with lp := { s.lp with session := some { n with phase := .done } } }
    | .chunk k =>
      let finished := match s.recordAt n.slot with
        | none => false
        | some r => r.framesDone && n.index + k == r.frames.length
      let n := { n with index := n.index + k, phase := if finished then .list else n.phase }
      { s with lp := { s.lp with session := some n } }

/-- The session's advance, when the response is an OK to READ (R172). -/
def State.advanceBy (a : Option ReadAdvance) (s : State) : State :=
  match a with
  | none => s
  | some a => s.advanceSession a

/-- The next byte of the response is shifted out; after its check byte SDO shows 00h (R156, R172). -/
def State.shiftResponse (t : Transaction) (r : Response) (s : State) : State :=
  match r.bytes[r.shifted]? with
  | none => s.setTransaction t 0
  | some b =>
    let s := s.setTransaction { t with response := some { r with shifted := r.shifted + 1 } } b
    if r.shifted + 1 = r.bytes.length then s.advanceBy r.advance else s

/-- A byte in the command phase: skipped, taken, or completing the frame (R156). -/
def State.takeByte (t : Transaction) (sdi : Byte) (s : State) : State :=
  if t.decoder.isEmpty && sdi == 0 then s.setTransaction t 0
  else
    let frame := t.decoder ++ [sdi]
    if decoderComplete frame then s.answerFrame t frame (takeFrame frame)
    else s.setTransaction { t with decoder := frame } 0

/-- A whole byte is clocked on both lines (R156). `wait`: SDO still gives a wait byte, whose number is open (R157). -/
def State.clockByte (sdi : Byte) (wait : Bool) (s : State) : State :=
  match s.lp.transaction with
  | none => s
  | some t =>
    if t.deaf then s.setTransaction t 0
    else match t.response with
      | none => s.takeByte t sdi
      | some r => if wait && r.shifted == 0 then s.setTransaction t 0 else s.shiftResponse t r

/-- The bytes of an OK response to READ that are left are shifted out, its check byte last (R172; log 14). -/
def State.shiftOutRead (s : State) : State :=
  match s.lp.transaction with
  | none => s
  | some t =>
    match t.response with
    | none => s
    | some r =>
      match r.advance with
      | none => s
      | some a =>
        if r.shifted < r.bytes.length then
          State.advanceSession a
            (s.setTransaction { t with response := some { r with shifted := r.bytes.length } } (r.bytes.getLastD 0))
        else s

/-- SEL_N is asserted (R156, R158). -/
def State.beginTransaction (s : State) : State :=
  match s.lp.transaction with
  | none => { s with lp := { s.lp with transaction := some { deaf := s.lp.initialising, decoder := [], response := none } } }
  | some _ => s

/-- SEL_N is released: a partial frame or the rest of the response is discarded (R157). -/
def State.endTransaction (s : State) : State := { s with lp := { s.lp with transaction := none } }

/-! ## The commands -/

/-- TRANSACTION_BEGIN (R156). -/
def execTransactionBegin (s : State) : Host.Outcome State Fault Refusal := .next s.beginTransaction

/-- SEL_N_RELEASE (R157). -/
def execSelNRelease (s : State) : Host.Outcome State Fault Refusal := .next s.endTransaction

/-- WHOLE_BYTE_CLOCKED (R156). -/
def execWholeByteClocked (sdi : Byte) (wait : Bool) (s : State) : Host.Outcome State Fault Refusal :=
  .next (s.clockByte sdi wait)

/-- READ_RESPONSE_SHIFTED_OUT (R172). -/
def execReadResponseShiftedOut (s : State) : Host.Outcome State Fault Refusal := .next s.shiftOutRead

/-- UNKNOWN_COMMAND (R159). -/
def execUnknownCommand (frame : List Byte) (s : State) : Host.Outcome State Fault Refusal :=
  .next (if unknownFrame frame then s.clockFrame frame (takeFrame frame) else s)

/-- STATUS (R160). -/
def execStatus (args : List Byte) (s : State) : Host.Outcome State Fault Refusal :=
  .next (s.clockCommand 0x01 args (takeStatus args))

/-- CONFIGURE (R161). -/
def execConfigure (args : List Byte) (s : State) : Host.Outcome State Fault Refusal :=
  .next (s.clockCommand 0x02 args (takeConfigure args))

/-- JOIN (R139). -/
def execJoin (args : List Byte) (s : State) : Host.Outcome State Fault Refusal :=
  .next (s.clockCommand 0x03 args (takeJoin args))

/-- LEAVE (R152). -/
def execLeave (args : List Byte) (s : State) : Host.Outcome State Fault Refusal :=
  .next (s.clockCommand 0x04 args (takeLeave args))

/-- TRIGGER (R164). -/
def execTrigger (args : List Byte) (s : State) : Host.Outcome State Fault Refusal :=
  .next (s.clockCommand 0x05 args (takeTrigger args))

/-- SPOT (R80). -/
def execSpot (args : List Byte) (s : State) : Host.Outcome State Fault Refusal :=
  .next (s.clockCommand 0x06 args (takeSpot args))

/-- SPOT_READ (R165). -/
def execSpotRead (args : List Byte) (s : State) : Host.Outcome State Fault Refusal :=
  .next (s.clockCommand 0x07 args (takeSpotRead args))

/-- RECORDS (R166). -/
def execRecords (args : List Byte) (s : State) : Host.Outcome State Fault Refusal :=
  .next (s.clockCommand 0x08 args (takeRecords args))

/-- OPEN_READ (R169). -/
def execOpenRead (args : List Byte) (s : State) : Host.Outcome State Fault Refusal :=
  .next (s.clockCommand 0x09 args (takeOpenRead args))

/-- READ (R170). -/
def execRead (args : List Byte) (s : State) : Host.Outcome State Fault Refusal :=
  .next (s.clockCommand 0x0A args (takeRead args))

/-- CLOSE_READ (R173). -/
def execCloseRead (args : List Byte) (s : State) : Host.Outcome State Fault Refusal :=
  .next (s.clockCommand 0x0B args (takeCloseRead args))

/-- RELEASE (R47). -/
def execRelease (args : List Byte) (s : State) : Host.Outcome State Fault Refusal :=
  .next (s.clockCommand 0x0C args (takeRelease args))

/-- PEERS (R166). -/
def execPeers (args : List Byte) (s : State) : Host.Outcome State Fault Refusal :=
  .next (s.clockCommand 0x0D args (takePeers args))

/-- ACK_ATTN (R175). -/
def execAckAttn (args : List Byte) (s : State) : Host.Outcome State Fault Refusal :=
  .next (s.clockCommand 0x0E args (takeAckAttn args))

/-- SOFT_RESET (R168). -/
def execSoftReset (args : List Byte) (s : State) : Host.Outcome State Fault Refusal :=
  .next (s.clockCommand 0x0F args (takeSoftReset args))

end Sys2Proof.Machine
end

