-- ==== Sys2Proof/Machine/Dispatch.lean ====
section
/-! DEFINITION. One arm per command: its meaning. -/

namespace Sys2Proof.Machine

def exec (i : Instr) (s : State) : Host.Outcome State Fault Refusal :=
  match i with
  | .pinReset addr rate => Sys2Proof.Machine.execPinReset addr rate s
  | .initialisationComplete => Sys2Proof.Machine.execInitialisationComplete s
  | .selNRelease => Sys2Proof.Machine.execSelNRelease s
  | .readResponseShiftedOut => Sys2Proof.Machine.execReadResponseShiftedOut s
  | .unknownCommand frame => Sys2Proof.Machine.execUnknownCommand frame s
  | .status args => Sys2Proof.Machine.execStatus args s
  | .configure args => Sys2Proof.Machine.execConfigure args s
  | .join args => Sys2Proof.Machine.execJoin args s
  | .leave args => Sys2Proof.Machine.execLeave args s
  | .trigger args => Sys2Proof.Machine.execTrigger args s
  | .spot args => Sys2Proof.Machine.execSpot args s
  | .spotRead args => Sys2Proof.Machine.execSpotRead args s
  | .records args => Sys2Proof.Machine.execRecords args s
  | .openRead args => Sys2Proof.Machine.execOpenRead args s
  | .read args => Sys2Proof.Machine.execRead args s
  | .closeRead args => Sys2Proof.Machine.execCloseRead args s
  | .release args => Sys2Proof.Machine.execRelease args s
  | .peers args => Sys2Proof.Machine.execPeers args s
  | .ackAttn args => Sys2Proof.Machine.execAckAttn args s
  | .softReset args => Sys2Proof.Machine.execSoftReset args s
  | .tick order => Sys2Proof.Machine.execTick order s
  | .markPulseEnd order => Sys2Proof.Machine.execMarkPulseEnd order s
  | .markStuck order => Sys2Proof.Machine.execMarkStuck order s
  | .tickWrap order => Sys2Proof.Machine.execTickWrap order s
  | .peerExpiry order => Sys2Proof.Machine.execPeerExpiry order s
  | .claimTimeout order => Sys2Proof.Machine.execClaimTimeout order s
  | .answerWindowExpiry order => Sys2Proof.Machine.execAnswerWindowExpiry order s
  | .listenWindowExpiry order => Sys2Proof.Machine.execListenWindowExpiry order s
  | .markEvent => Sys2Proof.Machine.execMarkEvent s
  | .markRelease => Sys2Proof.Machine.execMarkRelease s
  | .copyStep slot => Sys2Proof.Machine.execCopyStep slot s
  | .sweepConversionEnd code => Sys2Proof.Machine.execSweepConversionEnd code s
  | .sweepResume => Sys2Proof.Machine.execSweepResume s
  | .spotRunBegin => Sys2Proof.Machine.execSpotRunBegin s
  | .spotConversionEnd code => Sys2Proof.Machine.execSpotConversionEnd code s
  | .selfCheckBegin => Sys2Proof.Machine.execSelfCheckBegin s
  | .selfCheckConversionEnd code => Sys2Proof.Machine.execSelfCheckConversionEnd code s
  | .frameStart bits => Sys2Proof.Machine.execFrameStart bits s
  | .arbitrationWin => Sys2Proof.Machine.execArbitrationWin s
  | .arbitrationLoss => Sys2Proof.Machine.execArbitrationLoss s
  | .txAttemptFail reason => Sys2Proof.Machine.execTxAttemptFail reason s
  | .frameVetoed frame => Sys2Proof.Machine.execFrameVetoed frame s
  | .frameDiscarded frame => Sys2Proof.Machine.execFrameDiscarded frame s
  | .frameAccepted frame muFirst order => Sys2Proof.Machine.execFrameAccepted frame muFirst order s
  | .transactionBegin => Sys2Proof.Machine.execTransactionBegin s
  | .wholeByteClocked sdi wait => Sys2Proof.Machine.execWholeByteClocked sdi wait s
  | .startBitRead bits => Sys2Proof.Machine.execStartBitRead bits s

end Sys2Proof.Machine
end

