-- ==== Sys2Proof/Safety.lean ====
section
/-! DEFINITION. What may be relied on in every state that a run reaches, said on one state. -/

namespace Sys2Proof.Machine

/-- The outcome is a next state with a property. -/
def NextHolds (o : Host.Outcome State Fault Refusal) (p : State → Prop) : Prop := ∃ t, o = .next t ∧ p t

/-! ## The local port's side of a statement -/

/-- A command's frame is awaited: the transaction in progress is decoded and in the command phase, and its decoder holds a
proper initial part of the frame (R156, R158). -/
def State.AwaitsCommand (s : State) (code : Byte) (args : List Byte) : Prop :=
  args.length ≤ 255 ∧ ∃ t, s.lp.transaction = some t ∧ t.deaf = false ∧ t.response = none ∧
    t.decoder <+: commandFrame code args ∧ t.decoder ≠ commandFrame code args

/-- The state with a command taken and its response formed: status, length, data, check; nothing shifted out yet (R157). -/
def State.answered (s : State) (code : Byte) (args : List Byte) (status : Byte) (data : List Byte)
    (advance : Option ReadAdvance) : State :=
  { s with lp := { s.lp with
      sdo := 0
      transaction := some
        { deaf := false, decoder := commandFrame code args
          response := some
            { bytes := withCheck (status :: byteOf data.length :: data), shifted := 0, advance := advance } } } }

/-! ## The pair's side of a statement -/

/-- The station reads a frame on the pair as a receiver: its receiver is on, a frame is in progress with its veto bit still
to come, and no message of its own contends or is in transmission (R115, R121). -/
def State.ReadsAsReceiver (s : State) : Prop :=
  (s.mu.station = .listen ∨ s.mu.station = .member ∨ s.mu.station = .leaving) ∧
    (s.lc.view = .reading ∨ s.lc.view = .readingNoVeto) ∧ ∀ m ∈ s.lc.queue, m.cond = .queued

/-- The frame's CRC is good at this station: over the bits as it read them (R117). -/
def CrcGood (f : WireFrame) : Prop := f.crc = crcOf f.kind f.sender f.delimiter f.payload

/-- The sound frame of a message (R116, R117): its fields, a good CRC, its presence bit dominant. -/
def Carries (f : WireFrame) (p : Payload) : Prop :=
  f.kind = p.kind ∧ f.payload = p.encode ∧ CrcGood f ∧ f.presence = true

/-- The message is the one of this station in transmission. -/
def State.Transmits (s : State) (m : Msg) : Prop :=
  m ∈ s.lc.queue ∧ m.cond = .inTransmission ∧ ∀ x ∈ s.lc.queue, x.cond = .inTransmission → x = m

/-- The messages of the queue that are not in transmission. -/
def State.othersQueued (s : State) : List Msg := s.lc.queue.filter (fun x => decide (x.cond ≠ .inTransmission))

/-- What the acceptance of another station's frame does at LC when it brings no epoch start, no fault and no entry into
MEMBER: the veto count returns to 0, the current observation moves from EMPTY to ACCEPTED, and the frame comes to its end
field, three bits before its end (R115, R116, R122, R130, R133). -/
def AcceptedAtLc (s t : State) : Prop :=
  t.lc.vetoCount = 0 ∧ t.lc.obsCur = (if s.lc.obsCur = .empty then .accepted else s.lc.obsCur) ∧
    t.lc.view = .ending 3 ∧ t.lc.idle = 0 ∧ t.lc.obsPrev = s.lc.obsPrev ∧ t.lc.mute = s.lc.mute ∧
    t.lc.failCount = s.lc.failCount

/-- The sender's entry is MISMATCH once Membership has updated it from a CLAIM or FROZEN (Table 8-3). -/
def State.MismatchAfter (s : State) (sender : Station) : Prop :=
  (s.peerAt sender.toNat).state = .mismatch ∨
    ((s.peerAt sender.toNat).state = .absent ∧ (s.peerAt sender.toNat).digestMatches = some false)

/-- A submission that is no EPOCH, HELLO, PRESENT or BYE finds no room: LC is MUTE or 11 messages other than EPOCH stand in
the queue (R126). -/
def State.NoRoom (s : State) (queue : List Msg) : Prop :=
  s.lc.mute = true ∨ 11 ≤ (queue.filter (fun q => !q.payload.isEpoch)).length

/-! ## A write into the ring, at the records (R55, R59, R61, R62) -/

/-- The frames that a write of `f` copies into a record: `f` when its cursor stands on the new frame's number; the oldest
frame when it stands on the one that the write overwrites, and then `f` too where the cursor so moved stands on it. -/
def State.copiedAtWrite (s : State) (f : Frame) (r : CapRecord) : List Frame :=
  match r.cursor with
  | none => []
  | some k =>
    if k = s.hr.nextWrite then [f]
    else if s.hr.frames.length = s.depth ∧ k = s.hr.nextWrite - BitVec.ofNat 32 s.depth then
      s.hr.frames.take 1 ++ (if k + 1 = s.hr.nextWrite ∧ r.frames.length + 1 ≠ r.total then [f] else [])
    else []

/-- `r'` is the record `r` after the frames `copied` were copied into it, one after another, each as R59 gives: stored at
the end, the cursor moved on or dropped at the frame total, the flags examined (R41, R42), completion once the answers are
closed (R37). -/
def TakesFrames (copied : List Frame) (r r' : CapRecord) : Prop :=
  let finished := decide ((r.frames ++ copied).length = r.total)
  r'.frames = r.frames ++ copied ∧
    r'.cursor = (if copied = [] then r.cursor
      else if finished then none else r.cursor.map (fun k => k + BitVec.ofNat 32 copied.length)) ∧
    r'.framesDone = (if copied = [] then r.framesDone else finished) ∧
    r'.flags.incompleteFrames = (r.flags.incompleteFrames || copied.any (fun g => g.tag1.getLsbD 12)) ∧
    r'.flags.timeSlip = (r.flags.timeSlip ||
      copied.zipIdx.any (fun (g, j) => g.tag1.getLsbD 14 && decide (r.pre + 1 ≤ r.frames.length + j))) ∧
    (copied ≠ [] → ∀ c, r.phase = .filling c → c.answersClosed = true →
      r'.phase = if finished then .complete c else .filling c) ∧
    r'.seq = r.seq ∧ r'.mark = r.mark ∧ r'.pre = r.pre ∧ r'.total = r.total ∧ r'.words = r.words

/-! ## An epoch start, by wrap or by adoption (R101) -/

/-- The epochs from `h` forward to `e`, in the order of succession: 1 follows 4294967295 (R100). -/
def forwardTo (e h : Word32) : Nat := if h.toNat ≤ e.toNat then e.toNat - h.toNat else e.toNat + 4294967295 - h.toNat

/-- The entry expires at an epoch start with number `e`: PRESENT, last heard 3 or more epochs back (R149). -/
def Peer.dueAt (e : Word32) (p : Peer) : Bool := decide (p.state = .present) && decide (3 ≤ forwardTo e (p.lastHeard.getD 0))

/-- What an epoch start makes of an open-mark entry (R22, R23). `t` is the state after it. -/
def MarkAtEpochStart (m : Mark) (t : State) : Prop :=
  (m.deferred = true → ∃ x ∈ t.cc.marks, x.id = m.id ∧ x.point = m.point ∧ x.deferred = true) ∧
  (m.deferred = false → m.starts = 0 →
    ∃ x ∈ t.cc.marks, x.id = m.id ∧ x.point = m.point ∧ x.starts = 1 ∧ x.deferred = false) ∧
  (m.deferred = false → m.starts ≠ 0 → m.claim = .inTransmission → m.originator = true →
    ∃ x ∈ t.cc.marks, x.id = m.id ∧ x.point = m.point ∧ x.deferred = true) ∧
  (m.deferred = false → m.starts ≠ 0 → m.claim ≠ .inTransmission →
    (∀ x ∈ t.cc.marks, x.id ≠ m.id) ∧ t.hasCause .captureAbandoned = true ∧
    (∀ i, m.slot = some i → t.recordAt i = none) ∧ t.cc.lineEntry ≠ .entry m.id ∧
    (∀ q ∈ t.lc.queue, q.mark = some m.id → q.cond = .inTransmission))

/-- What an epoch start makes of a record whose answer window is open (R25, R26, R37): the first is counted; at the second
the silent stations of the expected set get NO_ANSWER in ascending order, and the record is COMPLETE exactly when it is
frames-done. -/
def WindowAtEpochStart (c : Capture) (r : CapRecord) : Prop :=
  (c.answerCount = 0 → r.phase = .filling { c with answerCount := 1 }) ∧
  (c.answerCount ≠ 0 → r.isComplete = r.framesDone ∧ ∃ c', (r.phase = .filling c' ∨ r.phase = .complete c') ∧
    c'.answersClosed = true ∧ c'.key = c.key ∧ c'.expected = c.expected ∧
    c'.participants = c.participants ++
      ((List.range 24).filter (fun n =>
        c.expected.getLsbD n && !c.participants.any (fun p => p.station.toNat == n))).map
        (fun n => ⟨BitVec.ofNat 5 n, .noAnswer, 0⟩))

/-! ## The configuration block (Tables 9-3, 10-4) -/

/-- The time of a list's conversions by their sample codes (R67). -/
def listTime (codes : List Nat) : Nat := (codes.map (fun c => 2 ^ c + 2)).sum

/-- Every value of the block lies in the range of Table 9-3. -/
def Configuration.InRange (c : Configuration) : Prop :=
  20 ≤ c.tickPeriod ∧ c.tickPeriod ≤ 10000 ∧ 256 ≤ c.epochLen ∧ c.epochLen ≤ 65535 ∧
    1 ≤ c.sweep.length ∧ c.sweep.length ≤ 12 ∧ c.spots.length ≤ 4 ∧ c.monitors.length ≤ 8 ∧
    c.npre + 1 ≤ 4096 / (c.sweep.length + 2) ∧ 1 ≤ c.npost ∧ c.npre + c.npost ≤ 4096 / (c.sweep.length + 2) ∧
    (∀ e ∈ c.sweep, e.channel ≤ 6 ∧ e.sampleCode ≤ 3 ∧ e.offset ≤ 4095) ∧
    listTime (c.sweep.map SweepEntry.sampleCode) ≤ c.tickPeriod ∧
    (∀ e ∈ c.spots, e.channel ≤ 6 ∧ e.sampleCode ≤ 3) ∧
    listTime (c.spots.map SpotEntry.sampleCode) ≤ c.tickPeriod ∧
    (∀ m ∈ c.monitors, 1 ≤ m.entry ∧ m.entry ≤ c.sweep.length ∧ 1 ≤ m.persistence ∧ m.persistence ≤ 255 ∧
      -4095 ≤ m.low ∧ m.low ≤ m.high ∧ m.high ≤ 4095)

/-- The bytes of the block, field by field (Tables 9-3, 10-4). -/
def Configuration.block (c : Configuration) : List Byte :=
  bytes16 (wordOf c.tickPeriod) ++ bytes16 (wordOf c.epochLen) ++
    [byteOf c.sweep.length, byteOf c.spots.length, byteOf c.monitors.length] ++
    bytes16 (wordOf c.npre) ++ bytes16 (wordOf c.npost) ++ [bitAt c.replace 0 ||| bitAt c.retain 1] ++
    c.sweep.flatMap (fun e => byteOf e.channel :: byteOf e.sampleCode :: bytes16 (wordOf e.offset)) ++
    c.spots.flatMap (fun e => [byteOf e.channel, byteOf e.sampleCode]) ++
    c.monitors.flatMap (fun m =>
      byteOf m.entry :: byteOf m.persistence :: (bytes16 (BitVec.ofInt 16 m.low) ++ bytes16 (BitVec.ofInt 16 m.high)))

/-- Every value of the block fits the bytes that carry it. -/
def Configuration.Encodable (c : Configuration) : Prop :=
  c.tickPeriod < 65536 ∧ c.epochLen < 65536 ∧ c.npre < 65536 ∧ c.npost < 65536 ∧
    c.sweep.length < 256 ∧ c.spots.length < 256 ∧ c.monitors.length < 256 ∧
    (∀ e ∈ c.sweep, e.channel < 256 ∧ e.sampleCode < 256 ∧ e.offset < 65536) ∧
    (∀ e ∈ c.spots, e.channel < 256 ∧ e.sampleCode < 256) ∧
    (∀ m ∈ c.monitors, m.entry < 256 ∧ m.persistence < 256 ∧ -32768 ≤ m.low ∧ m.low ≤ 32767 ∧ -32768 ≤ m.high ∧
      m.high ≤ 32767)

/-- A field of the block: its first byte, its bytes, and whether its value is in range (R162). -/
structure BlockField where
  offset  : Nat
  width   : Nat
  inRange : Bool
  deriving DecidableEq, Repr

/-- The fields of Table 9-3 in the order of their offsets, but for the flags byte, whose values a Configuration cannot
leave out of range. The sweep and spot times are checked entry by entry, and a monitor's limits against each other at its
high limit (R162). -/
def Configuration.fields (c : Configuration) : List BlockField :=
  let depth := 4096 / (c.sweep.length + 2)
  [⟨0, 2, decide (20 ≤ c.tickPeriod ∧ c.tickPeriod ≤ 10000)⟩, ⟨2, 2, decide (256 ≤ c.epochLen ∧ c.epochLen ≤ 65535)⟩,
    ⟨4, 1, decide (1 ≤ c.sweep.length ∧ c.sweep.length ≤ 12)⟩, ⟨5, 1, decide (c.spots.length ≤ 4)⟩,
    ⟨6, 1, decide (c.monitors.length ≤ 8)⟩, ⟨7, 2, decide (c.npre + 1 ≤ depth)⟩,
    ⟨9, 2, decide (1 ≤ c.npost ∧ c.npre + c.npost ≤ depth)⟩] ++
  c.sweep.zipIdx.flatMap (fun (e, k) =>
    [⟨12 + 4 * k, 1, decide (e.channel ≤ 6)⟩,
      ⟨13 + 4 * k, 1, decide (e.sampleCode ≤ 3 ∧
        listTime ((c.sweep.take (k + 1)).map SweepEntry.sampleCode) ≤ c.tickPeriod)⟩,
      ⟨14 + 4 * k, 2, decide (e.offset ≤ 4095)⟩]) ++
  c.spots.zipIdx.flatMap (fun (e, k) =>
    let base := 12 + 4 * c.sweep.length + 2 * k
    [⟨base, 1, decide (e.channel ≤ 6)⟩,
      ⟨base + 1, 1, decide (e.sampleCode ≤ 3 ∧
        listTime ((c.spots.take (k + 1)).map SpotEntry.sampleCode) ≤ c.tickPeriod)⟩]) ++
  c.monitors.zipIdx.flatMap (fun (m, k) =>
    let base := 12 + 4 * c.sweep.length + 2 * c.spots.length + 6 * k
    [⟨base, 1, decide (1 ≤ m.entry ∧ m.entry ≤ c.sweep.length)⟩,
      ⟨base + 1, 1, decide (1 ≤ m.persistence ∧ m.persistence ≤ 255)⟩,
      ⟨base + 2, 2, decide (-4095 ≤ m.low ∧ m.low ≤ 4095)⟩,
      ⟨base + 4, 2, decide (-4095 ≤ m.high ∧ m.high ≤ 4095 ∧ m.low ≤ m.high)⟩])

/-! ## Invariants -/

/-- R7: the open-mark list holds at most 6 entries; their identities (log 4) are distinct and already given out. -/
def MarksBounded (s : State) : Prop :=
  s.cc.marks.length ≤ 6 ∧ (s.cc.marks.map Mark.id).Nodup ∧ ∀ m ∈ s.cc.marks, m.id < s.cc.nextMark

/-- R7: every OPEN record is the slot of exactly one open-mark entry, and the slot that an entry holds is that of an OPEN
record. -/
def OpenReferenced (s : State) : Prop :=
  (∀ i r, s.recordAt i = some r → r.phase = .opened →
    ∃ m ∈ s.cc.marks, m.slot = some i ∧ ∀ x ∈ s.cc.marks, x.slot = some i → x = m) ∧
  (∀ m ∈ s.cc.marks, ∀ i, m.slot = some i → ∃ r, s.recordAt i = some r ∧ r.phase = .opened)

/-- The message is a HELLO, PRESENT or BYE. -/
def Msg.ofMembership (m : Msg) : Bool := m.payload.isHelloOrPresent || m.payload.isBye

/-- R125: at most one EPOCH, at most 11 others, at most one HELLO, PRESENT or BYE, so at most 12 messages. -/
def QueueBounded (s : State) : Prop :=
  (s.lc.queue.filter (fun m => m.payload.isEpoch)).length ≤ 1 ∧
    (s.lc.queue.filter (fun m => !m.payload.isEpoch)).length ≤ 11 ∧
    (s.lc.queue.filter Msg.ofMembership).length ≤ 1

/-- R2: a station drives MARK_N only while it is MEMBER and not MUTE. -/
def DrivesAsAllowed (s : State) : Prop := s.driving = true → s.isMember = true ∧ s.lc.mute = false

/-- R81: a self-check is in progress only in CHECKING. -/
def SelfCheckInChecking (s : State) : Prop := s.acq.selfCheck.isSome = true → s.isChecking = true

/-- R132: the queue of a MUTE station is empty (R131 flushes it, R126 refuses). -/
def MuteQueueEmpty (s : State) : Prop := s.lc.mute = true → s.lc.queue = []

/-- R13, log 4: only a CLAIM stands for an open-mark entry. -/
def MarkedAreClaims (s : State) : Prop := ∀ q ∈ s.lc.queue, q.mark ≠ none → ∃ p, q.payload = .claim p

/-- R118, R125, R129: only a MEMBER or LEAVING station has messages; LEAVING holds BYE alone; at most one message contends
or is in transmission, and it does so in a frame that is in progress. -/
def SpeaksInTurn (s : State) : Prop :=
  (s.lc.queue ≠ [] → s.isMember = true ∨ s.isLeaving = true) ∧
    (s.isLeaving = true → ∀ m ∈ s.lc.queue, m.payload = .bye) ∧
    (s.lc.queue.filter (fun m => decide (m.cond ≠ .queued))).length ≤ 1 ∧
    ((∃ m ∈ s.lc.queue, m.cond ≠ .queued) → s.lc.view = .reading)

/-- The capture key of the record in a slot: present in FILLING and COMPLETE (Table 2-2). -/
def State.keyAt (s : State) (i : Fin 4) : Option Key := ((s.recordAt i).bind CapRecord.capture).map Capture.key

/-- R15, R40: no two records of a station carry the same key. -/
def KeysDistinct (s : State) : Prop := ∀ i j : Fin 4, ∀ k : Key, s.keyAt i = some k → s.keyAt j = some k → i = j

/-- R39: the opening order holds each record that is not FREE, once, and no other. -/
def OpeningOrder (s : State) : Prop := s.cc.opening.Nodup ∧ ∀ i : Fin 4, i ∈ s.cc.opening ↔ (s.recordAt i).isSome = true

/-- R37: a FILLING record is not both frames-done and answers-closed. -/
def FillingUnfinished (s : State) : Prop :=
  ∀ i r, s.recordAt i = some r → r.isFilling = true → ¬(r.framesDone = true ∧ r.answersClosed = true)

/-- R144: the entry of this station's own number stays ABSENT, with its other fields absent. -/
def OwnEntryCleared (s : State) : Prop := s.peerAt s.mu.number.toNat = Peer.cleared

/-- R100: the epoch number of a MEMBER is not 0. -/
def MemberEpochPositive (s : State) : Prop := s.isMember = true → s.et.epoch ≠ 0

/-- Table 9-3: the sweep list in force has 1 to 12 entries, and E is 256 to 65535. -/
def ConfigInRange (s : State) : Prop :=
  ∀ c, s.mu.config = some c →
    1 ≤ c.sweep.length ∧ c.sweep.length ≤ 12 ∧ 256 ≤ c.epochLen ∧ c.epochLen ≤ 65535

/-- R54: the ring's frames are made to its geometry, its write position is a place, and its frame words fit. -/
def RingLaidOut (s : State) (g : Geometry) : Prop :=
  s.hr.geometry = some g ∧ 1 ≤ g.depth ∧ 1 ≤ g.words ∧ s.hr.writePos < g.depth ∧ s.hr.frames.length ≤ g.depth ∧
    ∀ f ∈ s.hr.frames, f.wordList.length = g.words

/-- R54: the ring has a geometry of at least one place while the station is MEMBER, and holds at most D frames. -/
def RingBounded (s : State) : Prop :=
  (s.isMember = true → s.hr.geometry.isSome = true) ∧ (∀ g, s.hr.geometry = some g → 1 ≤ g.depth) ∧
    s.hr.frames.length ≤ s.depth

/-- R54, R69: the ring is laid out by its geometry; in MEMBER that geometry is the configuration's, and so is the width of
the frame under assembly. -/
def RingFormed (s : State) : Prop :=
  (s.hr.geometry = none → s.hr.frames = []) ∧ (∀ g, s.hr.geometry = some g → RingLaidOut s g) ∧
    (s.isMember = true →
      s.hr.geometry = some { words := s.cfg.sweep.length + 2, depth := 4096 / (s.cfg.sweep.length + 2) } ∧
      ∀ a, s.acq.assembly = some a → a.values.length = s.cfg.sweep.length)

/-- R137, R139: outside CONFIG and FAULT a configuration is in force. -/
def JoinedConfigured (s : State) : Prop :=
  s.isConfig = false → s.isFault = false → s.mu.config.isSome = true

/-- R99: the tick counter of a MEMBER is 0 to E−1. -/
def CounterInEpoch (s : State) : Prop := s.isMember = true → s.et.counter.toNat < s.cfg.epochLen

end Sys2Proof.Machine
end

