-- ==== Sys2Proof/Certificates/Slice0/Obligations.lean ====
section
/-! DEFINITION. The statements for the provers. -/

open Sys2Proof Sys2Proof.Machine

/-! ## The queue of commands -/

/-- A step runs the command at the front of the queue on the state with the queue's rest. -/
def Obligations.StepTakesFront : Prop :=
  ∀ (c : Instr) (s : State) (rest : List Instr),
    step { s with pending := c :: rest } = exec c { s with pending := rest }

/-- Every command completes in a next state, and none touches the queue. Both are the model's choice, no rule of the spec:
a command whose event cannot happen answers the same state and none faults or refuses (log 7, DESIGN CHOICE), and the queue
of commands is the model's own (log 16). -/
def Obligations.ExecKeepsQueue : Prop := ∀ (c : Instr) (s : State), ∃ t, exec c s = .next t ∧ t.pending = s.pending

/-! ## Resets -/

/-- What a pin reset leaves, block by block (R53 of the records; Tables 4-2, 6-3, 8-5; R32, R65, R96, R135, R136, R176).
SDO's level after it is the model's choice (log 6) and is not said. -/
def Obligations.PinResetState : Prop :=
  ∀ (addr : Station) (rate : BitVec 2) (s : State), ∃ t, exec (.pinReset addr rate) s = .next t ∧
    t.mu.station = (if 24 ≤ addr.toNat then .fault .strap else .config) ∧ t.mu.number = addr ∧ t.mu.rate = rate ∧
    t.mu.config = none ∧ t.mu.digest = 0 ∧ t.mu.listenLength = 0 ∧ t.mu.listenCount = 0 ∧ t.mu.spoken = false ∧
    (∀ n, n < 24 → t.mu.peers[n]? = some ⟨.absent, none, none, none, none⟩) ∧
    t.et = { running := false, counter := 0, epoch := 0, transit := 0, own := .none } ∧
    t.lc.idle = 0 ∧ t.lc.view = .none ∧ t.lc.queue = [] ∧ t.lc.failCount = 0 ∧ t.lc.vetoCount = 0 ∧
    t.lc.mute = false ∧ t.lc.obsCur = .empty ∧ t.lc.obsPrev = .empty ∧ t.receiverOn = false ∧
    t.cc.driver = .idle ∧ t.cc.lineEntry = .empty ∧ t.cc.stuck = 0 ∧ t.cc.marks = [] ∧
    (∀ i, t.recordAt i = none) ∧ (∀ i, t.reader i = false) ∧ t.cc.opening = [] ∧ t.cc.seqCounter = 0 ∧
    t.freeCount = 4 ∧
    t.hr.geometry = none ∧ t.hr.nextWrite = 0 ∧ t.hr.frames = [] ∧ t.tm.monitors = [] ∧
    t.acq = { converter := .idle, assembly := none, slipPending := false, spotList := [], run := none,
              localPending := false, lastSpot := none, selfCheck := none, lastMean := none } ∧
    t.lp.initialising = true ∧ t.lp.transaction = none ∧ t.lp.session = none ∧ t.lp.causes = 0 ∧
    t.attnAsserted = false

/-- What SOFT_RESET leaves, block by block (R31, R52; Tables 2-6, 4-2, 6-3, 8-5, 9-5; R65, R96, R135, R176), and its
answer OK in the same transaction (R168). -/
def Obligations.SoftResetState : Prop :=
  ∀ s : State, s.AwaitsCommand 0x0F [] → ∃ t, exec (.softReset []) s = .next t ∧
    t.mu.station = (if s.mu.station = .fault .strap then .fault .strap else .config) ∧
    t.mu.number = s.mu.number ∧ t.mu.rate = s.mu.rate ∧ t.mu.config = s.mu.config ∧ t.mu.digest = s.mu.digest ∧
    t.mu.listenLength = 0 ∧ t.mu.listenCount = 0 ∧ t.mu.spoken = false ∧
    (∀ n, n < 24 → t.mu.peers[n]? = some ⟨.absent, none, none, none, none⟩) ∧
    t.et = { running := false, counter := 0, epoch := 0, transit := 0, own := .none } ∧
    t.lc.idle = 0 ∧ t.lc.view = .none ∧ t.lc.queue = [] ∧ t.lc.failCount = 0 ∧ t.lc.vetoCount = 0 ∧
    t.lc.mute = false ∧ t.lc.obsCur = .empty ∧ t.lc.obsPrev = .empty ∧ t.receiverOn = false ∧
    t.cc.driver = .idle ∧ t.cc.lineEntry = .empty ∧ t.cc.stuck = 0 ∧ t.cc.marks = [] ∧
    (∀ i, s.recordAt i = none → t.recordAt i = none) ∧
    (∀ i r, s.recordAt i = some r → (r.isComplete = false ∨ s.cfg.retain = false) → t.recordAt i = none) ∧
    (∀ i r, s.recordAt i = some r → r.isComplete = true → s.cfg.retain = true →
      t.recordAt i = some { r with
        spotRequest := if r.spotRequest = .placed then .withdrawn else r.spotRequest }) ∧
    (∀ i, t.reader i = false) ∧ t.cc.opening = s.cc.opening.filter (fun i => (t.recordAt i).isSome) ∧
    t.cc.seqCounter = s.cc.seqCounter ∧
    t.hr.geometry = s.hr.geometry ∧ t.hr.nextWrite = 0 ∧ t.hr.frames = [] ∧
    t.tm.monitors = s.cfg.monitors.map (fun _ => ⟨.armed, 0⟩) ∧
    t.acq = { converter := .idle, assembly := none, slipPending := false, spotList := [], run := none,
              localPending := false, lastSpot := none, selfCheck := none, lastMean := s.acq.lastMean } ∧
    t.lp.initialising = s.lp.initialising ∧ t.lp.session = none ∧ t.lp.causes = 0 ∧ t.attnAsserted = false ∧
    t.lp.transaction = some
      { deaf := false, decoder := [], response := some { bytes := [0x80, 0x00, 0x80], shifted := 0, advance := none } }

/-! ## Transactions and frames -/

/-- The initialisation flag is cleared (R158); a transaction begins with the decoder empty, and notes the flag (R156,
R158); SEL_N's release discards what is left of it (R157). Nothing else changes: that SDO keeps its last byte after the
release is the model's choice (log 6, DESIGN CHOICE, unsafe). -/
def Obligations.TransactionPhases : Prop :=
  ∀ s : State,
    exec .initialisationComplete s = .next { s with lp := { s.lp with initialising := false } } ∧
    (s.lp.transaction = none → exec .transactionBegin s = .next { s with lp := { s.lp with
      transaction := some { deaf := s.lp.initialising, decoder := [], response := none } } }) ∧
    exec .selNRelease s = .next { s with lp := { s.lp with transaction := none } }

/-- A whole byte clocked, but for the byte that completes a good command frame and the check byte of READ's OK: SDO gives
00h in the command phase, wait bytes, then the response's bytes in order, then 00h (R156, R158). -/
def Obligations.ByteClocked : Prop :=
  ∀ (s : State) (t : Transaction) (sdi : Byte) (wait : Bool), s.lp.transaction = some t →
    (t.deaf = true → exec (.wholeByteClocked sdi wait) s = .next { s with lp := { s.lp with sdo := 0 } }) ∧
    (t.deaf = false → t.response = none →
      (t.decoder = [] → sdi = 0 →
        exec (.wholeByteClocked sdi wait) s = .next { s with lp := { s.lp with sdo := 0 } }) ∧
      (¬(t.decoder = [] ∧ sdi = 0) →
        ((t.decoder ++ [sdi]).length ≠ 3 + ((t.decoder ++ [sdi]).getD 1 0).toNat →
          exec (.wholeByteClocked sdi wait) s = .next { s with lp := { s.lp with
            sdo := 0, transaction := some { t with decoder := t.decoder ++ [sdi] } } }) ∧
        ((t.decoder ++ [sdi]).length = 3 + ((t.decoder ++ [sdi]).getD 1 0).toNat → byteSum (t.decoder ++ [sdi]) ≠ 0 →
          exec (.wholeByteClocked sdi wait) s = .next { s with lp := { s.lp with
            sdo := 0
            transaction := some { t with
              decoder := t.decoder ++ [sdi]
              response := some { bytes := [0xC3, 0x00, 0x3D], shifted := 0, advance := none } } } }))) ∧
    (∀ r, t.deaf = false → t.response = some r →
      (wait = true → r.shifted = 0 →
        exec (.wholeByteClocked sdi wait) s = .next { s with lp := { s.lp with sdo := 0 } }) ∧
      (¬(wait = true ∧ r.shifted = 0) →
        (r.bytes.length ≤ r.shifted →
          exec (.wholeByteClocked sdi wait) s = .next { s with lp := { s.lp with sdo := 0 } }) ∧
        (r.shifted < r.bytes.length → (r.shifted + 1 < r.bytes.length ∨ r.advance = none) →
          exec (.wholeByteClocked sdi wait) s = .next { s with lp := { s.lp with
            sdo := r.bytes.getD r.shifted 0
            transaction := some { t with response := some { r with shifted := r.shifted + 1 } } } })))

/-- The byte that completes a command frame whose check is good takes that command, as its own row does (R156, R159). -/
def Obligations.ClockedFrameIsCommand : Prop :=
  ∀ (s : State) (t : Transaction) (sdi : Byte) (wait : Bool) (args : List Byte),
    s.lp.transaction = some t → t.deaf = false → t.response = none → args.length ≤ 255 →
    ∀ c ∈ [((0x01 : Byte), Instr.status args), (0x02, .configure args), (0x03, .join args), (0x04, .leave args),
        (0x05, .trigger args), (0x06, .spot args), (0x07, .spotRead args), (0x08, .records args),
        (0x09, .openRead args), (0x0A, .read args), (0x0B, .closeRead args), (0x0C, .release args),
        (0x0D, .peers args), (0x0E, .ackAttn args), (0x0F, .softReset args)],
      t.decoder ++ [sdi] = commandFrame c.1 args → exec (.wholeByteClocked sdi wait) s = exec c.2 s

/-- The refusals of R159's steps 1 to 3, none of which changes the station: BAD_CHECK for a frame whose sum is not 0;
UNKNOWN for a code that names no command; BAD_ARG, for a command with a fixed argument count (Table 9-1), at the smaller of
that count and the given length. -/
def Obligations.FramesRefused : Prop :=
  (∀ (s : State) (t : Transaction) (code n : Byte) (rest : List Byte),
    s.lp.transaction = some t → t.deaf = false → t.response = none →
    t.decoder <+: code :: n :: rest → t.decoder ≠ code :: n :: rest → code ≠ 0 → rest.length = n.toNat + 1 →
    (byteSum (code :: n :: rest) ≠ 0 →
      exec (.unknownCommand (code :: n :: rest)) s = .next { s with lp := { s.lp with
        sdo := 0
        transaction := some
          { deaf := false, decoder := code :: n :: rest
            response := some { bytes := [0xC3, 0x00, 0x3D], shifted := 0, advance := none } } } }) ∧
    (byteSum (code :: n :: rest) = 0 → 15 < code.toNat →
      exec (.unknownCommand (code :: n :: rest)) s = .next { s with lp := { s.lp with
        sdo := 0
        transaction := some
          { deaf := false, decoder := code :: n :: rest
            response := some { bytes := [0xC4, 0x00, 0x3C], shifted := 0, advance := none } } } })) ∧
  (∀ (s : State) (args : List Byte),
    ∀ c ∈ [((0x01 : Byte), 0, Instr.status args), (0x03, 0, .join args), (0x04, 0, .leave args), (0x05, 0, .trigger args),
        (0x06, 0, .spot args), (0x07, 0, .spotRead args), (0x08, 0, .records args), (0x09, 3, .openRead args),
        (0x0A, 0, .read args), (0x0B, 0, .closeRead args), (0x0C, 3, .release args), (0x0D, 0, .peers args),
        (0x0E, 2, .ackAttn args), (0x0F, 0, .softReset args)],
      s.AwaitsCommand c.1 args → args.length ≠ c.2.1 →
        exec c.2.2 s = .next (s.answered c.1 args 0xC2 [BitVec.ofNat 8 (min args.length c.2.1)] none))

/-! ## Snapshots -/

/-- STATUS, SPOT_READ, RECORDS and PEERS are answered OK with their snapshot in every station state, and change nothing
but the transaction (R160, R165, R166). -/
def Obligations.SnapshotsChangeNothing : Prop :=
  ∀ s : State,
    (s.AwaitsCommand 0x01 [] → exec (.status []) s = .next (s.answered 0x01 [] 0x80 s.statusData none)) ∧
    (s.AwaitsCommand 0x07 [] → exec (.spotRead []) s = .next (s.answered 0x07 [] 0x80 s.spotReadData none)) ∧
    (s.AwaitsCommand 0x08 [] → exec (.records []) s = .next (s.answered 0x08 [] 0x80 s.recordsData none)) ∧
    (s.AwaitsCommand 0x0D [] → exec (.peers []) s = .next (s.answered 0x0D [] 0x80 s.peersData none))

/-- The layout of STATUS and SPOT_READ data (Tables 10-5 and 10-6, R181). -/
def Obligations.StatusLayout : Prop :=
  ∀ s : State,
    let d := s.statusData
    d.length = 30 + 2 * s.tm.monitors.length ∧
    d[0]? = some (match s.mu.station with
      | .config => 0 | .checking => 1 | .listen => 2 | .member => 3 | .leaving => 4 | .fault _ => 5 : Byte) ∧
    d[1]? = some (match s.mu.station with
      | .fault .strap => 1 | .fault .selfcheck => 2 | .fault .mismatch => 3 | .fault .duplicate => 4 | _ => 0 : Byte) ∧
    d[2]? = some (s.mu.number.setWidth 8) ∧ d[3]? = some (s.mu.rate.setWidth 8) ∧
    (∀ b, d[4]? = some b →
      b.getLsbD 0 = s.mu.config.isSome ∧ b.getLsbD 1 = s.et.running ∧ b.getLsbD 2 = s.lc.mute ∧
      b.getLsbD 3 = s.markAsserted ∧ b.getLsbD 4 = s.acq.localPending ∧ b.getLsbD 5 = s.acq.lastSpot.isSome ∧
      b.getLsbD 6 = s.acq.lastMean.isSome ∧ b.getLsbD 7 = s.lp.session.isSome) ∧
    (d.drop 5).take 2 = bytes16 s.mu.digest ∧ (d.drop 7).take 4 = bytes32 s.et.epoch ∧
    (d.drop 11).take 2 = bytes16 s.et.counter ∧ d[13]? = some (BitVec.ofNat 8 s.et.transit) ∧
    d[14]? = some (BitVec.ofNat 8 s.lc.failCount) ∧ d[15]? = some (BitVec.ofNat 8 s.lc.vetoCount) ∧
    d[16]? = some (BitVec.ofNat 8 s.lc.queue.length) ∧ (d.drop 17).take 2 = bytes16 (BitVec.ofNat 16 s.depth) ∧
    (d.drop 19).take 2 = bytes16 (BitVec.ofNat 16 s.hr.frames.length) ∧
    d[21]? = some (BitVec.ofNat 8 s.cc.marks.length) ∧
    (d.drop 22).take 2 = bytes16 (BitVec.ofNat 16 (s.acq.lastMean.getD 0)) ∧
    (∀ n, s.lp.session = some n → d[24]? = some (BitVec.ofNat 8 n.slot.val) ∧ (d.drop 25).take 2 = bytes16 n.seq) ∧
    (s.lp.session = none → (d.drop 24).take 3 = [0, 0, 0]) ∧
    (d.drop 27).take 2 = bytes16 (s.lp.causes.setWidth 16) ∧ d[29]? = some (BitVec.ofNat 8 s.tm.monitors.length) ∧
    (∀ k m, s.tm.monitors[k]? = some m → (d.drop (30 + 2 * k)).take 2 =
      [(match m.phase with
        | .armed => 0 | .pending => 1 | .tripped => 2 : Byte), BitVec.ofNat 8 m.count]) ∧
    (s.acq.lastSpot = none → s.spotReadData = [if s.acq.localPending then 2 else 0, 0, 0, 0, 0, 0, 0, 0, 0]) ∧
    (∀ r, s.acq.lastSpot = some r →
      s.spotReadData.length = 9 + 2 * r.codes.length ∧ s.spotReadData[1]? = some (BitVec.ofNat 8 r.codes.length) ∧
      (∀ b, s.spotReadData[0]? = some b →
        b.getLsbD 0 = true ∧ b.getLsbD 1 = s.acq.localPending ∧ b.getLsbD 2 = r.stamp.isSome ∧
        ∀ n, 3 ≤ n → b.getLsbD n = false) ∧
      s.spotReadData[2]? = some (match r.station with
        | .config => 0 | .checking => 1 | .listen => 2 | .member => 3 | .leaving => 4 | .fault _ => 5 : Byte) ∧
      (∀ p, r.stamp = some p →
        (s.spotReadData.drop 3).take 4 = bytes32 p.epoch ∧ (s.spotReadData.drop 7).take 2 = bytes16 p.tick) ∧
      (r.stamp = none → (s.spotReadData.drop 3).take 6 = [0, 0, 0, 0, 0, 0]) ∧
      (∀ k c, r.codes[k]? = some c → (s.spotReadData.drop (9 + 2 * k)).take 2 = bytes16 (c.setWidth 16)))

/-- The layout of RECORDS and PEERS data (Tables 10-7 and 10-8, R181). -/
def Obligations.RecordsPeersLayout : Prop :=
  ∀ s : State,
    s.recordsData = s.recordEntry 0 ++ s.recordEntry 1 ++ s.recordEntry 2 ++ s.recordEntry 3 ∧
    (∀ i, s.recordAt i = none → s.recordEntry i = [0]) ∧
    (∀ i r, s.recordAt i = some r →
      let e := s.recordEntry i
      e[0]? = some (match r.phase with
        | .opened => 1 | .filling _ => 2 | .complete _ => 3 : Byte) ∧
      (e.drop 1).take 2 = bytes16 r.seq ∧
      (∀ b, e[3]? = some b →
        b.getLsbD 0 = r.flags.originator ∧ b.getLsbD 1 = r.flags.shortPre ∧ b.getLsbD 2 = r.flags.incompleteFrames ∧
        b.getLsbD 3 = r.flags.timeSlip ∧ b.getLsbD 4 = r.flags.cutShort ∧ b.getLsbD 5 = r.flags.announceLost ∧
        b.getLsbD 6 = false ∧ b.getLsbD 7 = false) ∧
      (∀ b, e[4]? = some b →
        b.getLsbD 0 = r.framesDone ∧ b.getLsbD 1 = r.answersClosed ∧ b.getLsbD 2 = s.reader i) ∧
      (e.drop 5).take 2 = bytes16 (BitVec.ofNat 16 r.frames.length) ∧
      (e.drop 7).take 2 = bytes16 (BitVec.ofNat 16 r.total) ∧
      (r.phase = .opened → e.length = 9) ∧
      (∀ c, r.phase = .filling c ∨ r.phase = .complete c →
        e.length = 17 ∧ e[9]? = some c.key.origin ∧ (e.drop 10).take 4 = bytes32 c.key.point.epoch ∧
        (e.drop 14).take 2 = bytes16 c.key.point.tick ∧
        e[16]? = some (match c.outcome with
          | .ok => 1 | .late => 2 | .noSlot => 3 | .missed => 4 | .noAnswer => 5 : Byte))) ∧
    s.peersData.length = 240 ∧
    (∀ n p, s.mu.peers[n]? = some p →
      let e := (s.peersData.drop (10 * n)).take 10
      (∀ b, e[0]? = some b →
        b &&& 3 = (match p.state with
          | .absent => 0 | .present => 1 | .mismatch => 2 : Byte) ∧
        b.getLsbD 2 = (p.digestMatches == some true) ∧ b.getLsbD 3 = false ∧ b.getLsbD 4 = p.lastHeard.isSome ∧
        b.getLsbD 5 = p.digestMatches.isSome ∧ b.getLsbD 6 = p.freeSlots.isSome ∧ b.getLsbD 7 = p.announced.isSome) ∧
      (e.drop 1).take 4 = bytes32 (p.lastHeard.getD 0) ∧ e[5]? = some (p.freeSlots.getD 0) ∧
      e.drop 6 = bytes32 (p.announced.getD 0))

/-! ## CONFIGURE -/

/-- The block of a configuration whose values lie in the ranges of Table 9-3 is read back as that configuration, with
every field at every value (R162, Tables 9-3 and 10-4). -/
def Obligations.ConfigBlockRoundTrip : Prop := ∀ c : Configuration, c.InRange → parseConfig c.block = .ok c

/-- CONFIGURE. Outside CONFIG it is BAD_STATE, in CONFIG with a local request pending BUSY. A block in range is accepted:
MU stores it, the digest is the sum of R137, the monitors enter ARMED with run count 0 (R87), and the answer is OK with the
digest. Otherwise it is BAD_ARG at the lowest offending offset (R162): at the first byte of the first field of Table 9-3
whose value is out of range, whatever follows it; at offset 11 for a flags byte with any of bits 2 to 7 set; at the length
of a block cut short, a field of which a byte is missing not being checked; at the expected length of a block with bytes to
spare. No refusal changes the station (R161, R162). -/
def Obligations.ConfigureTaken : Prop :=
  ∀ (s : State) (block : List Byte), s.AwaitsCommand 0x02 block →
    (s.mu.station ≠ .config → exec (.configure block) s = .next (s.answered 0x02 block 0xC1 [] none)) ∧
    (s.mu.station = .config → s.acq.localPending = true →
      exec (.configure block) s = .next (s.answered 0x02 block 0xC5 [] none)) ∧
    (s.mu.station = .config → s.acq.localPending = false → ∀ c : Configuration,
      let refused : Nat → Prop := fun offset =>
        exec (.configure block) s = .next (s.answered 0x02 block 0xC2 [BitVec.ofNat 8 offset] none)
      (c.InRange →
        (block = c.block →
          let digest := BitVec.ofNat 16 (c.tickPeriod + 3 * c.epochLen + 5 * c.npre + 7 * c.npost + 11 * c.sweep.length)
          exec (.configure block) s = .next (State.answered
            { s with
              mu := { s.mu with config := some c, digest := digest }
              tm := { monitors := c.monitors.map (fun _ => ⟨.armed, 0⟩) } }
            0x02 block 0x80 [digest.extractLsb' 8 8, digest.extractLsb' 0 8] none)) ∧
        (∀ extra, extra ≠ [] → block = c.block ++ extra →
          refused (12 + 4 * c.sweep.length + 2 * c.spots.length + 6 * c.monitors.length))) ∧
      (c.Encodable →
        (∀ before f after, c.fields = before ++ f :: after → (∀ g ∈ before, g.inRange = true) → f.inRange = false →
          c.block.take (f.offset + f.width) <+: block → refused f.offset) ∧
        (∀ b : Byte, 4 ≤ b.toNat → (∀ g ∈ c.fields, g.offset < 11 → g.inRange = true) →
          c.block.take 11 ++ [b] <+: block → refused 11) ∧
        (∀ k, k < c.block.length → block = c.block.take k →
          (∀ g ∈ c.fields, g.offset + g.width ≤ k → g.inRange = true) → refused k)))

/-! ## JOIN, LEAVE, TRIGGER, SPOT -/

/-- JOIN in CONFIG with a configuration in force begins the join; everywhere else it is BAD_STATE and changes nothing
(R139, R163; W by R103). -/
def Obligations.JoinBegins : Prop :=
  ∀ s : State, s.AwaitsCommand 0x03 [] →
    (∀ c, s.mu.station = .config → s.mu.config = some c →
      exec (.join []) s = .next (State.answered
        { s with
          mu := { s.mu with
            station := .checking
            listenLength := 2 * c.epochLen + 64 * s.mu.number.toNat
            listenCount := 0, spoken := false
            peers := Vector.replicate 24 ⟨.absent, none, none, none, none⟩ }
          et :=
            { running := true, counter := 0, epoch := 0, own := .none
              transit := (2 * (400 / 2 ^ s.mu.rate.toNat) + c.tickPeriod) / (2 * c.tickPeriod) }
          acq := { s.acq with selfCheck := some ⟨0, 0⟩ } }
        0x03 [] 0x80 [] none)) ∧
    (¬(s.mu.station = .config ∧ s.mu.config.isSome = true) →
      exec (.join []) s = .next (s.answered 0x03 [] 0xC1 [] none))

/-- LEAVE in MEMBER: LEAVING with the BYE alone in the queue, or CONFIG at once when LC is MUTE; the capture protocol, the
ring, the frame under assembly and the ticks stop, OPEN records are freed and FILLING records closed CUT_SHORT (R152,
R30, R51, R64, R83, R98, R129); a COMPLETE record is kept unchanged (R51), and no record's place stays in the spot request
list (R83). Elsewhere it is BAD_STATE and changes nothing (R163). -/
def Obligations.LeaveDeparts : Prop :=
  ∀ s : State, s.AwaitsCommand 0x04 [] →
    (s.mu.station ≠ .member → exec (.leave []) s = .next (s.answered 0x04 [] 0xC1 [] none)) ∧
    (s.mu.station = .member → ∃ t, exec (.leave []) s = .next t ∧
      t.lp.transaction = (s.answered 0x04 [] 0x80 [] none).lp.transaction ∧
      (s.lc.mute = true → t.mu.station = .config ∧ t.lc.queue = []) ∧
      (s.lc.mute = false → t.mu.station = .leaving ∧
        ∃ m, t.lc.queue = [m] ∧ m.payload = .bye ∧ m.cond = .queued ∧ m.fails = 0) ∧
      t.mu.spoken = false ∧ t.mu.peers = s.mu.peers ∧ t.mu.config = s.mu.config ∧ t.mu.digest = s.mu.digest ∧
      t.et = { s.et with running := false, own := .none } ∧ t.tm = s.tm ∧
      t.lc.failCount = s.lc.failCount ∧ t.lc.vetoCount = s.lc.vetoCount ∧ t.lc.mute = s.lc.mute ∧
      t.cc.driver = .idle ∧ t.cc.lineEntry = .empty ∧ t.cc.stuck = 0 ∧ t.cc.marks = [] ∧
      t.cc.seqCounter = s.cc.seqCounter ∧ t.lp.session = s.lp.session ∧
      t.hr.geometry = s.hr.geometry ∧ t.hr.frames = [] ∧ t.hr.nextWrite = 0 ∧
      t.acq.assembly = none ∧ t.acq.slipPending = false ∧ t.acq.run = s.acq.run ∧
      t.acq.localPending = s.acq.localPending ∧
      (∀ i, s.recordAt i = none → t.recordAt i = none) ∧
      (∀ i r, s.recordAt i = some r → r.phase = .opened → t.recordAt i = none) ∧
      (∀ i r c, s.recordAt i = some r → r.phase = .complete c → t.recordAt i = some r) ∧
      t.acq.spotList = s.acq.spotList.filter SpotPlace.isLocal ∧
      (∀ i r c, s.recordAt i = some r → r.phase = .filling c →
        t.hasCause .captureComplete = true ∧
        t.recordAt i = some
          { r with
            phase := .complete
              { c with
                answersClosed := true
                participants := c.participants ++
                  (if c.answersClosed then []
                   else ((List.range 24).filter (fun n =>
                      c.expected.getLsbD n && !c.participants.any (fun p => p.station.toNat == n))).map
                    (fun n => ⟨BitVec.ofNat 5 n, .noAnswer, 0⟩)) }
            cursor := none, framesDone := true, flags := { r.flags with cutShort := true }
            spotRequest := if r.spotRequest = .placed then .withdrawn else r.spotRequest }))

/-- TRIGGER raises an alert, handled by Table 1-1 and the line entry (R1, R2, R4), and is answered from the station state
alone (R164). While the edge of this station's own pulse is not yet taken the alert merges (the model's reading, log 5). -/
def Obligations.TriggerAlerts : Prop :=
  ∀ s : State, s.AwaitsCommand 0x05 [] →
    (s.mu.station ≠ .member → exec (.trigger []) s = .next (s.answered 0x05 [] 0xC1 [] none)) ∧
    (s.mu.station = .member → s.lc.mute = true →
      exec (.trigger []) s = .next (State.answered
        { s with lp := { s.lp with causes := s.lp.causes ||| 0x200 } } 0x05 [] 0x80 [] none)) ∧
    (s.mu.station = .member → s.lc.mute = false → s.markAsserted = false →
      exec (.trigger []) s = .next (State.answered
        { s with cc := { s.cc with driver := .driving 4, edgePending := true } } 0x05 [] 0x80 [] none)) ∧
    (s.mu.station = .member → s.lc.mute = false → s.markAsserted = true →
      (s.cc.edgePending = true → exec (.trigger []) s = .next (s.answered 0x05 [] 0x80 [] none)) ∧
      (s.cc.edgePending = false →
        (s.cc.lineEntry = .claimed → exec (.trigger []) s = .next (s.answered 0x05 [] 0x80 [] none)) ∧
        (s.cc.lineEntry = .empty → exec (.trigger []) s = .next (State.answered
          { s with lp := { s.lp with causes := s.lp.causes ||| 0x004 } } 0x05 [] 0x80 [] none)) ∧
        (∀ id m, s.cc.lineEntry = .entry id → m ∈ s.cc.marks → m.id = id → (s.cc.marks.map Mark.id).Nodup →
          (m.originator = true → m.claim ≠ .lost →
            exec (.trigger []) s = .next (s.answered 0x05 [] 0x80 [] none)) ∧
          ((m.originator = false ∨ m.claim = .lost) → ∃ t, exec (.trigger []) s = .next t ∧
            t.lp = (s.answered 0x05 [] 0x80 [] none).lp ∧ t.cc.driver = s.cc.driver ∧
            t.cc.lineEntry = s.cc.lineEntry ∧
            t.cc.marks = s.cc.marks.map (fun x => if x.id = id then
              { x with
                originator := true
                claim := if 11 ≤ (s.lc.queue.filter (fun q => !q.payload.isEpoch)).length then .lost else .queued }
              else x) ∧
            ((s.lc.queue.filter (fun q => !q.payload.isEpoch)).length < 11 →
              ∃ q ∈ t.lc.queue, q.payload = .claim m.point ∧ q.cond = .queued ∧ q.fails = 0 ∧ q.mark = some id) ∧
            (∀ i r, m.slot = some i → s.recordAt i = some r → ∃ r', t.recordAt i = some r' ∧
              (m.originator = false → r'.flags.originator = true) ∧
              (11 ≤ (s.lc.queue.filter (fun q => !q.payload.isEpoch)).length → r'.flags.announceLost = true))))))

/-- SPOT: BAD_STATE, BUSY, or the local requester's place, waiting, and local-pending (R80, R165). -/
def Obligations.SpotRequested : Prop :=
  ∀ s : State, s.AwaitsCommand 0x06 [] →
    ((s.mu.station = .leaving ∨ s.isFault = true ∨ s.mu.config = none ∨ ∃ c, s.mu.config = some c ∧ c.spots = []) →
      exec (.spot []) s = .next (s.answered 0x06 [] 0xC1 [] none)) ∧
    (∀ c, s.mu.station ≠ .leaving → s.isFault = false → s.mu.config = some c → c.spots ≠ [] →
      (s.acq.localPending = true → exec (.spot []) s = .next (s.answered 0x06 [] 0xC5 [] none)) ∧
      (s.acq.localPending = false → exec (.spot []) s = .next (State.answered
        { s with acq := { s.acq with
            spotList := s.acq.spotList ++ [{ requester := .localPort, inRun := false }], localPending := true } }
        0x06 [] 0x80 [] none)))

/-! ## The read session -/

/-- OPEN_READ, case by case (R169); a slot outside 0 to 3 is BAD_ARG at offset 0 (R159). -/
def Obligations.SessionOpens : Prop :=
  ∀ (s : State) (b hi lo : Byte), s.AwaitsCommand 0x09 [b, hi, lo] →
    (4 ≤ b.toNat → exec (.openRead [b, hi, lo]) s = .next (s.answered 0x09 [b, hi, lo] 0xC2 [0] none)) ∧
    (∀ i : Fin 4, b.toNat = i.val →
      (s.lp.session.isSome = true →
        exec (.openRead [b, hi, lo]) s = .next (s.answered 0x09 [b, hi, lo] 0xC5 [] none)) ∧
      (s.lp.session = none →
        (s.recordAt i = none → exec (.openRead [b, hi, lo]) s = .next (s.answered 0x09 [b, hi, lo] 0xC1 [] none)) ∧
        (∀ r, s.recordAt i = some r →
          (r.seq ≠ hi ++ lo → exec (.openRead [b, hi, lo]) s = .next (s.answered 0x09 [b, hi, lo] 0xC6 [] none)) ∧
          (r.seq = hi ++ lo → r.phase = .opened →
            exec (.openRead [b, hi, lo]) s = .next (s.answered 0x09 [b, hi, lo] 0xC1 [] none)) ∧
          (r.seq = hi ++ lo → r.phase ≠ .opened →
            let t := { s with lp := { s.lp with
              session := some { slot := i, seq := r.seq, index := 0, phase := .frames } } }
            t.reader i = true ∧
            exec (.openRead [b, hi, lo]) s = .next (t.answered 0x09 [b, hi, lo] 0x80 (t.header i r) none)))))

/-- The layout of the record header (Table 10-9, R181). -/
def Obligations.HeaderLayout : Prop :=
  ∀ (s : State) (i : Fin 4) (r : CapRecord) (c : Capture), (r.phase = .filling c ∨ r.phase = .complete c) →
    let d := s.header i r
    d.length = 33 + (if r.spotRequest = .served then 2 * (r.spotValues.getD []).length else 0) ∧
    d[0]? = some (BitVec.ofNat 8 i.val) ∧ d[1]? = some (if r.isFilling then 2 else 3 : Byte) ∧
    (d.drop 2).take 2 = bytes16 r.seq ∧ d[4]? = some (BitVec.ofNat 8 (s.cc.opening.idxOf i)) ∧
    d[5]? = some r.flags.byte ∧
    (∀ b, d[6]? = some b →
      b.getLsbD 0 = r.framesDone ∧ b.getLsbD 1 = c.answersClosed ∧ b.getLsbD 2 = s.reader i) ∧
    d[7]? = some (BitVec.ofNat 8 r.words) ∧ (d.drop 8).take 2 = bytes16 (BitVec.ofNat 16 r.total) ∧
    (d.drop 10).take 2 = bytes16 (BitVec.ofNat 16 r.frames.length) ∧
    (d.drop 12).take 2 = bytes16 (BitVec.ofNat 16 r.pre) ∧ (d.drop 14).take 4 = bytes32 r.mark.epoch ∧
    (d.drop 18).take 2 = bytes16 r.mark.tick ∧ d[20]? = some c.key.origin ∧
    (d.drop 21).take 4 = bytes32 c.key.point.epoch ∧ (d.drop 25).take 2 = bytes16 c.key.point.tick ∧
    d[27]? = some (match c.outcome with
      | .ok => 1 | .late => 2 | .noSlot => 3 | .missed => 4 | .noAnswer => 5 : Byte) ∧
    (d.drop 28).take 3 = [c.expected.extractLsb' 16 8, c.expected.extractLsb' 8 8, c.expected.extractLsb' 0 8] ∧
    d[31]? = some (BitVec.ofNat 8 r.spotCount) ∧
    d[32]? = some (match r.spotRequest with
      | .none => 0 | .placed => 1 | .withdrawn => 2 | .served => 3 : Byte) ∧
    (r.spotRequest = .served → d.drop 33 = (r.spotValues.getD []).flatMap (fun v => bytes16 (v.setWidth 16)))

/-- READ, taken: a frame chunk, the participant list, DATA_WAIT or END, by the session's phase and the record as it stands;
with no session BAD_STATE. Taking it changes nothing but the transaction (R170, R171; Table 10-10). -/
def Obligations.ReadAnswers : Prop :=
  ∀ s : State, s.AwaitsCommand 0x0A [] →
    (s.lp.session = none → exec (.read []) s = .next (s.answered 0x0A [] 0xC1 [] none)) ∧
    (∀ n r, s.lp.session = some n → s.recordAt n.slot = some r →
      (n.phase = .frames → n.index < r.frames.length →
        let chunk := (r.frames.drop n.index).take (240 / (2 * r.words))
        exec (.read []) s = .next (s.answered 0x0A [] 0x80
          ([0x00] ++ bytes16 (BitVec.ofNat 16 n.index) ++ [BitVec.ofNat 8 chunk.length] ++
            chunk.flatMap (fun f => (f.tag0 :: f.tag1 :: f.values).flatMap bytes16))
          (some (.chunk chunk.length)))) ∧
      (n.phase = .frames → n.index = r.frames.length → ¬(r.framesDone = true ∧ r.answersClosed = true) →
        exec (.read []) s = .next (s.answered 0x0A [] 0x81 [] none)) ∧
      (n.phase = .list → r.answersClosed = false →
        exec (.read []) s = .next (s.answered 0x0A [] 0x81 [] none)) ∧
      (∀ c, (r.phase = .filling c ∨ r.phase = .complete c) → r.answersClosed = true →
        ((n.phase = .frames ∧ n.index = r.frames.length ∧ r.framesDone = true) ∨ n.phase = .list) →
        exec (.read []) s = .next (s.answered 0x0A [] 0x80
          ([0x01, BitVec.ofNat 8 c.participants.length] ++
            c.participants.flatMap (fun p => [p.station.setWidth 8, p.outcome.code, p.offset]))
          (some .list))) ∧
      (n.phase = .done → exec (.read []) s = .next (s.answered 0x0A [] 0x82 [] none)))

/-- The session position advances at the check byte of READ's OK, whether the rest of the response goes out in one row or
byte by byte (R172). -/
def Obligations.ReadAdvances : Prop :=
  ∀ (s : State) (t : Transaction) (p : Response) (a : ReadAdvance) (n : Session) (r : CapRecord) (sdi : Byte)
    (wait : Bool),
    s.lp.transaction = some t → t.response = some p → p.advance = some a → p.shifted < p.bytes.length →
    s.lp.session = some n → s.recordAt n.slot = some r →
    let moved : Session := match a with
      | .chunk k =>
        { n with
          index := n.index + k
          phase := if n.index + k = r.frames.length ∧ r.framesDone = true then .list else n.phase }
      | .list => { n with phase := .done }
    let after : State := { s with lp := { s.lp with
      session := some moved, sdo := p.bytes.getLastD 0
      transaction := some { t with response := some { p with shifted := p.bytes.length } } } }
    exec .readResponseShiftedOut s = .next after ∧
    (t.deaf = false → p.shifted + 1 = p.bytes.length → p.shifted ≠ 0 →
      exec (.wholeByteClocked sdi wait) s = .next after)

/-- CLOSE_READ ends the session, or is BAD_STATE without one (R173). RELEASE, case by case (Table 2-5), in every station
state; a slot outside 0 to 3 is BAD_ARG at offset 0 (R159). A released record becomes FREE, leaves the opening order, and
its spot place is withdrawn (R47). -/
def Obligations.ClosesAndReleases : Prop :=
  (∀ s : State, s.AwaitsCommand 0x0B [] →
    (s.lp.session.isSome = true →
      exec (.closeRead []) s = .next
        (State.answered { s with lp := { s.lp with session := none } } 0x0B [] 0x80 [] none)) ∧
    (s.lp.session = none → exec (.closeRead []) s = .next (s.answered 0x0B [] 0xC1 [] none))) ∧
  (∀ (s : State) (b hi lo : Byte), s.AwaitsCommand 0x0C [b, hi, lo] →
    (4 ≤ b.toNat → exec (.release [b, hi, lo]) s = .next (s.answered 0x0C [b, hi, lo] 0xC2 [0] none)) ∧
    (∀ i : Fin 4, b.toNat = i.val →
      (s.recordAt i = none → exec (.release [b, hi, lo]) s = .next (s.answered 0x0C [b, hi, lo] 0xC1 [] none)) ∧
      (∀ r, s.recordAt i = some r →
        (r.seq ≠ hi ++ lo → exec (.release [b, hi, lo]) s = .next (s.answered 0x0C [b, hi, lo] 0xC6 [] none)) ∧
        (r.seq = hi ++ lo → r.isComplete = false →
          exec (.release [b, hi, lo]) s = .next (s.answered 0x0C [b, hi, lo] 0xC1 [] none)) ∧
        (r.seq = hi ++ lo → r.isComplete = true → s.reader i = true →
          exec (.release [b, hi, lo]) s = .next (s.answered 0x0C [b, hi, lo] 0xC5 [] none)) ∧
        (r.seq = hi ++ lo → r.isComplete = true → s.reader i = false → ∃ t : State,
          exec (.release [b, hi, lo]) s = .next (t.answered 0x0C [b, hi, lo] 0x80 [] none) ∧
          t.recordAt i = none ∧ (∀ j, j ≠ i → t.recordAt j = s.recordAt j) ∧
          t.freeCount = s.freeCount + 1 ∧ t.cc.opening = s.cc.opening.filter (fun j => j ≠ i) ∧
          t.acq.spotList = s.acq.spotList.filter (fun p => !p.ofSlot i) ∧ t.lp = s.lp ∧ t.mu = s.mu ∧
          t.et = s.et ∧ t.lc = s.lc ∧ t.hr = s.hr ∧ t.tm = s.tm ∧ t.cc.marks = s.cc.marks ∧
          t.cc.seqCounter = s.cc.seqCounter))))

/-- ACK_ATTN removes the named causes and answers those still pending, and ATTN_N stays asserted only for these; a bit that
names no cause is BAD_ARG at offset 0 (R159, R175). -/
def Obligations.AckAttnClears : Prop :=
  ∀ (s : State) (hi lo : Byte), s.AwaitsCommand 0x0E [hi, lo] →
    (4 ≤ hi.toNat → exec (.ackAttn [hi, lo]) s = .next (s.answered 0x0E [hi, lo] 0xC2 [0] none)) ∧
    (hi.toNat < 4 →
      let left := s.lp.causes &&& ~~~((hi ++ lo : BitVec 16).setWidth 10)
      exec (.ackAttn [hi, lo]) s = .next (State.answered
        { s with lp := { s.lp with causes := left } } 0x0E [hi, lo] 0x80 (bytes16 (left.setWidth 16)) none) ∧
      ∀ t, exec (.ackAttn [hi, lo]) s = .next t → (t.attnAsserted = true ↔ left ≠ 0))

/-! ## Ticks -/

/-- A stopped generator makes no ticks, and a tick has no effect in CHECKING or any state but LISTEN and MEMBER; in LISTEN
it counts the listen window and nothing else, up to the tick that expires it (R98, R141). -/
def Obligations.TickOutsideMember : Prop :=
  ∀ (s : State) (order : List Part),
    ((s.et.running = false ∨ (s.mu.station ≠ .listen ∧ s.mu.station ≠ .member)) → exec (.tick order) s = .next s) ∧
    (s.et.running = true → s.mu.station = .listen → s.mu.listenCount + 1 ≠ s.mu.listenLength →
      exec (.tick order) s = .next { s with mu := { s.mu with listenCount := s.mu.listenCount + 1 } })

/-- The tick that expires the listen window: the station founds epoch 1 and becomes MEMBER (R113, R141, R143; R64, R83,
R94, R133, R6, R3), with EPOCH(1) and HELLO in an empty queue unless LC is MUTE. -/
def Obligations.ListenExpiryFounds : Prop :=
  ∀ (s : State) (c : Configuration) (order : List Part), s.et.running = true → s.mu.station = .listen →
    s.mu.config = some c → s.mu.listenCount + 1 = s.mu.listenLength → s.et.own = .none →
    ∃ t, exec (.listenWindowExpiry order) s = .next t ∧ exec (.tick order) s = .next t ∧
      t.mu.station = .member ∧ t.et.epoch = 1 ∧ t.et.counter = 0 ∧ t.et.running = true ∧ t.mu.spoken = false ∧
      (∀ (n : Nat) p, s.mu.peers[n]? = some p →
        t.mu.peers[n]? = some (if p.state = .absent then p else { p with lastHeard := some 1 })) ∧
      t.hr.geometry = some { words := c.sweep.length + 2, depth := 4096 / (c.sweep.length + 2) } ∧
      t.hr.frames = [] ∧ t.hr.nextWrite = 0 ∧ t.tm.monitors = c.monitors.map (fun _ => ⟨.armed, 0⟩) ∧
      t.acq.assembly = none ∧ t.acq.slipPending = false ∧ t.lc.obsCur = .spoiled ∧ t.lc.obsPrev = .spoiled ∧
      t.cc.stuck = 0 ∧ t.cc.lineEntry = .empty ∧ (∀ i, t.recordAt i = s.recordAt i) ∧ t.lp = s.lp ∧
      (s.lc.mute = true → t.lc.queue = s.lc.queue ∧ t.et.own = .none) ∧
      (s.lc.mute = false → s.lc.queue = [] → t.et.own = .queued 1 ∧ ∃ e h lag free, t.lc.queue = [e, h] ∧
        e.payload = .epoch 1 lag s.mu.digest ∧ h.payload = .hello s.mu.digest 1 free)

/-- A tick in MEMBER, the blocks taking it in any order: ET's counter advances or wraps (R99, R100); AS closes the frame
under assembly and begins a new one with the tags of this tick (R69, R70, R72, R182); the closed frame is written
(R55) and every monitor in use steps on it (R88). A sweep conversion is cut, and the new frame's sweep starts unless a spot
run holds the converter, which goes on, or a place waits (R70, R71, R79); a place can leave the list in the same tick, at an
epoch start that abandons its record. The write gives the oldest frame of a full ring to the records that hold it, and the
closed frame to the caught-up ones (R55, R61, R62); a record whose entry the epoch start abandons is left out. -/
def Obligations.MemberTick : Prop :=
  ∀ (s : State) (order : List Part), s.et.running = true → s.mu.station = .member →
    ∃ t, exec (.tick order) s = .next t ∧ t.mu.station = .member ∧ t.et.running = true ∧
      (s.et.counter.toNat + 1 = s.cfg.epochLen →
        t.et.counter = 0 ∧ t.et.epoch = (if s.et.epoch = 0xFFFFFFFF then 1 else s.et.epoch + 1)) ∧
      (s.et.counter.toNat + 1 ≠ s.cfg.epochLen → t.et.counter = s.et.counter + 1 ∧ t.et.epoch = s.et.epoch) ∧
      (∃ a, t.acq.assembly = some a ∧ a.tick = t.et.counter ∧ a.epoch = t.et.epoch ∧
        a.values = List.replicate s.cfg.sweep.length 0x8000 ∧ a.spot = s.acq.run.isSome ∧
        a.slip = s.acq.slipPending ∧ a.mark = false ∧ a.pos = 0) ∧
      t.acq.slipPending = false ∧ t.acq.run = s.acq.run ∧
      (s.acq.converter ≠ .idle → s.acq.converter ≠ .sweep → t.acq.converter = s.acq.converter) ∧
      ((s.acq.converter = .idle ∨ s.acq.converter = .sweep) →
        (s.cfg.sweep ≠ [] → s.acq.spotList.any (fun p => !p.inRun) = false → t.acq.converter = .sweep) ∧
        ((s.cfg.sweep = [] ∨ t.acq.spotList.any (fun p => !p.inRun) = true) → t.acq.converter = .idle)) ∧
      (s.et.counter.toNat + 1 ≠ s.cfg.epochLen → t.acq.spotList = s.acq.spotList) ∧
      (∀ i, s.recordAt i = none → t.recordAt i = none) ∧
      (0 < s.depth → s.depth < 4294967296 → (s.cc.marks.map Mark.id).Nodup →
        ∀ i r, s.recordAt i = some r →
          (s.et.counter.toNat + 1 = s.cfg.epochLen → ∀ m ∈ (s.winWith order).cc.marks, m.slot = some i →
            m.starts = 0 ∨ m.deferred = true ∨ (m.claim = .inTransmission ∧ m.originator = true)) →
          (s.acq.assembly = none → ∃ r', t.recordAt i = some r' ∧ TakesFrames [] r r') ∧
          ∀ a, s.acq.assembly = some a → ∃ f r', t.hr.frames.getLast? = some f ∧ t.recordAt i = some r' ∧
            TakesFrames (s.copiedAtWrite f r) r r') ∧
      (s.acq.assembly = none → t.hr = s.hr ∧ t.tm = s.tm) ∧
      (∀ a, s.acq.assembly = some a → ∃ f : Frame,
        t.hr.frames = (if s.hr.frames.length = s.depth then s.hr.frames.drop 1 else s.hr.frames) ++ [f] ∧
        t.hr.nextWrite = s.hr.nextWrite + 1 ∧ t.hr.geometry = s.hr.geometry ∧
        f.tag0 = a.tick ∧ f.values = a.values ∧ (∀ n, n < 12 → f.tag1.getLsbD n = a.epoch.getLsbD n) ∧
        f.tag1.getLsbD 12 = decide ((0x8000 : Word) ∈ a.values) ∧ f.tag1.getLsbD 13 = a.spot ∧
        f.tag1.getLsbD 14 = a.slip ∧ f.tag1.getLsbD 15 = a.mark ∧
        (∀ (k : Nat) p m, s.cfg.monitors[k]? = some p → s.tm.monitors[k]? = some m →
          t.tm.monitors[k]? = some (monitorStep p ((f.values[p.entry - 1]?).getD 0x8000) m).1))

/-- The tick that wraps, in any order of its blocks: the epoch start at LC moves the observations and ends MUTE when both
are ACCEPTED (R133), the spoken flag is cleared (R148), and ET announces the new epoch unless its own EPOCH is in
transmission or LC stays MUTE (R100, R104, R107). An own EPOCH that wins together with the tick, the tick taken first, goes
out with its old number and the lag after the wrap, and nothing is submitted (R105, R107; how a command says so is log 20). -/
def Obligations.WrapAnnounces : Prop :=
  ∀ (s : State) (order : List Part), s.et.running = true → s.mu.station = .member →
    s.et.counter.toNat + 1 = s.cfg.epochLen →
    ∃ t, exec (.tickWrap order) s = .next t ∧ exec (.tick order) s = .next t ∧
      t.lc.obsPrev = s.lc.obsCur ∧ t.lc.obsCur = .empty ∧ t.mu.spoken = false ∧
      (s.lc.mute = true → s.lc.obsCur = .accepted → s.lc.obsPrev = .accepted →
        t.lc.mute = false ∧ t.lc.failCount = 0 ∧ t.lc.vetoCount = 0 ∧ t.hasCause .linkMute = true) ∧
      (¬(s.lc.mute = true ∧ s.lc.obsCur = .accepted ∧ s.lc.obsPrev = .accepted) →
        t.lc.mute = s.lc.mute ∧ t.lc.failCount = s.lc.failCount ∧ t.lc.vetoCount = s.lc.vetoCount) ∧
      (∀ m n lag digest, Part.win ∈ order → m ∈ s.lc.queue → m.cond = .contending →
        (∀ x ∈ s.lc.queue, x.cond = .contending → x = m) → m.payload = .epoch n lag digest →
        let won : Msg := { m with payload := .epoch n 0 digest, cond := .inTransmission }
        t.et.own = .inTransmission n ∧ won ∈ t.lc.queue ∧
          ∀ q ∈ t.lc.queue, q.payload.isEpoch = true → q = won ∨ q ∈ s.lc.queue) ∧
      ((Part.win ∈ order → ∀ m ∈ s.lc.queue, m.payload.isEpoch = true → m.cond ≠ .contending) →
        ∀ n, s.et.own = .inTransmission n → t.et.own = .inTransmission n) ∧
      (∀ e, e = (if s.et.epoch = 0xFFFFFFFF then 1 else s.et.epoch + 1) → (∀ n, s.et.own ≠ .inTransmission n) →
        (Part.win ∈ order → ∀ m ∈ s.lc.queue, m.payload.isEpoch = true → m.cond ≠ .contending) →
        (s.lc.mute = false → (∀ m ∈ s.lc.queue, m.payload.isEpoch = true → m.cond ≠ .inTransmission) →
          t.et.own = .queued e ∧ ∃ m ∈ t.lc.queue, m.cond = .queued ∧ m.fails = 0 ∧
            ∃ lag, m.payload = .epoch e lag s.mu.digest) ∧
        (s.lc.mute = true → t.lc.mute = true → t.et.own = .none))

/-- A mark pulse counts down at each tick and CC releases the line at 0 (R2); when no other station drives the line it is
released with that, the line entry becomes EMPTY and the stuck count 0 (R5, R6), and an alert of a monitor may begin
another pulse in the same tick. The stuck count grows at each tick that arrives with MARK_N asserted, and MARK_STUCK is
raised when it reaches 65 (R6). In any order of the tick's blocks. That the tick's own count comes before the release that
it makes, and that an edge not taken by then is not taken any more, is the model's reading (log 5, DEDUCED, unsafe). -/
def Obligations.PulseAndStuck : Prop :=
  ∀ (s : State) (order : List Part), s.et.running = true → s.mu.station = .member →
    let released : Prop := s.cc.othersDrive = false ∧ (s.cc.driver = .driving 0 ∨ s.cc.driver = .driving 1)
    (s.cc.driver = .driving 1 → ∃ t, exec (.markPulseEnd order) s = .next t ∧ exec (.tick order) s = .next t ∧
      ((t.cc.driver = .idle ∧ (s.cc.othersDrive = false → t.cc.edgePending = false)) ∨
        (s.tm.monitors ≠ [] ∧ s.cc.othersDrive = false ∧ t.cc.driver = .driving 4 ∧ t.cc.edgePending = true))) ∧
    (∀ n, s.cc.driver = .driving (n + 2) → ∃ t, exec (.tick order) s = .next t ∧ t.cc.driver = .driving (n + 1)) ∧
    (s.markAsserted = true → s.cc.stuck = 64 → ∃ t, exec (.markStuck order) s = .next t ∧
      exec (.tick order) s = .next t ∧ t.hasCause .markStuck = true) ∧
    (∃ t, exec (.tick order) s = .next t ∧
      (released → t.cc.stuck = 0 ∧ t.cc.lineEntry = .empty) ∧
      (¬released →
        (s.markAsserted = false → t.cc.stuck = s.cc.stuck) ∧
        (s.markAsserted = true → s.cc.stuck < 65 → t.cc.stuck = s.cc.stuck + 1) ∧
        (s.markAsserted = true → s.cc.stuck = 65 → t.cc.stuck = 65)))

/-- The epoch start of a tick at MU, in any order of the tick's blocks. Every PRESENT entry last heard 3 or more epochs back
becomes ABSENT with its other fields kept, no other entry changes, and PEER_CHANGE is raised (R149). Before that MU submits
PRESENT when nothing of this station's was accepted in the epoch just ended, and none otherwise (R148); the submission finds
room below 11 messages other than EPOCH, one less where a monitor's alert may submit a CLAIM in the same tick. -/
def Obligations.PeersExpire : Prop :=
  (∀ (s : State) (order : List Part) (e : Word32), s.et.running = true → s.mu.station = .member →
    s.et.counter.toNat + 1 = s.cfg.epochLen → e = (if s.et.epoch = 0xFFFFFFFF then 1 else s.et.epoch + 1) →
    ∃ t, exec (.tick order) s = .next t ∧
      (s.mu.peers.toList.any (Peer.dueAt e) = true →
        exec (.peerExpiry order) s = .next t ∧ t.hasCause .peerChange = true) ∧
      (s.mu.peers.toList.any (Peer.dueAt e) = false → t.hasCause .peerChange = s.hasCause .peerChange) ∧
      (∀ (n : Nat) p, s.mu.peers[n]? = some p →
        t.mu.peers[n]? = some (if p.dueAt e then { p with state := .absent } else p)) ∧
      t.mu.spoken = false ∧
      (s.mu.spoken = true → s.lc.queue.any Msg.ofMembership = false → t.lc.queue.any Msg.ofMembership = false) ∧
      (s.mu.spoken = false → s.lc.mute = false → s.lc.queue.any Msg.ofMembership = false →
        (s.lc.queue.filter (fun m => !m.payload.isEpoch)).length < (if s.tm.monitors = [] then 11 else 10) →
        ∃ m ∈ t.lc.queue, m.cond = .queued ∧ ∃ free, m.payload = .present s.mu.digest e free)) ∧
  (∀ s : State, s.mu.station = .member →
    s.muEpochStart.mu.spoken = false ∧
    (s.mu.spoken = true → s.muEpochStart.lc = s.lc) ∧
    (s.mu.spoken = false → s.lc.mute = false → s.lc.queue.any Msg.ofMembership = false →
      (s.lc.queue.filter (fun m => !m.payload.isEpoch)).length < 11 →
      ∃ m ∈ s.muEpochStart.lc.queue, m.cond = .queued ∧ ∃ free, m.payload = .present s.mu.digest s.et.epoch free))

/-- The epoch start of a tick at the open-mark entries, in any order of the tick's blocks and whether one is due or not (R22,
R23). The entries' identities are distinct (an invariant of the model, stated as MarksStayBounded). A CLAIM that wins
together with the tick, the tick taken first at ET, is in transmission when the entries are examined (R105; the model's
choice of a command, log 20). -/
def Obligations.ClaimsTimeOut : Prop :=
  ∀ (s : State) (order : List Part), s.et.running = true → s.mu.station = .member →
    s.et.counter.toNat + 1 = s.cfg.epochLen → (s.cc.marks.map Mark.id).Nodup →
    ∃ t, exec (.tick order) s = .next t ∧
      ((∃ m ∈ s.cc.marks, m.starts ≠ 0 ∧ m.deferred = false) → exec (.claimTimeout order) s = .next t) ∧
      (∀ m ∈ (s.winWith order).cc.marks, MarkAtEpochStart m t) ∧
      ∀ x ∈ t.cc.marks, ∃ m ∈ s.cc.marks, x.id = m.id

/-- The two epoch starts of an answer window, in any order of the tick's blocks: at the first the count becomes 1 and the
window stays open (R26); at the second the silent stations of the expected set get NO_ANSWER in ascending order, and the
record is COMPLETE exactly when it is frames-done (R25, R26, R37). -/
def Obligations.AnswerWindowCloses : Prop :=
  (∀ (s : State) (order : List Part) (i : Fin 4) (r : CapRecord) (c : Capture), s.et.running = true →
    s.mu.station = .member → s.et.counter.toNat + 1 = s.cfg.epochLen → s.recordAt i = some r →
    r.phase = .filling c → c.answersClosed = false → c.answerCount = 0 → (∀ m ∈ s.cc.marks, m.slot ≠ some i) →
    ∃ t r', exec (.tick order) s = .next t ∧ t.recordAt i = some r' ∧ WindowAtEpochStart c r') ∧
  (∀ (s : State) (order : List Part) (i : Fin 4) (r : CapRecord) (c : Capture), s.et.running = true →
    s.mu.station = .member → s.et.counter.toNat + 1 = s.cfg.epochLen → s.recordAt i = some r →
    r.phase = .filling c → c.answersClosed = false → c.answerCount ≠ 0 → (r.framesDone = true → r.cursor = none) →
    (∀ m ∈ s.cc.marks, m.slot ≠ some i) →
    ∃ t r', exec (.answerWindowExpiry order) s = .next t ∧ exec (.tick order) s = .next t ∧
      t.recordAt i = some r' ∧ WindowAtEpochStart c r' ∧ (r'.isComplete = true → t.hasCause .captureComplete = true))

/-! ## The mark line, slots -/

/-- A mark event in MEMBER (R8 to R13): the local mark point and MARK of the frame under assembly, the open-mark entry, the
record opened for it, the CLAIM of an originator. That the edge of this station's own pulse (`edgePending`) is taken at the
MARK_EVENT that follows its alert is the model's reading (log 5, DEDUCED, unsafe). -/
def Obligations.MarkEventAdds : Prop :=
  ∀ s : State, s.mu.station = .member → (s.cc.edgePending = true ∨ s.markAsserted = false) →
    (s.acq.assembly = none → ∃ t, exec .markEvent s = .next t ∧ t.cc.marks = s.cc.marks ∧ t.cc.lineEntry = .empty ∧
      (∀ i, t.recordAt i = s.recordAt i) ∧ t.lc = s.lc ∧ t.lp = s.lp ∧ t.acq = s.acq) ∧
    (∀ a, s.acq.assembly = some a → ∃ t, exec .markEvent s = .next t ∧
      t.acq.assembly = some { a with mark := true } ∧
      (6 ≤ s.cc.marks.length →
        t.cc.marks = s.cc.marks ∧ t.cc.lineEntry = .empty ∧ t.hasCause .captureRefused = true ∧
        (∀ i, t.recordAt i = s.recordAt i) ∧ t.lc = s.lc ∧ t.acq.spotList = s.acq.spotList) ∧
      (s.cc.marks.length < 6 → (∀ m ∈ s.cc.marks, m.id ≠ s.cc.nextMark) →
        let full := 11 ≤ (s.lc.queue.filter (fun q => !q.payload.isEpoch)).length
        let claim : ClaimStatus :=
          if s.driving then (if s.lc.mute = true ∨ full then .lost else .queued) else .none
        let entry : Option (Fin 4) → Mark := fun slot =>
          { id := s.cc.nextMark, point := { epoch := a.epoch, tick := a.tick }, originator := s.driving, slot := slot
            claim := claim, starts := 0, deferred := false }
        t.cc.lineEntry = .entry s.cc.nextMark ∧ t.cc.marks = s.cc.marks ++ [entry s.chooseSlot] ∧
        (claim = .queued → ∃ q ∈ t.lc.queue, q.cond = .queued ∧ q.payload = .claim { epoch := a.epoch, tick := a.tick }) ∧
        (s.chooseSlot = none → t.hasCause .captureRefused = true ∧ ∀ i, t.recordAt i = s.recordAt i) ∧
        (∀ i, s.chooseSlot = some i →
          (∀ j, j ≠ i → t.recordAt j = s.recordAt j) ∧ t.lp = s.lp ∧
          t.cc.opening = s.cc.opening.filter (fun j => j ≠ i) ++ [i] ∧
          ∃ r, t.recordAt i = some r ∧ r.phase = .opened ∧ r.mark = { epoch := a.epoch, tick := a.tick } ∧
            r.words = s.cfg.sweep.length + 2 ∧ r.spotCount = s.cfg.spots.length ∧
            r.pre = min s.cfg.npre s.hr.frames.length ∧ r.total = r.pre + s.cfg.npost ∧
            r.cursor = some (s.hr.nextWrite - BitVec.ofNat 32 r.pre) ∧ r.frames = [] ∧ r.framesDone = false ∧
            r.flags =
              { originator := s.driving, shortPre := decide (s.hr.frames.length < s.cfg.npre)
                incompleteFrames := false, timeSlip := false, cutShort := false
                announceLost := decide (claim = .lost) } ∧
            r.spotValues = none ∧ r.spotRequest = (if s.cfg.spots = [] then .none else .placed) ∧
            t.acq.spotList = s.acq.spotList.filter (fun p => !p.ofSlot i) ++
              (if s.cfg.spots = [] then [] else [{ requester := .capture i r.seq, inRun := false }]))))

/-- MARK_N outside a mark event (R5, R3, R6): a release by the others makes the line entry EMPTY and the stuck count 0 when
this station does not drive the line; an assertion outside MEMBER has no effect; a further station on an asserted line makes
no mark event. That the level of the line is held so is the model's reading (log 5). -/
def Obligations.MarkLineOtherwise : Prop :=
  ∀ s : State,
    (s.driving = false → exec .markRelease s = .next
      { s with cc := { s.cc with othersDrive := false, edgePending := false, lineEntry := .empty, stuck := 0 } }) ∧
    (s.driving = true → exec .markRelease s = .next { s with cc := { s.cc with othersDrive := false } }) ∧
    (s.mu.station ≠ .member → ∃ others edge, exec .markEvent s = .next
      { s with cc := { s.cc with othersDrive := others, edgePending := edge } }) ∧
    (s.cc.edgePending = false → s.markAsserted = true →
      exec .markEvent s = .next { s with cc := { s.cc with othersDrive := true } })

/-- The slot that slot opening takes, and the sequence number that it gives (R10, R39, R49). -/
def Obligations.SlotChoice : Prop :=
  ∀ s : State,
    (∀ i, s.recordAt i = none → (∀ j, j < i → s.recordAt j ≠ none) → s.chooseSlot = some i) ∧
    ((∀ i, s.recordAt i ≠ none) → s.cfg.replace = false → s.chooseSlot = none) ∧
    ((∀ i, s.recordAt i ≠ none) → s.cfg.replace = true →
      (∀ before i after, s.cc.opening = before ++ i :: after →
        (∃ r, s.recordAt i = some r ∧ r.isComplete = true) → s.reader i = false →
        (∀ j ∈ before, ∀ r, s.recordAt j = some r → r.isComplete = true → s.reader j = true) →
        s.chooseSlot = some i) ∧
      ((∀ j ∈ s.cc.opening, ∀ r, s.recordAt j = some r → r.isComplete = true → s.reader j = true) →
        s.chooseSlot = none)) ∧
    (∀ point h base o i t, s.openSlot point h base o = some (i, t) → ∃ r, t.recordAt i = some r ∧
      s.chooseSlot = some i ∧ t.cc.seqCounter = r.seq + 1 ∧
      (∀ j r', j ≠ i → s.recordAt j = some r' → t.recordAt j = some r' ∧ r'.seq ≠ r.seq) ∧
      ((∀ j r', j ≠ i → s.recordAt j = some r' → r'.seq ≠ s.cc.seqCounter) → r.seq = s.cc.seqCounter))

/-! ## The ring and the slots' frames -/

/-- A copy step (R59, R60): the frame at the cursor goes to the end of the record, the cursor moves on or is dropped, the
record's flags are examined (R41, R42), and the record completes when it is frames-done with its answers closed (R36,
R37). A record that does not lag is left alone. -/
def Obligations.CopyStepCopies : Prop :=
  ∀ (s : State) (i : Fin 4),
    (s.recordAt i = none → exec (.copyStep i) s = .next s) ∧
    (∀ r, s.recordAt i = some r →
      (r.cursor = none → exec (.copyStep i) s = .next s) ∧
      (r.cursor = some s.hr.nextWrite → exec (.copyStep i) s = .next s) ∧
      (∀ k lag f, r.cursor = some k → lag = (s.hr.nextWrite - k).toNat → 0 < lag → lag ≤ s.hr.frames.length →
        s.hr.frames[s.hr.frames.length - lag]? = some f →
        let finished := decide (r.frames.length + 1 = r.total)
        ∃ t r', exec (.copyStep i) s = .next t ∧ t.recordAt i = some r' ∧
          r'.frames = r.frames ++ [f] ∧ r'.cursor = (if finished then none else some (k + 1)) ∧
          r'.framesDone = finished ∧
          r'.flags = { r.flags with
            incompleteFrames := r.flags.incompleteFrames || f.tag1.getLsbD 12
            timeSlip := r.flags.timeSlip || (f.tag1.getLsbD 14 && decide (r.pre + 1 ≤ r.frames.length)) } ∧
          r'.phase = (match r.phase with
            | .filling c => if finished && c.answersClosed then .complete c else .filling c
            | p => p) ∧
          (t.hasCause .captureComplete = (s.hasCause .captureComplete || (r.isFilling && r'.isComplete))) ∧
          (∀ j, j ≠ i → t.recordAt j = s.recordAt j) ∧ t.hr = s.hr ∧ t.acq = s.acq ∧ t.mu = s.mu ∧ t.et = s.et ∧
          t.lc = s.lc ∧ t.tm = s.tm ∧ t.cc.marks = s.cc.marks ∧ t.cc.opening = s.cc.opening))

/-- The ring's words (R54): the frame at index j from the oldest lies at the words p × w to p × w + w − 1 of its place p,
counted back from the write position; a write stores the new frame at the place n mod D and moves no other word (R55). A
write loses no held frame (R55, R61, R62): the oldest frame of a full ring goes first into every record whose cursor stands
on it, the new frame goes into every caught-up record, one that the forced copy made so among them, each as R59 gives, and no
other record is touched. -/
def Obligations.WriteKeepsHeld : Prop :=
  (∀ (s : State) (g : Geometry) (f : Frame), RingLaidOut s g → f.wordList.length = g.words →
    (∀ j h, s.hr.frames[j]? = some h →
      s.ringPlaceOf j < g.depth ∧ s.ringPlaceOf j = (s.hr.writePos + g.depth - (s.hr.frames.length - j)) % g.depth ∧
        ∀ k, k < g.words → s.ringWordAt (s.ringPlaceOf j * g.words + k) = h.wordList[k]?) ∧
    (∀ a, g.depth * g.words ≤ a → s.ringWordAt a = none) ∧
    RingLaidOut (s.writeFrame f) g ∧ (s.writeFrame f).hr.writePos = (s.hr.writePos + 1) % g.depth ∧
    (∀ k, k < g.words → (s.writeFrame f).ringWordAt (s.hr.writePos * g.words + k) = f.wordList[k]?) ∧
    (∀ a, ¬(s.hr.writePos * g.words ≤ a ∧ a < s.hr.writePos * g.words + g.words) →
      (s.writeFrame f).ringWordAt a = s.ringWordAt a)) ∧
  ∀ (s : State) (f : Frame), 0 < s.depth → s.depth < 4294967296 → s.hr.frames.length ≤ s.depth →
    (s.writeFrame f).hr.frames =
      (if s.hr.frames.length = s.depth then s.hr.frames.drop 1 else s.hr.frames) ++ [f] ∧
    (s.writeFrame f).hr.nextWrite = s.hr.nextWrite + 1 ∧
    (∀ i r, s.recordAt i = some r →
      ∃ r', (s.writeFrame f).recordAt i = some r' ∧ TakesFrames (s.copiedAtWrite f r) r r') ∧
    (∀ i r k, s.recordAt i = some r → r.cursor = some k →
      (s.hr.frames.length = s.depth → k = s.hr.nextWrite - BitVec.ofNat 32 s.depth →
        ∀ f₀, s.hr.frames[0]? = some f₀ → ∃ r', (s.writeFrame f).recordAt i = some r' ∧ r'.frames = r.frames ++
          f₀ :: (if k + 1 = s.hr.nextWrite ∧ r.frames.length + 1 ≠ r.total then [f] else [])) ∧
      (k = s.hr.nextWrite → ∃ r', (s.writeFrame f).recordAt i = some r' ∧ r'.frames = r.frames ++ [f]) ∧
      ((s.hr.frames.length < s.depth ∨ k ≠ s.hr.nextWrite - BitVec.ofNat 32 s.depth) → k ≠ s.hr.nextWrite →
        (s.writeFrame f).recordAt i = some r)) ∧
    (∀ i, s.recordAt i = none → (s.writeFrame f).recordAt i = none) ∧
    (∀ i r, s.recordAt i = some r → r.cursor = none → (s.writeFrame f).recordAt i = some r)

/-- The search finds the most recent frame whose two tags are those of the point, and finds none only when the ring holds
none (R63). Places count from the oldest frame. -/
def Obligations.RingSearchFinds : Prop :=
  ∀ (p : Point) (frames : List Frame),
    let tagged : Frame → Prop := fun f => f.tag0 = p.tick ∧ f.tag1.setWidth 12 = p.epoch.setWidth 12
    (searchRing p frames = none ↔ ∀ f ∈ frames, ¬tagged f) ∧
    (∀ j, searchRing p frames = some j ↔
      (∃ f, frames[j]? = some f ∧ tagged f) ∧ ∀ k f, j < k → frames[k]? = some f → ¬tagged f)

/-! ## The converter -/

/-- A sweep conversion's end stores the code minus the entry's offset in the entry's value word, and the next entry's
conversion starts unless a spot place waits (R71, R68); the sweep of the frame under assembly resumes when the converter
is free of spot runs (R79). -/
def Obligations.SweepConversions : Prop :=
  (∀ (s : State) (code : Code) (a : Assembly) (e : SweepEntry), s.acq.converter = .sweep →
    s.acq.assembly = some a → s.cfg.sweep[a.pos]? = some e →
    exec (.sweepConversionEnd code) s = .next { s with acq := { s.acq with
      converter := if s.mu.station = .member ∧ a.pos + 1 < s.cfg.sweep.length ∧
          s.acq.spotList.any (fun p => !p.inRun) = false then .sweep else .idle
      assembly := some { a with
        values := a.values.set a.pos (BitVec.ofInt 16 ((code.toNat : Int) - e.offset)), pos := a.pos + 1 } } }) ∧
  (∀ (s : State) (a : Assembly), s.mu.station = .member → s.acq.converter = .idle → s.acq.assembly = some a →
    a.pos < s.cfg.sweep.length → s.acq.spotList.any (fun p => !p.inRun) = false →
    exec .sweepResume s = .next { s with acq := { s.acq with converter := .sweep } })

/-- A spot run begins: it preempts a sweep conversion, takes every waiting place, sets SPOT and notes the run stamp (R76).
Its conversions keep their codes; at the last one the codes go to every place served (R77, R43, R80). -/
def Obligations.SpotRuns : Prop :=
  (∀ s : State, s.acq.spotList.any (fun p => !p.inRun) = true →
    (s.acq.converter = .idle ∨ s.acq.converter = .sweep) → s.acq.run = none →
    ¬(s.mu.station = .checking ∧ s.acq.selfCheck.isSome = true) →
    exec .spotRunBegin s = .next { s with acq := { s.acq with
      converter := .spot
      assembly := s.acq.assembly.map (fun a => { a with spot := true })
      spotList := s.acq.spotList.map (fun p => { p with inRun := true })
      run := some
        { spots := s.cfg.spots, codes := [], began := s.mu.station
          stamp := if s.mu.station = .member then
            s.acq.assembly.map (fun a => { epoch := a.epoch, tick := a.tick }) else none } } }) ∧
  (∀ (s : State) (code : Code) (run : SpotRun), s.acq.converter = .spot → s.acq.run = some run →
    (run.codes.length + 1 < run.spots.length → exec (.spotConversionEnd code) s = .next
      { s with acq := { s.acq with run := some { run with codes := run.codes ++ [code] } } }) ∧
    (run.codes.length + 1 = run.spots.length → ∃ t, exec (.spotConversionEnd code) s = .next t ∧
      t.acq.converter = .idle ∧ t.acq.run = none ∧ t.acq.spotList = s.acq.spotList.filter (fun p => !p.inRun) ∧
      t.acq.assembly = s.acq.assembly ∧
      (∀ i r, s.recordAt i = some r → t.recordAt i = some
        (if r.spotRequest = .placed ∧ { requester := .capture i r.seq, inRun := true } ∈ s.acq.spotList then
          { r with spotRequest := .served, spotValues := some (run.codes ++ [code]) } else r)) ∧
      ({ requester := .localPort, inRun := true } ∈ s.acq.spotList →
        t.acq.localPending = false ∧ t.hasCause .spotDone = true ∧
        t.acq.lastSpot = some { codes := run.codes ++ [code], station := run.began, stamp := run.stamp }) ∧
      ({ requester := .localPort, inRun := true } ∉ s.acq.spotList →
        t.acq.localPending = s.acq.localPending ∧ t.acq.lastSpot = s.acq.lastSpot ∧ t.lp = s.lp)))

/-- The self-check: it begins once the converter is free; each conversion is summed; the eighth gives the mean, rounded
down, and the station passes to LISTEN for a mean of 1984 to 2112 and to FAULT(SELFCHECK) otherwise (R81, R82, R140,
R84, R151). -/
def Obligations.SelfChecks : Prop :=
  (∀ s : State, s.mu.station = .checking → s.acq.selfCheck.isSome = true → s.acq.converter = .idle →
    exec .selfCheckBegin s = .next { s with acq := { s.acq with converter := .selfCheck } }) ∧
  (∀ (s : State) (code : Code) (c : SelfCheck), s.mu.station = .checking → s.acq.converter = .selfCheck →
    s.acq.selfCheck = some c →
    (c.made ≠ 7 → exec (.selfCheckConversionEnd code) s = .next
      { s with acq := { s.acq with selfCheck := some { made := c.made + 1, sum := c.sum + code.toNat } } }) ∧
    (c.made = 7 → ∃ t, exec (.selfCheckConversionEnd code) s = .next t ∧
      t.acq.converter = .idle ∧ t.acq.selfCheck = none ∧ t.acq.lastMean = some ((c.sum + code.toNat) / 8) ∧
      t.acq.lastSpot = s.acq.lastSpot ∧ t.mu.peers = s.mu.peers ∧ t.mu.config = s.mu.config ∧
      (1984 ≤ (c.sum + code.toNat) / 8 ∧ (c.sum + code.toNat) / 8 ≤ 2112 →
        t.mu.station = .listen ∧ t.mu.listenCount = 0 ∧ t.lc.idle = 0 ∧ t.lc.view = .none ∧
        t.acq.spotList = s.acq.spotList ∧ t.et = s.et ∧ t.lp = s.lp) ∧
      (¬(1984 ≤ (c.sum + code.toNat) / 8 ∧ (c.sum + code.toNat) / 8 ≤ 2112) →
        t.mu.station = .fault .selfcheck ∧ t.hasCause .fault = true ∧ t.et.running = false ∧
        t.et.counter = s.et.counter ∧ t.et.epoch = s.et.epoch ∧ t.et.transit = s.et.transit ∧ t.lc.queue = [] ∧
        t.acq.spotList = [] ∧ t.acq.run = none ∧ t.acq.localPending = false ∧ t.acq.slipPending = false)))

/-! ## The monitors -/

/-- Every step of a monitor and whether it raises an alert: Table 5-1, and no step on an absent value (R88 to R91). As a
frame is handed on, every monitor in use takes its own step on its own value word, and each that trips raises an alert that
CC takes, one after another (R92, R93): with the line released the first begins the pulse and the others merge into its
mark, and in MUTE each is dropped. That a merging alert waits for no more than the edge is the model's reading (log 5). -/
def Obligations.MonitorSteps : Prop :=
  ∀ (p : MonitorParams) (v : Word) (c : Nat),
    (v = 0x8000 → ∀ m, monitorStep p v m = (m, false)) ∧
    (v ≠ 0x8000 → p.low ≤ v.toInt → v.toInt ≤ p.high →
      monitorStep p v ⟨.armed, c⟩ = (⟨.armed, 0⟩, false) ∧
      monitorStep p v ⟨.pending, c⟩ = (⟨.armed, 0⟩, false) ∧
      (c + 1 = p.persistence → monitorStep p v ⟨.tripped, c⟩ = (⟨.armed, 0⟩, false)) ∧
      (c + 1 < p.persistence → monitorStep p v ⟨.tripped, c⟩ = (⟨.tripped, c + 1⟩, false))) ∧
    (v ≠ 0x8000 → (v.toInt < p.low ∨ p.high < v.toInt) →
      (p.persistence = 1 → monitorStep p v ⟨.armed, c⟩ = (⟨.tripped, 0⟩, true)) ∧
      (2 ≤ p.persistence → monitorStep p v ⟨.armed, c⟩ = (⟨.pending, 1⟩, false)) ∧
      (c + 1 = p.persistence → monitorStep p v ⟨.pending, c⟩ = (⟨.tripped, 0⟩, true)) ∧
      (c + 1 < p.persistence → monitorStep p v ⟨.pending, c⟩ = (⟨.pending, c + 1⟩, false)) ∧
      monitorStep p v ⟨.tripped, c⟩ = (⟨.tripped, 0⟩, false)) ∧
    (∀ (s : State) (f : Frame),
      let steps := List.zipWith (fun (q : MonitorParams) m => monitorStep q ((f.values[q.entry - 1]?).getD 0x8000) m)
        s.cfg.monitors s.tm.monitors
      let trips := steps.filter (fun r => r.2)
      let t : State := { s with tm :=
        { monitors := steps.map (fun r => r.1) ++ s.tm.monitors.drop s.cfg.monitors.length } }
      s.handOn f = trips.foldl (fun u _ => u.alert) t ∧
      (trips ≠ [] → s.mu.station = .member → s.lc.mute = false → s.markAsserted = false →
        s.handOn f = { t with cc := { t.cc with driver := .driving 4, edgePending := true } }) ∧
      (trips ≠ [] → s.mu.station = .member → s.lc.mute = true →
        s.handOn f = { t with lp := { t.lp with causes := t.lp.causes ||| 0x200 } }))

/-! ## The peer link: speaking -/

/-- With the receiver on, recessive bit times pass: first the bits of the end field that are left, then idle times, counted
up to 11 (R115). A station then begins a frame when R118's conditions hold, and its head message contends. A dominant bit
read while the idle count stands at 11 begins a frame, and any other outside a frame returns the count to 0; in the end
field it is one of its bits (R115, R120). In a frame up to its veto bit, and with the receiver off, neither command does
anything. How many bit times a command tells of is the model's choice of an operand (log 9). -/
def Obligations.FrameBegins : Prop :=
  ∀ (s : State) (bits : Nat),
    let on := s.mu.station = .listen ∨ s.mu.station = .member ∨ s.mu.station = .leaving
    let begins : Nat → Prop := fun idle =>
      11 ≤ idle ∧ (s.mu.station = .member ∨ s.mu.station = .leaving) ∧ s.lc.mute = false ∧ s.lc.queue ≠ []
    let begun : Host.Outcome State Fault Refusal := .next { s with lc := { s.lc with
      idle := 0, view := .reading
      queue := match s.lc.queue with
        | m :: q => { m with cond := .contending } :: q
        | [] => [] } }
    let viewed : FrameView → Nat → Host.Outcome State Fault Refusal := fun view idle =>
      .next { s with lc := { s.lc with idle := idle, view := view } }
    (∀ idle, on → (s.lc.view = .none ∧ idle = s.lc.idle + bits ∨
          ∃ left, s.lc.view = .ending left ∧ left ≤ bits ∧ idle = bits - left) →
      (begins idle → exec (.frameStart bits) s = begun) ∧
      (¬begins idle → exec (.frameStart bits) s = viewed .none (min 11 idle)) ∧
      exec (.startBitRead bits) s = viewed (if 11 ≤ idle then .reading else .none) 0) ∧
    (∀ left, on → s.lc.view = .ending left → bits < left →
      exec (.frameStart bits) s = viewed (.ending (left - bits)) s.lc.idle ∧
      exec (.startBitRead bits) s = viewed (if left - bits ≤ 1 then .none else .ending (left - bits - 1)) 0) ∧
    ((¬on ∨ s.lc.view = .reading ∨ s.lc.view = .readingNoVeto) →
      exec (.startBitRead bits) s = .next s ∧ exec (.frameStart bits) s = .next s)

/-- A win puts the contending message in transmission, at the head, with the fields fixed at that moment: an EPOCH's lag is
the tick counter, the free slots of a HELLO or PRESENT the number of FREE records; ET and CC are told (R105, R119, R14,
R104). The station drives start bit and arbitration field while it contends, and from the win on the whole frame of the
message as then fixed (R116). When a tick comes together with the win and is taken first, the lag is the counter after it
(R105; how a command says so is log 20). A loss returns the message to queued with its failed attempts unchanged (R119). -/
def Obligations.Arbitration : Prop :=
  (∀ (s : State) (m : Msg), m ∈ s.lc.queue → m.cond = .contending → (∀ x ∈ s.lc.queue, x.cond = .contending → x = m) →
    let fixed : Payload := match m.payload with
      | .epoch n _ digest => .epoch n s.et.counter digest
      | .hello digest n _ => .hello digest n (BitVec.ofNat 8 s.freeCount)
      | .present digest n _ => .present digest n (BitVec.ofNat 8 s.freeCount)
      | p => p
    exec .arbitrationWin s = .next { s with
      lc := { s.lc with queue :=
        { m with payload := fixed, cond := .inTransmission } ::
          s.lc.queue.filter (fun x => decide (x.cond ≠ .contending)) }
      et := { s.et with own := match m.payload with
        | .epoch n _ _ => .inTransmission n
        | _ => s.et.own }
      cc := { s.cc with marks := match m.payload, m.mark with
        | .claim _, some id => s.cc.marks.map (fun e => if e.id = id then { e with claim := .inTransmission } else e)
        | _, _ => s.cc.marks } }) ∧
  (∀ (s : State) (m : Msg), m ∈ s.lc.queue → m.cond = .contending → (∀ x ∈ s.lc.queue, x.cond = .contending → x = m) →
    (∀ x ∈ s.lc.queue, x.cond ≠ .inTransmission) →
    s.drivenBits = [false] ++ bitsOf m.payload.kind ++ bitsOf s.mu.number ++ [true, true] ∧
    ∃ t, exec .arbitrationWin s = .next t ∧
      t.drivenBits = sentBits (wireOf s.mu.number (s.fixPayload m.payload)) false) ∧
  (∀ (s : State) (m : Msg) (order : List Part) (n : Word32) (lag digest : Word), s.et.running = true →
    s.mu.station = .member → Part.win ∈ order → m ∈ s.lc.queue → m.cond = .contending →
    (∀ x ∈ s.lc.queue, x.cond = .contending → x = m) → m.payload = .epoch n lag digest →
    s.et.counter.toNat + 1 ≠ s.cfg.epochLen →
    ∃ t, exec (.tick order) s = .next t ∧ t.et.own = .inTransmission n ∧ t.et.counter = s.et.counter + 1 ∧
      { m with payload := .epoch n (s.et.counter + 1) digest, cond := .inTransmission } ∈ t.lc.queue) ∧
  (∀ s : State, exec .arbitrationLoss s = .next { s with lc := { s.lc with
    queue := s.lc.queue.map (fun x => if x.cond = .contending then { x with cond := .queued } else x) } })

/-- A failed attempt, by a veto or by a bit error (R120, R123, R127): below the limit the message is queued again with one
more failed attempt, at the 16th it is dropped; at either a stale EPOCH is followed by one of the present number (R107); the
CLAIM of a deferred entry takes the entry with it (R24), the end of the BYE ends LEAVING (R153); the transmit failure count
goes up, and at 32 LC enters MUTE (R130, R131): every message is flushed with its loss, so the entry of each CLAIM has
status lost and the records of the CLAIMs' entries and of the FROZENs' keys have ANNOUNCE_LOST (R29, R104, R128). That a
FROZEN of outcome NO_SLOT or MISSED marks the record that holds its key is the model's choice (log 19). Identities of
entries are distinct and only CLAIMs stand for entries: invariants of the model, stated as MarksStayBounded and
QueueStaysBounded. -/
def Obligations.AttemptFails : Prop :=
  ∀ (s : State) (m : Msg) (reason : FailReason), s.Transmits m → (s.cc.marks.map Mark.id).Nodup → MarkedAreClaims s →
    ∃ t, exec (.txAttemptFail reason) s = .next t ∧ t.lc.vetoCount = s.lc.vetoCount ∧
      (reason = .veto → t.lc.idle = 0 ∧ t.lc.obsCur = .spoiled ∧
        (s.mu.station ≠ .leaving → t.lc.view = .ending 3) ∧
        (s.mu.station = .leaving → t.lc.view = if t.mu.station = .leaving then .ending 3 else .none)) ∧
      (reason = .bitError → s.mu.station ≠ .leaving → t.lc.view = .readingNoVeto ∧ t.lc.idle = s.lc.idle) ∧
      (31 ≤ s.lc.failCount →
        t.lc.failCount = 32 ∧ t.lc.mute = true ∧ t.lc.queue = [] ∧ t.lc.obsCur = .spoiled ∧ t.lc.obsPrev = .spoiled ∧
        t.hasCause .linkMute = true ∧ t.cc.driver = .idle ∧
        (s.mu.station = .leaving → t.mu.station = .config) ∧ (s.mu.station ≠ .leaving → t.mu = s.mu) ∧
        ((∃ q ∈ s.lc.queue, q.payload.isEpoch = true) → t.et.own = .none) ∧
        (∀ q ∈ s.lc.queue, ∀ p id, q.payload = .claim p → q.mark = some id →
          ∀ x ∈ t.cc.marks, x.id = id → x.claim = .lost) ∧
        (∀ i r, s.recordAt i = some r → (∀ e ∈ s.cc.marks, e.slot = some i → e.deferred = false) → ∃ lost : Bool,
          t.recordAt i = some { r with flags := { r.flags with announceLost := lost } } ∧
          (lost = true ↔ r.flags.announceLost = true ∨
            (∃ q ∈ s.lc.queue, ∃ p, q.payload = .claim p ∧
              ∃ e ∈ s.cc.marks, q.mark = some e.id ∧ e.slot = some i) ∨
            ∃ q ∈ s.lc.queue, ∃ key off out, q.payload = .frozen key off out ∧ s.keyAt i = some key))) ∧
      (s.lc.failCount < 31 →
        let again : Msg := { m with fails := m.fails + 1, cond := .queued }
        t.lc.failCount = s.lc.failCount + 1 ∧ t.lc.mute = s.lc.mute ∧ t.lc.obsPrev = s.lc.obsPrev ∧
        (reason = .bitError → t.lc.obsCur = s.lc.obsCur) ∧ t.cc.driver = s.cc.driver ∧
        (∀ n lag digest, m.payload = .epoch n lag digest → n ≠ s.et.epoch → s.mu.station = .member → s.lc.mute = false →
          t.et = { s.et with own := .queued s.et.epoch } ∧
          (∀ q ∈ t.lc.queue, q.payload.isEpoch = true →
            q.fails = 0 ∧ q.cond = .queued ∧ q.payload = .epoch s.et.epoch 0 s.mu.digest) ∧
          ∃ q ∈ t.lc.queue, q.payload.isEpoch = true) ∧
        (m.fails + 1 < 16 →
          (m.payload.isEpoch = false → (∀ p, m.payload ≠ .claim p) →
            t.lc.queue = insertMsg again s.othersQueued ∧ t.cc = s.cc ∧ t.mu = s.mu) ∧
          (∀ n lag digest, m.payload = .epoch n lag digest →
            n = s.et.epoch → t.lc.queue = insertMsg again s.othersQueued ∧ t.et = { s.et with own := .queued n }) ∧
          (∀ p id e, m.payload = .claim p → m.mark = some id → e ∈ s.cc.marks → e.id = id →
            (e.deferred = false →
              t.lc.queue = insertMsg again s.othersQueued ∧
              t.cc.marks = s.cc.marks.map (fun x => if x.id = id then { x with claim := .queued } else x)) ∧
            (e.deferred = true → ∀ q ∈ t.lc.queue, q.mark ≠ some id))) ∧
        (16 ≤ m.fails + 1 →
          (m.payload.isEpoch = false → (∀ p, m.payload ≠ .claim p) → t.lc.queue = s.othersQueued) ∧
          (m.payload = .bye → s.mu.station = .leaving → t.mu.station = .config) ∧
          (∀ n lag digest, m.payload = .epoch n lag digest → n = s.et.epoch →
            t.lc.queue = s.othersQueued ∧ t.et = { s.et with own := .none }) ∧
          (∀ key off out i r, m.payload = .frozen key off out → s.recordAt i = some r → s.keyAt i = some key →
            t.recordAt i = some { r with flags := { r.flags with announceLost := true } }) ∧
          (∀ p id e, m.payload = .claim p → m.mark = some id → e ∈ s.cc.marks → e.id = id → e.deferred = false →
            t.lc.queue = s.othersQueued ∧
            t.cc.marks = s.cc.marks.map (fun x => if x.id = id then { x with claim := .lost } else x) ∧
            ∀ i r, e.slot = some i → s.recordAt i = some r →
              t.recordAt i = some { r with flags := { r.flags with announceLost := true } }))) ∧
      (∀ p id e, m.payload = .claim p → m.mark = some id → e ∈ s.cc.marks → e.id = id → e.deferred = true →
        (∀ x ∈ t.cc.marks, x.id ≠ id) ∧ t.hasCause .captureAbandoned = true ∧
        (∀ i, e.slot = some i → t.recordAt i = none) ∧ t.cc.lineEntry ≠ .entry id)

/-- This station's own transmission accepted (R123, R106, R148, R153, R24): the message leaves the queue, the failure count
goes down, the veto count returns to 0, the current observation moves from EMPTY, the spoken flag is set. An EPOCH of the
present number sets the counter to the smaller of lag + W and E−1, an older one leaves the timebase, and neither is an
epoch start. A CLAIM that matches an open-mark entry, this station's own among them (R16): the entry leaves the list with
its other CLAIMs, the record of its slot becomes FILLING with this station as origin (R17), FROZEN is submitted (R17, R18,
R29), and the window closes at once when the expected set is this station alone (R27, R37). The entry of the CLAIM, when it
is another and stays, has status sent, or is abandoned if it was deferred (R24). The frame's contents as another station
would say them play no part (log 15). -/
def Obligations.OwnFrameAccepted : Prop :=
  ∀ (s : State) (m : Msg) (f : WireFrame) (muFirst : Bool) (order : List Part), s.Transmits m →
    ∃ t, exec (.frameAccepted f muFirst order) s = .next t ∧
      t.lc.vetoCount = 0 ∧ t.lc.failCount = s.lc.failCount - 1 ∧ t.lc.mute = s.lc.mute ∧
      t.lc.view = (if m.payload = .bye ∧ s.mu.station = .leaving then .none else .ending 3) ∧ t.lc.idle = 0 ∧
      t.lc.obsCur = (if s.lc.obsCur = .empty then .accepted else s.lc.obsCur) ∧
      t.lc.obsPrev = s.lc.obsPrev ∧ t.mu.spoken = true ∧ t.mu.peers = s.mu.peers ∧ t.hr = s.hr ∧ t.tm = s.tm ∧
      (∀ n lag digest, m.payload = .epoch n lag digest → t.lc.queue = s.othersQueued ∧ t.cc = s.cc ∧ t.lp = s.lp ∧
        t.acq = s.acq ∧ t.mu.station = s.mu.station ∧ t.et = { s.et with
          own := .none
          counter := if n = s.et.epoch then BitVec.ofNat 16 (min (lag.toNat + s.et.transit) (s.cfg.epochLen - 1))
            else s.et.counter }) ∧
      (m.payload.isHelloOrPresent = true → t.lc.queue = s.othersQueued ∧ t.et = s.et ∧ t.cc = s.cc ∧ t.lp = s.lp ∧
        t.mu.station = s.mu.station) ∧
      (m.payload = .bye → t.lc.queue = s.othersQueued ∧ t.et = s.et ∧ t.cc = s.cc ∧
        t.mu.station = (if s.mu.station = .leaving then .config else s.mu.station)) ∧
      (∀ key off out, m.payload = .frozen key off out → t.lc.queue = s.othersQueued ∧ t.et = s.et) ∧
      (∀ p id, m.payload = .claim p → m.mark = some id → (s.cc.marks.map Mark.id).Nodup →
        ∀ x ∈ t.cc.marks, x.id = id → x.claim = .sent ∧ x.deferred = false) ∧
      (∀ p older e newer, m.payload = .claim p → s.mu.station = .member → s.mu.number.toNat < 24 →
        p.tick.toNat < s.cfg.epochLen →
        let key : Key := { origin := s.mu.number.setWidth 8, point := p }
        let near : Mark → Prop := fun x => |pointDelta s.cfg.epochLen x.point p| ≤ 2
        (∀ i, s.keyAt i ≠ some key) → s.cc.marks = older ++ e :: newer → near e → (∀ x ∈ older, ¬near x) →
        (s.cc.marks.map Mark.id).Nodup → (∀ i x, e.slot = some i → x ∈ older ++ newer → x.slot ≠ some i) →
        let offset : Byte := BitVec.ofInt 8 (pointDelta s.cfg.epochLen e.point p)
        let noRoom := s.NoRoom (s.othersQueued.filter (fun q => decide (q.mark ≠ some e.id)))
        let own : Mark → Bool := fun x => decide (m.mark = some x.id)
        t.cc.marks = ((older ++ newer).filter (fun x => !(own x && x.deferred))).map
            (fun x => if own x then { x with claim := .sent } else x) ∧
        (s.cc.lineEntry = .entry e.id → t.cc.lineEntry = .claimed) ∧ (∀ q ∈ t.lc.queue, q.mark ≠ some e.id) ∧
        (e.slot = none →
          (∀ i, (∀ x ∈ older ++ newer, x.slot ≠ some i) → t.recordAt i = s.recordAt i) ∧
          (¬noRoom → ∃ q ∈ t.lc.queue, q.cond = .queued ∧ q.payload = .frozen key offset 3)) ∧
        (∀ i r, e.slot = some i → s.recordAt i = some r →
          (∀ j, j ≠ i → (∀ x ∈ older ++ newer, x.slot ≠ some j) → t.recordAt j = s.recordAt j) ∧
          (¬noRoom → ∃ q ∈ t.lc.queue, q.cond = .queued ∧ q.payload = .frozen key offset 1) ∧
          ∃ (c : Capture) (lost alone : Bool), (lost = true ↔ noRoom) ∧
            (alone = true ↔ ∀ n, n < 24 → (s.peerAt n).state = .present → n = s.mu.number.toNat) ∧
            t.recordAt i = some { r with
              phase := if alone && r.framesDone then .complete c else .filling c
              flags := { r.flags with announceLost := r.flags.announceLost || lost } } ∧
            c.key = key ∧ c.outcome = .ok ∧ c.answersClosed = alone ∧ c.answerCount = 0 ∧
            c.participants = [{ station := s.mu.number, outcome := .ok, offset := offset }] ∧
            (∀ n, n < 24 → (c.expected.getLsbD n = true ↔
              ((s.peerAt n).state = .present ∨ n = s.mu.number.toNat))) ∧
            ((alone && r.framesDone) = true → t.hasCause .captureComplete = true)))

/-! ## The peer link: hearing -/

/-- Frames that a receiver does not accept. A frame read with its veto bit dominant spoils the current observation, whatever
the station judged (R122, R133); a station that found a dominant presence bit and a bad CRC over the bits as it read them,
and may veto, counts its veto, and at 16 enters MUTE (R117, R121, R130, R131); a frame that the judgement discards only
comes to its end field (R121, R115). At the sender a veto fails its attempt (R123). That MUTE is read at the veto bit's event,
not at the presence bit, is the model's choice (log 21). -/
def Obligations.FramesNotAccepted : Prop :=
  (∀ (s : State) (f : WireFrame), s.ReadsAsReceiver →
    let bad := f.presence = true ∧ ¬CrcGood f
    let spoiled : Lc := { s.lc with view := .ending 3, idle := 0, obsCur := .spoiled }
    (¬(bad ∧ s.lc.mute = false ∧ s.lc.view = .reading) →
      exec (.frameVetoed f) s = .next { s with lc := spoiled }) ∧
    (bad → s.lc.mute = false → s.lc.view = .reading →
      (s.lc.vetoCount < 15 →
        exec (.frameVetoed f) s = .next { s with lc := { spoiled with vetoCount := s.lc.vetoCount + 1 } }) ∧
      (15 ≤ s.lc.vetoCount → ∃ t, exec (.frameVetoed f) s = .next t ∧ t.lc.vetoCount = 16 ∧ t.lc.mute = true ∧
        t.lc.queue = [] ∧ t.lc.obsCur = .spoiled ∧ t.lc.obsPrev = .spoiled ∧ t.hasCause .linkMute = true ∧
        t.cc.driver = .idle ∧ t.lc.failCount = s.lc.failCount ∧ t.hr = s.hr ∧ t.tm = s.tm ∧ t.acq = s.acq ∧
        (s.mu.station = .leaving → t.mu.station = .config) ∧ (s.mu.station ≠ .leaving → t.mu = s.mu)))) ∧
  (∀ (s : State) (f : WireFrame), s.ReadsAsReceiver →
    let good := CrcGood f
    (f.presence = false ∨ (¬good ∧ (s.lc.mute = true ∨ s.lc.view = .readingNoVeto)) ∨
      (good ∧ (6 ≤ f.kind.toNat ∨ f.payload.length ≠ [8, 6, 9, 7, 7, 0].getD f.kind.toNat 0))) →
    exec (.frameDiscarded f) s = .next { s with lc := { s.lc with view := .ending 3, idle := 0 } }) ∧
  (∀ (s : State) (f : WireFrame) (m : Msg), s.Transmits m → exec (.frameVetoed f) s = exec (.txAttemptFail .veto) s)

/-- Another station's eligible EPOCH (R108, R109, R110, R112), the blocks taking it in any order. The counter becomes the
smaller of lag + W and E−1 and the epoch number n. In MEMBER an own EPOCH is withdrawn; n = e is no epoch start; the
successor of e is one; any other number is a slip as well, with SLIP, slip-pending, and TIME_SLIP on every OPEN or FILLING
record that is not frames-done and whose entry the epoch start does not abandon. At LC the acceptance returns the veto count
to 0 and brings the frame to its end field (R122, R115, R130). The epoch start acts at LC, CC and MU as
that of a wrap does (R101): the observations and MUTE (R133), the open-mark entries (R22), the answer windows (R26), PRESENT
(R148), peer expiry (R149). In LISTEN the station becomes MEMBER, and its PRESENT and MISMATCH entries are stamped with n
(R143). The sender's entry becomes PRESENT (Table 8-3), stamped with n or, where MU takes the EPOCH first in MEMBER, with e,
in which case the epoch start can expire it (R145, R149); with n = e it is stated by PeerTableUpdated.
That the acceptance moves the current observation before the adoption does, so that an epoch start passes it on as seen and
becoming MEMBER spoils it, is the model's reading (log 10, DEDUCED): R122 gives no order. -/
def Obligations.EpochAdopted : Prop :=
  ∀ (s : State) (f : WireFrame) (n : Word32) (lag : Word) (muFirst : Bool) (order : List Part), s.ReadsAsReceiver →
    Carries f (.epoch n lag s.mu.digest) → f.sender.toNat < 24 → f.sender ≠ s.mu.number → n ≠ 0 →
    let c : Word := BitVec.ofNat 16 (min (lag.toNat + s.et.transit) (s.cfg.epochLen - 1))
    let succ : Word32 := if s.et.epoch = 0xFFFFFFFF then 1 else s.et.epoch + 1
    let seen : Observation := if s.lc.obsCur = .empty then .accepted else s.lc.obsCur
    let old := s.peerAt f.sender.toNat
    let heard : Word32 → Peer := fun stamp =>
      { old with state := .present, lastHeard := some stamp, digestMatches := some true, announced := some n }
    (s.mu.station = .member → ∃ t, exec (.frameAccepted f muFirst order) s = .next t ∧
      t.et = { s.et with counter := c, epoch := n, own := .none } ∧ t.mu.station = .member ∧
      (∀ q ∈ t.lc.queue, q.payload.isEpoch = false) ∧ t.hr = s.hr ∧ t.tm = s.tm ∧
      t.lc.vetoCount = 0 ∧ t.lc.view = .ending 3 ∧ t.lc.idle = 0 ∧
      (n = s.et.epoch → AcceptedAtLc s t ∧ t.lc.obsCur = seen ∧ t.mu.spoken = s.mu.spoken ∧ t.cc = s.cc ∧
        t.acq = s.acq ∧ t.hasCause .slip = s.hasCause .slip) ∧
      (n ≠ s.et.epoch → n = succ → t.acq.slipPending = s.acq.slipPending ∧ t.hasCause .slip = s.hasCause .slip) ∧
      (n ≠ s.et.epoch → n ≠ succ → t.acq.slipPending = true ∧ t.hasCause .slip = true ∧
        ((s.cc.marks.map Mark.id).Nodup →
          ∀ i r, s.recordAt i = some r → r.framesDone = false → (r.isOpen = true ∨ r.isFilling = true) →
            (∀ e ∈ s.cc.marks, e.slot = some i → e.starts = 0 ∨ e.deferred = true ∨ e.claim = .inTransmission) →
            ∃ r', t.recordAt i = some r' ∧ r'.isOpen = r.isOpen ∧ r'.flags.timeSlip = true)) ∧
      (n ≠ s.et.epoch → t.lc.obsCur = .empty ∧ t.lc.obsPrev = seen ∧ t.mu.spoken = false ∧
        (s.lc.mute = true → seen = .accepted → s.lc.obsPrev = .accepted →
          t.lc.mute = false ∧ t.lc.failCount = 0 ∧ t.lc.vetoCount = 0 ∧ t.hasCause .linkMute = true) ∧
        (¬(s.lc.mute = true ∧ seen = .accepted ∧ s.lc.obsPrev = .accepted) →
          t.lc.mute = s.lc.mute ∧ t.lc.failCount = s.lc.failCount)) ∧
      (n ≠ s.et.epoch → (s.cc.marks.map Mark.id).Nodup →
        (∀ m ∈ s.cc.marks, MarkAtEpochStart m t) ∧ ∀ x ∈ t.cc.marks, ∃ m ∈ s.cc.marks, x.id = m.id) ∧
      (n ≠ s.et.epoch → ∀ i r w, s.recordAt i = some r → r.phase = .filling w → w.answersClosed = false →
        (∀ m ∈ s.cc.marks, m.slot ≠ some i) →
        ∃ r', t.recordAt i = some r' ∧ WindowAtEpochStart w r' ∧
          (r'.isComplete = true → t.hasCause .captureComplete = true)) ∧
      (n ≠ s.et.epoch →
        (s.mu.spoken = true → ∀ q ∈ t.lc.queue, q ∈ s.lc.queue) ∧
        (s.mu.spoken = false → s.lc.mute = false → s.lc.queue.any Msg.ofMembership = false →
          (s.lc.queue.filter (fun m => !m.payload.isEpoch)).length < 11 →
          ∃ m ∈ t.lc.queue, m.cond = .queued ∧ ∃ free, m.payload = .present s.mu.digest n free)) ∧
      (n ≠ s.et.epoch →
        let expired := muFirst && (heard s.et.epoch).dueAt n
        t.peerAt f.sender.toNat = { heard (if muFirst then s.et.epoch else n) with
          state := if expired then .absent else .present } ∧
        (∀ k : Fin 24, k.val ≠ f.sender.toNat →
          t.mu.peers[k] = if s.mu.peers[k].dueAt n then { s.mu.peers[k] with state := .absent } else s.mu.peers[k]) ∧
        ((old.state ≠ .present ∨ expired = true ∨ ∃ k : Fin 24, k.val ≠ f.sender.toNat ∧ s.mu.peers[k].dueAt n = true) →
          t.hasCause .peerChange = true) ∧
        (old.state = .present → expired = false → (∀ k : Fin 24, s.mu.peers[k].dueAt n = false) →
          t.hasCause .peerChange = s.hasCause .peerChange))) ∧
    (s.mu.station = .listen → ∃ t, exec (.frameAccepted f muFirst order) s = .next t ∧
      t.mu.station = .member ∧ t.et = { s.et with counter := c, epoch := n } ∧ t.mu.spoken = false ∧
      t.peerAt f.sender.toNat = heard n ∧
      (∀ k : Fin 24, k.val ≠ f.sender.toNat → t.mu.peers[k] =
        if s.mu.peers[k].state = .absent then s.mu.peers[k] else { s.mu.peers[k] with lastHeard := some n }) ∧
      t.hasCause .peerChange = (s.hasCause .peerChange || decide (old.state ≠ .present)) ∧
      t.lc.vetoCount = 0 ∧ t.lc.view = .ending 3 ∧ t.lc.idle = 0 ∧ t.lc.mute = s.lc.mute ∧
      t.lc.failCount = s.lc.failCount ∧
      t.lc.obsCur = .spoiled ∧ t.lc.obsPrev = .spoiled ∧ t.hr.frames = [] ∧ t.hr.nextWrite = 0 ∧
      t.hr.geometry = some { words := s.cfg.sweep.length + 2, depth := 4096 / (s.cfg.sweep.length + 2) } ∧
      t.tm.monitors = s.cfg.monitors.map (fun _ => ⟨.armed, 0⟩) ∧ t.acq.assembly = none ∧
      t.acq.slipPending = false ∧ t.cc.stuck = 0 ∧ t.cc.lineEntry = .empty ∧
      (s.lc.mute = false → s.lc.queue = [] → ∃ q, t.lc.queue = [q] ∧ q.cond = .queued ∧
        ∃ free, q.payload = .hello s.mu.digest n free))

/-- Another station's CLAIM that matches an open-mark entry: the oldest within ±2 ticks (R16). The entry leaves the list
with its own CLAIM; the record of its slot becomes FILLING with the key, the expected set and this station's entry, its
window open (R17); FROZEN is submitted with OK, or NO_SLOT without a record (R17, R18), and a refused one leaves
ANNOUNCE_LOST (R29). CC and MU take the CLAIM in either order. Points are compared as epoch × E + tick with the epochs in
succession, so that 1 follows 4294967295 (R15, R100): `pointDelta` is E times the epochs between, which agree with the two
numbers modulo 4294967295, plus the difference of the ticks. That it goes the short way round is the model's reading (log
11, DEDUCED). -/
def Obligations.ClaimMatched : Prop :=
  (∀ (E : Nat) (p q : Point), p.epoch ≠ 0 → q.epoch ≠ 0 → ∃ d : Int, -2147483647 ≤ d ∧ d ≤ 2147483647 ∧
    (4294967295 : Int) ∣ (p.epoch.toNat : Int) - q.epoch.toNat - d ∧
    pointDelta E p q = d * E + ((p.tick.toNat : Int) - q.tick.toNat)) ∧
  ∀ (s : State) (f : WireFrame) (p : Point) (m : Mark) (older newer : List Mark) (muFirst : Bool) (order : List Part),
    s.ReadsAsReceiver → s.mu.station = .member → Carries f (.claim p) → f.sender.toNat < 24 →
    f.sender ≠ s.mu.number → p.tick.toNat < s.cfg.epochLen → ¬s.MismatchAfter f.sender →
    let key : Key := { origin := f.sender.setWidth 8, point := p }
    let near : Mark → Prop := fun x => |pointDelta s.cfg.epochLen x.point p| ≤ 2
    (∀ i, s.keyAt i ≠ some key) → s.cc.marks = older ++ m :: newer → near m → (∀ x ∈ older, ¬near x) →
    (s.cc.marks.map Mark.id).Nodup →
    let offset : Byte := BitVec.ofInt 8 (pointDelta s.cfg.epochLen m.point p)
    let noRoom := s.NoRoom (s.lc.queue.filter (fun q => decide (q.mark ≠ some m.id)))
    ∃ t, exec (.frameAccepted f muFirst order) s = .next t ∧ t.cc.marks = older ++ newer ∧
      (s.cc.lineEntry = .entry m.id → t.cc.lineEntry = .claimed) ∧ (∀ q ∈ t.lc.queue, q.mark ≠ some m.id) ∧
      t.et = s.et ∧ t.hr = s.hr ∧ t.acq = s.acq ∧ t.tm = s.tm ∧
      (m.slot = none → (∀ i, t.recordAt i = s.recordAt i) ∧
        (¬noRoom → ∃ q ∈ t.lc.queue, q.cond = .queued ∧ q.payload = .frozen key offset 3)) ∧
      (∀ i r, m.slot = some i → s.recordAt i = some r → (∀ j, j ≠ i → t.recordAt j = s.recordAt j) ∧
        (¬noRoom → ∃ q ∈ t.lc.queue, q.cond = .queued ∧ q.payload = .frozen key offset 1) ∧
        ∃ (c : Capture) (lost : Bool), (lost = true ↔ noRoom) ∧
          t.recordAt i = some { r with
            phase := .filling c, flags := { r.flags with announceLost := r.flags.announceLost || lost } } ∧
          c.key = key ∧ c.outcome = .ok ∧ c.answersClosed = false ∧ c.answerCount = 0 ∧
          c.participants = [{ station := s.mu.number, outcome := .ok, offset := offset }] ∧
          ∀ n, n < 24 → (c.expected.getLsbD n = true ↔
            ((s.peerAt n).state = .present ∨ n = f.sender.toNat ∨ n = s.mu.number.toNat)))

/-- Another station's CLAIM that matches no open-mark entry. It is ignored in the cases of R15 (and R179). Otherwise the
ring is searched: no frame, FROZEN with MISSED (R19); a frame but no slot, FROZEN with NO_SLOT and CAPTURE_REFUSED (R21); a
frame and a slot, a FILLING record with outcome LATE from that frame on, and FROZEN with LATE (R20, R11). -/
def Obligations.ClaimLateOrIgnored : Prop :=
  ∀ (s : State) (f : WireFrame) (p : Point) (muFirst : Bool) (order : List Part), s.ReadsAsReceiver →
    Carries f (.claim p) → f.sender ≠ s.mu.number →
    let key : Key := { origin := f.sender.setWidth 8, point := p }
    let near : Point → Point → Prop := fun a b => |pointDelta s.cfg.epochLen a b| ≤ 2
    let unmatched := ∀ x ∈ s.cc.marks, ¬near x.point p
    let nearRecord := ∃ i r, s.recordAt i = some r ∧ r.phase ≠ .opened ∧ near p r.mark
    let held := ∃ i, s.keyAt i = some key
    let noRoom := s.NoRoom s.lc.queue
    ((s.mu.station ≠ .member ∨ 24 ≤ f.sender.toNat ∨ s.cfg.epochLen ≤ p.tick.toNat ∨ s.MismatchAfter f.sender ∨ held ∨
        (unmatched ∧ nearRecord)) →
      ∃ t, exec (.frameAccepted f muFirst order) s = .next t ∧ t.cc = s.cc ∧ t.acq = s.acq ∧ t.hr = s.hr ∧
        t.et = s.et ∧ t.lc.queue = s.lc.queue) ∧
    (s.mu.station = .member → f.sender.toNat < 24 → p.tick.toNat < s.cfg.epochLen → ¬s.MismatchAfter f.sender → ¬held →
      unmatched → ¬nearRecord →
      (searchRing p s.hr.frames = none → ∃ t, exec (.frameAccepted f muFirst order) s = .next t ∧ t.cc = s.cc ∧
        t.acq = s.acq ∧ t.hr = s.hr ∧ t.et = s.et ∧
        (¬noRoom → ∃ q ∈ t.lc.queue, q.cond = .queued ∧ q.payload = .frozen key 0 4)) ∧
      (∀ h, searchRing p s.hr.frames = some h →
        (s.chooseSlot = none → ∃ t, exec (.frameAccepted f muFirst order) s = .next t ∧ t.cc = s.cc ∧
          t.acq = s.acq ∧ t.hasCause .captureRefused = true ∧
          (¬noRoom → ∃ q ∈ t.lc.queue, q.cond = .queued ∧ q.payload = .frozen key 0 3)) ∧
        (∀ i, s.chooseSlot = some i → ∃ t, exec (.frameAccepted f muFirst order) s = .next t ∧
          t.cc.marks = s.cc.marks ∧ t.hr = s.hr ∧ (∀ j, j ≠ i → t.recordAt j = s.recordAt j) ∧
          (¬noRoom → ∃ q ∈ t.lc.queue, q.cond = .queued ∧ q.payload = .frozen key 0 2) ∧
          ∃ (r : CapRecord) (c : Capture) (lost : Bool), (lost = true ↔ noRoom) ∧ t.recordAt i = some r ∧
            r.phase = .filling c ∧ c.key = key ∧ c.outcome = .late ∧ c.answersClosed = false ∧ c.answerCount = 0 ∧
            c.participants = [{ station := s.mu.number, outcome := .late, offset := 0 }] ∧
            (∀ n, n < 24 → (c.expected.getLsbD n = true ↔
              ((s.peerAt n).state = .present ∨ n = f.sender.toNat ∨ n = s.mu.number.toNat))) ∧
            r.mark = p ∧ r.pre = min s.cfg.npre h ∧ r.total = r.pre + s.cfg.npost ∧ r.frames = [] ∧
            r.framesDone = false ∧
            r.cursor = some (s.hr.nextWrite - BitVec.ofNat 32 s.hr.frames.length + BitVec.ofNat 32 h -
              BitVec.ofNat 32 r.pre) ∧
            r.flags =
              { originator := false, shortPre := decide (h < s.cfg.npre), incompleteFrames := false, timeSlip := false
                cutShort := false, announceLost := lost } ∧
            r.spotRequest = (if s.cfg.spots = [] then .none else .placed))))

/-- Another station's FROZEN: its answer goes to the end of the participant list of the FILLING record with its key, whose
window is open and lists no entry of it, and the window closes at once when every expected station has one (R27, R28, R37);
any other FROZEN is ignored (R28, R179). -/
def Obligations.FrozenCollected : Prop :=
  ∀ (s : State) (f : WireFrame) (key : Key) (off out : Byte) (muFirst : Bool) (order : List Part), s.ReadsAsReceiver →
    Carries f (.frozen key off out) → f.sender ≠ s.mu.number →
    ((s.mu.station ≠ .member ∨ 24 ≤ f.sender.toNat ∨ s.MismatchAfter f.sender ∨ out = 0 ∨ 5 ≤ out.toNat ∨
        s.cfg.epochLen ≤ key.point.tick.toNat ∨
        (∀ i r c, s.recordAt i = some r → r.phase = .filling c → c.key = key →
          c.answersClosed = true ∨ ∃ e ∈ c.participants, e.station = f.sender)) →
      ∃ t, exec (.frameAccepted f muFirst order) s = .next t ∧ t.cc = s.cc ∧ t.acq = s.acq ∧ t.hr = s.hr ∧
        t.et = s.et ∧ t.lc.queue = s.lc.queue) ∧
    (∀ (i : Fin 4) (r : CapRecord) (c : Capture) (o : OutcomeCode), s.mu.station = .member → f.sender.toNat < 24 →
      ¬s.MismatchAfter f.sender → o ≠ .noAnswer → out = o.code → key.point.tick.toNat < s.cfg.epochLen → KeysDistinct s →
      s.recordAt i = some r → r.phase = .filling c → c.key = key → c.answersClosed = false →
      (∀ e ∈ c.participants, e.station ≠ f.sender) →
      let entries := c.participants ++ [{ station := f.sender, outcome := o, offset := off }]
      let answered := decide (∀ n < 24, c.expected.getLsbD n = true → ∃ e ∈ entries, e.station.toNat = n)
      let filled : Capture := { c with participants := entries, answersClosed := answered }
      ∃ t, exec (.frameAccepted f muFirst order) s = .next t ∧
        t.recordAt i = some { r with
          phase := if answered && r.framesDone then .complete filled else .filling filled } ∧
        (∀ j, j ≠ i → t.recordAt j = s.recordAt j) ∧ t.cc.marks = s.cc.marks ∧ t.acq = s.acq ∧ t.et = s.et ∧
        t.hr = s.hr ∧ t.lc.queue = s.lc.queue ∧
        ((answered && r.framesDone) = true → t.hasCause .captureComplete = true))

/-- Membership at an accepted message of another station, whichever block takes it first: the sender's entry by Table 8-3,
PEER_CHANGE when its state changes (R146), no other entry; an EPOCH of another digest faults a LISTEN station, and one of
epoch 0 with the equal digest leaves the timebase and the station (R142, R108); a HELLO from an ABSENT peer is answered in
MEMBER (R147); a message with this station's own number faults it in LISTEN and MEMBER and is ignored in LEAVING (R150,
R151). Where the station does not fault, LC counts the acceptance: veto count 0, the current observation from EMPTY to
ACCEPTED, the frame at its end field (R115, R122, R130, R133). An EPOCH that ET adopts with a new number, or in LISTEN, is
stated by EpochAdopted. -/
def Obligations.PeerTableUpdated : Prop :=
  ∀ (s : State) (f : WireFrame) (m : Payload) (muFirst : Bool) (order : List Part), s.ReadsAsReceiver → Carries f m →
    (f.sender ≠ s.mu.number → f.sender.toNat < 24 →
      (∀ n lag digest, m = .epoch n lag digest →
        s.mu.station = .leaving ∨ digest ≠ s.mu.digest ∨ n = 0 ∨ (s.mu.station = .member ∧ n = s.et.epoch)) →
      let old := s.peerAt f.sender.toNat
      let heard : Word → Word32 → Option Byte → Peer := fun digest n free =>
        { state := if digest = s.mu.digest then .present else .mismatch
          lastHeard := some s.et.epoch, digestMatches := some (decide (digest = s.mu.digest))
          freeSlots := free, announced := some n }
      let new : Peer := match m with
        | .epoch n _ digest => heard digest n old.freeSlots
        | .hello digest n free => heard digest n (some free)
        | .present digest n free => heard digest n (some free)
        | .bye => { old with state := .absent, lastHeard := some s.et.epoch }
        | _ =>
          { old with
            lastHeard := some s.et.epoch
            state := match old.state with
              | .absent => if old.digestMatches = some false then .mismatch else .present
              | st => st }
      ∃ t, exec (.frameAccepted f muFirst order) s = .next t ∧
        (∀ k : Fin 24, t.mu.peers[k] = if k.val = f.sender.toNat then new else s.mu.peers[k]) ∧
        t.hasCause .peerChange = (s.hasCause .peerChange || decide (old.state ≠ new.state)) ∧
        (∀ n lag digest, m = .epoch n lag digest → s.mu.station = .listen → digest ≠ s.mu.digest →
          t.mu.station = .fault .mismatch ∧ t.hasCause .fault = true ∧ t.et.running = false ∧ t.lc.view = .none) ∧
        ((s.mu.station = .listen → ∀ n lag digest, m = .epoch n lag digest → digest = s.mu.digest) →
          t.mu.station = s.mu.station ∧ AcceptedAtLc s t) ∧
        (∀ n lag digest, m = .epoch n lag digest → digest = s.mu.digest → n = 0 → t.et = s.et ∧ t.lc.queue = s.lc.queue) ∧
        (∀ digest n free, s.mu.station = .member → m = .hello digest n free → old.state = .absent →
          digest = s.mu.digest → s.lc.mute = false → s.lc.queue.any Msg.ofMembership = false →
          (s.lc.queue.filter (fun q => !q.payload.isEpoch)).length < 11 →
          ∃ q ∈ t.lc.queue, q.cond = .queued ∧ ∃ k, q.payload = .present s.mu.digest s.et.epoch k)) ∧
    (f.sender ≠ s.mu.number → 24 ≤ f.sender.toNat →
      ∃ t, exec (.frameAccepted f muFirst order) s = .next t ∧ t.mu = s.mu ∧ t.lp = s.lp ∧ t.et = s.et ∧
        AcceptedAtLc s t) ∧
    (f.sender = s.mu.number → s.mu.station = .leaving →
      ∃ t, exec (.frameAccepted f muFirst order) s = .next t ∧ t.mu = s.mu ∧ t.lp = s.lp ∧ AcceptedAtLc s t) ∧
    (f.sender = s.mu.number → s.mu.station ≠ .leaving →
      ∃ t, exec (.frameAccepted f muFirst order) s = .next t ∧ t.mu.station = .fault .duplicate ∧
        t.hasCause .fault = true ∧ t.mu.peers = s.mu.peers ∧ t.mu.config = s.mu.config ∧
        t.mu.digest = s.mu.digest ∧ t.mu.listenCount = s.mu.listenCount ∧ t.et.running = false ∧ t.et.own = .none ∧
        t.lc.queue = [] ∧ t.lc.view = .none ∧ t.acq.assembly = none ∧ t.acq.spotList = [] ∧ t.acq.run = none ∧
        (s.mu.station = .member → t.cc.marks = [] ∧ t.cc.driver = .idle ∧ t.cc.lineEntry = .empty ∧ t.hr.frames = [] ∧
          ∀ i r, t.recordAt i = some r → r.isComplete = true))

/-! ## The transmit queue -/

/-- A submission, row by row of Table 7-1; an admitted message enters as queued with no failed attempts and the newest age,
behind every message that comes before it (R125, R126). -/
def Obligations.SubmissionTable : Prop :=
  (∀ (s : State) (p : Payload) (mark : Option Nat),
    let q := s.lc.queue
    let others := (q.filter (fun x => !x.payload.isEpoch)).length
    let entered : List Msg → State := fun kept => { s with lc := { s.lc with
      queue := insertMsg { payload := p, age := s.lc.nextAge, fails := 0, cond := .queued, mark := mark } kept
      nextAge := s.lc.nextAge + 1 } }
    ((s.mu.station ≠ .member ∧ s.mu.station ≠ .leaving) ∨ s.lc.mute = true ∨ (s.mu.station = .leaving ∧ p ≠ .bye) →
      s.submit p mark = none) ∧
    ((s.mu.station = .member ∨ s.mu.station = .leaving) → s.lc.mute = false → (s.mu.station = .leaving → p = .bye) →
      (p.isEpoch = true →
        ((∃ x ∈ q, x.payload.isEpoch = true ∧ x.cond = .inTransmission) → s.submit p mark = none) ∧
        ((∀ x ∈ q, x.payload.isEpoch = true → x.cond ≠ .inTransmission) →
          s.submit p mark = some (entered (q.filter (fun x => !x.payload.isEpoch))))) ∧
      (p = .bye →
        ((∃ x ∈ q, x.payload.isHelloOrPresent = true ∧ x.cond ≠ .inTransmission) →
          s.submit p mark = some (entered (q.filter (fun x => !x.payload.isHelloOrPresent)))) ∧
        ((∃ x ∈ q, x.payload.isHelloOrPresent = true) →
          (∀ x ∈ q, x.payload.isHelloOrPresent = true → x.cond = .inTransmission) → s.submit p mark = none) ∧
        ((∀ x ∈ q, x.payload.isHelloOrPresent = false) →
          s.submit p mark = if 11 ≤ others then none else some (entered q))) ∧
      (p.isHelloOrPresent = true →
        s.submit p mark = if q.any Msg.ofMembership || decide (11 ≤ others) then none else some (entered q)) ∧
      (((∃ c, p = .claim c) ∨ ∃ key off out, p = .frozen key off out) →
        s.submit p mark = if 11 ≤ others then none else some (entered q)))) ∧
  (∀ (m : Msg) (q : List Msg),
    let ahead : Msg → Bool := fun x => decide (x.cond = .inTransmission) ||
      !decide (m.payload.kind < x.payload.kind ∨ (m.payload.kind = x.payload.kind ∧ m.age < x.age))
    insertMsg m q = q.takeWhile ahead ++ m :: q.dropWhile ahead)

/-- Every message, with every field at every value, is read back from its payload bytes and kind (R116, R178, R179); its
frame has a good CRC at whoever reads it so (R117), and no other length makes a message of the kind (R121). The CRC is the
register of R117: from FFFFh, the bits of kind, sender, delimiter, length and payload in the order sent, each bit shifting
the register left and combining 1021h when it differs from the bit shifted out. Fields go most significant bit first. Its frame as
sent has 36 + 8 × p bits: a dominant start bit, kind, sender, two recessive delimiter bits, length, payload, CRC, a
dominant presence bit, a recessive veto bit and three recessive bits, and it ends three bits behind its veto bit (R116). -/
def Obligations.PayloadRoundTrip : Prop :=
  (∀ (kind : BitVec 3) (sender : Station) (delimiter : BitVec 2) (payload : List Byte),
    crcOf kind sender delimiter payload =
      (bitsOf kind ++ bitsOf sender ++ bitsOf delimiter ++ bitsOf (BitVec.ofNat 4 payload.length) ++
        payload.flatMap bitsOf).foldl crcStep 0xFFFF) ∧
  (∀ (r : Word) (b : Bool), crcStep r b = if r.getLsbD 15 = b then r <<< 1 else (r <<< 1) ^^^ 0x1021) ∧
  (∀ (n : Nat) (w : BitVec n),
    (bitsOf w).length = n ∧ ∀ k, k < n → (bitsOf w)[k]? = some (w.getLsbD (n - 1 - k))) ∧
  ∀ (p : Payload) (sender : Station),
    decodePayload p.kind p.encode = some p ∧ Carries (wireOf sender p) p ∧ crcGood (wireOf sender p) = true ∧
    (∀ bytes m, decodePayload p.kind bytes = some m → bytes = m.encode ∧ m.kind = p.kind) ∧
    let sent := sentBits (wireOf sender p) false
    sent.length = 36 + 8 * p.encode.length ∧ sent.length = frameLength p.encode.length ∧
    vetoPlace p.encode.length + 3 = sent.length ∧ sent[vetoPlace p.encode.length - 1]? = some true ∧
    sent = [false] ++ bitsOf p.kind ++ bitsOf sender ++ [true, true] ++ bitsOf (BitVec.ofNat 4 p.encode.length) ++
      p.encode.flatMap bitsOf ++ bitsOf (wireOf sender p).crc ++ [false, true, true, true, true]

/-! ## Invariants: whatever command a step takes -/

/-- The open-mark list stays within its six entries, with distinct identities, and every OPEN record stays the slot of
exactly one entry, as every entry's slot stays that of an OPEN record (R7). -/
def Obligations.MarksStayBounded : Prop :=
  (∀ s t, MarksBounded s → step s = .next t → MarksBounded t) ∧
  (∀ s t, MarksBounded s ∧ OpenReferenced s → step s = .next t → MarksBounded t ∧ OpenReferenced t)

/-- The transmit queue keeps its bounds (R125), stays empty while LC is MUTE (R131, R132), and is spoken from in turn, by a
MEMBER or LEAVING station alone (R118, R129). A self-check is in progress only in CHECKING (R81). Only a CLAIM of the queue
stands for an open-mark entry (R13; log 4). -/
def Obligations.QueueStaysBounded : Prop :=
  let inv : State → Prop := fun s => QueueBounded s ∧ MuteQueueEmpty s ∧ SpeaksInTurn s ∧ SelfCheckInChecking s
  (∀ s t, inv s → step s = .next t → inv t) ∧ ∀ s t, MarkedAreClaims s → step s = .next t → MarkedAreClaims t

/-- MARK_N is driven only by a MEMBER that is not MUTE (R2). -/
def Obligations.LineStaysAllowed : Prop :=
  ∀ s t, DrivesAsAllowed s ∧ SelfCheckInChecking s → step s = .next t → DrivesAsAllowed t ∧ SelfCheckInChecking t

/-- No two records come to carry one key (R15), the opening order lists the records that are not FREE (R39), and a FILLING
record is never left both frames-done and answers-closed (R37). -/
def Obligations.RecordsStayApart : Prop :=
  (∀ s t, KeysDistinct s → step s = .next t → KeysDistinct t) ∧
  (∀ s t, OpeningOrder s → step s = .next t → OpeningOrder t) ∧
  (∀ s t, FillingUnfinished s → step s = .next t → FillingUnfinished t)

/-- The timebase and the ring stay in range: the tick counter of a MEMBER is 0 to E−1 (R99), its epoch number is not 0
(R100), the ring holds at most D frames, laid out by the geometry that a MEMBER's configuration gives (R54), a configuration
is in force outside CONFIG and FAULT (R137, R139). -/
def Obligations.TimebaseStaysInRange : Prop :=
  let inv : State → Prop := fun s => ConfigInRange s ∧ JoinedConfigured s ∧ SelfCheckInChecking s ∧ RingBounded s ∧
    CounterInEpoch s ∧ MemberEpochPositive s
  (∀ s t, inv s → step s = .next t → inv t) ∧
    ∀ s t, inv s ∧ RingFormed s → step s = .next t → RingFormed t

/-- The peer-table entry of this station's own number is never changed (R144). -/
def Obligations.OwnEntryStaysCleared : Prop := ∀ s t, OwnEntryCleared s → step s = .next t → OwnEntryCleared t

/-- Right after reset every invariant above holds. -/
def Obligations.InvariantsAtReset : Prop :=
  let s := State.reset
  MarksBounded s ∧ OpenReferenced s ∧ QueueBounded s ∧ MuteQueueEmpty s ∧ SpeaksInTurn s ∧ MarkedAreClaims s ∧
    DrivesAsAllowed s ∧ SelfCheckInChecking s ∧ KeysDistinct s ∧ OpeningOrder s ∧ FillingUnfinished s ∧ ConfigInRange s ∧
    JoinedConfigured s ∧ RingBounded s ∧ RingFormed s ∧ CounterInEpoch s ∧ MemberEpochPositive s ∧ OwnEntryCleared s
end

