-- ==== Sys2Proof/Laws/State.lean ====
section
/-! SUPPORT. What each shared operation leaves alone: one lemma per operation, for `simp`. -/

namespace Sys2Proof.Machine

/-- A property that each step of a fold keeps holds at its end. -/
theorem foldl_keeps {α β : Type} (P : α → Prop) (f : α → β → α) (l : List β) (h : ∀ a b, P a → P (f a b)) {a : α}
    (ha : P a) : P (l.foldl f a) := by
  induction l generalizing a with
  | nil => exact ha
  | cons b l ih => exact ih (h a b ha)

/-! ## Ops -/

@[simp] theorem State.raise_frame (c : Cause) (s : State) : (s.raise c).mu = s.mu ∧ (s.raise c).et = s.et ∧ (s.raise
    c).lc = s.lc ∧ (s.raise c).cc = s.cc ∧ (s.raise c).hr = s.hr ∧ (s.raise c).acq = s.acq ∧ (s.raise c).tm = s.tm ∧
    (s.raise c).pending = s.pending := by
  simp [State.raise]

@[simp] theorem State.setRecord_frame (i : Fin 4) (r : Option CapRecord) (s : State) : (s.setRecord i r).mu = s.mu ∧
    (s.setRecord i r).et = s.et ∧ (s.setRecord i r).lc = s.lc ∧ (s.setRecord i r).hr = s.hr ∧ (s.setRecord i r).acq =
    s.acq ∧ (s.setRecord i r).tm = s.tm ∧ (s.setRecord i r).lp = s.lp ∧ (s.setRecord i r).pending = s.pending := by
  simp [State.setRecord]

@[simp] theorem State.modifyRecord_frame (i : Fin 4) (f : CapRecord → CapRecord) (s : State) : (s.modifyRecord i f).mu
    = s.mu ∧ (s.modifyRecord i f).et = s.et ∧ (s.modifyRecord i f).lc = s.lc ∧ (s.modifyRecord i f).hr = s.hr ∧
    (s.modifyRecord i f).acq = s.acq ∧ (s.modifyRecord i f).tm = s.tm ∧ (s.modifyRecord i f).lp = s.lp ∧
    (s.modifyRecord i f).pending = s.pending := by
  unfold State.modifyRecord
  split <;> simp

@[simp] theorem State.mapRecords_frame (f : CapRecord → CapRecord) (s : State) : (s.mapRecords f).mu = s.mu ∧
    (s.mapRecords f).et = s.et ∧ (s.mapRecords f).lc = s.lc ∧ (s.mapRecords f).hr = s.hr ∧ (s.mapRecords f).acq =
    s.acq ∧ (s.mapRecords f).tm = s.tm ∧ (s.mapRecords f).lp = s.lp ∧ (s.mapRecords f).pending = s.pending := by
  simp [State.mapRecords]

@[simp] theorem State.withdrawPlace_frame (i : Fin 4) (s : State) : (s.withdrawPlace i).mu = s.mu ∧ (s.withdrawPlace
    i).et = s.et ∧ (s.withdrawPlace i).lc = s.lc ∧ (s.withdrawPlace i).cc = s.cc ∧ (s.withdrawPlace i).hr = s.hr ∧
    (s.withdrawPlace i).tm = s.tm ∧ (s.withdrawPlace i).lp = s.lp ∧ (s.withdrawPlace i).pending = s.pending := by
  simp [State.withdrawPlace]

@[simp] theorem State.withdrawRecordPlaces_frame (s : State) : (s.withdrawRecordPlaces).mu = s.mu ∧
    (s.withdrawRecordPlaces).et = s.et ∧ (s.withdrawRecordPlaces).lc = s.lc ∧ (s.withdrawRecordPlaces).cc = s.cc ∧
    (s.withdrawRecordPlaces).hr = s.hr ∧ (s.withdrawRecordPlaces).tm = s.tm ∧ (s.withdrawRecordPlaces).lp = s.lp ∧
    (s.withdrawRecordPlaces).pending = s.pending := by
  simp [State.withdrawRecordPlaces]

@[simp] theorem State.freeRecord_frame (i : Fin 4) (s : State) : (s.freeRecord i).mu = s.mu ∧ (s.freeRecord i).et =
    s.et ∧ (s.freeRecord i).lc = s.lc ∧ (s.freeRecord i).hr = s.hr ∧ (s.freeRecord i).tm = s.tm ∧ (s.freeRecord i).lp
    = s.lp ∧ (s.freeRecord i).pending = s.pending := by
  simp [State.freeRecord]

@[simp] theorem State.enqueue_frame (p : Payload) (m : Option Nat) (s : State) : (s.enqueue p m).mu = s.mu ∧
    (s.enqueue p m).et = s.et ∧ (s.enqueue p m).cc = s.cc ∧ (s.enqueue p m).hr = s.hr ∧ (s.enqueue p m).acq = s.acq ∧
    (s.enqueue p m).tm = s.tm ∧ (s.enqueue p m).lp = s.lp ∧ (s.enqueue p m).pending = s.pending := by
  simp [State.enqueue]

@[simp] theorem State.withdrawMsg_frame (sel : Msg → Bool) (s : State) : (s.withdrawMsg sel).mu = s.mu ∧
    (s.withdrawMsg sel).et = s.et ∧ (s.withdrawMsg sel).cc = s.cc ∧ (s.withdrawMsg sel).hr = s.hr ∧ (s.withdrawMsg
    sel).acq = s.acq ∧ (s.withdrawMsg sel).tm = s.tm ∧ (s.withdrawMsg sel).lp = s.lp ∧ (s.withdrawMsg sel).pending =
    s.pending := by
  simp [State.withdrawMsg]

theorem State.submit_frame {p : Payload} {m : Option Nat} {s t : State} (h : s.submit p m = some t) :
    t.mu = s.mu ∧ t.et = s.et ∧ t.cc = s.cc ∧ t.hr = s.hr ∧ t.acq = s.acq ∧ t.tm = s.tm ∧ t.lp = s.lp ∧
      t.pending = s.pending := by
  unfold State.submit at h
  split at h
  · cases h
  · cases h
    simp
  · cases h
    simp

@[simp] theorem State.submitOrDrop_frame (p : Payload) (s : State) : (s.submitOrDrop p).mu = s.mu ∧ (s.submitOrDrop
    p).et = s.et ∧ (s.submitOrDrop p).cc = s.cc ∧ (s.submitOrDrop p).hr = s.hr ∧ (s.submitOrDrop p).acq = s.acq ∧
    (s.submitOrDrop p).tm = s.tm ∧ (s.submitOrDrop p).lp = s.lp ∧ (s.submitOrDrop p).pending = s.pending := by
  unfold State.submitOrDrop State.submit
  split <;> simp

@[simp] theorem State.lineQuiet_frame (s : State) : (s.lineQuiet).mu = s.mu ∧ (s.lineQuiet).et = s.et ∧
    (s.lineQuiet).cc = s.cc ∧ (s.lineQuiet).hr = s.hr ∧ (s.lineQuiet).acq = s.acq ∧ (s.lineQuiet).tm = s.tm ∧
    (s.lineQuiet).lp = s.lp ∧ (s.lineQuiet).pending = s.pending := by
  simp [State.lineQuiet]

@[simp] theorem State.endFrame_frame (n : Nat) (s : State) : (s.endFrame n).mu = s.mu ∧ (s.endFrame n).et = s.et ∧
    (s.endFrame n).cc = s.cc ∧ (s.endFrame n).hr = s.hr ∧ (s.endFrame n).acq = s.acq ∧ (s.endFrame n).tm = s.tm ∧
    (s.endFrame n).lp = s.lp ∧ (s.endFrame n).pending = s.pending := by
  simp [State.endFrame]

@[simp] theorem State.toConfig_frame (s : State) : (s.toConfig).et = s.et ∧ (s.toConfig).cc = s.cc ∧ (s.toConfig).hr =
    s.hr ∧ (s.toConfig).acq = s.acq ∧ (s.toConfig).tm = s.tm ∧ (s.toConfig).lp = s.lp ∧ (s.toConfig).pending =
    s.pending := by
  simp [State.toConfig]

/-! ## Records -/

@[simp] theorem State.completeIfReady_frame (i : Fin 4) (s : State) : (s.completeIfReady i).mu = s.mu ∧
    (s.completeIfReady i).et = s.et ∧ (s.completeIfReady i).lc = s.lc ∧ (s.completeIfReady i).hr = s.hr ∧
    (s.completeIfReady i).acq = s.acq ∧ (s.completeIfReady i).tm = s.tm ∧ (s.completeIfReady i).pending = s.pending :=
    by
  unfold State.completeIfReady
  (repeat' split) <;> simp

@[simp] theorem State.closeWindow_frame (i : Fin 4) (s : State) : (s.closeWindow i).mu = s.mu ∧ (s.closeWindow i).et =
    s.et ∧ (s.closeWindow i).lc = s.lc ∧ (s.closeWindow i).hr = s.hr ∧ (s.closeWindow i).acq = s.acq ∧ (s.closeWindow
    i).tm = s.tm ∧ (s.closeWindow i).pending = s.pending := by
  unfold State.closeWindow
  (repeat' split) <;> simp

@[simp] theorem State.closeIfAnswered_frame (i : Fin 4) (s : State) : (s.closeIfAnswered i).mu = s.mu ∧
    (s.closeIfAnswered i).et = s.et ∧ (s.closeIfAnswered i).lc = s.lc ∧ (s.closeIfAnswered i).hr = s.hr ∧
    (s.closeIfAnswered i).acq = s.acq ∧ (s.closeIfAnswered i).tm = s.tm ∧ (s.closeIfAnswered i).pending = s.pending :=
    by
  unfold State.closeIfAnswered
  (repeat' split) <;> simp

@[simp] theorem State.windowEpoch_frame (i : Fin 4) (s : State) : (s.windowEpoch i).mu = s.mu ∧ (s.windowEpoch i).et =
    s.et ∧ (s.windowEpoch i).lc = s.lc ∧ (s.windowEpoch i).hr = s.hr ∧ (s.windowEpoch i).acq = s.acq ∧ (s.windowEpoch
    i).tm = s.tm ∧ (s.windowEpoch i).pending = s.pending := by
  unfold State.windowEpoch
  (repeat' split) <;> simp

@[simp] theorem State.copyInto_frame (i : Fin 4) (f : Frame) (s : State) : (s.copyInto i f).mu = s.mu ∧ (s.copyInto i
    f).et = s.et ∧ (s.copyInto i f).lc = s.lc ∧ (s.copyInto i f).hr = s.hr ∧ (s.copyInto i f).acq = s.acq ∧
    (s.copyInto i f).tm = s.tm ∧ (s.copyInto i f).pending = s.pending := by
  simp [State.copyInto]

@[simp] theorem State.copyToAll_frame (k : Word32) (f : Frame) (s : State) : (s.copyToAll k f).mu = s.mu ∧
    (s.copyToAll k f).et = s.et ∧ (s.copyToAll k f).lc = s.lc ∧ (s.copyToAll k f).hr = s.hr ∧ (s.copyToAll k f).acq =
    s.acq ∧ (s.copyToAll k f).tm = s.tm ∧ (s.copyToAll k f).pending = s.pending := by
  unfold State.copyToAll
  refine foldl_keeps (fun t : State => t.mu = s.mu ∧ t.et = s.et ∧ t.lc = s.lc ∧ t.hr = s.hr ∧ t.acq = s.acq ∧ t.tm = s.tm ∧ t.pending = s.pending) _ _ (fun t i h => ?_) (by simp)
  split
  · simpa using h
  · exact h

@[simp] theorem State.placeSpot_frame (i : Fin 4) (q : Word) (s : State) : (s.placeSpot i q).mu = s.mu ∧ (s.placeSpot
    i q).et = s.et ∧ (s.placeSpot i q).lc = s.lc ∧ (s.placeSpot i q).cc = s.cc ∧ (s.placeSpot i q).hr = s.hr ∧
    (s.placeSpot i q).tm = s.tm ∧ (s.placeSpot i q).lp = s.lp ∧ (s.placeSpot i q).pending = s.pending := by
  unfold State.placeSpot
  split <;> simp

@[simp] theorem State.leaveRecord_frame (i : Fin 4) (s : State) : (s.leaveRecord i).mu = s.mu ∧ (s.leaveRecord i).et =
    s.et ∧ (s.leaveRecord i).lc = s.lc ∧ (s.leaveRecord i).hr = s.hr ∧ (s.leaveRecord i).tm = s.tm ∧ (s.leaveRecord
    i).pending = s.pending := by
  unfold State.leaveRecord
  (repeat' split) <;> simp

/-! ## Capture -/

theorem State.openSlot_frame {p : Point} {n : Nat} {k : Word32} {o : Bool} {s : State} {r : Fin 4 × State}
    (h : s.openSlot p n k o = some r) :
    r.2.mu = s.mu ∧ r.2.et = s.et ∧ r.2.lc = s.lc ∧ r.2.hr = s.hr ∧ r.2.tm = s.tm ∧ r.2.lp = s.lp ∧
      r.2.pending = s.pending := by
  unfold State.openSlot at h
  split at h
  · cases h
  · cases h
    simp

@[simp] theorem State.modifyMark_frame (n : Nat) (f : Mark → Mark) (s : State) : (s.modifyMark n f).mu = s.mu ∧
    (s.modifyMark n f).et = s.et ∧ (s.modifyMark n f).lc = s.lc ∧ (s.modifyMark n f).hr = s.hr ∧ (s.modifyMark n
    f).acq = s.acq ∧ (s.modifyMark n f).tm = s.tm ∧ (s.modifyMark n f).lp = s.lp ∧ (s.modifyMark n f).pending =
    s.pending := by
  simp [State.modifyMark]

@[simp] theorem State.dropMark_frame (n : Nat) (s : State) : (s.dropMark n).mu = s.mu ∧ (s.dropMark n).et = s.et ∧
    (s.dropMark n).lc = s.lc ∧ (s.dropMark n).hr = s.hr ∧ (s.dropMark n).acq = s.acq ∧ (s.dropMark n).tm = s.tm ∧
    (s.dropMark n).lp = s.lp ∧ (s.dropMark n).pending = s.pending := by
  simp [State.dropMark]

@[simp] theorem State.retireLine_frame (n : Nat) (d : LineEntry) (s : State) : (s.retireLine n d).mu = s.mu ∧
    (s.retireLine n d).et = s.et ∧ (s.retireLine n d).lc = s.lc ∧ (s.retireLine n d).hr = s.hr ∧ (s.retireLine n
    d).acq = s.acq ∧ (s.retireLine n d).tm = s.tm ∧ (s.retireLine n d).lp = s.lp ∧ (s.retireLine n d).pending =
    s.pending := by
  unfold State.retireLine
  split <;> simp

@[simp] theorem State.claimLost_frame (n : Nat) (s : State) : (s.claimLost n).mu = s.mu ∧ (s.claimLost n).et = s.et ∧
    (s.claimLost n).lc = s.lc ∧ (s.claimLost n).hr = s.hr ∧ (s.claimLost n).acq = s.acq ∧ (s.claimLost n).tm = s.tm ∧
    (s.claimLost n).lp = s.lp ∧ (s.claimLost n).pending = s.pending := by
  unfold State.claimLost
  (repeat' split) <;> simp

@[simp] theorem State.frozenLost_frame (k : Key) (s : State) : (s.frozenLost k).mu = s.mu ∧ (s.frozenLost k).et = s.et
    ∧ (s.frozenLost k).lc = s.lc ∧ (s.frozenLost k).hr = s.hr ∧ (s.frozenLost k).acq = s.acq ∧ (s.frozenLost k).tm =
    s.tm ∧ (s.frozenLost k).lp = s.lp ∧ (s.frozenLost k).pending = s.pending := by
  simp [State.frozenLost]

@[simp] theorem State.submitClaim_frame (n : Nat) (s : State) : (s.submitClaim n).mu = s.mu ∧ (s.submitClaim n).et =
    s.et ∧ (s.submitClaim n).hr = s.hr ∧ (s.submitClaim n).acq = s.acq ∧ (s.submitClaim n).tm = s.tm ∧ (s.submitClaim
    n).lp = s.lp ∧ (s.submitClaim n).pending = s.pending := by
  unfold State.submitClaim
  split
  · simp
  · split
    · simp
    · rename_i h
      simp [State.submit_frame h]

@[simp] theorem State.submitFrozen_frame (k : Key) (o : Byte) (c : OutcomeCode) (s : State) : (s.submitFrozen k o
    c).mu = s.mu ∧ (s.submitFrozen k o c).et = s.et ∧ (s.submitFrozen k o c).hr = s.hr ∧ (s.submitFrozen k o c).acq =
    s.acq ∧ (s.submitFrozen k o c).tm = s.tm ∧ (s.submitFrozen k o c).lp = s.lp ∧ (s.submitFrozen k o c).pending =
    s.pending := by
  unfold State.submitFrozen
  split
  · simp
  · rename_i h
    simp [State.submit_frame h]

@[simp] theorem State.abandon_frame (n : Nat) (s : State) : (s.abandon n).mu = s.mu ∧ (s.abandon n).et = s.et ∧
    (s.abandon n).hr = s.hr ∧ (s.abandon n).tm = s.tm ∧ (s.abandon n).pending = s.pending := by
  unfold State.abandon
  (repeat' split) <;> simp

@[simp] theorem State.coOriginate_frame (s : State) : (s.coOriginate).mu = s.mu ∧ (s.coOriginate).et = s.et ∧
    (s.coOriginate).hr = s.hr ∧ (s.coOriginate).acq = s.acq ∧ (s.coOriginate).tm = s.tm ∧ (s.coOriginate).pending =
    s.pending := by
  unfold State.coOriginate
  (repeat' split) <;> simp

@[simp] theorem State.alert_frame (s : State) : (s.alert).mu = s.mu ∧ (s.alert).et = s.et ∧ (s.alert).hr = s.hr ∧
    (s.alert).acq = s.acq ∧ (s.alert).tm = s.tm ∧ (s.alert).pending = s.pending := by
  unfold State.alert
  (repeat' split) <;> simp

@[simp] theorem State.alerts_frame (n : Nat) (s : State) : (s.alerts n).mu = s.mu ∧ (s.alerts n).et = s.et ∧ (s.alerts
    n).hr = s.hr ∧ (s.alerts n).acq = s.acq ∧ (s.alerts n).tm = s.tm ∧ (s.alerts n).pending = s.pending := by
  induction n generalizing s with
  | zero => simp [State.alerts]
  | succ n ih => simp [State.alerts, ih]

@[simp] theorem State.observeRelease_frame (s : State) : (s.observeRelease).mu = s.mu ∧ (s.observeRelease).et = s.et ∧
    (s.observeRelease).lc = s.lc ∧ (s.observeRelease).hr = s.hr ∧ (s.observeRelease).acq = s.acq ∧
    (s.observeRelease).tm = s.tm ∧ (s.observeRelease).lp = s.lp ∧ (s.observeRelease).pending = s.pending := by
  unfold State.observeRelease
  split <;> simp

@[simp] theorem State.releaseLine_frame (s : State) : (s.releaseLine).mu = s.mu ∧ (s.releaseLine).et = s.et ∧
    (s.releaseLine).lc = s.lc ∧ (s.releaseLine).hr = s.hr ∧ (s.releaseLine).acq = s.acq ∧ (s.releaseLine).tm = s.tm ∧
    (s.releaseLine).lp = s.lp ∧ (s.releaseLine).pending = s.pending := by
  unfold State.releaseLine
  split <;> simp

/-- What the end of the own pulse leaves on the line: IDLE, and released unless another station drives it (R2, R5). -/
theorem State.releaseLine_cc {s : State} (h : s.driving = true) : (s.releaseLine).cc =
    if s.cc.othersDrive then { s.cc with driver := .idle }
    else { s.cc with driver := .idle, lineEntry := .empty, stuck := 0, edgePending := false } := by
  unfold State.releaseLine
  rw [if_pos h]
  unfold State.observeRelease
  cases ho : s.cc.othersDrive <;> simp [ho, State.markAsserted, State.driving]

@[simp] theorem State.addMark_frame (p : Point) (s : State) : (s.addMark p).mu = s.mu ∧ (s.addMark p).et = s.et ∧
    (s.addMark p).hr = s.hr ∧ (s.addMark p).tm = s.tm ∧ (s.addMark p).pending = s.pending := by
  unfold State.addMark
  split
  · simp
  · dsimp only
    split
    all_goals
      split
      · simp
      · rename_i h
        have f := State.openSlot_frame h
        simp_all

@[simp] theorem State.takeMark_frame (s : State) : (s.takeMark).mu = s.mu ∧ (s.takeMark).et = s.et ∧ (s.takeMark).hr =
    s.hr ∧ (s.takeMark).tm = s.tm ∧ (s.takeMark).pending = s.pending := by
  unfold State.takeMark
  split <;> simp

@[simp] theorem State.fillRecord_frame (i : Fin 4) (k : Key) (o : OutcomeCode) (d : Byte) (e : BitVec 24) (s : State)
    : (s.fillRecord i k o d e).mu = s.mu ∧ (s.fillRecord i k o d e).et = s.et ∧ (s.fillRecord i k o d e).lc = s.lc ∧
    (s.fillRecord i k o d e).hr = s.hr ∧ (s.fillRecord i k o d e).acq = s.acq ∧ (s.fillRecord i k o d e).tm = s.tm ∧
    (s.fillRecord i k o d e).lp = s.lp ∧ (s.fillRecord i k o d e).pending = s.pending := by
  simp [State.fillRecord]

@[simp] theorem State.fillAndAnswer_frame (i : Fin 4) (k : Key) (o : OutcomeCode) (d : Byte) (e : BitVec 24) (s :
    State) : (s.fillAndAnswer i k o d e).mu = s.mu ∧ (s.fillAndAnswer i k o d e).et = s.et ∧ (s.fillAndAnswer i k o d
    e).hr = s.hr ∧ (s.fillAndAnswer i k o d e).acq = s.acq ∧ (s.fillAndAnswer i k o d e).tm = s.tm ∧ (s.fillAndAnswer
    i k o d e).pending = s.pending := by
  simp [State.fillAndAnswer]

@[simp] theorem State.matchMark_frame (m : Mark) (t : Station) (p : Point) (s : State) : (s.matchMark m t p).mu = s.mu
    ∧ (s.matchMark m t p).et = s.et ∧ (s.matchMark m t p).hr = s.hr ∧ (s.matchMark m t p).acq = s.acq ∧ (s.matchMark m
    t p).tm = s.tm ∧ (s.matchMark m t p).pending = s.pending := by
  unfold State.matchMark
  split <;> simp

@[simp] theorem State.lateJoin_frame (t : Station) (p : Point) (s : State) : (s.lateJoin t p).mu = s.mu ∧ (s.lateJoin
    t p).et = s.et ∧ (s.lateJoin t p).hr = s.hr ∧ (s.lateJoin t p).tm = s.tm ∧ (s.lateJoin t p).pending = s.pending :=
    by
  unfold State.lateJoin
  dsimp only
  split
  · simp
  · split
    · simp
    · rename_i h
      have f := State.openSlot_frame h
      simp_all

@[simp] theorem State.claimAccepted_frame (t : Station) (p : Point) (s : State) : (s.claimAccepted t p).mu = s.mu ∧
    (s.claimAccepted t p).et = s.et ∧ (s.claimAccepted t p).hr = s.hr ∧ (s.claimAccepted t p).tm = s.tm ∧
    (s.claimAccepted t p).pending = s.pending := by
  unfold State.claimAccepted
  (repeat' split) <;> simp

@[simp] theorem State.settleClaim_frame (m : Option Nat) (s : State) : (s.settleClaim m).mu = s.mu ∧ (s.settleClaim
    m).et = s.et ∧ (s.settleClaim m).hr = s.hr ∧ (s.settleClaim m).tm = s.tm ∧ (s.settleClaim m).pending = s.pending
    := by
  unfold State.settleClaim
  (repeat' split) <;> simp

@[simp] theorem State.frozenAccepted_frame (t : Station) (k : Key) (d o : Byte) (s : State) : (s.frozenAccepted t k d
    o).mu = s.mu ∧ (s.frozenAccepted t k d o).et = s.et ∧ (s.frozenAccepted t k d o).lc = s.lc ∧ (s.frozenAccepted t k
    d o).hr = s.hr ∧ (s.frozenAccepted t k d o).acq = s.acq ∧ (s.frozenAccepted t k d o).tm = s.tm ∧ (s.frozenAccepted
    t k d o).pending = s.pending := by
  unfold State.frozenAccepted
  (repeat' split) <;> simp

@[simp] theorem State.markEpoch_frame (n : Nat) (s : State) : (s.markEpoch n).mu = s.mu ∧ (s.markEpoch n).et = s.et ∧
    (s.markEpoch n).hr = s.hr ∧ (s.markEpoch n).tm = s.tm ∧ (s.markEpoch n).pending = s.pending := by
  unfold State.markEpoch
  split
  · simp
  · split
    · simp
    · split
      · simp
      · split <;> simp

@[simp] theorem State.ccEpochStart_frame (s : State) : (s.ccEpochStart).mu = s.mu ∧ (s.ccEpochStart).et = s.et ∧
    (s.ccEpochStart).hr = s.hr ∧ (s.ccEpochStart).tm = s.tm ∧ (s.ccEpochStart).pending = s.pending := by
  unfold State.ccEpochStart
  refine foldl_keeps (fun t : State => t.mu = s.mu ∧ t.et = s.et ∧ t.hr = s.hr ∧ t.tm = s.tm ∧ t.pending = s.pending) _ _ (fun t i h => by simpa using h) ?_
  exact foldl_keeps (fun t : State => t.mu = s.mu ∧ t.et = s.et ∧ t.hr = s.hr ∧ t.tm = s.tm ∧ t.pending = s.pending) _ _ (fun t i h => by simpa using h) (by simp)

@[simp] theorem State.ccLeave_frame (s : State) : (s.ccLeave).mu = s.mu ∧ (s.ccLeave).et = s.et ∧ (s.ccLeave).lc =
    s.lc ∧ (s.ccLeave).hr = s.hr ∧ (s.ccLeave).tm = s.tm ∧ (s.ccLeave).pending = s.pending := by
  unfold State.ccLeave
  exact foldl_keeps (fun t : State => t.mu = s.mu ∧ t.et = s.et ∧ t.lc = s.lc ∧ t.hr = s.hr ∧ t.tm = s.tm ∧ t.pending = s.pending) _ _ (fun t i h => by simpa using h) (by simp)

/-! ## Ring -/

@[simp] theorem State.emptyRing_frame (s : State) : (s.emptyRing).mu = s.mu ∧ (s.emptyRing).et = s.et ∧
    (s.emptyRing).lc = s.lc ∧ (s.emptyRing).cc = s.cc ∧ (s.emptyRing).acq = s.acq ∧ (s.emptyRing).tm = s.tm ∧
    (s.emptyRing).lp = s.lp ∧ (s.emptyRing).pending = s.pending := by
  simp [State.emptyRing]

@[simp] theorem State.formRing_frame (s : State) : (s.formRing).mu = s.mu ∧ (s.formRing).et = s.et ∧ (s.formRing).lc =
    s.lc ∧ (s.formRing).cc = s.cc ∧ (s.formRing).acq = s.acq ∧ (s.formRing).tm = s.tm ∧ (s.formRing).lp = s.lp ∧
    (s.formRing).pending = s.pending := by
  simp [State.formRing]

@[simp] theorem State.makeRoom_frame (s : State) : (s.makeRoom).mu = s.mu ∧ (s.makeRoom).et = s.et ∧ (s.makeRoom).lc =
    s.lc ∧ (s.makeRoom).hr = s.hr ∧ (s.makeRoom).acq = s.acq ∧ (s.makeRoom).tm = s.tm ∧ (s.makeRoom).pending =
    s.pending := by
  unfold State.makeRoom
  (repeat' split) <;> simp

@[simp] theorem State.storeFrame_frame (f : Frame) (s : State) : (s.storeFrame f).mu = s.mu ∧ (s.storeFrame f).et =
    s.et ∧ (s.storeFrame f).lc = s.lc ∧ (s.storeFrame f).cc = s.cc ∧ (s.storeFrame f).acq = s.acq ∧ (s.storeFrame
    f).tm = s.tm ∧ (s.storeFrame f).lp = s.lp ∧ (s.storeFrame f).pending = s.pending := by
  simp [State.storeFrame]

@[simp] theorem State.advanceRing_frame (s : State) : (s.advanceRing).mu = s.mu ∧ (s.advanceRing).et = s.et ∧
    (s.advanceRing).lc = s.lc ∧ (s.advanceRing).cc = s.cc ∧ (s.advanceRing).acq = s.acq ∧ (s.advanceRing).tm = s.tm ∧
    (s.advanceRing).lp = s.lp ∧ (s.advanceRing).pending = s.pending := by
  simp [State.advanceRing]

@[simp] theorem State.writeFrame_frame (f : Frame) (s : State) : (s.writeFrame f).mu = s.mu ∧ (s.writeFrame f).et =
    s.et ∧ (s.writeFrame f).lc = s.lc ∧ (s.writeFrame f).acq = s.acq ∧ (s.writeFrame f).tm = s.tm ∧ (s.writeFrame
    f).pending = s.pending := by
  simp [State.writeFrame]

@[simp] theorem State.copyStep_frame (i : Fin 4) (s : State) : (s.copyStep i).mu = s.mu ∧ (s.copyStep i).et = s.et ∧
    (s.copyStep i).lc = s.lc ∧ (s.copyStep i).hr = s.hr ∧ (s.copyStep i).acq = s.acq ∧ (s.copyStep i).tm = s.tm ∧
    (s.copyStep i).pending = s.pending := by
  unfold State.copyStep
  (repeat' split) <;> simp

@[simp] theorem State.handOn_frame (f : Frame) (s : State) : (s.handOn f).mu = s.mu ∧ (s.handOn f).et = s.et ∧
    (s.handOn f).hr = s.hr ∧ (s.handOn f).acq = s.acq ∧ (s.handOn f).pending = s.pending := by
  simp [State.handOn]

@[simp] theorem State.armMonitors_frame (s : State) : (s.armMonitors).mu = s.mu ∧ (s.armMonitors).et = s.et ∧
    (s.armMonitors).lc = s.lc ∧ (s.armMonitors).cc = s.cc ∧ (s.armMonitors).hr = s.hr ∧ (s.armMonitors).acq = s.acq ∧
    (s.armMonitors).lp = s.lp ∧ (s.armMonitors).pending = s.pending := by
  simp [State.armMonitors]

end Sys2Proof.Machine
end

