-- ==== Sys2Proof/Laws/Blocks.lean ====
section
/-! SUPPORT. What the operations of MU, AS, ET, LC and LP leave alone: one lemma per operation, for `simp`. -/

namespace Sys2Proof.Machine

/-! ## Membership -/

@[simp] theorem State.submitHello_frame (s : State) : (s.submitHello).mu = s.mu ∧ (s.submitHello).et = s.et ∧
    (s.submitHello).cc = s.cc ∧ (s.submitHello).hr = s.hr ∧ (s.submitHello).acq = s.acq ∧ (s.submitHello).tm = s.tm ∧
    (s.submitHello).lp = s.lp ∧ (s.submitHello).pending = s.pending := by
  simp [State.submitHello]

@[simp] theorem State.submitPresent_frame (s : State) : (s.submitPresent).mu = s.mu ∧ (s.submitPresent).et = s.et ∧
    (s.submitPresent).cc = s.cc ∧ (s.submitPresent).hr = s.hr ∧ (s.submitPresent).acq = s.acq ∧ (s.submitPresent).tm =
    s.tm ∧ (s.submitPresent).lp = s.lp ∧ (s.submitPresent).pending = s.pending := by
  simp [State.submitPresent]

@[simp] theorem State.submitEpoch_frame (n : Word32) (s : State) : (s.submitEpoch n).mu = s.mu ∧ (s.submitEpoch n).cc
    = s.cc ∧ (s.submitEpoch n).hr = s.hr ∧ (s.submitEpoch n).acq = s.acq ∧ (s.submitEpoch n).tm = s.tm ∧
    (s.submitEpoch n).lp = s.lp ∧ (s.submitEpoch n).pending = s.pending := by
  unfold State.submitEpoch
  split
  · simp
  · split
    · simp
    · rename_i h
      simp [State.submit_frame h]

@[simp] theorem State.flushQueue_frame (s : State) : (s.flushQueue).mu = s.mu ∧ (s.flushQueue).cc = s.cc ∧
    (s.flushQueue).hr = s.hr ∧ (s.flushQueue).acq = s.acq ∧ (s.flushQueue).tm = s.tm ∧ (s.flushQueue).lp = s.lp ∧
    (s.flushQueue).pending = s.pending := by
  simp [State.flushQueue]

@[simp] theorem State.noticeLoss_frame (m : Msg) (s : State) : (s.noticeLoss m).mu = s.mu ∧ (s.noticeLoss m).lc = s.lc
    ∧ (s.noticeLoss m).hr = s.hr ∧ (s.noticeLoss m).acq = s.acq ∧ (s.noticeLoss m).tm = s.tm ∧ (s.noticeLoss m).lp =
    s.lp ∧ (s.noticeLoss m).pending = s.pending := by
  unfold State.noticeLoss
  (repeat' split) <;> simp

@[simp] theorem State.enterMute_frame (s : State) : (s.enterMute).hr = s.hr ∧ (s.enterMute).acq = s.acq ∧
    (s.enterMute).tm = s.tm ∧ (s.enterMute).pending = s.pending := by
  have h : ∀ (q : List Msg) (u : State), (q.foldl State.noticeLoss u).mu = u.mu ∧ (q.foldl State.noticeLoss u).lc = u.lc ∧ (q.foldl State.noticeLoss u).hr = u.hr ∧ (q.foldl State.noticeLoss u).acq = u.acq ∧ (q.foldl State.noticeLoss u).tm = u.tm ∧ (q.foldl State.noticeLoss u).lp = u.lp ∧ (q.foldl State.noticeLoss u).pending = u.pending := fun q u =>
    foldl_keeps (fun t : State => t.mu = u.mu ∧ t.lc = u.lc ∧ t.hr = u.hr ∧ t.acq = u.acq ∧ t.tm = u.tm ∧ t.lp = u.lp ∧ t.pending = u.pending) _ _ (fun t m h => by simpa using h) (by simp)
  unfold State.enterMute
  dsimp only
  split <;> simp [h]

@[simp] theorem State.acqLeave_frame (s : State) : (s.acqLeave).mu = s.mu ∧ (s.acqLeave).et = s.et ∧ (s.acqLeave).lc =
    s.lc ∧ (s.acqLeave).cc = s.cc ∧ (s.acqLeave).hr = s.hr ∧ (s.acqLeave).tm = s.tm ∧ (s.acqLeave).lp = s.lp ∧
    (s.acqLeave).pending = s.pending := by
  simp [State.acqLeave]

@[simp] theorem State.departMember_frame (s : State) : (s.departMember).tm = s.tm ∧ (s.departMember).pending =
    s.pending := by
  simp [State.departMember]

@[simp] theorem State.acqFault_frame (s : State) : (s.acqFault).mu = s.mu ∧ (s.acqFault).et = s.et ∧ (s.acqFault).lc =
    s.lc ∧ (s.acqFault).cc = s.cc ∧ (s.acqFault).hr = s.hr ∧ (s.acqFault).tm = s.tm ∧ (s.acqFault).lp = s.lp ∧
    (s.acqFault).pending = s.pending := by
  simp [State.acqFault]

@[simp] theorem State.enterFault_frame (r : FaultReason) (s : State) : (s.enterFault r).tm = s.tm ∧ (s.enterFault
    r).pending = s.pending := by
  unfold State.enterFault
  split <;> simp

@[simp] theorem State.leaveStation_frame (s : State) : (s.leaveStation).tm = s.tm ∧ (s.leaveStation).pending =
    s.pending := by
  unfold State.leaveStation
  dsimp only
  (repeat' split) <;> simp_all

@[simp] theorem State.becomeMember_frame (s : State) : (s.becomeMember).et = s.et ∧ (s.becomeMember).lp = s.lp ∧
    (s.becomeMember).pending = s.pending := by
  simp [State.becomeMember]

@[simp] theorem State.setPeer_frame (n : Nat) (p : Peer) (s : State) : (s.setPeer n p).et = s.et ∧ (s.setPeer n p).lc
    = s.lc ∧ (s.setPeer n p).cc = s.cc ∧ (s.setPeer n p).hr = s.hr ∧ (s.setPeer n p).acq = s.acq ∧ (s.setPeer n p).tm
    = s.tm ∧ (s.setPeer n p).pending = s.pending := by
  unfold State.setPeer
  split <;> simp

@[simp] theorem State.muTake_frame (t : Station) (m : Payload) (s : State) : (s.muTake t m).tm = s.tm ∧ (s.muTake t
    m).pending = s.pending := by
  unfold State.muTake
  dsimp only
  (repeat' split) <;> simp_all

@[simp] theorem State.expirePeers_frame (s : State) : (s.expirePeers).et = s.et ∧ (s.expirePeers).lc = s.lc ∧
    (s.expirePeers).cc = s.cc ∧ (s.expirePeers).hr = s.hr ∧ (s.expirePeers).acq = s.acq ∧ (s.expirePeers).tm = s.tm ∧
    (s.expirePeers).pending = s.pending := by
  unfold State.expirePeers
  split <;> simp

@[simp] theorem State.muEpochStart_frame (s : State) : (s.muEpochStart).et = s.et ∧ (s.muEpochStart).cc = s.cc ∧
    (s.muEpochStart).hr = s.hr ∧ (s.muEpochStart).acq = s.acq ∧ (s.muEpochStart).tm = s.tm ∧ (s.muEpochStart).pending
    = s.pending := by
  unfold State.muEpochStart
  (repeat' split) <;> simp

/-! ## Acquire -/

@[simp] theorem State.startSweep_frame (s : State) : (s.startSweep).mu = s.mu ∧ (s.startSweep).et = s.et ∧
    (s.startSweep).lc = s.lc ∧ (s.startSweep).cc = s.cc ∧ (s.startSweep).hr = s.hr ∧ (s.startSweep).tm = s.tm ∧
    (s.startSweep).lp = s.lp ∧ (s.startSweep).pending = s.pending := by
  unfold State.startSweep
  split <;> simp

@[simp] theorem State.cutSweep_frame (s : State) : (s.cutSweep).mu = s.mu ∧ (s.cutSweep).et = s.et ∧ (s.cutSweep).lc =
    s.lc ∧ (s.cutSweep).cc = s.cc ∧ (s.cutSweep).hr = s.hr ∧ (s.cutSweep).tm = s.tm ∧ (s.cutSweep).lp = s.lp ∧
    (s.cutSweep).pending = s.pending := by
  unfold State.cutSweep
  split <;> simp

@[simp] theorem State.beginFrame_frame (s : State) : (s.beginFrame).mu = s.mu ∧ (s.beginFrame).et = s.et ∧
    (s.beginFrame).lc = s.lc ∧ (s.beginFrame).cc = s.cc ∧ (s.beginFrame).hr = s.hr ∧ (s.beginFrame).tm = s.tm ∧
    (s.beginFrame).lp = s.lp ∧ (s.beginFrame).pending = s.pending := by
  simp [State.beginFrame]

@[simp] theorem State.acquire_frame (s : State) : (s.acquire).mu = s.mu ∧ (s.acquire).et = s.et ∧ (s.acquire).pending
    = s.pending := by
  unfold State.acquire
  split <;> simp

@[simp] theorem State.endSweepConversion_frame (c : Code) (s : State) : (s.endSweepConversion c).mu = s.mu ∧
    (s.endSweepConversion c).et = s.et ∧ (s.endSweepConversion c).lc = s.lc ∧ (s.endSweepConversion c).cc = s.cc ∧
    (s.endSweepConversion c).hr = s.hr ∧ (s.endSweepConversion c).tm = s.tm ∧ (s.endSweepConversion c).lp = s.lp ∧
    (s.endSweepConversion c).pending = s.pending := by
  unfold State.endSweepConversion
  (repeat' split) <;> simp

@[simp] theorem State.beginSpotRun_frame (s : State) : (s.beginSpotRun).mu = s.mu ∧ (s.beginSpotRun).et = s.et ∧
    (s.beginSpotRun).lc = s.lc ∧ (s.beginSpotRun).cc = s.cc ∧ (s.beginSpotRun).hr = s.hr ∧ (s.beginSpotRun).tm = s.tm
    ∧ (s.beginSpotRun).lp = s.lp ∧ (s.beginSpotRun).pending = s.pending := by
  unfold State.beginSpotRun
  split <;> simp

@[simp] theorem State.deliver_frame (r : SpotRun) (c : List Code) (s : State) (p : SpotPlace) :
    (s.deliver r c p).mu = s.mu ∧ (s.deliver r c p).et = s.et ∧ (s.deliver r c p).lc = s.lc ∧
      (s.deliver r c p).hr = s.hr ∧ (s.deliver r c p).tm = s.tm ∧ (s.deliver r c p).pending = s.pending := by
  unfold State.deliver
  (repeat' split) <;> simp

@[simp] theorem State.endSpotRun_frame (r : SpotRun) (c : List Code) (s : State) : (s.endSpotRun r c).mu = s.mu ∧
    (s.endSpotRun r c).et = s.et ∧ (s.endSpotRun r c).lc = s.lc ∧ (s.endSpotRun r c).hr = s.hr ∧ (s.endSpotRun r c).tm
    = s.tm ∧ (s.endSpotRun r c).pending = s.pending := by
  unfold State.endSpotRun
  refine foldl_keeps (fun t : State => t.mu = s.mu ∧ t.et = s.et ∧ t.lc = s.lc ∧ t.hr = s.hr ∧ t.tm = s.tm ∧ t.pending = s.pending) _ _ (fun t p h => ?_) (by simp)
  simpa using h

@[simp] theorem State.endSpotConversion_frame (c : Code) (s : State) : (s.endSpotConversion c).mu = s.mu ∧
    (s.endSpotConversion c).et = s.et ∧ (s.endSpotConversion c).lc = s.lc ∧ (s.endSpotConversion c).hr = s.hr ∧
    (s.endSpotConversion c).tm = s.tm ∧ (s.endSpotConversion c).pending = s.pending := by
  unfold State.endSpotConversion
  dsimp only
  (repeat' split) <;> simp_all

@[simp] theorem State.beginSelfCheck_frame (s : State) : (s.beginSelfCheck).mu = s.mu ∧ (s.beginSelfCheck).et = s.et ∧
    (s.beginSelfCheck).lc = s.lc ∧ (s.beginSelfCheck).cc = s.cc ∧ (s.beginSelfCheck).hr = s.hr ∧ (s.beginSelfCheck).tm
    = s.tm ∧ (s.beginSelfCheck).lp = s.lp ∧ (s.beginSelfCheck).pending = s.pending := by
  unfold State.beginSelfCheck
  split <;> simp

@[simp] theorem State.endSelfCheck_frame (n : Nat) (s : State) : (s.endSelfCheck n).tm = s.tm ∧ (s.endSelfCheck
    n).pending = s.pending := by
  unfold State.endSelfCheck
  dsimp only
  (repeat' split) <;> simp_all

@[simp] theorem State.endSelfCheckConversion_frame (c : Code) (s : State) : (s.endSelfCheckConversion c).tm = s.tm ∧
    (s.endSelfCheckConversion c).pending = s.pending := by
  unfold State.endSelfCheckConversion
  (repeat' split) <;> simp

/-! ## Arbitration -/

@[simp] theorem State.noticeWin_frame (m : Msg) (s : State) : (s.noticeWin m).mu = s.mu ∧ (s.noticeWin m).lc = s.lc ∧
    (s.noticeWin m).hr = s.hr ∧ (s.noticeWin m).acq = s.acq ∧ (s.noticeWin m).tm = s.tm ∧ (s.noticeWin m).lp = s.lp ∧
    (s.noticeWin m).pending = s.pending := by
  unfold State.noticeWin
  (repeat' split) <;> simp

@[simp] theorem State.winArbitration_frame (s : State) : (s.winArbitration).mu = s.mu ∧ (s.winArbitration).hr = s.hr ∧
    (s.winArbitration).acq = s.acq ∧ (s.winArbitration).tm = s.tm ∧ (s.winArbitration).lp = s.lp ∧
    (s.winArbitration).pending = s.pending := by
  unfold State.winArbitration
  split <;> simp

@[simp] theorem State.winWith_frame (o : List Part) (s : State) : (s.winWith o).mu = s.mu ∧ (s.winWith o).hr = s.hr ∧
    (s.winWith o).acq = s.acq ∧ (s.winWith o).tm = s.tm ∧ (s.winWith o).lp = s.lp ∧ (s.winWith o).pending = s.pending
    := by
  unfold State.winWith
  split <;> simp

/-! ## Timebase -/

@[simp] theorem State.lcEpochStart_frame (s : State) : (s.lcEpochStart).mu = s.mu ∧ (s.lcEpochStart).et = s.et ∧
    (s.lcEpochStart).cc = s.cc ∧ (s.lcEpochStart).hr = s.hr ∧ (s.lcEpochStart).acq = s.acq ∧ (s.lcEpochStart).tm =
    s.tm ∧ (s.lcEpochStart).pending = s.pending := by
  unfold State.lcEpochStart
  split <;> simp

@[simp] theorem State.advanceCounter_frame (s : State) : (s.advanceCounter).mu = s.mu ∧ (s.advanceCounter).lc = s.lc ∧
    (s.advanceCounter).cc = s.cc ∧ (s.advanceCounter).hr = s.hr ∧ (s.advanceCounter).acq = s.acq ∧
    (s.advanceCounter).tm = s.tm ∧ (s.advanceCounter).lp = s.lp ∧ (s.advanceCounter).pending = s.pending := by
  unfold State.advanceCounter
  split <;> simp

@[simp] theorem State.countStuck_frame (a : Bool) (s : State) : (s.countStuck a).mu = s.mu ∧ (s.countStuck a).et =
    s.et ∧ (s.countStuck a).lc = s.lc ∧ (s.countStuck a).hr = s.hr ∧ (s.countStuck a).acq = s.acq ∧ (s.countStuck
    a).tm = s.tm ∧ (s.countStuck a).pending = s.pending := by
  unfold State.countStuck
  dsimp only
  (repeat' split) <;> simp_all

@[simp] theorem State.countPulse_frame (d : Driver) (s : State) : (s.countPulse d).mu = s.mu ∧ (s.countPulse d).et =
    s.et ∧ (s.countPulse d).lc = s.lc ∧ (s.countPulse d).hr = s.hr ∧ (s.countPulse d).acq = s.acq ∧ (s.countPulse
    d).tm = s.tm ∧ (s.countPulse d).lp = s.lp ∧ (s.countPulse d).pending = s.pending := by
  unfold State.countPulse
  dsimp only
  (repeat' split) <;> simp_all

@[simp] theorem State.ccTick_frame (a : Bool) (d : Driver) (s : State) : (s.ccTick a d).mu = s.mu ∧ (s.ccTick a d).et
    = s.et ∧ (s.ccTick a d).lc = s.lc ∧ (s.ccTick a d).hr = s.hr ∧ (s.ccTick a d).acq = s.acq ∧ (s.ccTick a d).tm =
    s.tm ∧ (s.ccTick a d).pending = s.pending := by
  simp [State.ccTick]

@[simp] theorem State.foundTimebase_frame (s : State) : (s.foundTimebase).lp = s.lp ∧ (s.foundTimebase).pending =
    s.pending := by
  simp [State.foundTimebase]

@[simp] theorem State.listenTick_frame (s : State) : (s.listenTick).lp = s.lp ∧ (s.listenTick).pending = s.pending :=
    by
  unfold State.listenTick
  dsimp only
  (repeat' split) <;> simp_all

@[simp] theorem State.ownEpochDone_frame (n : Word32) (l : Word) (s : State) : (s.ownEpochDone n l).mu = s.mu ∧
    (s.ownEpochDone n l).lc = s.lc ∧ (s.ownEpochDone n l).cc = s.cc ∧ (s.ownEpochDone n l).hr = s.hr ∧ (s.ownEpochDone
    n l).acq = s.acq ∧ (s.ownEpochDone n l).tm = s.tm ∧ (s.ownEpochDone n l).lp = s.lp ∧ (s.ownEpochDone n l).pending
    = s.pending := by
  simp [State.ownEpochDone]

@[simp] theorem State.slip_frame (s : State) : (s.slip).mu = s.mu ∧ (s.slip).et = s.et ∧ (s.slip).lc = s.lc ∧
    (s.slip).hr = s.hr ∧ (s.slip).tm = s.tm ∧ (s.slip).pending = s.pending := by
  simp [State.slip]

@[simp] theorem State.listenAdopt_frame (n : Word32) (l : Word) (s : State) : (s.listenAdopt n l).lp = s.lp ∧
    (s.listenAdopt n l).pending = s.pending := by
  simp [State.listenAdopt]

@[simp] theorem State.markEdge_frame (s : State) : (s.markEdge).mu = s.mu ∧ (s.markEdge).et = s.et ∧ (s.markEdge).hr =
    s.hr ∧ (s.markEdge).tm = s.tm ∧ (s.markEdge).pending = s.pending := by
  unfold State.markEdge
  dsimp only
  (repeat' split) <;> simp_all

@[simp] theorem State.markRelease_frame (s : State) : (s.markRelease).mu = s.mu ∧ (s.markRelease).et = s.et ∧
    (s.markRelease).lc = s.lc ∧ (s.markRelease).hr = s.hr ∧ (s.markRelease).acq = s.acq ∧ (s.markRelease).tm = s.tm ∧
    (s.markRelease).lp = s.lp ∧ (s.markRelease).pending = s.pending := by
  simp [State.markRelease]

/-! ## Link -/

@[simp] theorem State.passBits_frame (b : Nat) (s : State) : (s.passBits b).mu = s.mu ∧ (s.passBits b).et = s.et ∧
    (s.passBits b).cc = s.cc ∧ (s.passBits b).hr = s.hr ∧ (s.passBits b).acq = s.acq ∧ (s.passBits b).tm = s.tm ∧
    (s.passBits b).lp = s.lp ∧ (s.passBits b).pending = s.pending := by
  unfold State.passBits
  (repeat' split) <;> simp

@[simp] theorem State.driveStart_frame (s : State) : (s.driveStart).mu = s.mu ∧ (s.driveStart).et = s.et ∧
    (s.driveStart).cc = s.cc ∧ (s.driveStart).hr = s.hr ∧ (s.driveStart).acq = s.acq ∧ (s.driveStart).tm = s.tm ∧
    (s.driveStart).lp = s.lp ∧ (s.driveStart).pending = s.pending := by
  simp [State.driveStart]

@[simp] theorem State.startFrame_frame (b : Nat) (s : State) : (s.startFrame b).mu = s.mu ∧ (s.startFrame b).et = s.et
    ∧ (s.startFrame b).cc = s.cc ∧ (s.startFrame b).hr = s.hr ∧ (s.startFrame b).acq = s.acq ∧ (s.startFrame b).tm =
    s.tm ∧ (s.startFrame b).lp = s.lp ∧ (s.startFrame b).pending = s.pending := by
  unfold State.startFrame
  dsimp only
  split <;> simp

@[simp] theorem State.readDominant_frame (s : State) : (s.readDominant).mu = s.mu ∧ (s.readDominant).et = s.et ∧
    (s.readDominant).cc = s.cc ∧ (s.readDominant).hr = s.hr ∧ (s.readDominant).acq = s.acq ∧ (s.readDominant).tm =
    s.tm ∧ (s.readDominant).lp = s.lp ∧ (s.readDominant).pending = s.pending := by
  unfold State.readDominant
  (repeat' split) <;> simp

@[simp] theorem State.readStartBit_frame (b : Nat) (s : State) : (s.readStartBit b).mu = s.mu ∧ (s.readStartBit b).et
    = s.et ∧ (s.readStartBit b).cc = s.cc ∧ (s.readStartBit b).hr = s.hr ∧ (s.readStartBit b).acq = s.acq ∧
    (s.readStartBit b).tm = s.tm ∧ (s.readStartBit b).lp = s.lp ∧ (s.readStartBit b).pending = s.pending := by
  simp [State.readStartBit]

@[simp] theorem State.loseArbitration_frame (s : State) : (s.loseArbitration).mu = s.mu ∧ (s.loseArbitration).et =
    s.et ∧ (s.loseArbitration).cc = s.cc ∧ (s.loseArbitration).hr = s.hr ∧ (s.loseArbitration).acq = s.acq ∧
    (s.loseArbitration).tm = s.tm ∧ (s.loseArbitration).lp = s.lp ∧ (s.loseArbitration).pending = s.pending := by
  simp [State.loseArbitration]

@[simp] theorem State.noticeDrop_frame (m : Msg) (s : State) : (s.noticeDrop m).hr = s.hr ∧ (s.noticeDrop m).tm = s.tm
    ∧ (s.noticeDrop m).pending = s.pending := by
  unfold State.noticeDrop
  dsimp only
  (repeat' split) <;> simp_all

@[simp] theorem State.noticeRetry_frame (m : Msg) (s : State) : (s.noticeRetry m).mu = s.mu ∧ (s.noticeRetry m).hr =
    s.hr ∧ (s.noticeRetry m).tm = s.tm ∧ (s.noticeRetry m).pending = s.pending := by
  unfold State.noticeRetry
  dsimp only
  (repeat' split) <;> simp_all

@[simp] theorem State.countFailure_frame (s : State) : (s.countFailure).hr = s.hr ∧ (s.countFailure).acq = s.acq ∧
    (s.countFailure).tm = s.tm ∧ (s.countFailure).pending = s.pending := by
  unfold State.countFailure
  dsimp only
  (repeat' split) <;> simp_all

@[simp] theorem State.failAttempt_frame (m : Msg) (s : State) : (s.failAttempt m).hr = s.hr ∧ (s.failAttempt m).tm =
    s.tm ∧ (s.failAttempt m).pending = s.pending := by
  unfold State.failAttempt
  dsimp only
  (repeat' split) <;> simp_all

@[simp] theorem State.spoil_frame (s : State) : (s.spoil).mu = s.mu ∧ (s.spoil).et = s.et ∧ (s.spoil).cc = s.cc ∧
    (s.spoil).hr = s.hr ∧ (s.spoil).acq = s.acq ∧ (s.spoil).tm = s.tm ∧ (s.spoil).lp = s.lp ∧ (s.spoil).pending =
    s.pending := by
  simp [State.spoil]

@[simp] theorem State.attemptFails_frame (r : FailReason) (s : State) : (s.attemptFails r).hr = s.hr ∧ (s.attemptFails
    r).tm = s.tm ∧ (s.attemptFails r).pending = s.pending := by
  unfold State.attemptFails
  (repeat' split) <;> simp

@[simp] theorem State.countVeto_frame (s : State) : (s.countVeto).hr = s.hr ∧ (s.countVeto).acq = s.acq ∧
    (s.countVeto).tm = s.tm ∧ (s.countVeto).pending = s.pending := by
  unfold State.countVeto
  dsimp only
  (repeat' split) <;> simp_all

@[simp] theorem State.acceptEffects_frame (n : Nat) (s : State) : (s.acceptEffects n).mu = s.mu ∧ (s.acceptEffects
    n).et = s.et ∧ (s.acceptEffects n).cc = s.cc ∧ (s.acceptEffects n).hr = s.hr ∧ (s.acceptEffects n).acq = s.acq ∧
    (s.acceptEffects n).tm = s.tm ∧ (s.acceptEffects n).lp = s.lp ∧ (s.acceptEffects n).pending = s.pending := by
  simp [State.acceptEffects]

@[simp] theorem State.deliverOwn_frame (m : Msg) (s : State) : (s.deliverOwn m).hr = s.hr ∧ (s.deliverOwn m).tm = s.tm
    ∧ (s.deliverOwn m).pending = s.pending := by
  unfold State.deliverOwn
  dsimp only
  (repeat' split) <;> simp_all

@[simp] theorem State.completeOwn_frame (m : Msg) (s : State) : (s.completeOwn m).hr = s.hr ∧ (s.completeOwn m).tm =
    s.tm ∧ (s.completeOwn m).pending = s.pending := by
  simp [State.completeOwn]

/-! ## LocalPort -/

@[simp] theorem State.setTransaction_frame (t : Transaction) (b : Byte) (s : State) : (s.setTransaction t b).mu = s.mu
    ∧ (s.setTransaction t b).et = s.et ∧ (s.setTransaction t b).lc = s.lc ∧ (s.setTransaction t b).cc = s.cc ∧
    (s.setTransaction t b).hr = s.hr ∧ (s.setTransaction t b).acq = s.acq ∧ (s.setTransaction t b).tm = s.tm ∧
    (s.setTransaction t b).pending = s.pending := by
  simp [State.setTransaction]

@[simp] theorem State.advanceSession_frame (a : ReadAdvance) (s : State) : (s.advanceSession a).mu = s.mu ∧
    (s.advanceSession a).et = s.et ∧ (s.advanceSession a).lc = s.lc ∧ (s.advanceSession a).cc = s.cc ∧
    (s.advanceSession a).hr = s.hr ∧ (s.advanceSession a).acq = s.acq ∧ (s.advanceSession a).tm = s.tm ∧
    (s.advanceSession a).pending = s.pending := by
  unfold State.advanceSession
  (repeat' split) <;> simp

@[simp] theorem State.advanceBy_frame (a : Option ReadAdvance) (s : State) : (s.advanceBy a).mu = s.mu ∧ (s.advanceBy
    a).et = s.et ∧ (s.advanceBy a).lc = s.lc ∧ (s.advanceBy a).cc = s.cc ∧ (s.advanceBy a).hr = s.hr ∧ (s.advanceBy
    a).acq = s.acq ∧ (s.advanceBy a).tm = s.tm ∧ (s.advanceBy a).pending = s.pending := by
  unfold State.advanceBy
  split <;> simp

@[simp] theorem State.shiftResponse_frame (t : Transaction) (r : Response) (s : State) : (s.shiftResponse t r).mu =
    s.mu ∧ (s.shiftResponse t r).et = s.et ∧ (s.shiftResponse t r).lc = s.lc ∧ (s.shiftResponse t r).cc = s.cc ∧
    (s.shiftResponse t r).hr = s.hr ∧ (s.shiftResponse t r).acq = s.acq ∧ (s.shiftResponse t r).tm = s.tm ∧
    (s.shiftResponse t r).pending = s.pending := by
  unfold State.shiftResponse
  (repeat' split) <;> simp

@[simp] theorem State.shiftOutRead_frame (s : State) : (s.shiftOutRead).mu = s.mu ∧ (s.shiftOutRead).et = s.et ∧
    (s.shiftOutRead).lc = s.lc ∧ (s.shiftOutRead).cc = s.cc ∧ (s.shiftOutRead).hr = s.hr ∧ (s.shiftOutRead).acq =
    s.acq ∧ (s.shiftOutRead).tm = s.tm ∧ (s.shiftOutRead).pending = s.pending := by
  unfold State.shiftOutRead
  (repeat' split) <;> simp

@[simp] theorem State.beginTransaction_frame (s : State) : (s.beginTransaction).mu = s.mu ∧ (s.beginTransaction).et =
    s.et ∧ (s.beginTransaction).lc = s.lc ∧ (s.beginTransaction).cc = s.cc ∧ (s.beginTransaction).hr = s.hr ∧
    (s.beginTransaction).acq = s.acq ∧ (s.beginTransaction).tm = s.tm ∧ (s.beginTransaction).pending = s.pending := by
  unfold State.beginTransaction
  split <;> simp

@[simp] theorem State.endTransaction_frame (s : State) : (s.endTransaction).mu = s.mu ∧ (s.endTransaction).et = s.et ∧
    (s.endTransaction).lc = s.lc ∧ (s.endTransaction).cc = s.cc ∧ (s.endTransaction).hr = s.hr ∧
    (s.endTransaction).acq = s.acq ∧ (s.endTransaction).tm = s.tm ∧ (s.endTransaction).pending = s.pending := by
  simp [State.endTransaction]

@[simp] theorem State.acknowledge_frame (m : BitVec 10) (s : State) : (s.acknowledge m).mu = s.mu ∧ (s.acknowledge
    m).et = s.et ∧ (s.acknowledge m).lc = s.lc ∧ (s.acknowledge m).cc = s.cc ∧ (s.acknowledge m).hr = s.hr ∧
    (s.acknowledge m).acq = s.acq ∧ (s.acknowledge m).tm = s.tm ∧ (s.acknowledge m).pending = s.pending := by
  simp [State.acknowledge]

@[simp] theorem State.beginSession_frame (i : Fin 4) (q : Word) (s : State) : (s.beginSession i q).mu = s.mu ∧
    (s.beginSession i q).et = s.et ∧ (s.beginSession i q).lc = s.lc ∧ (s.beginSession i q).cc = s.cc ∧ (s.beginSession
    i q).hr = s.hr ∧ (s.beginSession i q).acq = s.acq ∧ (s.beginSession i q).tm = s.tm ∧ (s.beginSession i q).pending
    = s.pending := by
  simp [State.beginSession]

@[simp] theorem State.endSession_frame (s : State) : (s.endSession).mu = s.mu ∧ (s.endSession).et = s.et ∧
    (s.endSession).lc = s.lc ∧ (s.endSession).cc = s.cc ∧ (s.endSession).hr = s.hr ∧ (s.endSession).acq = s.acq ∧
    (s.endSession).tm = s.tm ∧ (s.endSession).pending = s.pending := by
  simp [State.endSession]

@[simp] theorem State.placeLocal_frame (s : State) : (s.placeLocal).mu = s.mu ∧ (s.placeLocal).et = s.et ∧
    (s.placeLocal).lc = s.lc ∧ (s.placeLocal).cc = s.cc ∧ (s.placeLocal).hr = s.hr ∧ (s.placeLocal).tm = s.tm ∧
    (s.placeLocal).lp = s.lp ∧ (s.placeLocal).pending = s.pending := by
  simp [State.placeLocal]

@[simp] theorem State.initialised_frame (s : State) : (s.initialised).mu = s.mu ∧ (s.initialised).et = s.et ∧
    (s.initialised).lc = s.lc ∧ (s.initialised).cc = s.cc ∧ (s.initialised).hr = s.hr ∧ (s.initialised).acq = s.acq ∧
    (s.initialised).tm = s.tm ∧ (s.initialised).pending = s.pending := by
  simp [State.initialised]

end Sys2Proof.Machine
end

