-- ==== Sys2Proof/Laws/Order.lean ====
section
/-! SUPPORT. The order of an event's parts: each part is taken exactly once, whatever order the command gives. -/

namespace Sys2Proof.Machine

theorem mem_keepFirst {l : List Part} {p : Part} : p ∈ keepFirst l ↔ p ∈ l := by
  induction l with
  | nil => simp [keepFirst]
  | cons q l ih =>
    by_cases h : p = q
    · simp [keepFirst, h]
    · simp [keepFirst, h, ih]

theorem nodup_keepFirst (l : List Part) : (keepFirst l).Nodup := by
  induction l with
  | nil => simp [keepFirst]
  | cons q l ih =>
    rw [keepFirst, List.nodup_cons]
    exact ⟨by simp, ih.filter _⟩

/-- The order that an event takes names the event's parts and no other. -/
theorem mem_completeOrder {all given : List Part} {p : Part} : p ∈ completeOrder all given ↔ p ∈ all := by
  simp only [completeOrder, List.mem_append, mem_keepFirst, List.mem_filter, decide_eq_true_eq]
  constructor
  · rintro (⟨_, h⟩ | ⟨h, _⟩) <;> exact h
  · intro h
    by_cases hg : p ∈ given
    · exact Or.inl ⟨hg, h⟩
    · exact Or.inr ⟨h, hg⟩

/-- The order that an event takes names each part once. -/
theorem nodup_completeOrder {all : List Part} (given : List Part) (h : all.Nodup) : (completeOrder all given).Nodup := by
  rw [completeOrder, List.nodup_append]
  refine ⟨nodup_keepFirst _, h.filter _, ?_⟩
  intro a ha b hb e
  subst e
  simp only [mem_keepFirst, List.mem_filter, decide_eq_true_eq] at ha hb
  exact hb.2 ha.1

/-- A property that every part of an event keeps holds after the event, in any order. -/
theorem foldl_parts_keeps {α : Type} (P : α → Prop) (f : α → Part → α) (l : List Part)
    (h : ∀ a p, p ∈ l → P a → P (f a p)) {a : α} (ha : P a) : P (l.foldl f a) := by
  induction l generalizing a with
  | nil => exact ha
  | cons b l ih =>
    exact ih (fun a p hp => h a p (List.mem_cons_of_mem _ hp)) (h a b (List.mem_cons_self ..) ha)

/-- One part of an event brings `Q` about, the parts before it keep `P`, and those after it keep `Q`. -/
theorem foldl_parts_reach {α : Type} (P Q : α → Prop) (f : α → Part → α) (q : Part) (l : List Part) (hl : l.Nodup)
    (hq : q ∈ l) (hP : ∀ a p, p ≠ q → P a → P (f a p)) (hPQ : ∀ a, P a → Q (f a q))
    (hQ : ∀ a p, p ≠ q → Q a → Q (f a p)) {a : α} (ha : P a) : Q (l.foldl f a) := by
  induction l generalizing a with
  | nil => cases hq
  | cons b l ih =>
    rw [List.nodup_cons] at hl
    by_cases hb : b = q
    · subst hb
      exact foldl_parts_keeps Q f l (fun a p hp => hQ a p (fun e => hl.1 (e ▸ hp))) (hPQ a ha)
    · have hq' : q ∈ l := by
        rcases List.mem_cons.1 hq with h | h
        · exact absurd h.symm hb
        · exact h
      exact ih hl.2 hq' (hP a b hb ha)

end Sys2Proof.Machine
end

