-- ==== Sys2Proof/Laws/Queue.lean ====
section
/-! SUPPORT. The transmit queue: insertion and admission. -/

namespace Sys2Proof.Machine

/-- Insertion adds its message and keeps the others. -/
theorem insertMsg_perm (m : Msg) (l : List Msg) : (insertMsg m l).Perm (m :: l) := by
  induction l with
  | nil => simp [insertMsg]
  | cons x xs ih =>
    unfold insertMsg
    split
    · exact List.Perm.refl _
    · exact (ih.cons x).trans (List.Perm.swap m x xs)

theorem length_insertMsg (m : Msg) (l : List Msg) : (insertMsg m l).length = l.length + 1 := by
  simpa using (insertMsg_perm m l).length_eq

theorem length_filter_insertMsg (f : Msg → Bool) (m : Msg) (l : List Msg) :
    ((insertMsg m l).filter f).length = ((m :: l).filter f).length :=
  ((insertMsg_perm m l).filter f).length_eq

theorem State.admission_outside {s : State} (h : (s.isMember || s.isLeaving) = false) (p : Payload) :
    s.admission p = .refused := by
  simp only [State.admission, h, Bool.not_false, if_true]

theorem State.admission_mute {s : State} (h : s.lc.mute = true) (p : Payload) : s.admission p = .refused := by
  simp only [State.admission, h, if_true, ite_self]

/-- A MUTE station's submissions are refused (R126, R132). -/
theorem State.submit_mute {s : State} (h : s.lc.mute = true) (p : Payload) (m : Option Nat) : s.submit p m = none := by
  simp only [State.submit, State.admission_mute h]

/-- Outside MEMBER and LEAVING submissions are refused (R126). -/
theorem State.submit_outside {s : State} (h : (s.isMember || s.isLeaving) = false) (p : Payload) (m : Option Nat) :
    s.submit p m = none := by
  simp only [State.submit, State.admission_outside h]

/-- What an admitted submission does: the station is MEMBER or LEAVING and not MUTE, messages leave only by replacement,
and the message enters at its place (R126). -/
theorem State.submit_some {s t : State} {p : Payload} {m : Option Nat} (h : s.submit p m = some t) :
    (s.isMember || s.isLeaving) = true ∧ s.lc.mute = false ∧
      ∃ q, ((s.admission p = .plain ∧ q = s.lc.queue) ∨
          (s.admission p = .replacing ∧ q = s.lc.queue.filter (fun x => !replacedBy p x))) ∧
        t = { s with lc := { s.lc with
          queue := insertMsg { payload := p, age := s.lc.nextAge, fails := 0, cond := .queued, mark := m } q
          nextAge := s.lc.nextAge + 1 } } := by
  have hn : s.admission p ≠ .refused := by
    intro e
    simp [State.submit, e] at h
  have h1 : (s.isMember || s.isLeaving) = true := by
    by_contra hc
    exact hn (State.admission_outside (by simpa using hc) p)
  have h2 : s.lc.mute = false := by
    by_contra hc
    exact hn (State.admission_mute (by simpa using hc) p)
  refine ⟨h1, h2, ?_⟩
  unfold State.submit at h
  split at h
  · cases h
  · rename_i ha
    cases h
    exact ⟨_, Or.inl ⟨ha, rfl⟩, rfl⟩
  · rename_i ha
    cases h
    exact ⟨_, Or.inr ⟨ha, rfl⟩, rfl⟩

/-- After a submission the queue holds messages from before and the new one, which carries the mark it was submitted for. -/
theorem State.submit_mem {s t : State} {p : Payload} {m : Option Nat} (h : s.submit p m = some t) {q : Msg}
    (hq : q ∈ t.lc.queue) : q ∈ s.lc.queue ∨ (q.payload = p ∧ q.mark = m ∧ q.cond = .queued ∧ q.fails = 0) := by
  obtain ⟨_, _, l, hl, ht⟩ := State.submit_some h
  subst ht
  rcases List.mem_cons.1 ((insertMsg_perm _ _).mem_iff.1 hq) with rfl | hm
  · exact .inr ⟨rfl, rfl, rfl, rfl⟩
  · rcases hl with ⟨_, rfl⟩ | ⟨_, rfl⟩
    · exact .inl hm
    · exact .inl (List.mem_filter.1 hm).1

end Sys2Proof.Machine
end

