-- ==== Sys2Proof/Laws/Records.lean ====
section
/-! SUPPORT. Records, slot opening and the copying of a frame: what each operation does to the record of a slot. -/

namespace Sys2Proof.Machine

/-! ## One slot's record -/

theorem State.recordAt_of_cc {s t : State} (h : t.cc = s.cc) (i : Fin 4) : t.recordAt i = s.recordAt i := by
  simp [State.recordAt, h]

theorem State.recordAt_of_records {s t : State} (h : t.cc.records = s.cc.records) (i : Fin 4) :
    t.recordAt i = s.recordAt i := by
  simp [State.recordAt, h]

@[simp] theorem State.recordAt_setRecord (i j : Fin 4) (r : Option CapRecord) (s : State) :
    (s.setRecord i r).recordAt j = if i = j then r else s.recordAt j := by
  simp [State.recordAt, State.setRecord, Vector.getElem_set, Fin.ext_iff]

theorem State.recordAt_modifyRecord (i j : Fin 4) (f : CapRecord → CapRecord) (s : State) :
    (s.modifyRecord i f).recordAt j = if i = j then (s.recordAt i).map f else s.recordAt j := by
  unfold State.modifyRecord
  split
  · rename_i h
    split
    · subst_vars
      simp [h]
    · rfl
  · rename_i r h
    simp [h]

@[simp] theorem State.recordAt_mapRecords (j : Fin 4) (f : CapRecord → CapRecord) (s : State) :
    (s.mapRecords f).recordAt j = (s.recordAt j).map f := by
  simp [State.recordAt, State.mapRecords]

@[simp] theorem State.recordAt_freeRecord (i j : Fin 4) (s : State) :
    (s.freeRecord i).recordAt j = if i = j then none else s.recordAt j := by
  simp [State.recordAt, State.freeRecord, State.withdrawPlace, Vector.getElem_set, Fin.ext_iff]

@[simp] theorem State.opening_freeRecord (i : Fin 4) (s : State) :
    (s.freeRecord i).cc.opening = s.cc.opening.filter (· ≠ i) := rfl

@[simp] theorem State.opening_setRecord (i : Fin 4) (r : Option CapRecord) (s : State) :
    (s.setRecord i r).cc.opening = s.cc.opening := rfl

@[simp] theorem State.marks_setRecord (i : Fin 4) (r : Option CapRecord) (s : State) :
    (s.setRecord i r).cc.marks = s.cc.marks := rfl

@[simp] theorem State.marks_freeRecord (i : Fin 4) (s : State) : (s.freeRecord i).cc.marks = s.cc.marks := rfl

@[simp] theorem State.marks_mapRecords (f : CapRecord → CapRecord) (s : State) :
    (s.mapRecords f).cc.marks = s.cc.marks := rfl

@[simp] theorem State.marks_modifyRecord (i : Fin 4) (f : CapRecord → CapRecord) (s : State) :
    (s.modifyRecord i f).cc.marks = s.cc.marks := by
  unfold State.modifyRecord
  split <;> simp

@[simp] theorem State.driver_setRecord (i : Fin 4) (r : Option CapRecord) (s : State) :
    (s.setRecord i r).cc.driver = s.cc.driver := rfl

@[simp] theorem State.driver_freeRecord (i : Fin 4) (s : State) : (s.freeRecord i).cc.driver = s.cc.driver := rfl

@[simp] theorem State.driver_mapRecords (f : CapRecord → CapRecord) (s : State) :
    (s.mapRecords f).cc.driver = s.cc.driver := rfl

@[simp] theorem State.driver_modifyRecord (i : Fin 4) (f : CapRecord → CapRecord) (s : State) :
    (s.modifyRecord i f).cc.driver = s.cc.driver := by
  unfold State.modifyRecord
  split <;> simp

/-! ## Completion -/

/-- A record that completes changes its phase and nothing else (R37). -/
theorem State.recordAt_completeIfReady (i j : Fin 4) (s : State) :
    (s.completeIfReady i).recordAt j =
      if i = j then
        (s.recordAt i).map (fun r =>
          match r.phase with
          | .filling c => if r.framesDone && c.answersClosed then { r with phase := .complete c } else r
          | .opened => r
          | .complete _ => r)
      else s.recordAt j := by
  unfold State.completeIfReady
  split
  · rename_i h
    by_cases e : i = j
    · subst e
      simp only [h, Option.map_none, if_true]
    · simp only [if_neg e]
  · rename_i r h
    split
    · rename_i c hc
      split
      · rename_i hd
        rw [State.recordAt_of_cc (State.raise_frame _ _).2.2.2.1, State.recordAt_setRecord]
        simp only [h, Option.map_some, hc, if_pos hd]
      · rename_i hd
        by_cases e : i = j
        · subst e
          simp only [h, Option.map_some, hc, if_neg hd, if_true]
        · simp only [if_neg e]
    all_goals
      rename_i hc
      by_cases e : i = j
      · subst e
        simp only [h, Option.map_some, hc, if_true]
      · simp only [if_neg e]

/-! ## Slot opening (R10, R11) -/

/-- The sequence number that a slot opening gives, the record of the slot taken being discarded first. -/
def State.nextSeq (s : State) (i : Fin 4) : Word := pickSeq (s.freeRecord i).heldSeqs 4 s.cc.seqCounter

/-- All that a successful slot opening does. -/
theorem State.openSlot_some {point : Point} {h : Nat} {base : Word32} {o : Bool} {s t : State} {i : Fin 4}
    (hs : s.openSlot point h base o = some (i, t)) :
    s.chooseSlot = some i ∧
      t.recordAt i = some ((s.freeRecord i).newRecord (s.nextSeq i) point h base o) ∧
      (∀ j, j ≠ i → t.recordAt j = s.recordAt j) ∧
      t.cc.opening = s.cc.opening.filter (· ≠ i) ++ [i] ∧
      t.cc.seqCounter = s.nextSeq i + 1 ∧
      t.cc.marks = s.cc.marks ∧ t.cc.driver = s.cc.driver ∧ t.cc.lineEntry = s.cc.lineEntry ∧
      t.cc.stuck = s.cc.stuck ∧ t.cc.nextMark = s.cc.nextMark := by
  unfold State.openSlot at hs
  split at hs
  · cases hs
  · rename_i k hk
    cases hs
    refine ⟨hk, ?_, ?_, ?_, ?_, ?_, ?_, ?_, ?_, ?_⟩
    · simp [State.recordAt, State.nextSeq, State.freeRecord, State.withdrawPlace]
    · intro j hj
      have hne : ¬ i.val = j.val := fun e => hj (Fin.ext e.symm)
      simp [State.recordAt, State.freeRecord, State.withdrawPlace, hne]
    · simp [State.freeRecord, State.withdrawPlace]
    · simp [State.nextSeq, State.freeRecord, State.withdrawPlace]
    · simp [State.freeRecord, State.withdrawPlace]
    · simp [State.freeRecord, State.withdrawPlace]
    · simp [State.freeRecord, State.withdrawPlace]
    · simp [State.freeRecord, State.withdrawPlace]
    · simp [State.freeRecord, State.withdrawPlace]

/-- A slot opening is refused only where no slot can be chosen (R10). -/
theorem State.openSlot_none {point : Point} {h : Nat} {base : Word32} {o : Bool} {s : State} :
    s.openSlot point h base o = none ↔ s.chooseSlot = none := by
  unfold State.openSlot
  split <;> simp_all

end Sys2Proof.Machine
end

