-- ==== Sys2Proof/Tests/Slice0.lean ====
section
/-! SUPPORT. Tests: ill-formed commands, the manual's worked examples, and for each statement with hypotheses states and
operands that meet them, clause by clause. -/

namespace Sys2Proof.Test

set_option Elab.async false

open Sys2Proof Sys2Proof.Machine

/-! ## Ill-formed commands are refused by the check -/

theorem test_argsTooLong : (Instr.status (List.replicate 256 0)).wellFormed = false := by decide +kernel
theorem test_argsLongest : (Instr.configure (List.replicate 255 0)).wellFormed = true := by decide +kernel
theorem test_frameIncomplete : (Instr.unknownCommand [0x40, 1, 0]).wellFormed = false := by decide
theorem test_framePadding : (Instr.unknownCommand [0x00, 0, 0]).wellFormed = false := by decide
theorem test_payloadTooLong :
    (Instr.frameVetoed ⟨0, 3, 3, List.replicate 16 0, 0, true⟩).wellFormed = false ∧
    (Instr.frameDiscarded ⟨0, 3, 3, List.replicate 16 0, 0, true⟩).wellFormed = false ∧
    (Instr.frameAccepted ⟨0, 3, 3, List.replicate 16 0, 0, true⟩ false []).wellFormed = false := by decide
theorem test_partTwice :
    (Instr.tick [.lcEpoch, .lcEpoch]).wellFormed = false ∧ (Instr.tickWrap [.lcEpoch, .ccTick]).wellFormed = true := by decide

/-! ## Small states -/

/-- The common block of chapter 11, with offsets of 2048 and sample code 3. -/
def common : Configuration :=
  { tickPeriod := 100, epochLen := 1000, npre := 200, npost := 300, replace := false, retain := false
    sweep := (List.range 6).map (fun n => ⟨n, 3, 2048⟩), spots := [], monitors := [⟨3, 3, -1500, 1500⟩] }

/-- A configuration with everything small: two sweep entries, one spot entry, one monitor of persistence 1. -/
def small : Configuration :=
  { tickPeriod := 100, epochLen := 256, npre := 1, npost := 2, replace := true, retain := true
    sweep := [⟨0, 0, 5⟩, ⟨1, 0, 0⟩], spots := [⟨2, 0⟩], monitors := [⟨1, 1, 0, 50⟩] }

/-- A configured station in a station state, its generator running, a transaction just begun. -/
def at_ (station : StationState) : State :=
  { State.reset with
    mu := { State.reset.mu with station := station, number := 5, config := some small, digest := 7 }
    et := { State.reset.et with running := true, counter := 4, epoch := 3, transit := 1 }
    hr := { State.reset.hr with geometry := some ⟨4, 3⟩ }
    tm := { monitors := [⟨.armed, 0⟩] }
    lp := { State.reset.lp with initialising := false, transaction := some ⟨false, [], none⟩ } }

/-- A MEMBER with a frame under assembly. -/
def member : State :=
  let s := at_ .member
  { s with acq := { s.acq with assembly := some ⟨4, 3, [0x8000, 0x8000], false, false, false, 0⟩ } }

/-- The MEMBER at the last tick of its epoch. -/
def lastTick : State := { member with et := { member.et with counter := 255 } }

/-- A queue in place of the state's. -/
def withQueue (q : List Msg) (s : State) : State := { s with lc := { s.lc with queue := q } }

/-- The state reading a frame of another station. -/
def reading (s : State) : State := { s with lc := { s.lc with view := .reading } }

/-- A transaction in place of the state's. -/
def withTx (t : Transaction) (s : State) : State := { s with lp := { s.lp with transaction := some t } }

def aCapture : Capture := ⟨⟨2, ⟨3, 4⟩⟩, .ok, 0x24, [⟨5, .ok, 0⟩], false, 0⟩
def aRecord (phase : Phase) : CapRecord :=
  ⟨phase, 9, 4, 3, 1, ⟨3, 4⟩, 1, {}, [], some 0, false, .placed, none⟩
def filled : CapRecord := { aRecord (.complete { aCapture with answersClosed := true }) with
  framesDone := true, cursor := none, frames := [⟨1, 3, [7, 8]⟩], spotRequest := .none }

/-- A record in slot 1 in place of the state's. -/
def holding (r : CapRecord) (s : State) : State :=
  let s := s.setRecord 1 (some r)
  { s with cc := { s.cc with opening := [1] } }

/-- An open-mark entry of identity 0. -/
def aMark : Mark := ⟨0, ⟨3, 4⟩, true, none, .queued, 1, false⟩
def withMarks (ms : List Mark) (s : State) : State := { s with cc := { s.cc with marks := ms, nextMark := 8 } }

def asMsg (p : Payload) (cond : MsgCondition) (fails : Nat) : Msg := ⟨p, 0, fails, cond, none⟩

/-- The state after a command, when there is one. -/
def after (o : Host.Outcome State Fault Refusal) : State :=
  match o with
  | .next t => t
  | _ => State.reset

/-- The bytes of the response that the state holds. -/
def answer (s : State) : List Byte := ((s.lp.transaction.bind Transaction.response).map Response.bytes).getD []

/-! ## The manual's examples -/

/-- Table 9-7 and the digest of R137. -/
theorem test_configure_common :
    answer (after (exec (.configure common.block) (at_ .config))) = [0x80, 2, 0x18, 0x7A, 0xEC] ∧
    (after (exec (.configure common.block) (at_ .config))).mu.config = some common := by decide +kernel
theorem test_configure_refused :
    (answer (after (exec (.configure ({ common with npre := 520 }).block) (at_ .config)))).take 3 = [0xC2, 1, 7] ∧
    (answer (after (exec (.configure ({ common with npre := 250 }).block) (at_ .config)))).take 3 = [0xC2, 1, 9] ∧
    (answer (after (exec (.configure ({ common with monitors := [⟨3, 3, 1500, -1500⟩] }).block) (at_ .config)))).take 3 =
      [0xC2, 1, 40] ∧
    (answer (after (exec (.configure (common.block.take 40)) (at_ .config)))).take 3 = [0xC2, 1, 40] ∧
    (answer (after (exec (.configure
      ({ common with npre := 100, npost := 150, monitors := [], sweep := List.replicate 12 ⟨0, 3, 0⟩ }).block)
      (at_ .config)))).take 3 = [0xC2, 1, 53] := by decide +kernel

/-- The common block opens with the bytes that section 10.3.1 lists; its monitor stands at offset 36. -/
theorem test_common_bytes :
    common.block.take 12 = [0x00, 0x64, 0x03, 0xE8, 0x06, 0x00, 0x01, 0x00, 0xC8, 0x01, 0x2C, 0x00] ∧
    common.block.drop 36 = [0x03, 0x03, 0xFA, 0x24, 0x05, 0xDC] := by decide +kernel

/-- Table 6-1. -/
theorem test_transit :
    [0, 1, 2, 3].map (fun r => [20, 100, 1000].map (transitAllowance r)) =
      [[20, 4, 0], [10, 2, 0], [5, 1, 0], [3, 1, 0]] := by decide +kernel

/-- Table 5-2: monitor 0 over the values of its frames. -/
def table52 : List (Int × MonitorState) → MonitorState → Bool
  | [], _ => true
  | (v, want) :: rest, m =>
    let m := (monitorStep ⟨3, 3, -1500, 1500⟩ (BitVec.ofInt 16 v) m).1
    m == want && table52 rest m
theorem test_monitor_table :
    table52
      [(1210, ⟨.armed, 0⟩), (1620, ⟨.pending, 1⟩), (1480, ⟨.armed, 0⟩), (1550, ⟨.pending, 1⟩), (-32768, ⟨.pending, 1⟩),
        (-1620, ⟨.pending, 2⟩), (1890, ⟨.tripped, 0⟩), (1700, ⟨.tripped, 0⟩), (900, ⟨.tripped, 1⟩),
        (1600, ⟨.tripped, 0⟩), (400, ⟨.tripped, 1⟩), (-200, ⟨.tripped, 2⟩), (-32768, ⟨.tripped, 2⟩), (100, ⟨.armed, 0⟩)]
      ⟨.armed, 0⟩ = true := by decide +kernel

/-- Chapter 10: tag word 1 of frame (3, 417), and the participant list of record 2. -/
theorem test_tag_word : tagWord 3 true true false true = 0xB003 := by decide
theorem test_list_data :
    listData [⟨5, .ok, 0⟩, ⟨9, .ok, 0⟩, ⟨2, .ok, 1⟩] =
      [0x01, 0x03, 0x05, 0x01, 0x00, 0x09, 0x01, 0x00, 0x02, 0x01, 0x01] := by decide

/-- Chapter 10: a FROZEN's payload, and the command frame of STATUS with its check byte. -/
theorem test_frozen_payload :
    (Payload.frozen ⟨5, ⟨3, 417⟩⟩ 0 1).encode = [0x05, 0, 0, 0, 3, 0x01, 0xA1, 0x00, 0x01] := by decide
theorem test_status_frame : commandFrame 0x01 [] = [0x01, 0x00, 0xFF] := by decide

/-- Epoch 1 follows the last epoch, and points on either side of it compare by the ticks between them (R100). -/
theorem test_rollover :
    epochSucc 0xFFFFFFFF = 1 ∧ pointDelta 1000 ⟨1, 0⟩ ⟨0xFFFFFFFF, 999⟩ = 1 ∧ pointsNear 1000 ⟨0xFFFFFFFF, 999⟩ ⟨1, 1⟩ ∧
    ¬pointsNear 1000 ⟨0xFFFFFFFF, 999⟩ ⟨1, 2⟩ := by decide +kernel

/-- A station alone in its tick: the frame closes INCOMPLETE and a new one begins with the tick's tags (R69, R70). -/
theorem test_tick :
    (after (exec (.tick []) member)).hr.frames = [⟨4, 0x1003, [0x8000, 0x8000]⟩] ∧
    (after (exec (.tick []) member)).acq.converter = .sweep := by decide +kernel

/-- A founding station queues EPOCH(1) ahead of HELLO (Table 11-2). -/
theorem test_founds :
    let s := at_ .listen
    let t := after (exec (.listenWindowExpiry []) { s with mu := { s.mu with listenCount := 9, listenLength := 10 } })
    t.lc.queue.map Msg.payload = [.epoch 1 0 7, .hello 7 1 4] ∧ t.mu.station = .member := by decide +kernel

/-- Section 7.7: two FROZENs contend, one station loses, wins later and completes. -/
theorem test_contend :
    let s := withQueue [asMsg (.frozen ⟨5, ⟨3, 4⟩⟩ 0 1) .queued 0] member
    (after (exec (.frameStart 11) s)).lc.queue.map Msg.cond = [.contending] ∧
    (after (exec .arbitrationLoss (after (exec (.frameStart 11) s)))).lc.queue = s.lc.queue ∧
    (after (exec .arbitrationWin (after (exec (.frameStart 11) s)))).lc.queue.map Msg.cond = [.inTransmission] := by
  decide +kernel

/-- An alert, its mark event, its CLAIM (R1, R8, R13). -/
theorem test_capture_opens :
    let t := after (exec .markEvent (after (exec (.trigger []) member)))
    t.cc.driver = .driving 4 ∧ t.cc.marks = [⟨0, ⟨3, 4⟩, true, some 0, .queued, 0, false⟩] ∧
    t.lc.queue.map Msg.payload = [.claim ⟨3, 4⟩] ∧ (t.recordAt 0).isSome = true := by decide +kernel

/-- A self-check whose mean is 2045 passes (R82). -/
theorem test_selfCheck :
    let s := at_ .checking
    let t := after (exec (.selfCheckConversionEnd 2045) { s with acq := { s.acq with
      converter := .selfCheck, selfCheck := some ⟨7, 14315⟩ } })
    t.mu.station = .listen ∧ t.acq.lastMean = some 2045 := by decide +kernel

/-! ## Every statement's hypotheses are met -/

/-- A station with an empty decoder awaits every command frame. -/
theorem awaits (s : State) (code : Byte) (args : List Byte) (h : args.length ≤ 255) :
    (withTx ⟨false, [], none⟩ s).AwaitsCommand code args :=
  ⟨h, _, rfl, rfl, rfl, List.nil_prefix, by simp [commandFrame, withCheck]⟩

theorem witness_SoftResetState :
    (withTx ⟨false, [], none⟩ (holding filled (at_ .config))).AwaitsCommand 0x0F [] ∧
    (holding filled (at_ .config)).recordAt 0 = none ∧ (holding filled (at_ .config)).recordAt 1 = some filled ∧
    filled.isComplete = true ∧ (at_ .config).cfg.retain = true ∧ (aRecord .opened).isComplete = false :=
  ⟨awaits _ _ _ (by decide), by decide +kernel⟩

theorem witness_TransactionPhases : (State.reset).lp.transaction = none := by decide

theorem witness_ByteClocked :
    (withTx ⟨true, [], none⟩ member).lp.transaction = some ⟨true, [], none⟩ ∧
    ¬(([] : List Byte) = [] ∧ (5 : Byte) = 0) ∧ (([] : List Byte) ++ [5]).length ≠ 3 + (([] ++ [5] : List Byte).getD 1 0).toNat ∧
    ([5, 0, 9] : List Byte).length = 3 + (([5, 0, 9] : List Byte).getD 1 0).toNat ∧ byteSum [5, 0, 9] ≠ 0 ∧
    (⟨[0x80, 0, 0x80], 3, none⟩ : Response).bytes.length ≤ 3 ∧
    (0 + 1 < (⟨[0x80, 0, 0x80], 0, some .list⟩ : Response).bytes.length) := by decide

theorem witness_ClockedFrameIsCommand :
    (withTx ⟨false, [0x05, 0x00], none⟩ member).lp.transaction = some ⟨false, [0x05, 0x00], none⟩ ∧
    ([0x05, 0x00] : List Byte) ++ [0xFB] = commandFrame 0x05 [] := by decide

theorem witness_FramesRefused :
    ([] : List Byte) <+: 0x10 :: 0x00 :: [0xF0] ∧ byteSum [0x10, 0x00, 0xF0] = 0 ∧ 15 < (0x10 : Byte).toNat ∧
    byteSum [0x10, 0x00, 0xF1] ≠ 0 ∧ (withTx ⟨false, [], none⟩ member).AwaitsCommand 0x09 [0, 0] ∧
    ([0, 0] : List Byte).length ≠ 3 ∧ (withTx ⟨false, [], none⟩ member).AwaitsCommand 0x01 [0] ∧ ([0] : List Byte).length ≠ 0 :=
  ⟨List.nil_prefix, by decide, by decide, by decide, awaits _ _ _ (by decide), by decide, awaits _ _ _ (by decide), by decide⟩

theorem witness_SnapshotsChangeNothing :
    (withTx ⟨false, [], none⟩ member).AwaitsCommand 0x01 [] ∧ (withTx ⟨false, [], none⟩ member).AwaitsCommand 0x07 [] ∧
    (withTx ⟨false, [], none⟩ member).AwaitsCommand 0x08 [] ∧ (withTx ⟨false, [], none⟩ member).AwaitsCommand 0x0D [] :=
  ⟨awaits _ _ _ (by decide), awaits _ _ _ (by decide), awaits _ _ _ (by decide), awaits _ _ _ (by decide)⟩

theorem witness_StatusLayout :
    member.tm.monitors[0]? = some ⟨.armed, 0⟩ ∧ member.acq.lastSpot = none ∧ member.lp.session = none ∧
    (let s : State := { member with
        acq := { member.acq with lastSpot := some ⟨[5], .member, some ⟨3, 4⟩⟩ }
        lp := { member.lp with session := some ⟨1, 9, 0, .frames⟩ } };
      s.acq.lastSpot = some ⟨[5], .member, some ⟨3, 4⟩⟩ ∧ s.lp.session = some ⟨1, 9, 0, .frames⟩ ∧
      (⟨[5], .listen, none⟩ : SpotResult).stamp = none) := by decide

/-- Table 10-6 with a result present: its station state and run stamp. -/
theorem test_spotRead_data :
    ({ member with acq := { member.acq with lastSpot := some ⟨[5], .member, some ⟨3, 417⟩⟩ } } : State).spotReadData =
      [0x05, 1, 3, 0, 0, 0, 3, 0x01, 0xA1, 0, 5] := by decide

theorem witness_RecordsPeersLayout :
    (holding filled member).recordAt 1 = some filled ∧ (holding filled member).recordAt 3 = none ∧
    (aRecord .opened).phase = .opened ∧ filled.phase = .complete { aCapture with answersClosed := true } ∧
    member.mu.peers[23]? = some Peer.cleared := by decide +kernel

theorem witness_ConfigBlockRoundTrip : common.InRange ∧ small.InRange := by
  unfold Configuration.InRange
  decide +kernel

theorem witness_ConfigureTaken :
    (withTx ⟨false, [], none⟩ (at_ .config)).AwaitsCommand 0x02 common.block ∧ (at_ .config).mu.station = .config ∧
    (at_ .config).acq.localPending = false ∧ 0 < common.block.length ∧ (at_ .listen).mu.station ≠ .config :=
  ⟨awaits _ _ _ (by decide +kernel), by decide +kernel⟩

/-- The two times and the two lengths against each other: a block whose first offence is at a field of a list. -/
theorem witness_ConfigureTaken_refused :
    let late : Configuration := { small with tickPeriod := 20, sweep := [⟨0, 3, 0⟩, ⟨1, 3, 4095⟩, ⟨2, 3, 9999⟩] }
    late.Encodable ∧ late.fields.map BlockField.inRange =
      [true, true, true, true, true, true, true, true, true, true, true, true, true, true, false, false, true, true, true,
        true, true, true] ∧
    (late.fields[14]?).map BlockField.offset = some 21 ∧ late.block.take 22 <+: late.block ++ [1] ∧
    small.Encodable ∧ (∀ g ∈ small.fields, g.inRange = true) ∧ 13 < small.block.length ∧ 4 ≤ (4 : Byte).toNat := by
  unfold Configuration.Encodable
  decide +kernel

/-- The refusals of those blocks: the third sweep entry, whose time passes the tick period, at its sample code, the flags byte, a missing byte. -/
theorem test_configure_offsets :
    let late : Configuration := { small with tickPeriod := 20, sweep := [⟨0, 3, 0⟩, ⟨1, 3, 4095⟩, ⟨2, 3, 9999⟩] }
    (answer (after (exec (.configure late.block) (at_ .config)))).take 3 = [0xC2, 1, 21] ∧
    (answer (after (exec (.configure (small.block.set 11 4)) (at_ .config)))).take 3 = [0xC2, 1, 11] ∧
    (answer (after (exec (.configure (small.block.take 13)) (at_ .config)))).take 3 = [0xC2, 1, 13] := by decide +kernel

theorem witness_JoinBegins :
    (withTx ⟨false, [], none⟩ (at_ .config)).AwaitsCommand 0x03 [] ∧ (at_ .config).mu.config = some small ∧
    ¬(State.reset.mu.station = .config ∧ State.reset.mu.config.isSome = true) :=
  ⟨awaits _ _ _ (by decide), by decide +kernel⟩

theorem witness_LeaveDeparts :
    (withTx ⟨false, [], none⟩ member).AwaitsCommand 0x04 [] ∧ member.mu.station = .member ∧ member.lc.mute = false ∧
    (holding (aRecord .opened) member).recordAt 1 = some (aRecord .opened) ∧
    (holding (aRecord (.filling aCapture)) member).recordAt 1 = some (aRecord (.filling aCapture)) ∧
    (aRecord (.filling aCapture)).phase = .filling aCapture ∧ (holding filled member).recordAt 1 = some filled ∧
    filled.phase = .complete { aCapture with answersClosed := true } ∧ (at_ .config).mu.station ≠ .member :=
  ⟨awaits _ _ _ (by decide), by decide +kernel⟩

theorem witness_TriggerAlerts :
    (withTx ⟨false, [], none⟩ member).AwaitsCommand 0x05 [] ∧ member.markAsserted = false ∧
    (let s := withMarks [aMark] { member with cc := { member.cc with othersDrive := true, lineEntry := .entry 0 } };
      s.markAsserted = true ∧ s.cc.edgePending = false ∧ aMark ∈ s.cc.marks ∧ (s.cc.marks.map Mark.id).Nodup ∧
      aMark.originator = true ∧ aMark.claim ≠ .lost ∧ ({ aMark with claim := .lost } : Mark).claim = .lost) :=
  ⟨awaits _ _ _ (by decide), by decide +kernel⟩

theorem witness_SpotRequested :
    (withTx ⟨false, [], none⟩ member).AwaitsCommand 0x06 [] ∧ member.isFault = false ∧ small.spots ≠ [] ∧
    member.acq.localPending = false ∧ common.spots = [] :=
  ⟨awaits _ _ _ (by decide), by decide +kernel⟩

theorem witness_SessionOpens :
    (withTx ⟨false, [], none⟩ member).AwaitsCommand 0x09 [1, 0, 9] ∧ (1 : Byte).toNat = (1 : Fin 4).val ∧
    4 ≤ (4 : Byte).toNat ∧ (holding filled member).lp.session = none ∧ filled.seq = (0 : Byte) ++ (9 : Byte) ∧
    filled.phase ≠ .opened ∧ filled.seq ≠ (0 : Byte) ++ (8 : Byte) ∧ member.recordAt 1 = none :=
  ⟨awaits _ _ _ (by decide), by decide +kernel⟩

theorem witness_HeaderLayout :
    filled.phase = .complete { aCapture with answersClosed := true } ∧ { filled with spotRequest := .served }.spotRequest = .served := by
  decide

def session (k : Nat) (p : SessionPhase) : Session := ⟨1, 9, k, p⟩

theorem witness_ReadAnswers :
    (withTx ⟨false, [], none⟩ member).AwaitsCommand 0x0A [] ∧ (holding filled member).recordAt (session 0 .frames).slot = some filled ∧
    (session 0 .frames).index < filled.frames.length ∧ (session 1 .frames).index = filled.frames.length ∧
    filled.framesDone = true ∧ filled.answersClosed = true ∧ (aRecord (.filling aCapture)).answersClosed = false ∧
    (session 0 .frames).index = (aRecord (.filling aCapture)).frames.length :=
  ⟨awaits _ _ _ (by decide), by decide +kernel⟩

theorem witness_ReadAdvances :
    let p : Response := ⟨[0x80, 0, 0x80], 2, some (.chunk 1)⟩
    (withTx ⟨false, [], some p⟩ member).lp.transaction = some ⟨false, [], some p⟩ ∧ p.advance = some (.chunk 1) ∧
    p.shifted < p.bytes.length ∧ p.shifted + 1 = p.bytes.length ∧ p.shifted ≠ 0 ∧
    (holding filled member).recordAt (session 0 .frames).slot = some filled := by decide +kernel

theorem witness_ClosesAndReleases :
    (withTx ⟨false, [], none⟩ member).AwaitsCommand 0x0B [] ∧ member.lp.session = none ∧
    (withTx ⟨false, [], none⟩ member).AwaitsCommand 0x0C [1, 0, 9] ∧ filled.isComplete = true ∧ member.reader 1 = false ∧
    (aRecord .opened).isComplete = false ∧
    ({ member with lp := { member.lp with session := some (session 0 .frames) } } : State).reader 1 = true :=
  ⟨awaits _ _ _ (by decide), by decide, awaits _ _ _ (by decide), by decide +kernel⟩

theorem witness_AckAttnClears :
    (withTx ⟨false, [], none⟩ member).AwaitsCommand 0x0E [3, 255] ∧ (3 : Byte).toNat < 4 ∧ 4 ≤ (4 : Byte).toNat :=
  ⟨awaits _ _ _ (by decide), by decide, by decide⟩

theorem witness_TickOutsideMember :
    State.reset.et.running = false ∧ (at_ .checking).mu.station ≠ .listen ∧ (at_ .checking).mu.station ≠ .member ∧
    (at_ .listen).et.running = true ∧ (at_ .listen).mu.listenCount + 1 ≠ (at_ .listen).mu.listenLength := by decide +kernel

theorem witness_ListenExpiryFounds :
    let s := at_ .listen
    let s := { s with mu := { s.mu with listenLength := 1 } }
    s.et.running = true ∧ s.mu.station = .listen ∧ s.mu.config = some small ∧ s.mu.listenCount + 1 = s.mu.listenLength ∧
    s.et.own = .none ∧ s.lc.mute = false ∧ s.lc.queue = [] := by decide +kernel

theorem witness_MemberTick :
    member.et.running = true ∧ member.mu.station = .member ∧ member.et.counter.toNat + 1 ≠ member.cfg.epochLen ∧
    lastTick.et.counter.toNat + 1 = lastTick.cfg.epochLen ∧ member.acq.assembly.isSome = true ∧
    member.cfg.monitors[0]? = some ⟨1, 1, 0, 50⟩ ∧ member.tm.monitors[0]? = some ⟨.armed, 0⟩ := by decide +kernel

/-- The clauses on the records and the converter: a full ring, a record that holds its oldest frame, an entry that the epoch
start keeps, a spot run that holds the converter, a place that waits. -/
theorem witness_MemberTick_records :
    let f : Frame := ⟨1, 3, [7, 8]⟩
    let s := withMarks [{ aMark with slot := some 1, starts := 0 }] (holding (aRecord .opened) lastTick)
    let s : State := { s with hr := { s.hr with nextWrite := 3, frames := [f, f, f] } }
    0 < s.depth ∧ s.depth < 4294967296 ∧ (s.cc.marks.map Mark.id).Nodup ∧ s.recordAt 1 = some (aRecord .opened) ∧
    (∀ m ∈ (s.winWith []).cc.marks, m.slot = some 1 → m.starts = 0) ∧ s.acq.assembly.isSome = true ∧
    s.copiedAtWrite f (aRecord .opened) = [f] ∧
    s.copiedAtWrite f { aRecord .opened with cursor := some 3 } = [f] ∧ s.recordAt 0 = none ∧
    s.acq.converter = .idle ∧ s.cfg.sweep ≠ [] ∧ s.acq.spotList.any (fun p => !p.inRun) = false ∧
    (let u : State := { s with acq := { s.acq with converter := .spot, spotList := [⟨.localPort, false⟩] } };
      u.acq.converter ≠ .idle ∧ u.acq.converter ≠ .sweep ∧ u.acq.spotList.any (fun p => !p.inRun) = true) := by
  decide +kernel

/-- R61, R62: a tick gives the oldest frame of a full ring to the record that holds it, and the closed frame to a caught-up
record, and the sweep of the new frame waits for the place of a spot request (R79). -/
theorem test_tick_copies :
    let f : Frame := ⟨1, 3, [7, 8]⟩
    let s : State := { member with
      hr := { member.hr with nextWrite := 3, frames := [f, f, f] }
      acq := { member.acq with spotList := [⟨.localPort, false⟩], converter := .sweep } }
    let t := after (exec (.tick []) (holding (aRecord .opened) s))
    let u := after (exec (.tick []) (holding { aRecord .opened with cursor := some 3 } s))
    (t.recordAt 1).map CapRecord.frames = some [f] ∧ (t.recordAt 1).map CapRecord.cursor = some (some 1) ∧
    (u.recordAt 1).map CapRecord.frames = some [⟨4, 0x1003, [0x8000, 0x8000]⟩] ∧ t.acq.converter = .idle := by
  decide +kernel

theorem witness_WrapAnnounces :
    lastTick.et.running = true ∧ lastTick.mu.station = .member ∧ lastTick.et.counter.toNat + 1 = lastTick.cfg.epochLen ∧
    lastTick.lc.mute = false ∧ (∀ m ∈ lastTick.lc.queue, m.payload.isEpoch = true → m.cond ≠ .inTransmission) ∧
    lastTick.et.own = .none ∧ Part.win ∉ ([] : List Part) ∧
    (let m := asMsg (.epoch 3 0 7) .contending 0;
      let s := withQueue [m] lastTick;
      Part.win ∈ [Part.win] ∧ m ∈ s.lc.queue ∧ m.cond = .contending ∧ ∀ x ∈ s.lc.queue, x.cond = .contending → x = m) := by
  decide +kernel

theorem witness_PulseAndStuck :
    let s : State := { member with cc := { member.cc with driver := .driving 1, stuck := 64 } }
    s.et.running = true ∧ s.mu.station = .member ∧ s.markAsserted = true ∧ s.cc.stuck = 64 ∧ s.cc.driver = .driving 1 ∧
    s.cc.othersDrive = false ∧ Driver.driving 4 = .driving (2 + 2) ∧ member.markAsserted = false ∧
    (let u : State := { member with cc := { member.cc with driver := .driving 1, othersDrive := true, stuck := 64 } };
      u.markAsserted = true ∧ u.cc.stuck = 64 ∧ u.cc.othersDrive ≠ false) := by decide +kernel

theorem witness_PeersExpire :
    let old : Peer := ⟨.present, some 1, some true, some 4, some 1⟩
    let s : State := { lastTick with mu := { lastTick.mu with peers := lastTick.mu.peers.set 2 old } }
    s.et.running = true ∧ s.mu.station = .member ∧ s.et.counter.toNat + 1 = s.cfg.epochLen ∧ s.mu.peers[2]? = some old ∧
    s.mu.peers.toList.any (fun p => decide (p.state = .present)) = true ∧ s.et.epoch.toNat + 1 - 1 = 3 ∧
    s.mu.peers.toList.any (Peer.dueAt 4) = true ∧ lastTick.mu.peers.toList.any (Peer.dueAt 4) = false ∧
    (s.lc.queue.filter (fun m => !m.payload.isEpoch)).length < 10 ∧ s.tm.monitors ≠ [] ∧
    s.mu.spoken = false ∧ s.lc.mute = false ∧ s.lc.queue.any Msg.ofMembership = false := by decide +kernel

theorem witness_ClaimsTimeOut :
    let s := withMarks [aMark, { aMark with id := 1, starts := 0 }, { aMark with id := 2, claim := .inTransmission },
      { aMark with id := 3, deferred := true }] lastTick
    s.et.running = true ∧ s.mu.station = .member ∧ s.et.counter.toNat + 1 = s.cfg.epochLen ∧
    (s.cc.marks.map Mark.id).Nodup ∧ (∃ m ∈ s.cc.marks, m.starts ≠ 0 ∧ m.deferred = false) ∧
    (s.winWith []).cc.marks = s.cc.marks ∧
    (let young := withMarks [{ aMark with starts := 0 }] lastTick;
      (young.cc.marks.map Mark.id).Nodup ∧ young.cc.marks ≠ [] ∧ ∀ m ∈ young.cc.marks, m.starts = 0) := by decide +kernel

theorem witness_AnswerWindowCloses :
    let c := { aCapture with answerCount := 1 }
    let s := holding (aRecord (.filling c)) lastTick
    s.et.running = true ∧ s.mu.station = .member ∧ s.et.counter.toNat + 1 = s.cfg.epochLen ∧
    s.recordAt 1 = some (aRecord (.filling c)) ∧ c.answersClosed = false ∧ c.answerCount ≠ 0 ∧
    (aRecord (.filling c)).framesDone = false ∧ (∀ m ∈ s.cc.marks, m.slot ≠ some 1) ∧
    (holding (aRecord (.filling aCapture)) lastTick).recordAt 1 = some (aRecord (.filling aCapture)) ∧
    aCapture.answerCount = 0 := by decide +kernel

theorem witness_MarkEventAdds :
    member.mu.station = .member ∧ member.markAsserted = false ∧ member.acq.assembly.isSome = true ∧
    member.cc.marks.length < 6 ∧ (∀ m ∈ member.cc.marks, m.id ≠ member.cc.nextMark) ∧ member.chooseSlot = some 0 ∧
    (after (exec (.trigger []) member)).cc.edgePending = true ∧ (after (exec (.trigger []) member)).mu.station = .member ∧
    (at_ .member).acq.assembly = none ∧ 6 ≤ (withMarks (List.replicate 6 aMark) member).cc.marks.length := by decide +kernel

theorem witness_MarkLineOtherwise :
    member.driving = false ∧ ({ member with cc := { member.cc with driver := .driving 4 } } : State).driving = true ∧
    (at_ .listen).mu.station ≠ .member ∧ member.cc.edgePending = false ∧
    ({ member with cc := { member.cc with othersDrive := true } } : State).markAsserted = true := by decide +kernel

/-- Every slot holds a COMPLETE record. -/
def full : State :=
  { member with cc := { member.cc with records := Vector.replicate 4 (some filled), opening := [2, 0, 1, 3] } }

theorem witness_SlotChoice :
    member.recordAt 0 = none ∧ (∀ i, full.recordAt i ≠ none) ∧ full.cfg.replace = true ∧
    full.cc.opening = [] ++ 2 :: [0, 1, 3] ∧ full.recordAt 2 = some filled ∧ filled.isComplete = true ∧ full.reader 2 = false ∧
    (full.openSlot ⟨3, 4⟩ 0 0 false).isSome = true := by decide +kernel

theorem witness_CopyStepCopies :
    let s := holding (aRecord (.filling aCapture)) member
    let s := { s with hr := { s.hr with nextWrite := 1, frames := [⟨1, 3, [7, 8]⟩] } }
    s.recordAt 0 = none ∧ s.recordAt 1 = some (aRecord (.filling aCapture)) ∧ (aRecord .opened).cursor = some 0 ∧
    (s.hr.nextWrite - 0).toNat = 1 ∧ 1 ≤ s.hr.frames.length ∧ s.hr.frames[1 - 1]? = some ⟨1, 3, [7, 8]⟩ := by decide +kernel

theorem witness_WriteKeepsHeld :
    let f : Frame := ⟨1, 3, [7, 8]⟩
    let s := holding (aRecord .opened) member
    let s := { s with hr := { s.hr with nextWrite := 3, frames := [f, f, f] } }
    0 < s.depth ∧ s.depth < 4294967296 ∧ s.hr.frames.length = s.depth ∧ s.hr.frames[0]? = some f ∧
    (aRecord .opened).cursor = some (s.hr.nextWrite - BitVec.ofNat 32 s.depth) ∧ filled.cursor = none ∧
    (let u : State := { s with hr := { s.hr with geometry := some ⟨4, 1⟩, frames := [f] } };
      u.copiedAtWrite f { aRecord .opened with cursor := some 2 } = [f, f] ∧ u.copiedAtWrite f filled = []) := by
  decide +kernel

theorem witness_WriteKeepsHeld_words :
    let f : Frame := ⟨1, 3, [7, 8]⟩
    let s : State := { member with hr := { member.hr with nextWrite := 2, writePos := 2, frames := [f, f] } }
    RingLaidOut s ⟨4, 3⟩ ∧ f.wordList.length = 4 ∧ s.hr.frames[1]? = some f ∧ ¬(2 * 4 ≤ 5 ∧ 5 < 2 * 4 + 4) := by
  unfold RingLaidOut
  decide +kernel

/-- R54: the second frame written lies at the words w to 2w − 1, and the place not yet written holds none. -/
theorem test_ring_words :
    let s : State := { member with hr :=
      { member.hr with nextWrite := 2, writePos := 2, frames := [⟨1, 3, [7, 8]⟩, ⟨2, 3, [9, 10]⟩] } }
    (List.range 13).map s.ringWordAt =
      [some 1, some 3, some 7, some 8, some 2, some 3, some 9, some 10, none, none, none, none, none] := by decide +kernel

theorem witness_SweepConversions :
    let a : Assembly := ⟨4, 3, [0x8000, 0x8000], false, false, false, 0⟩
    let s : State := { member with acq := { member.acq with converter := .sweep } }
    s.acq.converter = .sweep ∧ s.acq.assembly = some a ∧ s.cfg.sweep[a.pos]? = some ⟨0, 0, 5⟩ ∧
    member.acq.converter = .idle ∧ a.pos < member.cfg.sweep.length ∧
    member.acq.spotList.any (fun p => !p.inRun) = false := by decide +kernel

theorem witness_SpotRuns :
    let s : State := { member with acq := { member.acq with spotList := [⟨.localPort, false⟩] } }
    let run : SpotRun := ⟨[⟨2, 0⟩], [], .member, none⟩
    s.acq.spotList.any (fun p => !p.inRun) = true ∧ s.acq.converter = .idle ∧ s.acq.run = none ∧
    ¬(s.mu.station = .checking ∧ s.acq.selfCheck.isSome = true) ∧ run.codes.length + 1 = run.spots.length := by decide +kernel

theorem witness_SelfChecks :
    let s := at_ .checking
    let s := { s with acq := { s.acq with selfCheck := some ⟨7, 13829⟩ } }
    s.mu.station = .checking ∧ s.acq.selfCheck.isSome = true ∧ s.acq.converter = .idle ∧
    1984 ≤ (13829 + (2043 : Code).toNat) / 8 ∧ ¬1984 ≤ (13829 + (2042 : Code).toNat) / 8 ∧
    (12809 + (4095 : Code).toNat) / 8 = 2113 := by decide +kernel

theorem witness_MonitorSteps :
    (1500 : Word).toInt ≤ 1500 ∧ (1500 : Int) < (1501 : Word).toInt ∧ (1501 : Word) ≠ 0x8000 ∧ 2 + 1 = 3 ∧
    (monitorStep ⟨1, 1, 0, 50⟩ 60 ⟨.armed, 0⟩).2 = true ∧ member.lc.mute = false ∧ member.markAsserted = false := by decide

/-- R93: two monitors trip on one frame; one pulse begins and the second alert merges. -/
theorem test_two_trips :
    let two : Configuration := { small with monitors := [⟨1, 1, 0, 50⟩, ⟨2, 1, 0, 50⟩] }
    let s : State := { member with mu := { member.mu with config := some two }, tm := { monitors := [⟨.armed, 0⟩, ⟨.armed, 0⟩] } }
    let t := s.handOn ⟨1, 3, [60, 60]⟩
    t.tm.monitors = [⟨.tripped, 0⟩, ⟨.tripped, 0⟩] ∧ t.cc.driver = .driving 4 ∧ t.lp.causes = 0 := by decide +kernel

theorem witness_FrameBegins :
    let s := withQueue [asMsg .bye .queued 0] (at_ .leaving)
    s.mu.station = .leaving ∧ s.lc.mute = false ∧ s.lc.queue = asMsg .bye .queued 0 :: [] ∧ s.lc.view = .none ∧
    11 ≤ s.lc.idle + 11 ∧ ¬11 ≤ s.lc.idle + 10 ∧ FrameView.ending 3 = .ending 3 ∧ 3 ≤ 14 ∧ (14 : Nat) - 3 = 11 ∧ 2 < 3 ∧
    (at_ .config).mu.station ≠ .leaving := by decide +kernel

theorem witness_Arbitration :
    let m := asMsg (.hello 7 3 0) .contending 0
    let s := withQueue [m, asMsg (.claim ⟨3, 4⟩) .queued 0] member
    m ∈ s.lc.queue ∧ m.cond = .contending ∧ (∀ x ∈ s.lc.queue, x.cond = .contending → x = m) ∧
    (∀ x ∈ s.lc.queue, x.cond ≠ .inTransmission) ∧ s.et.running = true ∧ s.mu.station = .member ∧
    s.et.counter.toNat + 1 ≠ s.cfg.epochLen ∧ (asMsg (.epoch 3 0 7) .contending 0).payload = .epoch 3 0 7 := by decide +kernel

/-- A message in transmission, alone in its queue. -/
theorem transmits (m : Msg) (h : m.cond = .inTransmission) (s : State) : (withQueue [m] s).Transmits m :=
  ⟨by simp [withQueue], h, by simp [withQueue]⟩

theorem witness_AttemptFails :
    (withQueue [asMsg (.epoch 3 0 7) .inTransmission 15] member).Transmits (asMsg (.epoch 3 0 7) .inTransmission 15) ∧
    (withQueue [asMsg (.epoch 2 0 7) .inTransmission 14] member).Transmits (asMsg (.epoch 2 0 7) .inTransmission 14) ∧
    (let m : Msg := ⟨.claim ⟨3, 4⟩, 0, 0, .inTransmission, some 0⟩;
      let e : Mark := { aMark with deferred := true }
      (withQueue [m] (withMarks [e] member)).Transmits m ∧ ((withMarks [e] member).cc.marks.map Mark.id).Nodup ∧
      e ∈ (withMarks [e] member).cc.marks ∧ e.id = 0) ∧
    (withQueue [asMsg .bye .inTransmission 15] (at_ .leaving)).Transmits (asMsg .bye .inTransmission 15) ∧
    (holding filled member).keyAt 1 = some aCapture.key ∧
    (withQueue [asMsg (.epoch 2 0 7) .inTransmission 15] member).Transmits (asMsg (.epoch 2 0 7) .inTransmission 15) ∧
    ((2 : Word32) ≠ member.et.epoch ∧ 16 ≤ 15 + 1) ∧
    (let m := asMsg (.frozen aCapture.key 0 1) .inTransmission 0;
      let s := withQueue [m] (withMarks [{ aMark with slot := some 1 }] (holding filled member));
      s.Transmits m ∧ 31 ≤ ({ s with lc := { s.lc with failCount := 31 } } : State).lc.failCount ∧
      (∀ e ∈ s.cc.marks, e.slot = some 1 → e.deferred = false)) :=
  ⟨transmits _ rfl _, transmits _ rfl _, ⟨transmits _ rfl _, by decide +kernel⟩, transmits _ rfl _, by decide +kernel,
    transmits _ rfl _, by decide +kernel, transmits _ rfl _, by decide +kernel⟩

/-- Only CLAIMs stand for entries: in the states of the witnesses above, the one with a CLAIM's entry among them. -/
theorem witness_AttemptFails_marked :
    MarkedAreClaims (withQueue [⟨.claim ⟨3, 4⟩, 0, 0, .inTransmission, some 0⟩] (withMarks [aMark] member)) ∧
    (∀ p cond n s, MarkedAreClaims (withQueue [asMsg p cond n] s)) ∧ MarkedAreClaims State.reset := by
  refine ⟨?_, ?_, ?_⟩
  · intro q hq _
    cases List.mem_singleton.1 hq
    exact ⟨_, rfl⟩
  · intro p cond n s q hq hm
    cases List.mem_singleton.1 hq
    exact absurd rfl hm
  · intro q hq
    exact absurd hq List.not_mem_nil

/-- R127: a bit error puts the message back into the queue; the 32nd failure ends in MUTE with the queue flushed. -/
theorem test_attempt_fails :
    let s := withQueue [asMsg (.epoch 3 0 7) .inTransmission 2] member
    let t := after (exec (.txAttemptFail .bitError) s)
    let u := after (exec (.txAttemptFail .veto) { s with lc := { s.lc with failCount := 31 } })
    t.lc.queue = [asMsg (.epoch 3 0 7) .queued 3] ∧ t.lc.failCount = 1 ∧ t.et.own = .queued 3 ∧
    u.lc.mute = true ∧ u.lc.queue = [] ∧ u.et.own = .none ∧ u.hasCause .linkMute = true := by decide +kernel

theorem witness_OwnFrameAccepted :
    (withQueue [asMsg (.epoch 3 9 7) .inTransmission 0] member).Transmits (asMsg (.epoch 3 9 7) .inTransmission 0) ∧
    (withQueue [asMsg .bye .inTransmission 0] (at_ .leaving)).Transmits (asMsg .bye .inTransmission 0) ∧
    (let m : Msg := ⟨.claim ⟨3, 4⟩, 0, 0, .inTransmission, some 0⟩;
      let e : Mark := { aMark with slot := some 1 };
      let s := withQueue [m] (withMarks [e] (holding (aRecord .opened) member));
      s.Transmits m ∧ s.mu.station = .member ∧ s.mu.number.toNat < 24 ∧ (4 : Word).toNat < s.cfg.epochLen ∧
      (∀ i, s.keyAt i ≠ some ⟨5, ⟨3, 4⟩⟩) ∧ s.cc.marks = [] ++ e :: [] ∧ |pointDelta s.cfg.epochLen e.point ⟨3, 4⟩| ≤ 2 ∧
      (s.cc.marks.map Mark.id).Nodup ∧ s.recordAt 1 = some (aRecord .opened) ∧ (∀ n, n < 24 → (s.peerAt n).state ≠ .present)) :=
  ⟨transmits _ rfl _, transmits _ rfl _, transmits _ rfl _, by decide +kernel⟩

/-- R17, R27: the CLAIM of a station alone on its segment fills its record, and the window closes at once. -/
theorem test_own_claim :
    let m : Msg := ⟨.claim ⟨3, 4⟩, 0, 0, .inTransmission, some 0⟩
    let s := withQueue [m] (withMarks [{ aMark with slot := some 1 }] (holding (aRecord .opened) member))
    let t := after (exec (.frameAccepted (wireOf 5 (.claim ⟨3, 4⟩)) false []) s)
    t.cc.marks = [] ∧ (t.recordAt 1).map CapRecord.phase =
      some (.filling ⟨⟨5, ⟨3, 4⟩⟩, .ok, 0x20, [⟨5, .ok, 0⟩], true, 0⟩) ∧
    t.lc.queue.map Msg.payload = [.frozen ⟨5, ⟨3, 4⟩⟩ 0 1] := by decide +kernel

theorem wireOf_crc (sender : Station) (p : Payload) :
    CrcGood (wireOf sender p) := by
  unfold CrcGood wireOf
  dsimp only

/-- The frame that a station sends for a message carries it. -/
theorem carries (sender : Station) (p : Payload) : Carries (wireOf sender p) p := by
  unfold Carries
  refine ⟨?_, ?_, wireOf_crc _ _, ?_⟩
  all_goals
    unfold wireOf
    dsimp only

/-- With nothing of its own on the pair, the station reads as a receiver. -/
theorem reads (station : StationState) (h : station = .listen ∨ station = .member ∨ station = .leaving) :
    (reading (at_ station)).ReadsAsReceiver :=
  ⟨h, .inl rfl, fun _ hm => absurd hm List.not_mem_nil⟩

/-- Neither marks nor records matter to reading. -/
theorem reads_with (marks : List Mark) (r : CapRecord) :
    (withMarks marks (holding r (reading (at_ .member)))).ReadsAsReceiver ∧
      (holding r (reading (at_ .member))).ReadsAsReceiver :=
  ⟨⟨.inr (.inl rfl), .inl rfl, fun _ hm => absurd hm List.not_mem_nil⟩,
    ⟨.inr (.inl rfl), .inl rfl, fun _ hm => absurd hm List.not_mem_nil⟩⟩

theorem witness_FramesNotAccepted :
    (reading (at_ .member)).ReadsAsReceiver ∧
    (let f : WireFrame := { wireOf 2 .bye with crc := (wireOf 2 .bye).crc + 1 };
      f.presence = true ∧ ¬CrcGood f) ∧
    (reading (at_ .member)).lc.mute = false ∧ (reading (at_ .member)).lc.vetoCount < 15 ∧
    ({ wireOf 2 .bye with presence := false } : WireFrame).presence = false ∧
    (let f : WireFrame := ⟨6, 2, 3, [], crcOf 6 2 3 [], true⟩;
      CrcGood f ∧ 6 ≤ f.kind.toNat) := by
  refine ⟨reads _ (by simp), ?_⟩
  unfold CrcGood
  decide +kernel

/-- A receiver whose delimiter is damaged finds the CRC bad, though the CRC field is intact (R117). -/
theorem test_delimiter_checked :
    crcGood { wireOf 2 .bye with delimiter := 1 } = false ∧ crcGood (wireOf 2 .bye) = true := by decide +kernel

/-- A recessive presence bit with a dominant veto bit behind it: no veto of this station's, but a spoiled observation
(R122, R133). -/
theorem test_vetoed_without_presence :
    let t := after (exec (.frameVetoed { wireOf 2 .bye with presence := false }) (reading (at_ .member)))
    t.lc.obsCur = .spoiled ∧ t.lc.vetoCount = 0 ∧ t.lc.view = .ending 3 := by decide +kernel

/-- Section 7.7: a FROZEN's frame has its veto bit at bit 105 and ends at 108, and the next start bit falls 11 idle bit
times behind its end. -/
theorem test_frame_ends :
    vetoPlace 9 = 105 ∧ frameLength 9 = 108 ∧
    (let s := withQueue [asMsg .bye .queued 0] { at_ .leaving with lc := { (at_ .leaving).lc with view := .ending 3 } };
      (after (exec (.frameStart 14) s)).lc.view = .reading ∧ (after (exec (.frameStart 13) s)).lc.idle = 10 ∧
      (after (exec (.startBitRead 2) s)).lc.view = .none) := by decide +kernel

/-- R105: a wrap tick taken before the win that comes with it leaves the old number with the lag after the wrap; without
the win the wrap's own EPOCH takes the place of the contending one. -/
theorem test_win_with_wrap :
    let s := withQueue [asMsg (.epoch 3 0 7) .contending 0] { lastTick with et := { lastTick.et with own := .queued 3 } }
    (after (exec (.tick [.win]) s)).lc.queue.map (fun m => (m.payload, m.cond)) =
      [(.epoch 3 0 7, .inTransmission), (.present 7 4 4, .queued)] ∧
    (after (exec (.tick []) s)).lc.queue.map (fun m => (m.payload, m.cond)) =
      [(.epoch 4 0 7, .queued), (.present 7 4 4, .queued)] := by decide +kernel

/-- R5, R6: an alert that redrives the line in the tick in which the own pulse ends begins a new assertion. -/
theorem test_redrive :
    let s : State := { member with
      cc := { member.cc with driver := .driving 1, stuck := 3, lineEntry := .claimed }
      acq := { member.acq with assembly := some ⟨4, 3, [60, 60], false, false, false, 2⟩ } }
    let t := after (exec (.tick [.ccTick, .acquisition]) s)
    t.cc.driver = .driving 4 ∧ t.cc.stuck = 0 ∧ t.cc.lineEntry = .empty ∧ t.cc.edgePending = true := by decide +kernel

theorem witness_EpochAdopted :
    Carries (wireOf 2 (.epoch 4 0 7)) (.epoch 4 0 (reading (at_ .member)).mu.digest) ∧
    (4 : Word32) = (at_ .member).et.epoch + 1 ∧
    (let s := withMarks [{ aMark with slot := some 1, starts := 0 }] (holding (aRecord .opened) (reading (at_ .member)));
      s.ReadsAsReceiver ∧ s.mu.station = .member ∧ (s.cc.marks.map Mark.id).Nodup ∧
      s.recordAt 1 = some (aRecord .opened) ∧ (aRecord .opened).isOpen = true ∧ (aRecord .opened).framesDone = false ∧
      ∀ e ∈ s.cc.marks, e.slot = some 1 → e.starts = 0) ∧
    (reading (at_ .member)).ReadsAsReceiver ∧ (reading (at_ .listen)).ReadsAsReceiver ∧
    Carries (wireOf 2 (.epoch 9 0 7)) (.epoch 9 0 (reading (at_ .member)).mu.digest) ∧ (2 : Station).toNat < 24 ∧
    (2 : Station) ≠ (at_ .member).mu.number ∧ (9 : Word32) ≠ 0 ∧ (9 : Word32) ≠ (at_ .member).et.epoch :=
  ⟨carries _ _, by decide, ⟨(reads_with _ _).1, by decide +kernel⟩, reads _ (by simp), reads _ (by simp), carries _ _,
    by decide +kernel⟩

/-- What the clauses of an epoch start by adoption ask for: an entry that is due, a record whose window is open, an expired
peer beside the sender, and a stamp of the epoch before that the slip's own epoch start finds expired. -/
theorem witness_EpochAdopted_start :
    let s := withMarks [aMark] (holding (aRecord (.filling aCapture)) (reading (at_ .member)))
    let fresh : Peer := ⟨.present, some 3, some true, none, some 9⟩
    s.ReadsAsReceiver ∧ (s.cc.marks.map Mark.id).Nodup ∧ (∃ m ∈ s.cc.marks, m.starts ≠ 0 ∧ m.claim ≠ .inTransmission) ∧
    s.recordAt 1 = some (aRecord (.filling aCapture)) ∧ aCapture.answersClosed = false ∧
    (∀ m ∈ s.cc.marks, m.slot ≠ some 1) ∧ s.mu.spoken = false ∧ s.lc.mute = false ∧
    s.lc.queue.any Msg.ofMembership = false ∧ fresh.dueAt 9 = true ∧ fresh.dueAt 4 = false ∧
    (Peer.dueAt 9 { fresh with lastHeard := some 9 }) = false ∧ s.lc.obsCur = .empty :=
  ⟨(reads_with _ _).1, by decide +kernel⟩

/-- R110, R145, R149: a slip with the sender's entry stamped before and after the adoption. -/
theorem test_slip :
    let f := wireOf 2 (.epoch 9 0 7)
    let t := after (exec (.frameAccepted f true []) (reading (at_ .member)))
    let u := after (exec (.frameAccepted f false []) (reading (at_ .member)))
    t.hasCause .slip = true ∧ t.acq.slipPending = true ∧ t.peerAt 2 = ⟨.absent, some 3, some true, none, some 9⟩ ∧
    u.hasCause .slip = true ∧ u.peerAt 2 = ⟨.present, some 9, some true, none, some 9⟩ := by decide +kernel

/-- R143: the entry of the EPOCH's sender when the station becomes MEMBER by it. -/
theorem test_adopted_in_listen :
    let f := wireOf 2 (.epoch 9 0 7)
    (after (exec (.frameAccepted f true []) (reading (at_ .listen)))).peerAt 2 = ⟨.present, some 9, some true, none, some 9⟩ ∧
    (after (exec (.frameAccepted f false []) (reading (at_ .listen)))).mu.station = .member := by decide +kernel

/-- R117: the register over no bits, and over the bits of a CLAIM's header. -/
theorem test_crc_steps :
    ([] : List Bool).foldl crcStep 0xFFFF = 0xFFFF ∧ crcStep 0xFFFF false = 0xEFDF ∧ crcStep 0xFFFF true = 0xFFFE ∧
    bitsOf (1 : BitVec 3) = [false, false, true] := by decide

theorem witness_ClaimMatched :
    let s := withMarks [{ aMark with slot := some 1 }] (holding (aRecord .opened) (reading (at_ .member)))
    s.ReadsAsReceiver ∧ Carries (wireOf 2 (.claim ⟨3, 6⟩)) (.claim ⟨3, 6⟩) ∧
    (6 : Word).toNat < s.cfg.epochLen ∧ (s.peerAt 2).state = .absent ∧ (s.peerAt 2).digestMatches = none ∧
    (∀ i, s.keyAt i ≠ some ⟨2, ⟨3, 6⟩⟩) ∧ s.cc.marks = [] ++ { aMark with slot := some 1 } :: [] ∧
    |pointDelta s.cfg.epochLen ⟨3, 4⟩ ⟨3, 6⟩| ≤ 2 ∧ (s.cc.marks.map Mark.id).Nodup ∧
    ((3 : Word32) ≠ 0 ∧ pointDelta 256 ⟨1, 0⟩ ⟨0xFFFFFFFF, 255⟩ = 1) :=
  ⟨(reads_with _ _).1, carries _ _, by decide +kernel⟩

theorem witness_ClaimLateOrIgnored :
    let s := reading (at_ .member)
    let h := { s with hr := { s.hr with nextWrite := 1, frames := [⟨4, 3, [7, 8]⟩] } }
    s.ReadsAsReceiver ∧ Carries (wireOf 2 (.claim ⟨3, 4⟩)) (.claim ⟨3, 4⟩) ∧ (2 : Station) ≠ s.mu.number ∧
    (∀ i, h.recordAt i = none) ∧ h.cc.marks = [] ∧ searchRing ⟨3, 4⟩ h.hr.frames = some 0 ∧ h.chooseSlot = some 0 ∧
    searchRing ⟨3, 5⟩ h.hr.frames = none ∧ (at_ .leaving).mu.station ≠ .member :=
  ⟨reads .member (by simp), carries _ _, by decide +kernel⟩

theorem witness_FrozenCollected :
    let s := holding (aRecord (.filling aCapture)) (reading (at_ .member))
    s.ReadsAsReceiver ∧ Carries (wireOf 2 (.frozen ⟨2, ⟨3, 4⟩⟩ 1 1)) (.frozen ⟨2, ⟨3, 4⟩⟩ 1 1) ∧ KeysDistinct s ∧
    (2 : Station) ≠ s.mu.number ∧ (s.peerAt 2).state = .absent ∧ s.recordAt 1 = some (aRecord (.filling aCapture)) ∧
    aCapture.key = ⟨2, ⟨3, 4⟩⟩ ∧ aCapture.answersClosed = false ∧ (∀ e ∈ aCapture.participants, e.station ≠ 2) ∧
    5 ≤ (5 : Byte).toNat := by
  refine ⟨(reads_with [] _).2, carries _ _, ?_, by decide +kernel⟩
  intro i j k hi hj
  have only : ∀ n : Fin 4, n ≠ 1 → (holding (aRecord (.filling aCapture)) (reading (at_ .member))).keyAt n = none := by
    decide +kernel
  by_cases h1 : i = 1
  · by_cases h2 : j = 1
    · exact h1.trans h2.symm
    · rw [only j h2] at hj
      cases hj
  · rw [only i h1] at hi
    cases hi

theorem witness_PeerTableUpdated :
    (reading (at_ .listen)).ReadsAsReceiver ∧ Carries (wireOf 2 (.epoch 9 0 8)) (.epoch 9 0 8) ∧
    (8 : Word) ≠ (at_ .listen).mu.digest ∧ Carries (wireOf 5 .bye) .bye ∧ (5 : Station) = (at_ .member).mu.number ∧
    24 ≤ (24 : Station).toNat ∧ ((at_ .member).peerAt 2).state = .absent ∧
    Carries (wireOf 2 (.epoch 0 0 7)) (.epoch 0 0 (at_ .listen).mu.digest) :=
  ⟨reads _ (by simp), carries _ _, by decide +kernel, carries _ _, by decide +kernel, by decide +kernel, by decide +kernel,
    carries _ _⟩

theorem witness_SubmissionTable :
    member.mu.station = .member ∧ member.lc.mute = false ∧ (Payload.epoch 3 0 7).isEpoch = true ∧
    (let s := withQueue [asMsg (.hello 7 3 0) .queued 0] member;
      ∃ x ∈ s.lc.queue, x.payload.isHelloOrPresent = true ∧ x.cond ≠ .inTransmission) ∧
    (Payload.present 7 3 0).isHelloOrPresent = true ∧ (at_ .leaving).mu.station = .leaving := by decide +kernel

/-- The invariants hold at reset, and a step from it answers a next state. -/
theorem witness_invariants :
    (let s := withMarks [{ aMark with slot := some 1 }] (holding (aRecord .opened) member);
      MarksBounded s ∧ s.recordAt 1 = some (aRecord .opened) ∧ ∀ x ∈ s.cc.marks, x.slot = some 1) ∧
    MarksBounded State.reset ∧ QueueBounded State.reset ∧ MuteQueueEmpty State.reset ∧ SpeaksInTurn State.reset ∧
    DrivesAsAllowed State.reset ∧ SelfCheckInChecking State.reset ∧ OpeningOrder State.reset ∧ OwnEntryCleared State.reset ∧
    step State.reset = .next State.reset := by
  unfold MarksBounded QueueBounded MuteQueueEmpty SpeaksInTurn DrivesAsAllowed SelfCheckInChecking OpeningOrder
    OwnEntryCleared
  exact ⟨by decide +kernel, by decide, by decide, by decide, by decide, by decide, by decide, by decide +kernel,
    by decide +kernel, rfl⟩

/-- Every OPEN record has its entry, and every entry its OPEN record, in a state that holds one of each; and at reset. -/
theorem witness_openReferenced :
    OpenReferenced (withMarks [{ aMark with slot := some 1 }] (holding (aRecord .opened) member)) ∧
    OpenReferenced State.reset := by
  refine ⟨⟨?_, ?_⟩, ?_, ?_⟩
  · intro i r h _
    have only : ∀ n : Fin 4, n ≠ 1 → (holding (aRecord .opened) member).recordAt n = none := by decide +kernel
    by_cases h1 : i = 1
    · subst h1
      exact ⟨_, List.mem_singleton.2 rfl, rfl, fun x hx _ => List.mem_singleton.1 hx⟩
    · exact absurd (h.symm.trans (only i h1)) (by simp)
  · intro m hm i hi
    cases List.mem_singleton.1 hm
    cases hi
    exact ⟨aRecord .opened, by decide +kernel, rfl⟩
  · intro i r h
    have free : ∀ i, State.reset.recordAt i = none := by decide +kernel
    simp [free] at h
  · intro m hm
    exact absurd hm List.not_mem_nil

theorem witness_invariants_more :
    KeysDistinct State.reset ∧ FillingUnfinished State.reset ∧ ConfigInRange State.reset ∧ JoinedConfigured State.reset ∧
    RingBounded State.reset ∧ RingFormed State.reset ∧ CounterInEpoch State.reset ∧ MemberEpochPositive State.reset := by
  have free : ∀ i, State.reset.recordAt i = none := by decide +kernel
  have keyless : ∀ i, State.reset.keyAt i = none := by decide +kernel
  refine ⟨?_, ?_, ?_, ?_, ?_, ?_, ?_, ?_⟩
  · intro i j k h; simp [keyless] at h
  · intro i r h; simp [free] at h
  · intro c h; cases h
  · intro h; exact absurd h (by decide)
  · refine ⟨fun h => absurd h (by decide), ?_, by decide⟩
    intro g h; cases h
  · refine ⟨fun _ => rfl, ?_, fun h => absurd h (by decide)⟩
    intro g h; cases h
  · intro h; exact absurd h (by decide)
  · intro h; exact absurd h (by decide)

end Sys2Proof.Test
end

