-- ==== Sys2Proof/Proofs/Slots.lean ====
section
/-! SUPPORT. What one record and one slot go through: completion, the answer window, the copying of a frame, leaving; and
how far a record that goes on is still the same capture. -/

namespace Sys2Proof.Machine

/-! ## One record -/

/-- R37 on one record: not FILLING with its frames done and its answers closed. -/
def CapRecord.Unfinished (r : CapRecord) : Prop :=
  r.isFilling = true → ¬(r.framesDone = true ∧ r.answersClosed = true)

/-- `r'` is the record `r` further on: OPEN exactly when `r` is, of the same capture key, and no more finished while it is
FILLING. -/
structure CapRecord.Follows (r r' : CapRecord) : Prop where
  opened     : r'.phase = .opened ↔ r.phase = .opened
  key        : r'.capture.map Capture.key = r.capture.map Capture.key
  unfinished : r.Unfinished → r'.Unfinished

theorem CapRecord.Follows.refl (r : CapRecord) : r.Follows r := ⟨Iff.rfl, rfl, id⟩

theorem CapRecord.Follows.trans {a b c : CapRecord} (h : a.Follows b) (k : b.Follows c) : a.Follows c :=
  ⟨k.opened.trans h.opened, k.key.trans h.key, k.unfinished ∘ h.unfinished⟩

/-- A change of other fields than the phase and frames-done. -/
theorem CapRecord.Follows.of_phase {r r' : CapRecord} (hp : r'.phase = r.phase) (hd : r'.framesDone = r.framesDone) :
    r.Follows r' := by
  refine ⟨by rw [hp], by simp only [CapRecord.capture, hp], ?_⟩
  simp only [CapRecord.Unfinished, CapRecord.isFilling, CapRecord.answersClosed, CapRecord.capture, hp, hd, imp_self]

/-- A FILLING record that stays FILLING under its key, its answers no more closed and its frames no more done. -/
theorem CapRecord.Follows.of_filling {r r' : CapRecord} {c c' : Capture} (h : r.phase = .filling c)
    (h' : r'.phase = .filling c') (hk : c'.key = c.key) (hd : r'.framesDone = r.framesDone)
    (hc : c'.answersClosed = c.answersClosed) : r.Follows r' := by
  refine ⟨by simp [h, h'], by simp [CapRecord.capture, h, h', hk], ?_⟩
  simp [CapRecord.Unfinished, CapRecord.isFilling, CapRecord.answersClosed, CapRecord.capture, h, h', hd, hc]

/-- The record after its completion is looked for (R37). -/
def CapRecord.completed (r : CapRecord) : CapRecord :=
  match r.phase with
  | .filling c => if r.framesDone && c.answersClosed then { r with phase := .complete c } else r
  | .opened => r
  | .complete _ => r

theorem CapRecord.completed_of_filling {r : CapRecord} {c : Capture} (h : r.phase = .filling c) :
    r.completed = if r.framesDone && c.answersClosed then { r with phase := .complete c } else r := by
  simp only [CapRecord.completed, h]

theorem CapRecord.completed_of_not_filling {r : CapRecord} (h : r.isFilling = false) : r.completed = r := by
  unfold CapRecord.completed
  split
  · rename_i c hc
    simp [CapRecord.isFilling, hc] at h
  · rfl
  · rfl

theorem CapRecord.completed_unfinished (r : CapRecord) : r.completed.Unfinished := by
  cases hp : r.phase with
  | filling c =>
    rw [CapRecord.completed_of_filling hp]
    split
    · simp [CapRecord.Unfinished, CapRecord.isFilling]
    · rename_i hd
      intro _
      simpa [CapRecord.answersClosed, CapRecord.capture, hp] using hd
  | opened =>
    simp [CapRecord.completed_of_not_filling, CapRecord.Unfinished, CapRecord.isFilling, hp]
  | complete c =>
    simp [CapRecord.completed_of_not_filling, CapRecord.Unfinished, CapRecord.isFilling, hp]

theorem CapRecord.completed_opened (r : CapRecord) : r.completed.phase = .opened ↔ r.phase = .opened := by
  cases hp : r.phase with
  | filling c =>
    rw [CapRecord.completed_of_filling hp]
    split <;> simp [hp]
  | opened => simp [CapRecord.completed_of_not_filling, CapRecord.isFilling, hp]
  | complete c => simp [CapRecord.completed_of_not_filling, CapRecord.isFilling, hp]

theorem CapRecord.completed_capture (r : CapRecord) : r.completed.capture = r.capture := by
  cases hp : r.phase with
  | filling c =>
    rw [CapRecord.completed_of_filling hp]
    split <;> simp [CapRecord.capture, hp]
  | opened => rw [CapRecord.completed_of_not_filling (by simp [CapRecord.isFilling, hp])]
  | complete c => rw [CapRecord.completed_of_not_filling (by simp [CapRecord.isFilling, hp])]

/-- Whatever happened to a record but for its phase and key, it goes on once its completion has been looked for. -/
theorem CapRecord.Follows.of_completed {r r' : CapRecord} (ho : r'.phase = .opened ↔ r.phase = .opened)
    (hk : r'.capture.map Capture.key = r.capture.map Capture.key) : r.Follows r'.completed :=
  ⟨r'.completed_opened.trans ho, by rw [r'.completed_capture, hk], fun _ => r'.completed_unfinished⟩

/-- The record after its window is closed, if it was open (R25, R37). -/
def CapRecord.windowClosed (r : CapRecord) : CapRecord :=
  match r.phase with
  | .filling c =>
    if c.answersClosed then r else CapRecord.completed { r with phase := .filling c.close }
  | .opened => r
  | .complete _ => r

theorem CapRecord.windowClosed_follows (r : CapRecord) : r.Follows r.windowClosed := by
  unfold CapRecord.windowClosed
  split
  · rename_i c hc
    split
    · exact .refl r
    · exact .of_completed (by simp [hc]) (by simp [CapRecord.capture, hc, Capture.close])
  · exact .refl r
  · exact .refl r

/-- The record at an epoch start: its window counts, or closes (R26). -/
def CapRecord.windowAtEpoch (r : CapRecord) : CapRecord :=
  match r.phase with
  | .filling c =>
    if c.answersClosed then r
    else if c.answerCount = 0 then { r with phase := .filling { c with answerCount := 1 } }
    else r.windowClosed
  | .opened => r
  | .complete _ => r

theorem CapRecord.windowAtEpoch_follows (r : CapRecord) : r.Follows r.windowAtEpoch := by
  unfold CapRecord.windowAtEpoch
  split
  · rename_i c hc
    split
    · exact .refl r
    · split
      · exact .of_filling hc rfl rfl rfl rfl
      · exact r.windowClosed_follows
  · exact .refl r
  · exact .refl r

/-- The record after its window is closed at once when it waits for no station any more (R27). -/
def CapRecord.answeredAll (r : CapRecord) : CapRecord :=
  match r.phase with
  | .filling c => if c.silent.isEmpty then r.windowClosed else r
  | .opened => r
  | .complete _ => r

theorem CapRecord.answeredAll_follows (r : CapRecord) : r.Follows r.answeredAll := by
  unfold CapRecord.answeredAll
  split
  · split
    · exact r.windowClosed_follows
    · exact .refl r
  · exact .refl r
  · exact .refl r

theorem CapRecord.take_follows (r : CapRecord) (f : Frame) : r.Follows (r.take f).completed :=
  .of_completed Iff.rfl rfl

theorem CapRecord.addAnswer_follows (r : CapRecord) (p : Participant) : r.Follows (r.addAnswer p) := by
  unfold CapRecord.addAnswer
  split
  · rename_i c hc
    exact .of_filling hc rfl rfl rfl rfl
  · exact .refl r
  · exact .refl r

theorem CapRecord.withdrawSpot_follows (r : CapRecord) : r.Follows r.withdrawSpot := by
  unfold CapRecord.withdrawSpot
  split
  · exact .of_phase rfl rfl
  · exact .refl r

theorem CapRecord.serve_follows (r : CapRecord) (seq : Word) (codes : List Code) : r.Follows (r.serve seq codes) := by
  unfold CapRecord.serve
  split
  · exact .of_phase rfl rfl
  · exact .refl r

theorem CapRecord.slipped_follows (r : CapRecord) : r.Follows r.slipped := by
  unfold CapRecord.slipped
  split
  · exact .of_phase rfl rfl
  · exact .refl r

theorem CapRecord.loseAnnounce_follows (r : CapRecord) : r.Follows r.loseAnnounce := .of_phase rfl rfl

theorem CapRecord.withdrawSpot_phase (r : CapRecord) : r.withdrawSpot.phase = r.phase := by
  unfold CapRecord.withdrawSpot
  split <;> rfl

theorem CapRecord.cut_phase (r : CapRecord) : r.cut.phase = r.phase := by
  rw [CapRecord.cut, CapRecord.withdrawSpot_phase]

/-- What leaving makes of a record that is not FREE (R51): an OPEN one is FREE, a FILLING one is closed CUT_SHORT. -/
def CapRecord.left (r : CapRecord) : Option CapRecord :=
  match r.phase with
  | .opened => none
  | .filling _ => some r.cut.windowClosed.completed
  | .complete _ => some r

/-- Leaving frees the OPEN records and no other; the others go on. -/
theorem CapRecord.left_cases (r : CapRecord) :
    (r.phase = .opened ∧ r.left = none) ∨ (r.phase ≠ .opened ∧ ∃ r', r.left = some r' ∧ r.Follows r') := by
  unfold CapRecord.left
  split
  · rename_i h
    exact .inl ⟨h, rfl⟩
  · rename_i c h
    refine .inr ⟨by simp [h], _, rfl, .of_completed ?_ ?_⟩
    · rw [r.cut.windowClosed_follows.opened, r.cut_phase]
    · rw [r.cut.windowClosed_follows.key]
      simp only [CapRecord.capture, r.cut_phase]
  · rename_i c h
    exact .inr ⟨by simp [h], _, rfl, .refl r⟩

/-! ## One slot -/

theorem State.recordAt_completeIfReady_map (i j : Fin 4) (s : State) :
    (s.completeIfReady i).recordAt j = if i = j then (s.recordAt i).map CapRecord.completed else s.recordAt j :=
  s.recordAt_completeIfReady i j

theorem State.recordAt_closeWindow (i j : Fin 4) (s : State) :
    (s.closeWindow i).recordAt j = if i = j then (s.recordAt i).map CapRecord.windowClosed else s.recordAt j := by
  unfold State.closeWindow
  split
  · rename_i h
    split <;> simp_all
  · rename_i r h
    split
    · rename_i c hc
      split
      · rename_i ha
        split <;> simp_all [CapRecord.windowClosed]
      · rename_i ha
        rw [State.recordAt_completeIfReady_map]
        split <;> simp_all [CapRecord.windowClosed]
    · split <;> simp_all [CapRecord.windowClosed]
    · split <;> simp_all [CapRecord.windowClosed]

theorem State.recordAt_closeIfAnswered (i j : Fin 4) (s : State) :
    (s.closeIfAnswered i).recordAt j = if i = j then (s.recordAt i).map CapRecord.answeredAll else s.recordAt j := by
  unfold State.closeIfAnswered
  split
  · rename_i h
    split <;> simp_all
  · rename_i r h
    split
    · split
      · rw [State.recordAt_closeWindow]
        split <;> simp_all [CapRecord.answeredAll]
      · split <;> simp_all [CapRecord.answeredAll]
    · split <;> simp_all [CapRecord.answeredAll]
    · split <;> simp_all [CapRecord.answeredAll]

theorem State.recordAt_windowEpoch (i j : Fin 4) (s : State) :
    (s.windowEpoch i).recordAt j = if i = j then (s.recordAt i).map CapRecord.windowAtEpoch else s.recordAt j := by
  unfold State.windowEpoch
  split
  · rename_i h
    split <;> simp_all
  · rename_i r h
    split
    · split
      · split <;> simp_all [CapRecord.windowAtEpoch]
      · split
        · split <;> simp_all [CapRecord.windowAtEpoch]
        · rw [State.recordAt_closeWindow]
          split <;> simp_all [CapRecord.windowAtEpoch]
    · split <;> simp_all [CapRecord.windowAtEpoch]
    · split <;> simp_all [CapRecord.windowAtEpoch]

theorem State.recordAt_copyInto (i j : Fin 4) (f : Frame) (s : State) :
    (s.copyInto i f).recordAt j =
      if i = j then (s.recordAt i).map (fun r => (r.take f).completed) else s.recordAt j := by
  rw [State.copyInto, State.recordAt_completeIfReady_map]
  split
  · rw [State.recordAt_modifyRecord, if_pos rfl, Option.map_map]
    rfl
  · rename_i h
    rw [State.recordAt_modifyRecord, if_neg h]

@[simp] theorem State.recordAt_withdrawPlace (i j : Fin 4) (s : State) :
    (s.withdrawPlace i).recordAt j = s.recordAt j := rfl

theorem State.recordAt_leaveRecord (i j : Fin 4) (s : State) :
    (s.leaveRecord i).recordAt j = if i = j then (s.recordAt i).bind CapRecord.left else s.recordAt j := by
  unfold State.leaveRecord
  split
  · rename_i h
    split <;> simp_all
  · rename_i r h
    split
    · rename_i hp
      split <;> simp_all [CapRecord.left]
    · rename_i c hp
      rw [State.recordAt_completeIfReady_map, State.recordAt_closeWindow, State.recordAt_closeWindow]
      split <;> simp_all [CapRecord.left]
    · rename_i c hp
      split <;> simp_all [CapRecord.left]

/-- A record's change leaves the rest of CC alone. -/
theorem State.modifyRecord_cc (i : Fin 4) (f : CapRecord → CapRecord) (s : State) :
    (s.modifyRecord i f).cc = { s.cc with records := (s.modifyRecord i f).cc.records } := by
  unfold State.modifyRecord
  split <;> rfl

/-- The capture that a record takes when it becomes FILLING: this station's own entry, its window open (R17, R20). -/
def State.newCapture (s : State) (key : Key) (outcome : OutcomeCode) (offset : Byte) (expected : BitVec 24) : Capture :=
  { key := key, outcome := outcome, expected := expected
    participants := [{ station := s.mu.number, outcome := outcome, offset := offset }]
    answersClosed := false, answerCount := 0 }

theorem State.fillRecord_eq (i : Fin 4) (key : Key) (outcome : OutcomeCode) (offset : Byte) (expected : BitVec 24)
    (s : State) : s.fillRecord i key outcome offset expected =
      s.modifyRecord i (fun r => { r with phase := .filling (s.newCapture key outcome offset expected) }) := rfl

/-! ## All slots in turn -/

/-- An operation taken on one slot after another, each time changing that slot's record by itself, changes every record
so. -/
theorem recordAt_foldl_slots (g : State → Fin 4 → State) (h : CapRecord → Option CapRecord)
    (hg : ∀ s i j, (g s i).recordAt j = if i = j then (s.recordAt i).bind h else s.recordAt j) (s : State) (j : Fin 4) :
    (slots.foldl g s).recordAt j = (s.recordAt j).bind h := by
  simp only [slots, List.foldl_cons, List.foldl_nil, hg]
  fin_cases j <;> simp

end Sys2Proof.Machine
end

