-- ==== Sys2Proof/Proofs/Calm.lean ====
section
/-! SUPPORT. The calm operations: those that leave the mark line, the station state and the list of captures as they are.
Most of what a command does is calm; the invariants are left with the few operations that are not. -/

namespace Sys2Proof.Machine

/-- Nothing but calm operations lies between the two states: the mark line, the opening order and Membership are the same,
the open-mark entries keep their identities and slots, every record goes on, LC is as MUTE and a self-check as far as it
was, and no attention cause is gone. -/
structure State.Calm (s t : State) : Prop where
  cc        : t.cc = { s.cc with marks := t.cc.marks, records := t.cc.records }
  marks     : t.cc.marks.map (fun m => (m.id, m.slot)) = s.cc.marks.map (fun m => (m.id, m.slot))
  records   : ∀ i, Option.Rel CapRecord.Follows (s.recordAt i) (t.recordAt i)
  mu        : t.mu = s.mu
  mute      : t.lc.mute = s.lc.mute
  selfCheck : t.acq.selfCheck = s.acq.selfCheck
  causes    : ∀ c, s.hasCause c = true → t.hasCause c = true

theorem optionRel_follows_refl (o : Option CapRecord) : Option.Rel CapRecord.Follows o o := by
  cases o with
  | none => exact .none
  | some r => exact .some (.refl r)

theorem optionRel_follows_trans {a b c : Option CapRecord} (h : Option.Rel CapRecord.Follows a b)
    (k : Option.Rel CapRecord.Follows b c) : Option.Rel CapRecord.Follows a c := by
  cases h with
  | none => exact k
  | some h =>
    cases k with
    | some k => exact .some (h.trans k)

theorem optionRel_follows_map {f : CapRecord → CapRecord} (o : Option CapRecord) (h : ∀ r, o = some r → r.Follows (f r)) :
    Option.Rel CapRecord.Follows o (o.map f) := by
  cases o with
  | none => exact .none
  | some r => exact .some (h r rfl)

namespace State.Calm

theorem trans {s t u : State} (h : s.Calm t) (k : t.Calm u) : s.Calm u where
  cc := by rw [k.cc, h.cc]
  marks := k.marks.trans h.marks
  records i := optionRel_follows_trans (h.records i) (k.records i)
  mu := k.mu.trans h.mu
  mute := k.mute.trans h.mute
  selfCheck := k.selfCheck.trans h.selfCheck
  causes c hc := k.causes c (h.causes c hc)

/-- An operation that leaves CC, MU and LP alone, LC's MUTE and AS's self-check too. -/
theorem of_frame {s t : State} (cc : t.cc = s.cc) (mu : t.mu = s.mu) (lp : t.lp = s.lp)
    (mute : t.lc.mute = s.lc.mute := by simp) (selfCheck : t.acq.selfCheck = s.acq.selfCheck := by simp) : s.Calm t where
  cc := by rw [cc]
  marks := by rw [cc]
  records i := by
    rw [State.recordAt_of_cc cc]
    exact optionRel_follows_refl _
  mu := mu
  mute := mute
  selfCheck := selfCheck
  causes c hc := by simpa only [State.hasCause, lp] using hc

theorem opening {s t : State} (h : s.Calm t) : t.cc.opening = s.cc.opening := by rw [h.cc]

theorem lineEntry {s t : State} (h : s.Calm t) : t.cc.lineEntry = s.cc.lineEntry := by rw [h.cc]

theorem nextMark {s t : State} (h : s.Calm t) : t.cc.nextMark = s.cc.nextMark := by rw [h.cc]

theorem refl (s : State) : s.Calm s := of_frame rfl rfl rfl rfl rfl

/-- Calm operations one after another. -/
theorem foldl {β : Type} {f : State → β → State} (h : ∀ (s : State) b, s.Calm (f s b)) (l : List β) (s : State) :
    s.Calm (l.foldl f s) :=
  foldl_keeps (fun t => s.Calm t) f l (fun t b ht => ht.trans (h t b)) (refl s)

theorem raise (c : Cause) (s : State) : s.Calm (s.raise c) where
  cc := rfl
  marks := rfl
  records i := by
    rw [State.recordAt_of_cc rfl]
    exact optionRel_follows_refl _
  mu := rfl
  mute := rfl
  selfCheck := rfl
  causes d hd := by
    simp only [State.hasCause] at hd
    simp [State.hasCause, State.raise, hd]

/-! ## Records -/

theorem setRecord {s : State} {i : Fin 4} {r r' : CapRecord} (hr : s.recordAt i = some r) (h : r.Follows r') :
    s.Calm (s.setRecord i (some r')) where
  cc := rfl
  marks := rfl
  records j := by
    rw [State.recordAt_setRecord]
    split
    · rename_i e
      subst e
      rw [hr]
      exact .some h
    · exact optionRel_follows_refl _
  mu := rfl
  mute := rfl
  selfCheck := rfl
  causes _ hc := hc

theorem modifyRecord (i : Fin 4) {f : CapRecord → CapRecord} (h : ∀ r : CapRecord, r.Follows (f r)) (s : State) :
    s.Calm (s.modifyRecord i f) := by
  unfold State.modifyRecord
  split
  · exact refl s
  · rename_i r hr
    exact setRecord hr (h r)

theorem mapRecords {f : CapRecord → CapRecord} (h : ∀ r : CapRecord, r.Follows (f r)) (s : State) : s.Calm (s.mapRecords f) where
  cc := rfl
  marks := rfl
  records j := by
    rw [State.recordAt_mapRecords]
    exact optionRel_follows_map _ fun r _ => h r
  mu := rfl
  mute := rfl
  selfCheck := rfl
  causes _ hc := hc

theorem completeIfReady (i : Fin 4) (s : State) : s.Calm (s.completeIfReady i) := by
  unfold State.completeIfReady
  split
  · exact refl s
  · rename_i r hr
    split
    · rename_i c hc
      split
      · refine (setRecord hr ⟨by simp [hc], by simp [CapRecord.capture, hc], fun _ => ?_⟩).trans (raise _ _)
        simp [CapRecord.Unfinished, CapRecord.isFilling]
      · exact refl s
    · exact refl s
    · exact refl s

/-- A record replaced and its completion looked for: only what comes of both has to go on from the record. -/
theorem setRecord_completeIfReady {s : State} {i : Fin 4} {r r' : CapRecord} (hr : s.recordAt i = some r)
    (h : r.Follows r'.completed) : s.Calm ((s.setRecord i (some r')).completeIfReady i) :=
  have done := completeIfReady i (s.setRecord i (some r'))
  { cc := done.cc
    marks := done.marks
    records := fun j => by
      rw [State.recordAt_completeIfReady_map, State.recordAt_setRecord, State.recordAt_setRecord]
      split
      · rename_i e
        subst e
        rw [hr, if_pos rfl]
        exact .some h
      · exact optionRel_follows_refl _
    mu := done.mu
    mute := done.mute
    selfCheck := done.selfCheck
    causes := done.causes }

theorem copyInto (i : Fin 4) (f : Frame) (s : State) : s.Calm (s.copyInto i f) := by
  unfold State.copyInto State.modifyRecord
  split
  · exact completeIfReady i s
  · rename_i r hr
    exact setRecord_completeIfReady hr (r.take_follows f)

theorem copyToAll (k : Word32) (f : Frame) (s : State) : s.Calm (s.copyToAll k f) :=
  foldl (fun t i => by split; exacts [copyInto i f t, refl t]) slots s

theorem closeWindow (i : Fin 4) (s : State) : s.Calm (s.closeWindow i) := by
  unfold State.closeWindow
  split
  · exact refl s
  · rename_i r hr
    split
    · rename_i c hc
      split
      · exact refl s
      · exact setRecord_completeIfReady hr (.of_completed (by simp [hc]) (by simp [CapRecord.capture, hc, Capture.close]))
    · exact refl s
    · exact refl s

theorem closeIfAnswered (i : Fin 4) (s : State) : s.Calm (s.closeIfAnswered i) := by
  unfold State.closeIfAnswered
  split
  · exact refl s
  · split
    · split
      · exact closeWindow i s
      · exact refl s
    · exact refl s
    · exact refl s

theorem windowEpoch (i : Fin 4) (s : State) : s.Calm (s.windowEpoch i) := by
  unfold State.windowEpoch
  split
  · exact refl s
  · rename_i r hr
    split
    · rename_i c hc
      split
      · exact refl s
      · split
        · exact setRecord hr (.of_filling hc rfl rfl rfl rfl)
        · exact closeWindow i s
    · exact refl s
    · exact refl s

theorem copyStep (i : Fin 4) (s : State) : s.Calm (s.copyStep i) := by
  unfold State.copyStep
  split
  · exact refl s
  · split
    · exact refl s
    · split
      · exact refl s
      · exact copyInto i _ s

theorem makeRoom (s : State) : s.Calm s.makeRoom := by
  unfold State.makeRoom
  split
  · exact refl s
  · split
    · exact copyToAll _ _ s
    · exact refl s

theorem storeFrame (f : Frame) (s : State) : s.Calm (s.storeFrame f) := of_frame rfl rfl rfl rfl rfl

theorem advanceRing (s : State) : s.Calm s.advanceRing := of_frame rfl rfl rfl rfl rfl

theorem writeFrame (f : Frame) (s : State) : s.Calm (s.writeFrame f) :=
  (((makeRoom s).trans (storeFrame f _)).trans (copyToAll _ f _)).trans (advanceRing _)

theorem slip (s : State) : s.Calm s.slip := by
  refine trans (trans ?_ (raise .slip _)) (mapRecords CapRecord.slipped_follows _)
  exact of_frame rfl rfl rfl rfl rfl

theorem frozenLost (key : Key) (s : State) : s.Calm (s.frozenLost key) :=
  mapRecords (fun r => by split; exacts [r.loseAnnounce_follows, .refl r]) s

theorem frozenAccepted (sender : Station) (key : Key) (offset outcome : Byte) (s : State) :
    s.Calm (s.frozenAccepted sender key offset outcome) := by
  unfold State.frozenAccepted
  split
  · exact refl s
  split
  · exact refl s
  split
  · exact refl s
  split
  · exact refl s
  split
  · exact (modifyRecord _ (fun r => r.addAnswer_follows _) s).trans (closeIfAnswered _ _)
  · exact refl s

/-! ## Open-mark entries and their CLAIMs -/

theorem modifyMark (id : Nat) {f : Mark → Mark} (h : ∀ m, (f m).id = m.id ∧ (f m).slot = m.slot) (s : State) :
    s.Calm (s.modifyMark id f) where
  cc := rfl
  marks := by
    simp only [State.modifyMark, List.map_map]
    refine List.map_congr_left fun m _ => ?_
    simp only [Function.comp_apply]
    split
    · simp only [h]
    · rfl
  records i := by
    rw [State.recordAt_of_records rfl]
    exact optionRel_follows_refl _
  mu := rfl
  mute := rfl
  selfCheck := rfl
  causes _ hc := hc

theorem submit {p : Payload} {mark : Option Nat} {s t : State} (h : s.submit p mark = some t) : s.Calm t := by
  obtain ⟨mu, _, cc, _, acq, _, lp, _⟩ := State.submit_frame h
  obtain ⟨_, _, q, _, rfl⟩ := State.submit_some h
  exact of_frame cc mu lp rfl rfl

theorem submitOrDrop (p : Payload) (s : State) : s.Calm (s.submitOrDrop p) := by
  unfold State.submitOrDrop
  cases h : s.submit p none with
  | none => exact refl s
  | some t => exact submit h

theorem withdrawMsg (sel : Msg → Bool) (s : State) : s.Calm (s.withdrawMsg sel) := of_frame rfl rfl rfl rfl rfl

theorem claimLost (id : Nat) (s : State) : s.Calm (s.claimLost id) := by
  unfold State.claimLost
  split
  · exact refl s
  · have lost := modifyMark id (f := fun m => { m with claim := .lost }) (fun _ => ⟨rfl, rfl⟩) s
    dsimp only
    split
    · exact lost
    · exact lost.trans (modifyRecord _ CapRecord.loseAnnounce_follows _)

theorem submitClaim (id : Nat) (s : State) : s.Calm (s.submitClaim id) := by
  unfold State.submitClaim
  split
  · exact refl s
  · split
    · exact claimLost id s
    · rename_i h
      refine (submit h).trans (modifyMark id ?_ _)
      exact fun _ => ⟨rfl, rfl⟩

theorem submitFrozen (key : Key) (offset : Byte) (outcome : OutcomeCode) (s : State) :
    s.Calm (s.submitFrozen key offset outcome) := by
  unfold State.submitFrozen
  split
  · exact frozenLost key s
  · rename_i h
    exact submit h

theorem coOriginate (s : State) : s.Calm s.coOriginate := by
  unfold State.coOriginate
  split
  · exact refl s
  · exact raise _ s
  · rename_i id _
    split
    · exact raise _ s
    · split
      · split
        · exact submitClaim id s
        · exact refl s
      · have own := modifyMark id (f := fun m => { m with originator := true }) (fun _ => ⟨rfl, rfl⟩) s
        dsimp only
        split
        · exact own.trans (submitClaim id _)
        · refine (own.trans (modifyRecord _ ?_ _)).trans (submitClaim id _)
          exact fun _ => .of_phase rfl rfl

/-! ## LC's notices and ET's submissions -/

theorem submitEpoch (n : Word32) (s : State) : s.Calm (s.submitEpoch n) := by
  unfold State.submitEpoch
  split
  · exact refl s
  · split
    · exact of_frame rfl rfl rfl rfl rfl
    · rename_i h
      exact (submit h).trans (of_frame rfl rfl rfl rfl rfl)

theorem noticeLoss (s : State) (m : Msg) : s.Calm (s.noticeLoss m) := by
  unfold State.noticeLoss
  split
  · exact of_frame rfl rfl rfl rfl rfl
  · split
    · exact refl s
    · exact claimLost _ s
  · exact frozenLost _ s
  · exact refl s
  · exact refl s
  · exact refl s

theorem noticeWin (s : State) (m : Msg) : s.Calm (s.noticeWin m) := by
  unfold State.noticeWin
  split
  · exact of_frame rfl rfl rfl rfl rfl
  · split
    · exact refl s
    · refine modifyMark _ ?_ s
      exact fun _ => ⟨rfl, rfl⟩
  · exact refl s
  · exact refl s
  · exact refl s
  · exact refl s

theorem winArbitration (s : State) : s.Calm s.winArbitration := by
  unfold State.winArbitration
  split
  · exact refl s
  · refine trans ?_ (noticeWin _ _)
    exact of_frame rfl rfl rfl rfl rfl

theorem winWith (order : List Part) (s : State) : s.Calm (s.winWith order) := by
  unfold State.winWith
  split
  · exact winArbitration s
  · exact refl s

/-! ## AS -/

theorem deliver (run : SpotRun) (codes : List Code) (s : State) (p : SpotPlace) : s.Calm (s.deliver run codes p) := by
  unfold State.deliver
  split
  · exact refl s
  · split
    · exact modifyRecord _ (fun r => r.serve_follows _ codes) s
    · refine trans ?_ (raise _ _)
      exact of_frame rfl rfl rfl rfl rfl

theorem endSpotRun (run : SpotRun) (codes : List Code) (s : State) : s.Calm (s.endSpotRun run codes) := by
  refine trans ?_ (foldl (deliver run codes) _ _)
  exact of_frame rfl rfl rfl rfl rfl

theorem endSpotConversion (code : Code) (s : State) : s.Calm (s.endSpotConversion code) := by
  unfold State.endSpotConversion
  split
  · dsimp only
    split
    · exact endSpotRun _ _ s
    · exact of_frame rfl rfl rfl rfl rfl
  · exact refl s

theorem startSweep (s : State) : s.Calm s.startSweep := by
  unfold State.startSweep
  split
  · exact of_frame rfl rfl rfl rfl rfl
  · exact refl s

theorem cutSweep (s : State) : s.Calm s.cutSweep := by
  unfold State.cutSweep
  split
  · exact of_frame rfl rfl rfl rfl rfl
  · exact refl s

theorem beginFrame (s : State) : s.Calm s.beginFrame := of_frame rfl rfl rfl rfl rfl

theorem endSweepConversion (code : Code) (s : State) : s.Calm (s.endSweepConversion code) := by
  unfold State.endSweepConversion
  split
  · split
    · exact refl s
    · refine trans ?_ (startSweep _)
      exact of_frame rfl rfl rfl rfl rfl
  · exact refl s

theorem beginSpotRun (s : State) : s.Calm s.beginSpotRun := by
  unfold State.beginSpotRun
  split
  · exact of_frame rfl rfl rfl rfl rfl
  · exact refl s

end State.Calm
end Sys2Proof.Machine
end

