-- ==== Sys2Proof/Proofs/Tables.lean ====
section
/-! SUPPORT. The capture tables: the open-mark list, the records and the opening order. Everything that a command does to
them is a chain of the nine steps below, and each invariant of the tables is kept by each of the nine. -/

namespace Sys2Proof.Machine

/-- The slot may be taken: it is FREE or holds a COMPLETE record. -/
def State.MayTake (s : State) (i : Fin 4) : Prop := ∀ r, s.recordAt i = some r → r.isComplete = true

/-- No record holds the key. -/
def State.KeyNew (s : State) (key : Key) : Prop := ∀ j, s.keyAt j ≠ some key

/-- One step at the capture tables. -/
inductive TablesStep (s t : State) : Prop
  /-- The entries keep identity and slot, the records go on. -/
  | calm
      (marks : t.cc.marks.map (fun m => (m.id, m.slot)) = s.cc.marks.map (fun m => (m.id, m.slot)))
      (next : t.cc.nextMark = s.cc.nextMark) (opening : t.cc.opening = s.cc.opening)
      (records : ∀ i, Option.Rel CapRecord.Follows (s.recordAt i) (t.recordAt i))
  /-- A mark event adds an entry (R9). -/
  | addEntry (m : Mark) (room : s.cc.marks.length < 6) (id : m.id = s.cc.nextMark) (slot : m.slot = none)
      (marks : t.cc.marks = s.cc.marks ++ [m]) (next : t.cc.nextMark = s.cc.nextMark + 1)
      (opening : t.cc.opening = s.cc.opening) (records : ∀ i, t.recordAt i = s.recordAt i)
  /-- An entry without a slot gets one, with a new OPEN record (R10, R11). -/
  | openFor (m : Mark) (i : Fin 4) (r : CapRecord) (mem : m ∈ s.cc.marks) (slot : m.slot = none) (free : s.MayTake i)
      (opened : r.phase = .opened)
      (marks : t.cc.marks = s.cc.marks.map (fun x => if x.id = m.id then { x with slot := some i } else x))
      (next : t.cc.nextMark = s.cc.nextMark) (opening : t.cc.opening = s.cc.opening.filter (· ≠ i) ++ [i])
      (record : t.recordAt i = some r) (others : ∀ j, j ≠ i → t.recordAt j = s.recordAt j)
  /-- An entry without a slot leaves the list. -/
  | dropEntry (m : Mark) (mem : m ∈ s.cc.marks) (slot : m.slot = none)
      (marks : t.cc.marks = s.cc.marks.filter (fun x => x.id ≠ m.id)) (next : t.cc.nextMark = s.cc.nextMark)
      (opening : t.cc.opening = s.cc.opening) (records : ∀ i, t.recordAt i = s.recordAt i)
  /-- An entry leaves the list, and the record of its slot is FREE (R23). -/
  | abandonEntry (m : Mark) (i : Fin 4) (mem : m ∈ s.cc.marks) (slot : m.slot = some i)
      (marks : t.cc.marks = s.cc.marks.filter (fun x => x.id ≠ m.id)) (next : t.cc.nextMark = s.cc.nextMark)
      (opening : t.cc.opening = s.cc.opening.filter (· ≠ i)) (record : t.recordAt i = none)
      (others : ∀ j, j ≠ i → t.recordAt j = s.recordAt j)
  /-- An entry leaves the list, and the record of its slot becomes FILLING under a new key (R17). -/
  | matchEntry (m : Mark) (i : Fin 4) (c : Capture) (mem : m ∈ s.cc.marks) (slot : m.slot = some i)
      (key : s.KeyNew c.key) (window : c.answersClosed = false)
      (marks : t.cc.marks = s.cc.marks.filter (fun x => x.id ≠ m.id)) (next : t.cc.nextMark = s.cc.nextMark)
      (opening : t.cc.opening = s.cc.opening)
      (record : t.recordAt i = (s.recordAt i).map (fun r => { r with phase := .filling c }))
      (others : ∀ j, j ≠ i → t.recordAt j = s.recordAt j)
  /-- A slot is taken by a record that is FILLING at once, under a new key (R20). -/
  | joinLate (i : Fin 4) (r : CapRecord) (c : Capture) (free : s.MayTake i) (filling : r.phase = .filling c)
      (key : s.KeyNew c.key) (window : c.answersClosed = false) (marks : t.cc.marks = s.cc.marks)
      (next : t.cc.nextMark = s.cc.nextMark) (opening : t.cc.opening = s.cc.opening.filter (· ≠ i) ++ [i])
      (record : t.recordAt i = some r) (others : ∀ j, j ≠ i → t.recordAt j = s.recordAt j)
  /-- A COMPLETE record is released (R47). -/
  | discard (i : Fin 4) (free : s.MayTake i) (marks : t.cc.marks = s.cc.marks) (next : t.cc.nextMark = s.cc.nextMark)
      (opening : t.cc.opening = s.cc.opening.filter (· ≠ i)) (record : t.recordAt i = none)
      (others : ∀ j, j ≠ i → t.recordAt j = s.recordAt j)
  /-- The list is emptied, and the OPEN records are FREE with it (R30, R31, R32). -/
  | clear (marks : t.cc.marks = [])
      (records : ∀ i, t.recordAt i = none ∨
        ∃ r r', s.recordAt i = some r ∧ t.recordAt i = some r' ∧ r.phase ≠ .opened ∧ r.Follows r')
      (sub : t.cc.opening.Sublist s.cc.opening)
      (kept : ∀ i, i ∈ s.cc.opening → (s.recordAt i).isSome = true → (i ∈ t.cc.opening ↔ (t.recordAt i).isSome = true))

/-- A chain of steps at the capture tables. -/
abbrev Tables : State → State → Prop := Relation.ReflTransGen TablesStep

/-- A property that every step at the capture tables keeps is kept by every chain of them. -/
theorem Tables.keeps {P : State → Prop} (h : ∀ s t, TablesStep s t → P s → P t) {s t : State} (ht : Tables s t)
    (hs : P s) : P t := by
  induction ht with
  | refl => exact hs
  | tail _ st ih => exact h _ _ st ih

/-! ## Two records of slots -/

theorem keyAt_eq {s t : State} {i : Fin 4} (h : t.recordAt i = s.recordAt i) : t.keyAt i = s.keyAt i := by
  rw [State.keyAt, h, State.keyAt]

theorem keyAt_some {s : State} {i : Fin 4} {r : CapRecord} (h : s.recordAt i = some r) :
    s.keyAt i = r.capture.map Capture.key := by
  rw [State.keyAt, h, Option.bind_some]

theorem keyAt_none {s : State} {i : Fin 4} (h : s.recordAt i = none) : s.keyAt i = none := by
  rw [State.keyAt, h, Option.bind_none, Option.map_none]

theorem keyAt_follows {s t : State} {i : Fin 4} (h : Option.Rel CapRecord.Follows (s.recordAt i) (t.recordAt i)) :
    t.keyAt i = s.keyAt i := by
  cases hs : s.recordAt i with
  | none =>
    rw [hs] at h
    cases ht : t.recordAt i with
    | none => rw [keyAt_none ht, keyAt_none hs]
    | some r => rw [ht] at h; cases h
  | some r =>
    rw [hs] at h
    cases ht : t.recordAt i with
    | none => rw [ht] at h; cases h
    | some r' =>
      rw [ht] at h
      cases h with
      | some h => rw [keyAt_some ht, keyAt_some hs, h.key]

theorem follows_some {s t : State} {i : Fin 4} {r' : CapRecord}
    (h : Option.Rel CapRecord.Follows (s.recordAt i) (t.recordAt i)) (ht : t.recordAt i = some r') :
    ∃ r, s.recordAt i = some r ∧ r.Follows r' := by
  rw [ht] at h
  cases hs : s.recordAt i with
  | none => rw [hs] at h; cases h
  | some r =>
    rw [hs] at h
    cases h with
    | some h => exact ⟨r, rfl, h⟩

theorem follows_of_some {s t : State} {i : Fin 4} {r : CapRecord}
    (h : Option.Rel CapRecord.Follows (s.recordAt i) (t.recordAt i)) (hs : s.recordAt i = some r) :
    ∃ r', t.recordAt i = some r' ∧ r.Follows r' := by
  rw [hs] at h
  cases ht : t.recordAt i with
  | none => rw [ht] at h; cases h
  | some r' =>
    rw [ht] at h
    cases h with
    | some h => exact ⟨r', rfl, h⟩

theorem follows_isSome {s t : State} {i : Fin 4} (h : Option.Rel CapRecord.Follows (s.recordAt i) (t.recordAt i)) :
    (t.recordAt i).isSome = (s.recordAt i).isSome := by
  generalize s.recordAt i = a at h
  generalize t.recordAt i = b at h
  cases h <;> rfl

/-- Entries with the identities and slots of others: each has its counterpart. -/
theorem exists_mark_of_map_eq {l l' : List Mark} (h : l'.map (fun m => (m.id, m.slot)) = l.map (fun m => (m.id, m.slot)))
    {m : Mark} (hm : m ∈ l') : ∃ x ∈ l, x.id = m.id ∧ x.slot = m.slot := by
  have hp : (m.id, m.slot) ∈ l.map (fun m => (m.id, m.slot)) := h ▸ List.mem_map_of_mem hm
  obtain ⟨x, hx, e⟩ := List.mem_map.1 hp
  simp only [Prod.mk.injEq] at e
  exact ⟨x, hx, e⟩

theorem map_id_of_map_eq {l l' : List Mark}
    (h : l'.map (fun m => (m.id, m.slot)) = l.map (fun m => (m.id, m.slot))) : l'.map Mark.id = l.map Mark.id := by
  have := congrArg (List.map Prod.fst) h
  simpa only [List.map_map, Function.comp_def] using this

/-- Distinct identities: two entries of one identity are the same entry. -/
theorem mark_eq_of_id {l : List Mark} (h : (l.map Mark.id).Nodup) {m x : Mark} (hm : m ∈ l) (hx : x ∈ l)
    (e : x.id = m.id) : x = m :=
  List.inj_on_of_nodup_map h hx hm e

/-! ## The invariants of the records (R15, R37, R39) -/

theorem TablesStep.keysDistinct {s t : State} (st : TablesStep s t) (h : KeysDistinct s) : KeysDistinct t := by
  /- A slot with a new key, every other slot as it was or FREE. -/
  have one : ∀ (i : Fin 4) (key : Key), s.KeyNew key → (∀ k, t.keyAt i = some k → k = key) →
      (∀ j, j ≠ i → t.keyAt j = s.keyAt j) → KeysDistinct t := by
    intro i key new own others a b k ha hb
    by_cases hai : a = i <;> by_cases hbi : b = i
    · rw [hai, hbi]
    · rw [hai] at ha
      rw [others b hbi] at hb
      exact absurd (own k ha ▸ hb) (new b)
    · rw [hbi] at hb
      rw [others a hai] at ha
      exact absurd (own k hb ▸ ha) (new a)
    · exact h a b k (others a hai ▸ ha) (others b hbi ▸ hb)
  /- Every key of the state after stands in the state before in the same slot. -/
  have less : (∀ i k, t.keyAt i = some k → s.keyAt i = some k) → KeysDistinct t :=
    fun hk a b k ha hb => h a b k (hk a k ha) (hk b k hb)
  have free : ∀ i, t.keyAt i = none → (∀ j, j ≠ i → t.recordAt j = s.recordAt j) → KeysDistinct t := by
    refine fun i hi others => less fun j k hk => ?_
    by_cases hj : j = i
    · rw [hj, hi] at hk
      cases hk
    · rwa [keyAt_eq (others j hj)] at hk
  cases st with
  | calm _ _ _ records => exact less fun i k hk => keyAt_follows (records i) ▸ hk
  | addEntry _ _ _ _ _ _ _ records => exact less fun i k hk => keyAt_eq (records i) ▸ hk
  | openFor m i r _ _ _ opened _ _ _ record others =>
    exact free i (by rw [keyAt_some record, CapRecord.capture, opened]; rfl) others
  | dropEntry _ _ _ _ _ _ records => exact less fun i k hk => keyAt_eq (records i) ▸ hk
  | abandonEntry _ i _ _ _ _ _ record others => exact free i (keyAt_none record) others
  | matchEntry _ i c _ _ key _ _ _ _ record others =>
    refine one i c.key key (fun k hk => ?_) fun j hj => keyAt_eq (others j hj)
    cases hr : s.recordAt i with
    | none =>
      rw [hr, Option.map_none] at record
      rw [keyAt_none record] at hk
      cases hk
    | some r =>
      rw [hr, Option.map_some] at record
      rw [keyAt_some record] at hk
      cases hk
      rfl
  | joinLate i r c _ filling key _ _ _ _ record others =>
    refine one i c.key key (fun k hk => ?_) fun j hj => keyAt_eq (others j hj)
    rw [keyAt_some record, CapRecord.capture, filling] at hk
    cases hk
    rfl
  | discard i _ _ _ _ record others => exact free i (keyAt_none record) others
  | clear _ records =>
    refine less fun i k hk => ?_
    rcases records i with hn | ⟨r, r', hs, ht, _, hf⟩
    · rw [keyAt_none hn] at hk
      cases hk
    · rwa [keyAt_some hs, ← hf.key, ← keyAt_some ht]

theorem fillingUnfinished_iff {s : State} : FillingUnfinished s ↔ ∀ i r, s.recordAt i = some r → r.Unfinished := Iff.rfl

theorem TablesStep.fillingUnfinished {s t : State} (st : TablesStep s t) (h : FillingUnfinished s) :
    FillingUnfinished t := by
  rw [fillingUnfinished_iff] at h ⊢
  /- One slot changes to a record that meets the invariant, every other slot is as it was. -/
  have one : ∀ i : Fin 4, (∀ r, t.recordAt i = some r → r.Unfinished) → (∀ j, j ≠ i → t.recordAt j = s.recordAt j) →
      ∀ j r, t.recordAt j = some r → r.Unfinished := by
    intro i own others j r hr
    by_cases hj : j = i
    · exact own r (hj ▸ hr)
    · exact h j r (others j hj ▸ hr)
  have open_ : ∀ (r : CapRecord) (c : Capture), r.phase = .filling c → c.answersClosed = false → r.Unfinished := by
    intro r c hp hc
    simp [CapRecord.Unfinished, CapRecord.answersClosed, CapRecord.capture, hp, hc]
  cases st with
  | calm _ _ _ records =>
    intro i r' hr'
    obtain ⟨r, hr, hf⟩ := follows_some (records i) hr'
    exact hf.unfinished (h i r hr)
  | addEntry _ _ _ _ _ _ _ records => exact fun i r hr => h i r (records i ▸ hr)
  | openFor m i r _ _ _ opened _ _ _ record others =>
    refine one i (fun r' hr' => ?_) others
    rw [record] at hr'
    cases hr'
    simp [CapRecord.Unfinished, CapRecord.isFilling, opened]
  | dropEntry _ _ _ _ _ _ records => exact fun i r hr => h i r (records i ▸ hr)
  | abandonEntry _ i _ _ _ _ _ record others => exact one i (fun r hr => by rw [record] at hr; cases hr) others
  | matchEntry _ i c _ _ _ window _ _ _ record others =>
    refine one i (fun r' hr' => ?_) others
    rw [record, Option.map_eq_some_iff] at hr'
    obtain ⟨r, _, rfl⟩ := hr'
    exact open_ _ c rfl window
  | joinLate i r c _ filling _ window _ _ _ record others =>
    refine one i (fun r' hr' => ?_) others
    rw [record] at hr'
    cases hr'
    exact open_ _ c filling window
  | discard i _ _ _ _ record others => exact one i (fun r hr => by rw [record] at hr; cases hr) others
  | clear _ records =>
    intro i r' hr'
    rcases records i with hn | ⟨r, r'', hs, ht, _, hf⟩
    · rw [hn] at hr'
      cases hr'
    · rw [ht] at hr'
      cases hr'
      exact hf.unfinished (h i r hs)

theorem TablesStep.openingOrder {s t : State} (st : TablesStep s t) (h : OpeningOrder s) : OpeningOrder t := by
  obtain ⟨nodup, mem⟩ := h
  have same : t.cc.opening = s.cc.opening → (∀ i, (t.recordAt i).isSome = (s.recordAt i).isSome) → OpeningOrder t :=
    fun ho hr => ⟨ho ▸ nodup, fun i => by rw [ho, hr, mem]⟩
  have taken : ∀ (i : Fin 4) (r : CapRecord), t.cc.opening = s.cc.opening.filter (· ≠ i) ++ [i] → t.recordAt i = some r →
      (∀ j, j ≠ i → t.recordAt j = s.recordAt j) → OpeningOrder t := by
    intro i r ho hi others
    refine ⟨?_, fun j => ?_⟩
    · rw [ho, List.nodup_append]
      exact ⟨nodup.filter _, List.nodup_singleton i, by simp⟩
    · by_cases hj : j = i
      · simp [ho, hj, hi]
      · simp [ho, hj, others j hj, mem]
  have freed : ∀ i : Fin 4, t.cc.opening = s.cc.opening.filter (· ≠ i) → t.recordAt i = none →
      (∀ j, j ≠ i → t.recordAt j = s.recordAt j) → OpeningOrder t := by
    intro i ho hi others
    refine ⟨ho ▸ nodup.filter _, fun j => ?_⟩
    by_cases hj : j = i
    · simp [ho, hj, hi]
    · simp [ho, hj, others j hj, mem]
  cases st with
  | calm _ _ opening records => exact same opening fun i => follows_isSome (records i)
  | addEntry _ _ _ _ _ _ opening records => exact same opening fun i => by rw [records]
  | openFor m i r _ _ _ _ _ _ opening record others => exact taken i r opening record others
  | dropEntry _ _ _ _ _ opening records => exact same opening fun i => by rw [records]
  | abandonEntry _ i _ _ _ _ opening record others => exact freed i opening record others
  | matchEntry _ i c _ _ _ _ _ _ opening record others =>
    refine same opening fun j => ?_
    by_cases hj : j = i
    · rw [hj, record, Option.isSome_map]
    · rw [others j hj]
  | joinLate i r _ _ _ _ _ _ _ opening record others => exact taken i r opening record others
  | discard i _ _ _ opening record others => exact freed i opening record others
  | clear _ records sub kept =>
    refine ⟨nodup.sublist sub, fun i => ⟨fun hi => ?_, fun hi => ?_⟩⟩
    · have hs := sub.subset hi
      exact (kept i hs ((mem i).1 hs)).1 hi
    · rcases records i with hn | ⟨r, r', hs, ht, _⟩
      · rw [hn] at hi
        cases hi
      · have hr : (s.recordAt i).isSome = true := by rw [hs]; rfl
        exact (kept i ((mem i).2 hr) hr).2 hi

/-! ## The invariants of the open-mark list (R7) -/

theorem TablesStep.marksBounded {s t : State} (st : TablesStep s t) (h : MarksBounded s) : MarksBounded t := by
  obtain ⟨len, nodup, given⟩ := h
  have same : t.cc.marks.map Mark.id = s.cc.marks.map Mark.id → t.cc.nextMark = s.cc.nextMark → MarksBounded t := by
    intro hm hn
    refine ⟨?_, hm ▸ nodup, fun m hm' => ?_⟩
    · simpa using (congrArg List.length hm).trans_le (by simpa using len)
    · have hid : m.id ∈ s.cc.marks.map Mark.id := hm ▸ List.mem_map_of_mem hm'
      obtain ⟨x, hx, e⟩ := List.mem_map.1 hid
      rw [hn, ← e]
      exact given x hx
  have fewer : ∀ p : Mark → Bool, t.cc.marks = s.cc.marks.filter p → t.cc.nextMark = s.cc.nextMark → MarksBounded t := by
    intro p hm hn
    refine ⟨?_, ?_, fun m hm' => ?_⟩
    · rw [hm]
      exact (List.length_filter_le _ _).trans len
    · rw [hm]
      exact nodup.sublist (List.filter_sublist.map _)
    · rw [hm] at hm'
      rw [hn]
      exact given m (List.mem_filter.1 hm').1
  cases st with
  | calm marks next => exact same (map_id_of_map_eq marks) next
  | addEntry m room id _ marks next =>
    refine ⟨by rw [marks, List.length_append]; exact room, ?_, fun x hx => ?_⟩
    · rw [marks, List.map_append, List.nodup_append]
      refine ⟨nodup, List.nodup_singleton _, fun a ha b hb => ?_⟩
      obtain ⟨x, hx, rfl⟩ := List.mem_map.1 ha
      rw [List.map_singleton, List.mem_singleton] at hb
      have := given x hx
      omega
    · rw [marks, List.mem_append, List.mem_singleton] at hx
      rcases hx with hx | rfl
      · have := given x hx
        omega
      · omega
  | openFor m i r _ _ _ _ marks next =>
    refine same ?_ next
    rw [marks, List.map_map]
    refine List.map_congr_left fun x _ => ?_
    simp only [Function.comp_apply]
    split <;> rfl
  | dropEntry m _ _ marks next => exact fewer _ marks next
  | abandonEntry m _ _ _ marks next => exact fewer _ marks next
  | matchEntry m _ _ _ _ _ _ marks next => exact fewer _ marks next
  | joinLate _ _ _ _ _ _ _ marks next => exact same (by rw [marks]) next
  | discard _ _ marks next => exact same (by rw [marks]) next
  | clear marks => exact ⟨by simp [marks], by simp [marks], by simp [marks]⟩

/-- The record in the slot is OPEN. -/
def State.OpenAt (s : State) (i : Fin 4) : Prop := ∃ r, s.recordAt i = some r ∧ r.phase = .opened

theorem openAt_eq {s t : State} {i : Fin 4} (h : t.recordAt i = s.recordAt i) : t.OpenAt i ↔ s.OpenAt i := by
  rw [State.OpenAt, h, State.OpenAt]

theorem openAt_follows {s t : State} {i : Fin 4} (h : Option.Rel CapRecord.Follows (s.recordAt i) (t.recordAt i)) :
    t.OpenAt i ↔ s.OpenAt i := by
  constructor
  · rintro ⟨r', hr', ho⟩
    obtain ⟨r, hr, hf⟩ := follows_some h hr'
    exact ⟨r, hr, hf.opened.1 ho⟩
  · rintro ⟨r, hr, ho⟩
    obtain ⟨r', hr', hf⟩ := follows_of_some h hr
    exact ⟨r', hr', hf.opened.2 ho⟩

theorem not_openAt_of_mayTake {s : State} {i : Fin 4} (h : s.MayTake i) : ¬s.OpenAt i := by
  rintro ⟨r, hr, ho⟩
  have := h r hr
  simp [CapRecord.isComplete, ho] at this

/-- R7 over identities: every OPEN record is the slot of an entry, entries with one slot have one identity, and a slot that
an entry holds is that of an OPEN record. -/
theorem openReferenced_iff {s : State} (nodup : (s.cc.marks.map Mark.id).Nodup) : OpenReferenced s ↔
    (∀ i, s.OpenAt i → ∃ m ∈ s.cc.marks, m.slot = some i) ∧
    (∀ i, ∀ m ∈ s.cc.marks, ∀ x ∈ s.cc.marks, m.slot = some i → x.slot = some i → x.id = m.id) ∧
    ∀ m ∈ s.cc.marks, ∀ i, m.slot = some i → s.OpenAt i := by
  constructor
  · rintro ⟨h1, h2⟩
    refine ⟨?_, ?_, h2⟩
    · rintro i ⟨r, hr, ho⟩
      obtain ⟨m, hm, hs, _⟩ := h1 i r hr ho
      exact ⟨m, hm, hs⟩
    · intro i m hm x hx hms hxs
      obtain ⟨r, hr, ho⟩ := h2 m hm i hms
      obtain ⟨y, _, _, hy⟩ := h1 i r hr ho
      rw [hy m hm hms, hy x hx hxs]
  · rintro ⟨h1, h2, h3⟩
    refine ⟨fun i r hr ho => ?_, h3⟩
    obtain ⟨m, hm, hs⟩ := h1 i ⟨r, hr, ho⟩
    exact ⟨m, hm, hs, fun x hx hxs => mark_eq_of_id nodup hm hx (h2 i m hm x hx hs hxs)⟩

theorem TablesStep.openReferenced {s t : State} (st : TablesStep s t) (hb : MarksBounded s) (h : OpenReferenced s) :
    OpenReferenced t := by
  rw [openReferenced_iff (st.marksBounded hb).2.1]
  rw [openReferenced_iff hb.2.1] at h
  obtain ⟨ref, one, slotOpen⟩ := h
  obtain ⟨_, nodup, given⟩ := hb
  /- The entry `m` leaves, and the record of its slot is no longer OPEN. -/
  have leave : ∀ m : Mark, m ∈ s.cc.marks → t.cc.marks = s.cc.marks.filter (fun x => x.id ≠ m.id) →
      (∀ j, t.OpenAt j ↔ s.OpenAt j ∧ m.slot ≠ some j) →
      (∀ i, t.OpenAt i → ∃ m ∈ t.cc.marks, m.slot = some i) ∧
      (∀ i, ∀ m ∈ t.cc.marks, ∀ x ∈ t.cc.marks, m.slot = some i → x.slot = some i → x.id = m.id) ∧
      ∀ m ∈ t.cc.marks, ∀ i, m.slot = some i → t.OpenAt i := by
    intro m hm marks openAt
    have mem : ∀ x, x ∈ t.cc.marks ↔ x ∈ s.cc.marks ∧ x.id ≠ m.id := by simp [marks]
    refine ⟨fun i hi => ?_, fun i x hx y hy => ?_, fun x hx i hs => ?_⟩
    · obtain ⟨ho, hne⟩ := (openAt i).1 hi
      obtain ⟨x, hx, hs⟩ := ref i ho
      refine ⟨x, (mem x).2 ⟨hx, fun e => hne ?_⟩, hs⟩
      rwa [← mark_eq_of_id nodup hm hx e]
    · exact one i x ((mem x).1 hx).1 y ((mem y).1 hy).1
    · obtain ⟨hx, hne⟩ := (mem x).1 hx
      exact (openAt i).2 ⟨slotOpen x hx i hs, fun hm' => hne (one i m hm x hx hm' hs)⟩
  /- One slot changes, whose record is OPEN neither before nor after. -/
  have unreferenced : ∀ i, t.cc.marks = s.cc.marks → ¬t.OpenAt i → ¬s.OpenAt i →
      (∀ j, j ≠ i → t.recordAt j = s.recordAt j) →
      (∀ i, t.OpenAt i → ∃ m ∈ t.cc.marks, m.slot = some i) ∧
      (∀ i, ∀ m ∈ t.cc.marks, ∀ x ∈ t.cc.marks, m.slot = some i → x.slot = some i → x.id = m.id) ∧
      ∀ m ∈ t.cc.marks, ∀ i, m.slot = some i → t.OpenAt i := by
    intro i marks ht hs others
    have openAt : ∀ j, t.OpenAt j ↔ s.OpenAt j := fun j =>
      if e : j = i then e ▸ iff_of_false ht hs else openAt_eq (others j e)
    simp only [marks, openAt]
    exact ⟨ref, one, slotOpen⟩
  cases st with
  | calm marks next opening records =>
    refine ⟨fun i hi => ?_, fun i m hm x hx hs hs' => ?_, fun m hm i hs => ?_⟩
    · obtain ⟨x, hx, hs⟩ := ref i ((openAt_follows (records i)).1 hi)
      obtain ⟨y, hy, _, e⟩ := exists_mark_of_map_eq marks.symm hx
      exact ⟨y, hy, e.trans hs⟩
    · obtain ⟨m', hm', em, es⟩ := exists_mark_of_map_eq marks hm
      obtain ⟨x', hx', ex, es'⟩ := exists_mark_of_map_eq marks hx
      rw [← em, ← ex]
      exact one i m' hm' x' hx' (es.trans hs) (es'.trans hs')
    · obtain ⟨m', hm', _, es⟩ := exists_mark_of_map_eq marks hm
      exact (openAt_follows (records i)).2 (slotOpen m' hm' i (es.trans hs))
  | addEntry m room id slot marks next opening records =>
    have mem : ∀ x i, x.slot = some i → (x ∈ t.cc.marks ↔ x ∈ s.cc.marks) := by
      intro x i hs
      rw [marks, List.mem_append, List.mem_singleton]
      refine ⟨fun hx => hx.resolve_right ?_, .inl⟩
      rintro rfl
      simp [slot] at hs
    refine ⟨fun i hi => ?_, fun i m hm x hx hs hs' => ?_, fun x hx i hs => ?_⟩
    · obtain ⟨x, hx, hs⟩ := ref i ((openAt_eq (records i)).1 hi)
      exact ⟨x, (mem x i hs).2 hx, hs⟩
    · exact one i m ((mem m i hs).1 hm) x ((mem x i hs').1 hx) hs hs'
    · exact (openAt_eq (records i)).2 (slotOpen x ((mem x i hs).1 hx) i hs)
  | openFor m i r mem slot free opened marks next opening record others =>
    have notOpen := not_openAt_of_mayTake free
    /- The entries after the step: `m` with its slot, and the others, none of which has that slot. -/
    have cases_ : ∀ x ∈ t.cc.marks, (x.id = m.id ∧ x.slot = some i) ∨ (x ∈ s.cc.marks ∧ x.slot ≠ some i) := by
      intro x hx
      rw [marks] at hx
      obtain ⟨y, hy, rfl⟩ := List.mem_map.1 hx
      split
      · rename_i e
        exact .inl ⟨e, rfl⟩
      · exact .inr ⟨hy, fun hs => notOpen (slotOpen y hy i hs)⟩
    refine ⟨fun j hj => ?_, fun j a ha b hb hs hs' => ?_, fun x hx j hs => ?_⟩
    · by_cases e : j = i
      · subst e
        refine ⟨{ m with slot := some j }, ?_, rfl⟩
        rw [marks]
        exact List.mem_map.2 ⟨m, mem, if_pos rfl⟩
      · obtain ⟨x, hx, hs⟩ := ref j ((openAt_eq (others j e)).1 hj)
        refine ⟨x, ?_, hs⟩
        rw [marks]
        refine List.mem_map.2 ⟨x, hx, if_neg fun hid => ?_⟩
        rw [mark_eq_of_id nodup mem hx hid, slot] at hs
        cases hs
    · rcases cases_ a ha with ⟨ia, sa⟩ | ⟨ha', sa⟩ <;> rcases cases_ b hb with ⟨ib, sb⟩ | ⟨hb', sb⟩
      · rw [ia, ib]
      · exact absurd (hs'.trans (hs.symm.trans sa)) sb
      · exact absurd (hs.trans (hs'.symm.trans sb)) sa
      · exact one j a ha' b hb' hs hs'
    · rcases cases_ x hx with ⟨_, sx⟩ | ⟨hx', sx⟩
      · rw [hs] at sx
        cases sx
        exact ⟨r, record, opened⟩
      · have e : j ≠ i := fun e => sx (e ▸ hs)
        exact (openAt_eq (others j e)).2 (slotOpen x hx' j hs)
  | dropEntry m mem slot marks next opening records =>
    exact leave m mem marks fun j => by simp [openAt_eq (records j), slot]
  | abandonEntry m i mem slot marks next opening record others =>
    refine leave m mem marks fun j => ?_
    by_cases e : j = i
    · subst e
      simp [State.OpenAt, record, slot]
    · simp [openAt_eq (others j e), slot, Ne.symm e]
  | matchEntry m i c mem slot key window marks next opening record others =>
    refine leave m mem marks fun j => ?_
    by_cases e : j = i
    · subst e
      simp [State.OpenAt, record, slot]
    · simp [openAt_eq (others j e), slot, Ne.symm e]
  | joinLate i r c free filling key window marks next opening record others =>
    have closed : ¬t.OpenAt i := by
      rintro ⟨r', hr', ho⟩
      rw [record] at hr'
      cases hr'
      simp [filling] at ho
    exact unreferenced i marks closed (not_openAt_of_mayTake free) others
  | discard i free marks next opening record others =>
    have closed : ¬t.OpenAt i := by
      rintro ⟨r', hr', _⟩
      rw [record] at hr'
      cases hr'
    exact unreferenced i marks closed (not_openAt_of_mayTake free) others
  | clear marks records =>
    simp only [marks, List.not_mem_nil, false_and, exists_false, imp_false, false_imp_iff, implies_true, and_true]
    rintro i ⟨r', hr', ho⟩
    rcases records i with hn | ⟨r, r'', _, ht, hne, hf⟩
    · rw [hn] at hr'
      cases hr'
    · rw [ht] at hr'
      cases hr'
      exact hne (hf.opened.1 ho)

end Sys2Proof.Machine
end

