-- ==== Sys2Proof/Proofs/Safe.lean ====
section
/-! SUPPORT. What a command can do, said once: a chain of steps at the capture tables, and a line driven only as R2 allows.
The walk goes over the operations in the order of the model's files. -/

namespace Sys2Proof.Machine

/-! ## A mark event in its parts (R9) -/

/-- The state with the entry of a mark event added, the line entry referring to it. -/
def State.withMark (point : Point) (s : State) : State :=
  { s with cc := { s.cc with
      marks := s.cc.marks ++ [s.newMark point], nextMark := s.cc.nextMark + 1, lineEntry := .entry s.cc.nextMark } }

/-- Slot opening for an entry that a mark event has added: its slot is noted in it, or the refusal is told. -/
def State.openFor (m : Mark) (s : State) : State :=
  match s.openSlot m.point s.hr.frames.length s.hr.nextWrite m.originator with
  | none => s.raise .captureRefused
  | some (i, t) => t.modifyMark m.id (fun x => { x with slot := some i })

theorem State.addMark_full {s : State} (h : 6 ≤ s.cc.marks.length) (point : Point) :
    s.addMark point = State.raise .captureRefused { s with cc := { s.cc with lineEntry := .empty } } := by
  rw [State.addMark, if_pos h]

theorem State.addMark_room {s : State} (h : s.cc.marks.length < 6) (point : Point) :
    s.addMark point =
      if s.driving then ((s.withMark point).openFor (s.newMark point)).submitClaim s.cc.nextMark
      else (s.withMark point).openFor (s.newMark point) := by
  rw [State.addMark, if_neg (by omega : ¬6 ≤ s.cc.marks.length)]
  rfl

/-! ## Operations beside the line -/

/-- The operation leaves the level of MARK_N, the pulse and the stuck count as they are, Membership, LC's MUTE and AS's
self-check too, and no attention cause is gone. -/
structure State.Aside (s t : State) : Prop where
  driver    : t.cc.driver = s.cc.driver
  others    : t.cc.othersDrive = s.cc.othersDrive
  edge      : t.cc.edgePending = s.cc.edgePending
  stuck     : t.cc.stuck = s.cc.stuck
  mu        : t.mu = s.mu
  mute      : t.lc.mute = s.lc.mute
  selfCheck : t.acq.selfCheck = s.acq.selfCheck
  causes    : ∀ c, s.hasCause c = true → t.hasCause c = true

theorem State.Calm.aside {s t : State} (h : s.Calm t) : s.Aside t where
  driver := by rw [h.cc]
  others := by rw [h.cc]
  edge := by rw [h.cc]
  stuck := by rw [h.cc]
  mu := h.mu
  mute := h.mute
  selfCheck := h.selfCheck
  causes := h.causes

namespace State.Aside

theorem refl (s : State) : s.Aside s := (Calm.refl s).aside

theorem trans {s t u : State} (h : s.Aside t) (k : t.Aside u) : s.Aside u where
  driver := k.driver.trans h.driver
  others := k.others.trans h.others
  edge := k.edge.trans h.edge
  stuck := k.stuck.trans h.stuck
  mu := k.mu.trans h.mu
  mute := k.mute.trans h.mute
  selfCheck := k.selfCheck.trans h.selfCheck
  causes c hc := k.causes c (h.causes c hc)

theorem foldl {β : Type} {f : State → β → State} (h : ∀ (s : State) b, s.Aside (f s b)) (l : List β) (s : State) :
    s.Aside (l.foldl f s) :=
  foldl_keeps (fun t => s.Aside t) f l (fun t b ht => ht.trans (h t b)) (refl s)

theorem dropMark (id : Nat) (s : State) : s.Aside (s.dropMark id) := ⟨rfl, rfl, rfl, rfl, rfl, rfl, rfl, fun _ h => h⟩

theorem freeRecord (i : Fin 4) (s : State) : s.Aside (s.freeRecord i) := ⟨rfl, rfl, rfl, rfl, rfl, rfl, rfl, fun _ h => h⟩

theorem setLine (d : LineEntry) (s : State) : s.Aside { s with cc := { s.cc with lineEntry := d } } :=
  ⟨rfl, rfl, rfl, rfl, rfl, rfl, rfl, fun _ h => h⟩

theorem retireLine (id : Nat) (d : LineEntry) (s : State) : s.Aside (s.retireLine id d) := by
  unfold State.retireLine
  split
  · exact setLine d s
  · exact refl s

theorem openSlot {point : Point} {h : Nat} {base : Word32} {o : Bool} {s t : State} {i : Fin 4}
    (hs : s.openSlot point h base o = some (i, t)) : s.Aside t := by
  unfold State.openSlot at hs
  split at hs
  · cases hs
  · cases hs
    unfold State.placeSpot
    split <;> exact ⟨rfl, rfl, rfl, rfl, rfl, rfl, rfl, fun _ h => h⟩

theorem fillRecord (i : Fin 4) (key : Key) (outcome : OutcomeCode) (offset : Byte) (expected : BitVec 24) (s : State) :
    s.Aside (s.fillRecord i key outcome offset expected) := by
  unfold State.fillRecord State.modifyRecord
  dsimp only
  split
  · exact refl s
  · exact ⟨rfl, rfl, rfl, rfl, rfl, rfl, rfl, fun _ h => h⟩

theorem openFor (m : Mark) (s : State) : s.Aside (s.openFor m) := by
  unfold State.openFor
  split
  · exact (Calm.raise _ s).aside
  · rename_i i t ho
    exact (openSlot ho).trans ⟨rfl, rfl, rfl, rfl, rfl, rfl, rfl, fun _ h => h⟩

theorem addMark (point : Point) (s : State) : s.Aside (s.addMark point) := by
  have added : s.Aside (s.withMark point) := ⟨rfl, rfl, rfl, rfl, rfl, rfl, rfl, fun _ h => h⟩
  have opened := added.trans (openFor (s.newMark point) _)
  by_cases room : s.cc.marks.length < 6
  · rw [State.addMark_room room]
    split
    · exact opened.trans (Calm.submitClaim _ _).aside
    · exact opened
  · rw [State.addMark_full (not_lt.1 room)]
    exact (setLine .empty s).trans (Calm.raise _ _).aside

theorem abandon (id : Nat) (s : State) : s.Aside (s.abandon id) := by
  unfold State.abandon
  split
  · exact refl s
  · have dropped := (dropMark id s).trans (Calm.withdrawMsg (claimOf id) _).aside
    have told : ∀ u : State, u.Aside ((u.retireLine id .empty).raise .captureAbandoned) :=
      fun u => (retireLine id .empty u).trans (Calm.raise _ _).aside
    dsimp only
    split
    · exact dropped.trans (told _)
    · exact (dropped.trans (freeRecord _ _)).trans (told _)

theorem fillAndAnswer (i : Fin 4) (key : Key) (outcome : OutcomeCode) (offset : Byte) (expected : BitVec 24) (s : State) :
    s.Aside (s.fillAndAnswer i key outcome offset expected) :=
  ((fillRecord i key outcome offset expected s).trans (Calm.submitFrozen key offset outcome _).aside).trans
    (Calm.closeIfAnswered i _).aside

theorem matchMark (m : Mark) (sender : Station) (p : Point) (s : State) : s.Aside (s.matchMark m sender p) := by
  have dropped := ((dropMark m.id s).trans (Calm.withdrawMsg (claimOf m.id) _).aside).trans (retireLine m.id .claimed _)
  unfold State.matchMark
  dsimp only
  split
  · exact dropped.trans (fillAndAnswer _ _ _ _ _ _)
  · exact dropped.trans (Calm.submitFrozen _ _ _ _).aside

theorem lateJoin (sender : Station) (p : Point) (s : State) : s.Aside (s.lateJoin sender p) := by
  unfold State.lateJoin
  dsimp only
  split
  · exact (Calm.submitFrozen _ _ _ s).aside
  · split
    · exact ((Calm.submitFrozen _ _ _ s).trans (Calm.raise _ _)).aside
    · rename_i ho
      exact (openSlot ho).trans (fillAndAnswer _ _ _ _ _ _)

theorem claimAccepted (sender : Station) (p : Point) (s : State) : s.Aside (s.claimAccepted sender p) := by
  unfold State.claimAccepted
  split
  · exact refl s
  split
  · exact refl s
  split
  · exact refl s
  split
  · exact refl s
  split
  · exact refl s
  split
  · exact matchMark _ _ _ s
  · split
    · exact refl s
    · exact lateJoin _ _ s

theorem settleClaim (mark : Option Nat) (s : State) : s.Aside (s.settleClaim mark) := by
  unfold State.settleClaim
  split
  · exact refl s
  · split
    · exact refl s
    · split
      · exact abandon _ s
      · exact ⟨rfl, rfl, rfl, rfl, rfl, rfl, rfl, fun _ h => h⟩

theorem markEpoch (s : State) (id : Nat) : s.Aside (s.markEpoch id) := by
  unfold State.markEpoch
  split
  · exact refl s
  split
  · exact refl s
  split
  · exact ⟨rfl, rfl, rfl, rfl, rfl, rfl, rfl, fun _ h => h⟩
  split
  · exact ⟨rfl, rfl, rfl, rfl, rfl, rfl, rfl, fun _ h => h⟩
  · exact abandon id s

theorem ccEpochStart (s : State) : s.Aside s.ccEpochStart := by
  unfold State.ccEpochStart
  exact (foldl markEpoch _ s).trans (foldl (fun t i => (Calm.windowEpoch i t).aside) slots _)

end State.Aside

/-! ## The tables -/

theorem State.Calm.tables {s t : State} (h : s.Calm t) : Tables s t :=
  .single (.calm h.marks (by rw [h.cc]) (by rw [h.cc]) h.records)

namespace Tables

/-- Only the line has changed at CC. -/
theorem of_line {s t : State} (marks : t.cc.marks = s.cc.marks) (next : t.cc.nextMark = s.cc.nextMark)
    (records : t.cc.records = s.cc.records) (opening : t.cc.opening = s.cc.opening) : Tables s t :=
  .single (.calm (by rw [marks]) next opening fun i => by
    rw [State.recordAt_of_records records]
    exact optionRel_follows_refl _)

theorem of_cc {s t : State} (h : t.cc = s.cc) : Tables s t := of_line (by rw [h]) (by rw [h]) (by rw [h]) (by rw [h])

theorem foldl {β : Type} {f : State → β → State} (h : ∀ s b, Tables s (f s b)) (l : List β) (s : State) :
    Tables s (l.foldl f s) :=
  foldl_keeps (fun t => Tables s t) f l (fun t b ht => ht.trans (h t b)) .refl

end Tables

theorem State.chooseSlot_mayTake {s : State} {i : Fin 4} (h : s.chooseSlot = some i) : s.MayTake i := by
  intro r hr
  unfold State.chooseSlot at h
  split at h
  · rename_i j hj
    cases h
    have := List.find?_some hj
    rw [hr] at this
    cases this
  · split at h
    · have := List.find?_some h
      rw [State.replaceable, hr] at this
      exact (Bool.and_eq_true_iff.1 this).1
    · cases h

theorem State.markOf_some {s : State} {id : Nat} {m : Mark} (h : s.markOf id = some m) : m ∈ s.cc.marks ∧ m.id = id :=
  ⟨List.mem_of_find?_eq_some h, by simpa using List.find?_some h⟩

theorem State.keyNew_of_not_keyHeld {s : State} {key : Key} (h : s.keyHeld key = false) : s.KeyNew key := by
  intro j hj
  have mem : j ∈ slots := by
    fin_cases j <;> decide
  have := List.any_eq_false.1 h j mem
  cases hr : s.recordAt j with
  | none =>
    rw [keyAt_none hr] at hj
    cases hj
  | some r =>
    rw [keyAt_some hr] at hj
    rw [hr] at this
    cases hc : r.capture with
    | none =>
      rw [hc] at hj
      cases hj
    | some c =>
      rw [hc, Option.map_some, Option.some.injEq] at hj
      simp [CapRecord.hasKey, hc, hj] at this

namespace Tables

theorem openFor {m : Mark} {s : State} (mem : m ∈ s.cc.marks) (slot : m.slot = none) : Tables s (s.openFor m) := by
  unfold State.openFor
  split
  · exact (State.Calm.raise _ s).tables
  · rename_i i t ho
    obtain ⟨choice, record, others, opening, _, marks, _, _, _, next⟩ := State.openSlot_some ho
    refine .single (.openFor m i _ mem slot (State.chooseSlot_mayTake choice) rfl ?_ next opening record others)
    simp only [State.modifyMark, marks]

theorem addMark (point : Point) (s : State) : Tables s (s.addMark point) := by
  by_cases room : s.cc.marks.length < 6
  · have added : Tables s (s.withMark point) :=
      .single (.addEntry (s.newMark point) room rfl rfl rfl rfl rfl fun _ => State.recordAt_of_records rfl _)
    have mem : s.newMark point ∈ (s.withMark point).cc.marks :=
      List.mem_append_right _ (List.mem_singleton_self _)
    have opened := added.trans (openFor mem rfl)
    rw [State.addMark_room room]
    split
    · exact opened.trans (State.Calm.submitClaim _ _).tables
    · exact opened
  · rw [State.addMark_full (not_lt.1 room)]
    exact of_line rfl rfl rfl rfl

theorem abandon (id : Nat) (s : State) : Tables s (s.abandon id) := by
  have told : ∀ u : State, Tables u ((u.retireLine id .empty).raise .captureAbandoned) := by
    intro u
    refine (of_line ?_ ?_ ?_ ?_ : Tables u (u.retireLine id .empty)).trans (State.Calm.raise _ _).tables
    all_goals
      unfold State.retireLine
      split <;> rfl
  unfold State.abandon
  split
  · exact .refl
  · rename_i m hm
    obtain ⟨mem, rfl⟩ := State.markOf_some hm
    dsimp only
    split
    · rename_i slot
      refine .trans (.single (.dropEntry m mem slot ?_ ?_ ?_ fun i => ?_)) (told _) <;> rfl
    · rename_i i slot
      refine .trans (.single (.abandonEntry m i mem slot ?_ ?_ ?_ ?_ fun j hj => ?_)) (told _)
      · rfl
      · rfl
      · rfl
      · rw [State.recordAt_freeRecord, if_pos rfl]
      · rw [State.recordAt_freeRecord, if_neg (Ne.symm hj)]
        rfl

theorem matchMark {m : Mark} {sender : Station} {p : Point} {s : State} (mem : m ∈ s.cc.marks)
    (new : s.KeyNew (claimKey sender p)) : Tables s (s.matchMark m sender p) := by
  /- The entry has left, and the line entry is CLAIMED where it referred to it. -/
  have left : ∀ u : State, u = ((s.dropMark m.id).withdrawMsg (claimOf m.id)).retireLine m.id .claimed →
      u.cc.marks = s.cc.marks.filter (fun x => x.id ≠ m.id) ∧ u.cc.nextMark = s.cc.nextMark ∧
        u.cc.opening = s.cc.opening ∧ ∀ j, u.recordAt j = s.recordAt j := by
    rintro _ rfl
    unfold State.retireLine
    split <;> exact ⟨rfl, rfl, rfl, fun _ => rfl⟩
  unfold State.matchMark
  dsimp only
  generalize ((s.dropMark m.id).withdrawMsg (claimOf m.id)).retireLine m.id .claimed = u at left ⊢
  obtain ⟨marks, next, opening, records⟩ := left u rfl
  split
  · rename_i i slot
    have filled : TablesStep s (u.fillRecord i (claimKey sender p) .ok
        (offsetByte (pointDelta s.cfg.epochLen m.point p)) (s.expectedSet sender)) := by
      rw [State.fillRecord_eq]
      refine .matchEntry m i (u.newCapture (claimKey sender p) .ok (offsetByte (pointDelta s.cfg.epochLen m.point p))
        (s.expectedSet sender)) mem slot new rfl ?_ ?_ ?_ ?_ fun j hj => ?_
      · rw [State.marks_modifyRecord, marks]
      · rw [State.modifyRecord_cc, next]
      · rw [State.modifyRecord_cc, opening]
      · rw [State.recordAt_modifyRecord, if_pos rfl, records]
      · rw [State.recordAt_modifyRecord, if_neg (Ne.symm hj), records]
    exact .trans (.single filled) ((State.Calm.submitFrozen _ _ _ _).trans (State.Calm.closeIfAnswered i _)).tables
  · rename_i slot
    exact .trans (.single (.dropEntry m mem slot marks next opening records)) (State.Calm.submitFrozen _ _ _ _).tables

theorem lateJoin {sender : Station} {p : Point} {s : State} (new : s.KeyNew (claimKey sender p)) :
    Tables s (s.lateJoin sender p) := by
  unfold State.lateJoin
  dsimp only
  split
  · exact (State.Calm.submitFrozen _ _ _ s).tables
  · split
    · exact ((State.Calm.submitFrozen _ _ _ s).trans (State.Calm.raise _ _)).tables
    · rename_i i t ho
      obtain ⟨choice, record, others, opening, _, marks, _, _, _, next⟩ := State.openSlot_some ho
      obtain ⟨r, record⟩ : ∃ r, t.recordAt i = some r := ⟨_, record⟩
      have joined : TablesStep s (t.fillRecord i (claimKey sender p) .late 0 (s.expectedSet sender)) := by
        rw [State.fillRecord_eq]
        refine .joinLate i { r with phase := .filling (t.newCapture (claimKey sender p) .late 0 (s.expectedSet sender)) }
          (t.newCapture (claimKey sender p) .late 0 (s.expectedSet sender)) (State.chooseSlot_mayTake choice) rfl new rfl
          ?_ ?_ ?_ ?_ fun j hj => ?_
        · rw [State.marks_modifyRecord, marks]
        · rw [State.modifyRecord_cc, next]
        · rw [State.modifyRecord_cc, opening]
        · rw [State.recordAt_modifyRecord, if_pos rfl, record, Option.map_some]
        · rw [State.recordAt_modifyRecord, if_neg (Ne.symm hj), others j hj]
      exact .trans (.single joined) ((State.Calm.submitFrozen _ _ _ _).trans (State.Calm.closeIfAnswered i _)).tables

theorem claimAccepted (sender : Station) (p : Point) (s : State) : Tables s (s.claimAccepted sender p) := by
  unfold State.claimAccepted
  split
  · exact .refl
  split
  · exact .refl
  split
  · exact .refl
  split
  · exact .refl
  split
  · exact .refl
  rename_i held
  have new := State.keyNew_of_not_keyHeld (Bool.eq_false_iff.2 held)
  split
  · rename_i m hm
    exact matchMark (List.mem_of_find?_eq_some hm) new
  · split
    · exact .refl
    · exact lateJoin new

theorem settleClaim (mark : Option Nat) (s : State) : Tables s (s.settleClaim mark) := by
  unfold State.settleClaim
  split
  · exact .refl
  split
  · exact .refl
  split
  · exact abandon _ s
  · refine (State.Calm.modifyMark _ ?_ s).tables
    exact fun _ => ⟨rfl, rfl⟩

theorem markEpoch (s : State) (id : Nat) : Tables s (s.markEpoch id) := by
  unfold State.markEpoch
  split
  · exact .refl
  split
  · exact .refl
  split
  · refine (State.Calm.modifyMark id ?_ s).tables
    exact fun _ => ⟨rfl, rfl⟩
  split
  · refine (State.Calm.modifyMark id ?_ s).tables
    exact fun _ => ⟨rfl, rfl⟩
  · exact abandon id s

theorem ccEpochStart (s : State) : Tables s s.ccEpochStart := by
  unfold State.ccEpochStart
  exact (foldl markEpoch _ s).trans (State.Calm.foldl (fun t i => State.Calm.windowEpoch i t) slots _).tables

theorem observeRelease (s : State) : Tables s s.observeRelease := by
  unfold State.observeRelease
  split
  · exact .refl
  · exact of_line rfl rfl rfl rfl

theorem releaseLine (s : State) : Tables s s.releaseLine := by
  unfold State.releaseLine
  split
  · refine .trans ?_ (observeRelease _)
    exact of_line rfl rfl rfl rfl
  · exact .refl

theorem alert (s : State) : Tables s s.alert := by
  unfold State.alert
  split
  · exact .refl
  split
  · exact (State.Calm.raise _ s).tables
  split
  · exact of_line rfl rfl rfl rfl
  split
  · exact .refl
  · exact (State.Calm.coOriginate s).tables

theorem alerts (n : Nat) (s : State) : Tables s (s.alerts n) := by
  induction n generalizing s with
  | zero => exact .refl
  | succ n ih => exact (alert s).trans (ih s.alert)

theorem ccTick (asserted : Bool) (driver : Driver) (s : State) : Tables s (s.ccTick asserted driver) := by
  have counted : Tables s (s.countStuck asserted) := by
    unfold State.countStuck
    dsimp only
    split
    · split <;> exact of_line rfl rfl rfl rfl
    · exact .refl
  refine counted.trans ?_
  unfold State.ccTick State.countPulse
  split
  · exact .refl
  · split
    · exact releaseLine _
    · exact of_line rfl rfl rfl rfl

/-! ## Leaving (R30, R51) -/

/-- CC's line and list at the end of membership, the records still to leave (R30). -/
def cleared (s : State) : State :=
  { s with cc := { s.cc with driver := .idle, edgePending := false, lineEntry := .empty, stuck := 0, marks := [] } }

theorem ccLeave_eq (s : State) : s.ccLeave = slots.foldl (fun t i => t.leaveRecord i) (cleared s) := rfl

/-- Leaving at one slot: an OPEN record is freed, and otherwise the list and the order stay. -/
theorem leaveRecord_cases (i : Fin 4) (s : State) :
    (s.leaveRecord i).cc.marks.map (fun m => (m.id, m.slot)) = s.cc.marks.map (fun m => (m.id, m.slot)) ∧
      (s.leaveRecord i).cc.nextMark = s.cc.nextMark ∧ (s.leaveRecord i).cc.driver = s.cc.driver ∧
      (s.leaveRecord i).acq.selfCheck = s.acq.selfCheck ∧
      ((s.OpenAt i ∧ (s.leaveRecord i).cc.opening = s.cc.opening.filter (· ≠ i)) ∨
        (¬s.OpenAt i ∧ (s.leaveRecord i).cc.opening = s.cc.opening)) := by
  unfold State.leaveRecord State.OpenAt
  split
  · rename_i hr
    exact ⟨rfl, rfl, rfl, rfl, .inr ⟨by simp [hr], rfl⟩⟩
  · rename_i r hr
    split
    · rename_i hp
      exact ⟨rfl, rfl, rfl, rfl, .inl ⟨⟨r, hr, hp⟩, rfl⟩⟩
    · rename_i c hp
      have closed := (State.Calm.closeWindow i ((s.withdrawPlace i).setRecord i (some r.cut))).trans
        (State.Calm.completeIfReady i _)
      exact ⟨closed.marks, closed.nextMark, by rw [closed.cc]; rfl, closed.selfCheck,
        .inr ⟨by simp [hr, hp], closed.opening⟩⟩
    · rename_i c hp
      exact ⟨rfl, rfl, rfl, rfl, .inr ⟨by simp [hr, hp], rfl⟩⟩

theorem mem_opening_leaveRecord (i j : Fin 4) (s : State) :
    j ∈ (s.leaveRecord i).cc.opening ↔ j ∈ s.cc.opening ∧ ¬(j = i ∧ s.OpenAt i) := by
  obtain ⟨_, _, _, _, ⟨ho, he⟩ | ⟨ho, he⟩⟩ := leaveRecord_cases i s <;> simp [he, ho]

theorem openAt_leaveRecord (i j : Fin 4) (s : State) : (s.leaveRecord i).OpenAt j ↔ j ≠ i ∧ s.OpenAt j := by
  by_cases e : i = j
  · subst e
    simp only [State.OpenAt, State.recordAt_leaveRecord, if_true, Option.bind_eq_some_iff, ne_eq, not_true_eq_false,
      false_and, iff_false]
    rintro ⟨r', ⟨r, hr, hl⟩, ho⟩
    rcases r.left_cases with ⟨_, hn⟩ | ⟨hne, r'', hs, hf⟩
    · rw [hn] at hl
      cases hl
    · rw [hs] at hl
      cases hl
      exact hne (hf.opened.1 ho)
  · have same : (s.leaveRecord i).recordAt j = s.recordAt j := by rw [State.recordAt_leaveRecord, if_neg e]
    simp [openAt_eq same, Ne.symm e]

theorem mem_opening_foldl_leaveRecord (l : List (Fin 4)) (s : State) (j : Fin 4) :
    j ∈ (l.foldl (fun t i => t.leaveRecord i) s).cc.opening ↔ j ∈ s.cc.opening ∧ ¬(j ∈ l ∧ s.OpenAt j) := by
  induction l generalizing s with
  | nil => simp
  | cons i l ih =>
    rw [List.foldl_cons, ih, mem_opening_leaveRecord, openAt_leaveRecord, List.mem_cons]
    by_cases e : j = i
    · subst e
      tauto
    · tauto

/-- What every leaving of a record does to the list and the line, over all of them. -/
theorem foldl_leaveRecord_frame (l : List (Fin 4)) (s : State) :
    (l.foldl (fun t i => t.leaveRecord i) s).cc.marks.map (fun m => (m.id, m.slot)) =
        s.cc.marks.map (fun m => (m.id, m.slot)) ∧
      (l.foldl (fun t i => t.leaveRecord i) s).cc.driver = s.cc.driver ∧
      (l.foldl (fun t i => t.leaveRecord i) s).acq.selfCheck = s.acq.selfCheck ∧
      (l.foldl (fun t i => t.leaveRecord i) s).cc.opening.Sublist s.cc.opening := by
  refine foldl_keeps (fun t : State => t.cc.marks.map (fun m => (m.id, m.slot)) =
      s.cc.marks.map (fun m => (m.id, m.slot)) ∧ t.cc.driver = s.cc.driver ∧ t.acq.selfCheck = s.acq.selfCheck ∧
      t.cc.opening.Sublist s.cc.opening) _ l (fun t i h => ?_) ⟨rfl, rfl, rfl, .refl _⟩
  obtain ⟨hm, hd, hs, ho⟩ := h
  obtain ⟨lm, _, ld, ls, lo⟩ := leaveRecord_cases i t
  refine ⟨lm.trans hm, ld.trans hd, ls.trans hs, ?_⟩
  obtain ⟨_, he⟩ | ⟨_, he⟩ := lo
  · rw [he]
    exact List.filter_sublist.trans ho
  · rwa [he]

theorem ccLeave_frame (s : State) :
    s.ccLeave.cc.marks = [] ∧ s.ccLeave.cc.driver = .idle ∧ s.ccLeave.acq.selfCheck = s.acq.selfCheck := by
  obtain ⟨hm, hd, hs, _⟩ := foldl_leaveRecord_frame slots (cleared s)
  rw [ccLeave_eq]
  exact ⟨List.map_eq_nil_iff.1 hm, hd, hs⟩

theorem recordAt_ccLeave (s : State) (i : Fin 4) : s.ccLeave.recordAt i = (s.recordAt i).bind CapRecord.left := by
  rw [ccLeave_eq]
  exact recordAt_foldl_slots _ _ (fun s i j => s.recordAt_leaveRecord i j) _ i

theorem mem_slots (i : Fin 4) : i ∈ slots := by
  fin_cases i <;> decide

theorem ccLeave (s : State) : Tables s s.ccLeave := by
  refine .single (.clear (ccLeave_frame s).1 (fun i => ?_) ?_ fun i mem some => ?_)
  · rw [recordAt_ccLeave]
    cases hr : s.recordAt i with
    | none => exact .inl rfl
    | some r =>
      rcases r.left_cases with ⟨_, hn⟩ | ⟨hne, r', hs, hf⟩
      · exact .inl hn
      · exact .inr ⟨r, r', rfl, hs, hne, hf⟩
  · rw [ccLeave_eq]
    exact (foldl_leaveRecord_frame slots (cleared s)).2.2.2
  · have same : (cleared s).OpenAt i ↔ s.OpenAt i := Iff.rfl
    have order : i ∈ s.ccLeave.cc.opening ↔ i ∈ s.cc.opening ∧ ¬(i ∈ slots ∧ s.OpenAt i) := by
      rw [ccLeave_eq, mem_opening_foldl_leaveRecord, same]
      rfl
    obtain ⟨r, hr⟩ := Option.isSome_iff_exists.1 some
    have open_ : s.OpenAt i ↔ r.phase = .opened := by simp [State.OpenAt, hr]
    rw [order, recordAt_ccLeave, open_, hr, Option.bind_some]
    rcases r.left_cases with ⟨ho, hn⟩ | ⟨hne, r', hs, _⟩
    · simp [ho, hn, mem_slots]
    · simpa [hne, hs] using mem

end Tables

end Sys2Proof.Machine
end

