-- ==== Sys2Proof/Proofs/Exec.lean ====
section
/-! SUPPORT. Every command is safe: at the capture tables it is a chain of the steps of TablesStep, and it keeps R2 and R81
together (the line driven only by a MEMBER that is not MUTE, a self-check only in CHECKING). -/

namespace Sys2Proof.Machine

/-- R2 and R81 together: each is needed for the other at a change of the station state. -/
def LineAllowed (s : State) : Prop := DrivesAsAllowed s ∧ SelfCheckInChecking s

/-- What is said of every command. -/
structure State.Safe (s t : State) : Prop where
  tables : Tables s t
  line   : LineAllowed s → LineAllowed t

theorem lineAllowed_of_eq {s t : State} (driver : t.cc.driver = s.cc.driver) (station : t.mu.station = s.mu.station)
    (mute : t.lc.mute = s.lc.mute) (selfCheck : t.acq.selfCheck = s.acq.selfCheck) (h : LineAllowed s) : LineAllowed t := by
  simpa only [LineAllowed, DrivesAsAllowed, SelfCheckInChecking, State.driving, State.isMember, State.isChecking, driver,
    station, mute, selfCheck] using h

/-- A line that is not driven is allowed; what is left is the self-check. -/
theorem lineAllowed_of_idle {t : State} (driver : t.cc.driver = .idle) (check : SelfCheckInChecking t) : LineAllowed t := by
  refine ⟨fun h => ?_, check⟩
  simp [State.driving, driver] at h

/-- Outside MEMBER the line is not driven. -/
theorem LineAllowed.driver_idle {s : State} (h : LineAllowed s) (hm : s.isMember = false) : s.cc.driver = .idle := by
  by_contra hd
  have := h.1 (by simpa [State.driving] using hd)
  rw [hm] at this
  cases this.1

/-- Outside CHECKING no self-check is in progress. -/
theorem LineAllowed.selfCheck_none {s : State} (h : LineAllowed s) (hc : s.isChecking = false) :
    s.acq.selfCheck = none := by
  by_contra hs
  have := h.2 (Option.isSome_iff_ne_none.2 hs)
  rw [hc] at this
  cases this

theorem selfCheckInChecking_of_none {t : State} (h : t.acq.selfCheck = none) : SelfCheckInChecking t := by
  simp [SelfCheckInChecking, h]

theorem selfCheckInChecking_of_eq {s t : State} (station : t.mu.station = s.mu.station)
    (selfCheck : t.acq.selfCheck = s.acq.selfCheck) (h : SelfCheckInChecking s) : SelfCheckInChecking t := by
  simpa only [SelfCheckInChecking, State.isChecking, station, selfCheck] using h

theorem not_isChecking_of_isMember {s : State} (h : s.isMember = true) : s.isChecking = false := by
  simp only [State.isMember, beq_iff_eq] at h
  simp [State.isChecking, h]

theorem not_isChecking_of_isListen {s : State} (h : s.isListen = true) : s.isChecking = false ∧ s.isMember = false := by
  simp only [State.isListen, beq_iff_eq] at h
  simp [State.isChecking, State.isMember, h]

theorem not_isChecking_of_isLeaving {s : State} (h : s.isLeaving = true) : s.isChecking = false ∧ s.isMember = false := by
  simp only [State.isLeaving, beq_iff_eq] at h
  simp [State.isChecking, State.isMember, h]

theorem State.releaseLine_driver (s : State) : s.releaseLine.cc.driver = .idle := by
  unfold State.releaseLine
  split
  · unfold State.observeRelease
    split <;> rfl
  · rename_i h
    simpa [State.driving] using h

namespace State.Safe

theorem trans {s t u : State} (h : s.Safe t) (k : t.Safe u) : s.Safe u := ⟨h.tables.trans k.tables, k.line ∘ h.line⟩

theorem refl (s : State) : s.Safe s := ⟨.refl, id⟩

theorem foldl {β : Type} {f : State → β → State} (h : ∀ (s : State) b, s.Safe (f s b)) (l : List β) (s : State) :
    s.Safe (l.foldl f s) :=
  foldl_keeps (fun t => s.Safe t) f l (fun t b ht => ht.trans (h t b)) (refl s)

theorem of_aside {s t : State} (tables : Tables s t) (h : s.Aside t) : s.Safe t :=
  ⟨tables, lineAllowed_of_eq h.driver (by rw [h.mu]) h.mute h.selfCheck⟩

theorem of_calm {s t : State} (h : s.Calm t) : s.Safe t := of_aside h.tables h.aside

/-- An operation that leaves CC alone, and Membership's station state, LC's MUTE and AS's self-check too. -/
theorem of_frame {s t : State} (cc : t.cc = s.cc) (station : t.mu.station = s.mu.station := by simp)
    (mute : t.lc.mute = s.lc.mute := by simp) (selfCheck : t.acq.selfCheck = s.acq.selfCheck := by simp) : s.Safe t :=
  ⟨.of_cc cc, lineAllowed_of_eq (by rw [cc]) station mute selfCheck⟩

/-! ## CC, HR, TM -/

theorem alert (s : State) : s.Safe s.alert := by
  refine ⟨Tables.alert s, ?_⟩
  unfold State.alert
  split
  · exact id
  rename_i member
  split
  · exact (of_calm (.raise _ s)).line
  rename_i mute
  split
  · rw [Bool.not_eq_true, Bool.not_eq_false'] at member
    exact fun h => ⟨fun _ => ⟨member, Bool.eq_false_iff.2 mute⟩, h.2⟩
  split
  · exact id
  · exact (of_calm (.coOriginate s)).line

theorem alerts (n : Nat) (s : State) : s.Safe (s.alerts n) := by
  induction n generalizing s with
  | zero => exact refl s
  | succ n ih => exact (alert s).trans (ih s.alert)

theorem handOn (f : Frame) (s : State) : s.Safe (s.handOn f) := by
  unfold State.handOn
  refine trans ?_ (alerts _ _)
  exact of_frame rfl rfl rfl rfl

theorem acquire (s : State) : s.Safe s.acquire := by
  have begun := ((State.Calm.cutSweep s).trans (.beginFrame _)).trans (.startSweep _)
  unfold State.acquire
  split
  · exact of_calm begun
  · exact (of_calm (begun.trans (.writeFrame _ _))).trans (handOn _ _)

theorem releaseLine (s : State) : s.Safe s.releaseLine := by
  refine ⟨Tables.releaseLine s, fun h => lineAllowed_of_idle s.releaseLine_driver ?_⟩
  exact selfCheckInChecking_of_eq (by simp) (by simp) h.2

theorem markRelease (s : State) : s.Safe s.markRelease := by
  refine ⟨Relation.ReflTransGen.trans ?_ (Tables.observeRelease _), fun h => ?_⟩
  · exact Tables.of_line rfl rfl rfl rfl
  refine lineAllowed_of_eq ?_ (by simp) (by simp) (by simp) h
  unfold State.markRelease State.observeRelease
  split <;> rfl

theorem addMark (point : Point) (s : State) : s.Safe (s.addMark point) := of_aside (Tables.addMark point s) (.addMark point s)

theorem takeMark (s : State) : s.Safe s.takeMark := by
  unfold State.takeMark
  split
  · exact of_aside (Tables.of_line rfl rfl rfl rfl) (.setLine _ s)
  · refine trans ?_ (addMark _ _)
    exact of_frame rfl rfl rfl rfl

theorem markEdge (s : State) : s.Safe s.markEdge := by
  have line : ∀ others edge, s.Safe { s with cc := { s.cc with othersDrive := others, edgePending := edge } } :=
    fun _ _ => ⟨Tables.of_line rfl rfl rfl rfl, lineAllowed_of_eq rfl rfl rfl rfl⟩
  unfold State.markEdge
  split
  · dsimp only
    split
    · exact (line _ _).trans (takeMark _)
    · exact line _ _
  · dsimp only
    split
    · exact (line _ _).trans (takeMark _)
    · exact line _ _

theorem ccEpochStart (s : State) : s.Safe s.ccEpochStart := of_aside (Tables.ccEpochStart s) (.ccEpochStart s)

/-! ## Membership -/

theorem toConfig {s : State} (h : s.isLeaving = true) : s.Safe s.toConfig :=
  ⟨Tables.of_cc (by simp), fun ha => lineAllowed_of_idle (by simpa using ha.driver_idle (not_isChecking_of_isLeaving h).2)
    (selfCheckInChecking_of_none (by simpa using ha.selfCheck_none (not_isChecking_of_isLeaving h).1))⟩

theorem enterMute (s : State) : s.Safe s.enterMute := by
  unfold State.enterMute
  have muted : Tables s { s with lc := { s.lc with mute := true, queue := [], obsCur := .spoiled, obsPrev := .spoiled } } :=
    .of_cc rfl
  have told := (State.Calm.foldl State.Calm.noticeLoss s.lc.queue
    { s with lc := { s.lc with mute := true, queue := [], obsCur := .spoiled, obsPrev := .spoiled } }).trans
    (.raise .linkMute _)
  dsimp only
  generalize (s.lc.queue.foldl State.noticeLoss
    { s with lc := { s.lc with mute := true, queue := [], obsCur := .spoiled, obsPrev := .spoiled } }).raise .linkMute = u
    at told ⊢
  have released : s.Safe u.releaseLine := by
    refine ⟨(muted.trans told.tables).trans (Tables.releaseLine u), fun h => lineAllowed_of_idle u.releaseLine_driver ?_⟩
    exact selfCheckInChecking_of_eq (by simp [told.mu]) (by simp [told.selfCheck]) h.2
  split
  · rename_i leaving
    exact released.trans (toConfig leaving)
  · exact released

theorem departMember_frame (s : State) : s.departMember.cc.driver = .idle ∧ s.departMember.mu.station = s.mu.station ∧
    s.departMember.acq.selfCheck = s.acq.selfCheck := by
  obtain ⟨_, hd, hs⟩ := Tables.ccLeave_frame s
  refine ⟨?_, ?_, ?_⟩
  · simpa [State.departMember] using hd
  · simp [State.departMember]
  · simpa [State.departMember, State.acqLeave, State.withdrawRecordPlaces] using hs

theorem departMember_tables (s : State) : Tables s s.departMember :=
  (Tables.ccLeave s).trans (Tables.of_cc (by simp [State.departMember]))

theorem enterFault (reason : FaultReason) (s : State) : s.Safe (s.enterFault reason) := by
  have departed : ∃ u : State, (if s.isMember then s.departMember else s) = u ∧ Tables s u ∧
      (LineAllowed s → u.cc.driver = .idle) := by
    refine ⟨_, rfl, ?_, ?_⟩
    · split
      · exact departMember_tables s
      · exact .refl
    · intro h
      split
      · exact (departMember_frame s).1
      · rename_i member
        exact h.driver_idle (by simpa using member)
  obtain ⟨u, hu, tables, idle⟩ := departed
  unfold State.enterFault
  dsimp only
  rw [hu]
  refine ⟨tables.trans (Tables.of_cc (by simp)), fun h => lineAllowed_of_idle ?_ (selfCheckInChecking_of_none ?_)⟩
  · simpa using idle h
  · simp [State.acqFault]

theorem leaveStation (s : State) (member : s.isMember = true) : s.Safe s.leaveStation := by
  obtain ⟨hd, hs, hc⟩ := departMember_frame s
  have left : ∀ t : State, t.cc = s.departMember.cc → t.acq = s.departMember.acq → s.Safe t := by
    refine fun t cc acq => ⟨(departMember_tables s).trans (Tables.of_cc cc), fun h => lineAllowed_of_idle (by rw [cc, hd]) ?_⟩
    exact selfCheckInChecking_of_none (by rw [acq, hc, h.selfCheck_none (not_isChecking_of_isMember member)])
  unfold State.leaveStation
  dsimp only
  split
  · exact left _ (by simp) (by simp)
  · exact left _ (by simp) (by simp)

theorem becomeMember {s : State} (listen : s.isListen = true) : s.Safe s.becomeMember := by
  obtain ⟨checking, member⟩ := not_isChecking_of_isListen listen
  refine ⟨Tables.of_line ?_ ?_ ?_ ?_, fun h => lineAllowed_of_idle ?_ (selfCheckInChecking_of_none ?_)⟩
  any_goals simp [State.becomeMember]
  · exact h.driver_idle member
  · exact h.selfCheck_none checking

theorem setPeer (n : Nat) (p : Peer) (s : State) : s.Safe (s.setPeer n p) := by
  unfold State.setPeer
  dsimp only
  split
  · exact of_frame rfl rfl rfl rfl
  · exact of_frame rfl rfl rfl rfl

theorem muTake (sender : Station) (m : Payload) (s : State) : s.Safe (s.muTake sender m) := by
  unfold State.muTake
  split
  · exact refl s
  split
  · split
    · exact refl s
    · exact enterFault _ s
  split
  · exact refl s
  dsimp only
  split
  · exact (setPeer _ _ s).trans (enterFault _ _)
  split
  · exact (setPeer _ _ s).trans (of_calm (.submitOrDrop _ _))
  · exact setPeer _ _ s

theorem expirePeers_station (s : State) : s.expirePeers.mu.station = s.mu.station := by
  unfold State.expirePeers
  dsimp only
  split <;> rfl

theorem muEpochStart (s : State) : s.Safe s.muEpochStart := by
  unfold State.muEpochStart
  split
  · exact refl s
  · have spoke : s.Safe (if s.mu.spoken then s else s.submitPresent) := by
      split
      · exact refl s
      · exact of_calm (.submitOrDrop _ s)
    dsimp only
    exact spoke.trans (of_frame (by simp) (by rw [expirePeers_station]) (by simp) (by simp))

/-! ## AS -/

theorem beginSelfCheck (s : State) : s.Safe s.beginSelfCheck := by
  unfold State.beginSelfCheck
  split
  · exact of_frame rfl rfl rfl rfl
  · exact refl s

theorem endSelfCheck {s : State} (checking : s.acq.selfCheck.isSome = true) (sum : Nat) : s.Safe (s.endSelfCheck sum) := by
  unfold State.endSelfCheck
  dsimp only
  split
  · refine ⟨Tables.of_cc (by simp), fun h => lineAllowed_of_idle ?_ (selfCheckInChecking_of_none (by simp))⟩
    have := h.2 checking
    have member : s.isMember = false := by
      simp only [State.isChecking, beq_iff_eq] at this
      simp [State.isMember, this]
    simpa using h.driver_idle member
  · refine trans ?_ (enterFault _ _)
    exact ⟨Tables.of_cc rfl, fun h => ⟨h.1, selfCheckInChecking_of_none rfl⟩⟩

theorem endSelfCheckConversion (code : Code) (s : State) : s.Safe (s.endSelfCheckConversion code) := by
  unfold State.endSelfCheckConversion
  split
  · rename_i hc
    dsimp only
    split
    · exact endSelfCheck (by simp [hc]) _
    · exact ⟨Tables.of_cc rfl, fun h => ⟨h.1, fun _ => h.2 (by simp [hc])⟩⟩
  · exact refl s

/-! ## ET and a tick -/

theorem lcEpochStart (s : State) : s.Safe s.lcEpochStart := by
  refine ⟨Tables.of_cc (by simp), fun h => ⟨fun hd => ?_, ?_⟩⟩
  · have drives : s.driving = true := by simpa [State.driving] using hd
    obtain ⟨member, mute⟩ := h.1 drives
    refine ⟨by simpa [State.isMember] using member, ?_⟩
    simp [State.lcEpochStart, mute]
  · exact selfCheckInChecking_of_eq (by simp) (by simp) h.2

theorem ccTick {before s : State} (h : LineAllowed before) (member : s.isMember = before.isMember)
    (mute : before.lc.mute = false → s.lc.mute = false) (hs : LineAllowed s) :
    LineAllowed (s.ccTick before.markAsserted before.cc.driver) := by
  have counted : LineAllowed (s.countStuck before.markAsserted) := by
    refine lineAllowed_of_eq ?_ (by simp) (by simp) (by simp) hs
    unfold State.countStuck
    dsimp only
    split
    · split <;> rfl
    · rfl
  unfold State.ccTick State.countPulse
  split
  · exact counted
  · rename_i n hn
    split
    · exact (releaseLine _).line counted
    · have drives : before.driving = true := by simp [State.driving, hn]
      obtain ⟨bm, bu⟩ := h.1 drives
      refine ⟨fun _ => ⟨?_, ?_⟩, counted.2⟩
      · simpa [State.isMember] using member.trans bm
      · simpa using mute bu

theorem tickPart (wrapped : Bool) (before s : State) (p : Part) (hp : p ≠ .ccTick) :
    s.Safe (State.tickPart wrapped before s p) := by
  unfold State.tickPart
  cases p with
  | ccTick => exact absurd rfl hp
  | acquisition => exact acquire s
  | epochSubmit =>
    dsimp only
    split
    · exact of_calm (.submitEpoch _ s)
    · exact refl s
  | lcEpoch =>
    dsimp only
    split
    · exact lcEpochStart s
    · exact refl s
  | ccEpoch =>
    dsimp only
    split
    · exact ccEpochStart s
    · exact refl s
  | muEpoch =>
    dsimp only
    split
    · exact muEpochStart s
    · exact refl s
  | muTake => exact refl s
  | win => exact refl s

end State.Safe

theorem State.alert_mute (s : State) : s.alert.lc.mute = s.lc.mute := by
  unfold State.alert
  split
  · rfl
  split
  · rfl
  split
  · rfl
  split
  · rfl
  · exact (State.Calm.coOriginate s).mute

theorem State.alerts_mute (n : Nat) (s : State) : (s.alerts n).lc.mute = s.lc.mute := by
  induction n generalizing s with
  | zero => rfl
  | succ n ih => exact (ih s.alert).trans s.alert_mute

theorem State.acquire_mute (s : State) : s.acquire.lc.mute = s.lc.mute := by
  unfold State.acquire
  split
  · simp
  · unfold State.handOn
    dsimp only
    rw [State.alerts_mute]
    simp

/-- The parts of a tick leave the station state alone. -/
theorem State.tickPart_station (wrapped : Bool) (before s : State) (p : Part) :
    (State.tickPart wrapped before s p).mu.station = s.mu.station := by
  unfold State.tickPart
  cases p with
  | ccTick => simp
  | acquisition => simp
  | epochSubmit => dsimp only; split <;> simp
  | lcEpoch => dsimp only; split <;> simp
  | ccEpoch => dsimp only; split <;> simp
  | muEpoch =>
    dsimp only
    split
    · unfold State.muEpochStart
      split
      · rfl
      · rw [State.Safe.expirePeers_station]
        split <;> simp
    · rfl
  | muTake => rfl
  | win => rfl

/-- The parts of a tick let LC out of MUTE, but not into it. -/
theorem State.tickPart_mute (wrapped : Bool) (before s : State) (p : Part) (h : s.lc.mute = false) :
    (State.tickPart wrapped before s p).lc.mute = false := by
  unfold State.tickPart
  cases p with
  | ccTick => simpa using h
  | acquisition => rw [← h, ← s.acquire_mute]
  | epochSubmit =>
    dsimp only
    split
    · rw [(State.Calm.submitEpoch _ s).mute, h]
    · exact h
  | lcEpoch =>
    dsimp only
    split
    · simp [State.lcEpochStart, h]
    · exact h
  | ccEpoch =>
    dsimp only
    split
    · rw [(State.Aside.ccEpochStart s).mute, h]
    · exact h
  | muEpoch =>
    dsimp only
    split
    · unfold State.muEpochStart
      split
      · exact h
      · dsimp only
        rw [(State.expirePeers_frame _).2.1]
        dsimp only
        split
        · exact h
        · rw [State.submitPresent, (State.Calm.submitOrDrop _ s).mute, h]
    · exact h
  | muTake => exact h
  | win => exact h

namespace State.Safe

theorem memberTick (order : List Part) (s : State) : s.Safe (s.memberTick order) := by
  have begun : s.Safe (s.advanceCounter.winWith order) :=
    (of_frame (by simp)).trans (of_calm (.winWith order s.advanceCounter))
  refine ⟨begun.tables.trans ?_, fun h => ?_⟩
  · refine Tables.foldl (fun u p => ?_) _ _
    by_cases hp : p = .ccTick
    · subst hp
      exact Tables.ccTick _ _ u
    · exact (tickPart _ s u p hp).tables
  · refine (foldl_keeps (fun u : State => LineAllowed u ∧ u.mu.station = s.mu.station ∧
      (s.lc.mute = false → u.lc.mute = false)) _ _ (fun u p hu => ?_) ⟨begun.line h, by simp, fun hm => ?_⟩).1
    · obtain ⟨allowed, station, mute⟩ := hu
      refine ⟨?_, (State.tickPart_station _ s u p).trans station, fun hm => State.tickPart_mute _ s u p (mute hm)⟩
      by_cases hp : p = .ccTick
      · subst hp
        exact ccTick h (by simp [State.isMember, station]) mute allowed
      · exact (tickPart _ s u p hp).line allowed
    · rw [(State.Calm.winWith order s.advanceCounter).mute]
      simpa using hm

theorem listenTick {s : State} (listen : s.isListen = true) : s.Safe s.listenTick := by
  have counted : s.Safe { s with mu := { s.mu with listenCount := s.mu.listenCount + 1 } } := of_frame rfl rfl rfl rfl
  unfold State.listenTick
  dsimp only
  split
  · refine counted.trans (.trans ?_ (of_calm (.submitEpoch _ _)))
    refine trans ?_ (becomeMember ?_)
    · exact of_frame rfl rfl rfl rfl
    · exact listen
  · exact counted

theorem takeTick (order : List Part) (s : State) : s.Safe (s.takeTick order) := by
  unfold State.takeTick
  split
  · exact refl s
  split
  · rename_i listen
    exact listenTick listen
  split
  · exact memberTick order s
  · exact refl s

theorem tickWhen (due : Bool) (order : List Part) (s : State) : s.Safe (s.tickWhen due order) := by
  unfold State.tickWhen
  split
  · exact takeTick order s
  · exact refl s

theorem adopt (n : Word32) (lag : Word) (s : State) : s.Safe (s.adopt n lag).1 := by
  have taken : s.Safe { s.withdrawMsg (fun m => m.payload.isEpoch) with
      et := { (s.withdrawMsg (fun m => m.payload.isEpoch)).et with
        counter := s.adoptedCounter lag, epoch := n, own := .none } } := of_frame rfl rfl rfl rfl
  unfold State.adopt
  dsimp only
  split
  · exact taken
  split
  · exact taken
  · exact taken.trans (of_calm (.slip _))

theorem epochAccepted (sender : Station) (n : Word32) (lag digest : Word) (s : State) :
    s.Safe (s.epochAccepted sender n lag digest).1 := by
  unfold State.epochAccepted
  split
  · exact refl s
  split
  · rename_i listen
    refine trans ?_ (becomeMember ?_)
    · exact of_frame rfl rfl rfl rfl
    · exact listen
  split
  · exact adopt n lag s
  · exact refl s

/-! ## LC -/

theorem claimAccepted (sender : Station) (p : Point) (s : State) : s.Safe (s.claimAccepted sender p) :=
  of_aside (Tables.claimAccepted sender p s) (.claimAccepted sender p s)

theorem abandon (id : Nat) (s : State) : s.Safe (s.abandon id) := of_aside (Tables.abandon id s) (.abandon id s)

/-- A deferred entry is abandoned once its CLAIM has failed (R24). -/
theorem abandonDeferred (id : Nat) (s : State) :
    s.Safe (match s.markOf id with
      | none => s
      | some e => if e.deferred then s.abandon id else s) := by
  split
  · exact refl s
  · split
    · exact abandon id s
    · exact refl s

theorem resubmitEpoch (n : Word32) (own : OwnEpoch) (s : State) :
    s.Safe (if n = s.et.epoch then { s with et := { s.et with own := own } }
      else State.submitEpoch s.et.epoch { s with et := { s.et with own := own } }) := by
  have told : s.Safe { s with et := { s.et with own := own } } := of_frame rfl rfl rfl rfl
  split
  · exact told
  · exact told.trans (of_calm (.submitEpoch _ _))

theorem noticeDrop (s : State) (m : Msg) : s.Safe (s.noticeDrop m) := by
  unfold State.noticeDrop
  split
  · exact resubmitEpoch _ _ s
  · split
    · exact refl s
    · rename_i id _
      exact trans (of_calm (.claimLost id s)) (abandonDeferred id _)
  · exact of_calm (.frozenLost _ s)
  · exact refl s
  · exact refl s
  · split
    · rename_i leaving
      exact toConfig leaving
    · exact refl s

theorem noticeRetry (s : State) (m : Msg) : s.Safe (s.noticeRetry m) := by
  unfold State.noticeRetry
  split
  · exact resubmitEpoch _ _ s
  · split
    · exact refl s
    · rename_i id _
      refine trans (of_calm (.modifyMark id ?_ s)) (abandonDeferred id _)
      exact fun _ => ⟨rfl, rfl⟩
  · exact refl s
  · exact refl s
  · exact refl s
  · exact refl s

theorem countFailure (s : State) : s.Safe s.countFailure := by
  have counted : s.Safe { s with lc := { s.lc with failCount := min Config.failureLimit (s.lc.failCount + 1) } } :=
    of_frame rfl rfl rfl rfl
  unfold State.countFailure
  dsimp only
  split
  · exact counted.trans (enterMute _)
  · exact counted

theorem countVeto (s : State) : s.Safe s.countVeto := by
  have counted : s.Safe { s with lc := { s.lc with vetoCount := min Config.vetoLimit (s.lc.vetoCount + 1) } } :=
    of_frame rfl rfl rfl rfl
  unfold State.countVeto
  dsimp only
  split
  · exact counted.trans (enterMute _)
  · exact counted

theorem failAttempt (m : Msg) (s : State) : s.Safe (s.failAttempt m) := by
  unfold State.failAttempt
  refine trans ?_ (countFailure _)
  split
  · refine trans ?_ (noticeRetry _ _)
    exact of_frame rfl rfl rfl rfl
  · refine trans ?_ (noticeDrop _ _)
    exact of_frame rfl rfl rfl rfl

theorem attemptFails (reason : FailReason) (s : State) : s.Safe (s.attemptFails reason) := by
  unfold State.attemptFails
  split
  · exact refl s
  · split
    · refine trans ?_ (failAttempt _ _)
      exact of_frame rfl rfl rfl rfl
    · refine trans ?_ (failAttempt _ _)
      exact of_frame rfl rfl rfl rfl

theorem frameVetoed (f : WireFrame) (s : State) : s.Safe (s.frameVetoed f) := by
  unfold State.frameVetoed
  split
  · exact attemptFails .veto s
  · split
    · have ended : s.Safe (s.endFrame f.payload.length).spoil := of_frame rfl rfl rfl rfl
      dsimp only
      split
      · exact ended.trans (countVeto _)
      · exact ended
    · exact refl s

theorem frameDiscarded (f : WireFrame) (s : State) : s.Safe (s.frameDiscarded f) := by
  unfold State.frameDiscarded
  split
  · exact of_frame rfl rfl rfl rfl
  · exact refl s

theorem ownerTake (sender : Station) (m : Payload) (s : State) : s.Safe (s.ownerTake sender m).1 := by
  unfold State.ownerTake
  split
  · exact epochAccepted _ _ _ _ s
  · exact claimAccepted _ _ s
  · exact of_calm (.frozenAccepted _ _ _ _ s)
  · exact refl s
  · exact refl s
  · exact refl s

theorem deliveryPart (sender : Station) (m : Payload) (muDone started : Bool) (s : State) (p : Part) :
    s.Safe (s.deliveryPart sender m muDone started p) := by
  unfold State.deliveryPart
  cases p with
  | muTake =>
    dsimp only
    split
    · exact refl s
    · exact muTake sender m s
  | lcEpoch =>
    dsimp only
    split
    · exact lcEpochStart s
    · exact refl s
  | ccEpoch =>
    dsimp only
    split
    · exact ccEpochStart s
    · exact refl s
  | muEpoch =>
    dsimp only
    split
    · exact muEpochStart s
    · exact refl s
  | ccTick => exact refl s
  | acquisition => exact refl s
  | epochSubmit => exact refl s
  | win => exact refl s

theorem deliverOther (sender : Station) (m : Payload) (muFirst : Bool) (order : List Part) (s : State) :
    s.Safe (s.deliverOther sender m muFirst order) := by
  have first : s.Safe (if muFirst then s.muTake sender m else s) := by
    split
    · exact muTake sender m s
    · exact refl s
  unfold State.deliverOther
  exact (first.trans (ownerTake sender m _)).trans (foldl (deliveryPart sender m _ _) _ _)

theorem deliverOwn (m : Msg) (s : State) : s.Safe (s.deliverOwn m) := by
  have spoke : s.Safe { s with mu := { s.mu with spoken := true } } := of_frame rfl rfl rfl rfl
  refine spoke.trans ?_
  unfold State.deliverOwn
  dsimp only
  split
  · exact of_frame rfl rfl rfl rfl
  · rename_i p _
    refine trans (claimAccepted s.mu.number p _) ?_
    exact of_aside (Tables.settleClaim _ _) (.settleClaim _ _)
  · exact of_calm (.frozenAccepted _ _ _ _ _)
  · exact refl _
  · exact refl _
  · split
    · rename_i leaving
      exact toConfig leaving
    · exact refl _

theorem frameAccepted (f : WireFrame) (muFirst : Bool) (order : List Part) (s : State) :
    s.Safe (s.frameAccepted f muFirst order) := by
  unfold State.frameAccepted
  split
  · refine trans ?_ (deliverOwn _ _)
    exact of_frame rfl rfl rfl rfl
  · split
    · split
      · refine trans ?_ (deliverOther _ _ _ _ _)
        exact of_frame rfl rfl rfl rfl
      · exact refl s
      · exact refl s
    · exact refl s

/-! ## The resets -/

theorem pinReset (addr : Station) (rate : BitVec 2) (s : State) : s.Safe (s.pinReset addr rate) := by
  have free : ∀ i, (s.pinReset addr rate).recordAt i = none := by
    intro i
    simp [State.recordAt, State.pinReset, State.reset]
  refine ⟨.single (.clear rfl (fun i => .inl (free i)) (List.nil_sublist _) fun i _ _ => ?_), fun _ => ?_⟩
  · rw [free i]
    exact iff_of_false List.not_mem_nil (by simp)
  · exact lineAllowed_of_idle rfl (selfCheckInChecking_of_none rfl)

theorem recordAt_softReset (s : State) (i : Fin 4) :
    s.softReset.recordAt i = keptBySoftReset s.cfg.retain (s.recordAt i) := by
  simp [State.recordAt, State.softReset, Cc.softReset]

theorem softReset (s : State) : s.Safe s.softReset := by
  refine ⟨.single (.clear (by simp [State.softReset, Cc.softReset]) (fun i => ?_) ?_ fun i mem _ => ?_), fun _ => ?_⟩
  · rw [recordAt_softReset]
    cases hr : s.recordAt i with
    | none => exact .inl rfl
    | some r =>
      unfold keptBySoftReset
      dsimp only
      split
      · rename_i kept
        refine .inr ⟨r, _, rfl, rfl, fun ho => ?_, r.withdrawSpot_follows⟩
        simp [CapRecord.isComplete, ho] at kept
      · exact .inl rfl
  · simp [State.softReset, Cc.softReset]
  · simp [State.softReset, Cc.softReset, State.recordAt, mem]
  · exact lineAllowed_of_idle (by simp [State.softReset, Cc.softReset])
      (selfCheckInChecking_of_none (by simp [State.softReset, Acq.softReset]))

/-! ## LP -/

theorem withoutArgs {args : List Byte} {s : State} {r : State × Answer} (h : s.Safe r.1) :
    s.Safe (withoutArgs args s r).1 := by
  cases args with
  | nil => exact h
  | cons _ _ => exact refl s

theorem takeConfigure (block : List Byte) (s : State) : s.Safe (takeConfigure block s).1 := by
  unfold Machine.takeConfigure
  split
  · exact refl s
  split
  · exact refl s
  split
  · exact refl s
  · exact of_frame rfl rfl rfl rfl

theorem takeJoin (args : List Byte) (s : State) : s.Safe (takeJoin args s).1 := by
  refine withoutArgs ?_
  split
  · rename_i config
    refine ⟨Tables.of_cc rfl, fun h => lineAllowed_of_idle (h.driver_idle ?_) fun _ => rfl⟩
    have station : s.mu.station = .config := by simpa [State.isConfig] using (Bool.and_eq_true_iff.1 config).1
    simp [State.isMember, station]
  · exact refl s

theorem takeLeave (args : List Byte) (s : State) : s.Safe (takeLeave args s).1 := by
  refine withoutArgs ?_
  split
  · rename_i member
    exact leaveStation s member
  · exact refl s

theorem takeTrigger (args : List Byte) (s : State) : s.Safe (takeTrigger args s).1 := by
  refine withoutArgs ?_
  split
  · exact alert s
  · exact refl s

theorem takeSpot (args : List Byte) (s : State) : s.Safe (takeSpot args s).1 := by
  refine withoutArgs ?_
  split
  · exact refl s
  split
  · exact refl s
  · exact of_frame rfl rfl rfl rfl

theorem takeOpenRead (args : List Byte) (s : State) : s.Safe (takeOpenRead args s).1 := by
  unfold Machine.takeOpenRead
  split
  · exact refl s
  · unfold State.openSession
    split
    · exact refl s
    split
    · exact refl s
    split
    · exact refl s
    split
    · exact refl s
    · exact of_frame rfl rfl rfl rfl

theorem takeCloseRead (args : List Byte) (s : State) : s.Safe (takeCloseRead args s).1 := by
  refine withoutArgs ?_
  split
  · exact of_frame rfl rfl rfl rfl
  · exact refl s

theorem takeRelease (args : List Byte) (s : State) : s.Safe (takeRelease args s).1 := by
  unfold Machine.takeRelease
  split
  · exact refl s
  · unfold State.releaseRecord
    split
    · exact refl s
    rename_i a _ _ r hr
    split
    · exact refl s
    split
    · exact refl s
    rename_i complete
    split
    · exact refl s
    · refine of_aside (.single (.discard a.1 (fun r' hr' => ?_) rfl rfl rfl ?_ fun j hj => ?_)) (.freeRecord _ s)
      · rw [hr] at hr'
        cases hr'
        simpa using complete
      · rw [State.recordAt_freeRecord, if_pos rfl]
      · rw [State.recordAt_freeRecord, if_neg (Ne.symm hj)]

theorem takeAckAttn (args : List Byte) (s : State) : s.Safe (takeAckAttn args s).1 := by
  unfold Machine.takeAckAttn
  split
  · split
    · exact of_frame rfl rfl rfl rfl
    · exact refl s
  · exact refl s

theorem takeCommand (code : Byte) (args : List Byte) (s : State) : s.Safe (takeCommand code args s).1 := by
  unfold Machine.takeCommand
  split
  · exact withoutArgs (refl s)
  · exact takeConfigure args s
  · exact takeJoin args s
  · exact takeLeave args s
  · exact takeTrigger args s
  · exact takeSpot args s
  · exact withoutArgs (refl s)
  · exact withoutArgs (refl s)
  · exact takeOpenRead args s
  · exact withoutArgs (refl s)
  · exact takeCloseRead args s
  · exact takeRelease args s
  · exact withoutArgs (refl s)
  · exact takeAckAttn args s
  · exact withoutArgs (softReset s)
  · exact refl s

theorem takeFrame (frame : List Byte) (s : State) : s.Safe (takeFrame frame s).1 := by
  unfold Machine.takeFrame
  split
  · exact refl s
  · exact takeCommand _ _ s

theorem answerFrame {answer : State → State × Answer} (h : ∀ u : State, u.Safe (answer u).1) (t : Transaction)
    (frame : List Byte) (s : State) : s.Safe (s.answerFrame t frame answer) := by
  unfold State.answerFrame
  have heard : s.Safe (s.setTransaction { t with decoder := frame } 0) := of_frame rfl rfl rfl rfl
  refine (heard.trans (h _)).trans ?_
  unfold State.respond
  split
  · exact refl _
  · exact of_frame rfl rfl rfl rfl

theorem clockFrame {answer : State → State × Answer} (h : ∀ u : State, u.Safe (answer u).1) (frame : List Byte)
    (s : State) : s.Safe (s.clockFrame frame answer) := by
  unfold State.clockFrame
  split
  · exact refl s
  · split
    · exact answerFrame h _ _ s
    · exact refl s

theorem clockCommand {answer : State → State × Answer} (h : ∀ u : State, u.Safe (answer u).1) (code : Byte)
    (args : List Byte) (s : State) : s.Safe (s.clockCommand code args answer) := by
  unfold State.clockCommand
  split
  · exact clockFrame h _ s
  · exact refl s

theorem clockByte (sdi : Byte) (wait : Bool) (s : State) : s.Safe (s.clockByte sdi wait) := by
  have set : ∀ t b, s.Safe (s.setTransaction t b) := fun _ _ => of_frame rfl rfl rfl rfl
  unfold State.clockByte
  split
  · exact refl s
  split
  · exact set _ _
  split
  · unfold State.takeByte
    split
    · exact set _ _
    dsimp only
    split
    · exact answerFrame (takeFrame _) _ _ s
    · exact set _ _
  · split
    · exact set _ _
    · exact of_frame (by simp)

end State.Safe

theorem State.passBits_mute (bits : Nat) (s : State) : (s.passBits bits).lc.mute = s.lc.mute := by
  unfold State.passBits
  split
  · rfl
  split
  · rfl
  · split <;> rfl
  · rfl
  · rfl

theorem State.startFrame_mute (bits : Nat) (s : State) : (s.startFrame bits).lc.mute = s.lc.mute := by
  rw [← s.passBits_mute bits]
  unfold State.startFrame
  dsimp only
  split <;> rfl

theorem State.readStartBit_mute (bits : Nat) (s : State) : (s.readStartBit bits).lc.mute = s.lc.mute := by
  rw [← s.passBits_mute bits]
  unfold State.readStartBit State.readDominant
  split
  · rfl
  split <;> rfl

/-- Every command answers a next state, and is safe. -/
theorem exec_safe (c : Instr) (s : State) : ∃ t, exec c s = .next t ∧ s.Safe t := by
  cases c with
  | pinReset addr rate => exact ⟨_, rfl, .pinReset addr rate s⟩
  | initialisationComplete => exact ⟨_, rfl, .of_frame rfl rfl rfl rfl⟩
  | selNRelease => exact ⟨_, rfl, .of_frame rfl rfl rfl rfl⟩
  | readResponseShiftedOut => exact ⟨_, rfl, .of_frame (by simp)⟩
  | unknownCommand frame =>
    refine ⟨_, rfl, ?_⟩
    split
    · exact .clockFrame (.takeFrame frame) frame s
    · exact .refl s
  | status args => exact ⟨_, rfl, .clockCommand (fun u => .withoutArgs (.refl u)) _ _ s⟩
  | configure args => exact ⟨_, rfl, .clockCommand (.takeConfigure args) _ _ s⟩
  | join args => exact ⟨_, rfl, .clockCommand (.takeJoin args) _ _ s⟩
  | leave args => exact ⟨_, rfl, .clockCommand (.takeLeave args) _ _ s⟩
  | trigger args => exact ⟨_, rfl, .clockCommand (.takeTrigger args) _ _ s⟩
  | spot args => exact ⟨_, rfl, .clockCommand (.takeSpot args) _ _ s⟩
  | spotRead args => exact ⟨_, rfl, .clockCommand (fun u => .withoutArgs (.refl u)) _ _ s⟩
  | records args => exact ⟨_, rfl, .clockCommand (fun u => .withoutArgs (.refl u)) _ _ s⟩
  | openRead args => exact ⟨_, rfl, .clockCommand (.takeOpenRead args) _ _ s⟩
  | read args => exact ⟨_, rfl, .clockCommand (fun u => .withoutArgs (.refl u)) _ _ s⟩
  | closeRead args => exact ⟨_, rfl, .clockCommand (.takeCloseRead args) _ _ s⟩
  | release args => exact ⟨_, rfl, .clockCommand (.takeRelease args) _ _ s⟩
  | peers args => exact ⟨_, rfl, .clockCommand (fun u => .withoutArgs (.refl u)) _ _ s⟩
  | ackAttn args => exact ⟨_, rfl, .clockCommand (.takeAckAttn args) _ _ s⟩
  | softReset args => exact ⟨_, rfl, .clockCommand (fun u => .withoutArgs (.softReset u)) _ _ s⟩
  | tick order => exact ⟨_, rfl, .takeTick order s⟩
  | markPulseEnd order => exact ⟨_, rfl, .tickWhen _ order s⟩
  | markStuck order => exact ⟨_, rfl, .tickWhen _ order s⟩
  | tickWrap order => exact ⟨_, rfl, .tickWhen _ order s⟩
  | peerExpiry order => exact ⟨_, rfl, .tickWhen _ order s⟩
  | claimTimeout order => exact ⟨_, rfl, .tickWhen _ order s⟩
  | answerWindowExpiry order => exact ⟨_, rfl, .tickWhen _ order s⟩
  | listenWindowExpiry order => exact ⟨_, rfl, .tickWhen _ order s⟩
  | markEvent => exact ⟨_, rfl, .markEdge s⟩
  | markRelease => exact ⟨_, rfl, .markRelease s⟩
  | copyStep slot => exact ⟨_, rfl, .of_calm (.copyStep slot s)⟩
  | sweepConversionEnd code => exact ⟨_, rfl, .of_calm (.endSweepConversion code s)⟩
  | sweepResume => exact ⟨_, rfl, .of_calm (.startSweep s)⟩
  | spotRunBegin => exact ⟨_, rfl, .of_calm (.beginSpotRun s)⟩
  | spotConversionEnd code => exact ⟨_, rfl, .of_calm (.endSpotConversion code s)⟩
  | selfCheckBegin => exact ⟨_, rfl, .beginSelfCheck s⟩
  | selfCheckConversionEnd code => exact ⟨_, rfl, .endSelfCheckConversion code s⟩
  | frameStart bits => exact ⟨_, rfl, .of_frame (by simp) (by simp) (s.startFrame_mute bits)⟩
  | arbitrationWin => exact ⟨_, rfl, .of_calm (.winArbitration s)⟩
  | arbitrationLoss => exact ⟨_, rfl, .of_frame rfl rfl rfl rfl⟩
  | txAttemptFail reason => exact ⟨_, rfl, .attemptFails reason s⟩
  | frameVetoed frame => exact ⟨_, rfl, .frameVetoed frame s⟩
  | frameDiscarded frame => exact ⟨_, rfl, .frameDiscarded frame s⟩
  | frameAccepted frame muFirst order => exact ⟨_, rfl, .frameAccepted frame muFirst order s⟩
  | transactionBegin => exact ⟨_, rfl, .of_frame (by simp)⟩
  | wholeByteClocked sdi wait => exact ⟨_, rfl, .clockByte sdi wait s⟩
  | startBitRead bits => exact ⟨_, rfl, .of_frame (by simp) (by simp) (s.readStartBit_mute bits)⟩

/-- A step is safe. -/
theorem step_safe {s t : State} (h : step s = .next t) : s.Safe t := by
  unfold step at h
  split at h
  · cases h
    exact .refl _
  · rename_i c rest _
    obtain ⟨u, hu, safe⟩ := exec_safe c { s with pending := rest }
    rw [hu] at h
    cases h
    exact .trans (t := { s with pending := rest }) (.of_frame rfl rfl rfl rfl) safe

end Sys2Proof.Machine
end

