-- ==== Sys2Proof/Proofs/Invariants.lean ====
section
/-! The invariants of CC's tables and of the line: O54, O56, O57, and O60 at reset. -/

namespace Sys2Proof.Machine

/-- Settles O54: each of the nine steps at the capture tables keeps R7's bounds, and with them the references between OPEN
records and entries. -/
theorem marksStayBounded : Obligations.MarksStayBounded := by
  unfold Obligations.MarksStayBounded
  refine ⟨fun s t h st => ?_, fun s t h st => ?_⟩
  · exact (step_safe st).tables.keeps (fun _ _ => TablesStep.marksBounded) h
  · exact (step_safe st).tables.keeps (P := fun u => MarksBounded u ∧ OpenReferenced u)
      (fun _ _ step ⟨bounded, referenced⟩ => ⟨step.marksBounded bounded, step.openReferenced bounded referenced⟩) h

/-- Settles O56: every command is safe. -/
theorem lineStaysAllowed : Obligations.LineStaysAllowed := by
  unfold Obligations.LineStaysAllowed
  exact fun s t h st => (step_safe st).line h

/-- Settles O57: each of the nine steps at the capture tables keeps each of the three. -/
theorem recordsStayApart : Obligations.RecordsStayApart := by
  unfold Obligations.RecordsStayApart
  exact ⟨fun s t h st => (step_safe st).tables.keeps (fun _ _ => TablesStep.keysDistinct) h,
    fun s t h st => (step_safe st).tables.keeps (fun _ _ => TablesStep.openingOrder) h,
    fun s t h st => (step_safe st).tables.keeps (fun _ _ => TablesStep.fillingUnfinished) h⟩

theorem State.reset_recordAt (i : Fin 4) : State.reset.recordAt i = none := by
  simp [State.recordAt, State.reset]

theorem State.reset_keyAt (i : Fin 4) : State.reset.keyAt i = none := keyAt_none (State.reset_recordAt i)

/-- Settles O60: at reset the list, the queue and the ring are empty, every record is FREE, and the station is CONFIG. -/
theorem invariantsAtReset : Obligations.InvariantsAtReset := by
  unfold Obligations.InvariantsAtReset
  have noMember : ¬State.reset.isMember = true := by decide
  refine ⟨?_, ?_, ?_, ?_, ?_, ?_, ?_, ?_, ?_, ?_, ?_, ?_, ?_, ?_, ?_, ?_, ?_, ?_⟩
  · exact ⟨Nat.zero_le _, List.nodup_nil, fun m hm => absurd hm List.not_mem_nil⟩
  · exact ⟨fun i r h => by simp [State.reset_recordAt] at h, fun m hm => absurd hm List.not_mem_nil⟩
  · exact ⟨Nat.zero_le _, Nat.zero_le _, Nat.zero_le _⟩
  · exact fun _ => rfl
  · exact ⟨fun h => absurd rfl h, fun _ m hm => absurd hm List.not_mem_nil, Nat.zero_le _,
      fun ⟨m, hm, _⟩ => absurd hm List.not_mem_nil⟩
  · exact fun q hq => absurd hq List.not_mem_nil
  · exact (lineAllowed_of_idle rfl (selfCheckInChecking_of_none rfl)).1
  · exact selfCheckInChecking_of_none rfl
  · exact fun i j k h => by simp [State.reset_keyAt] at h
  · exact ⟨List.nodup_nil, fun i => iff_of_false List.not_mem_nil (by simp [State.reset_recordAt])⟩
  · exact fun i r h => by simp [State.reset_recordAt] at h
  · exact fun c h => by cases h
  · exact fun h => absurd h (by decide)
  · exact ⟨fun h => absurd h noMember, fun g (h : none = some g) => (by cases h), Nat.le_refl 0⟩
  · exact ⟨fun _ => rfl, fun g (h : none = some g) => (by cases h), fun h => absurd h noMember⟩
  · exact fun h => absurd h noMember
  · exact fun h => absurd h noMember
  · exact show State.reset.peerAt 0 = Peer.cleared by decide

end Sys2Proof.Machine
end

