-- ==== Sys2Proof/Proofs/Resets.lean ====
section
/-! The frame of a command that is awaited, and the two resets: O3, O4. -/

namespace Sys2Proof.Machine

/-! ## A command whose frame is awaited -/

/-- The state in which a command is taken: its frame is in the decoder, SDO at 00h. -/
def State.heard (s : State) (code : Byte) (args : List Byte) : State :=
  s.setTransaction { deaf := false, decoder := commandFrame code args, response := none } 0

/-- A command whose frame is awaited is taken in the state that has heard it. -/
theorem State.AwaitsCommand.clockCommand {s : State} {code : Byte} {args : List Byte} (h : s.AwaitsCommand code args)
    (answer : State → State × Answer) :
    s.clockCommand code args answer = State.respond (answer (s.heard code args)) := by
  obtain ⟨len, t, transaction, deaf, response, initial, proper⟩ := h
  have awaits : t.awaits (commandFrame code args) = true := by
    simp [Transaction.awaits, deaf, response, List.isPrefixOf_iff_prefix, initial, proper]
  have heard : ({ t with decoder := commandFrame code args } : Transaction) =
      { deaf := false, decoder := commandFrame code args, response := none } := by
    rw [← deaf, ← response]
  rw [State.clockCommand, if_pos (by simpa [argsOk] using len), State.clockFrame, transaction]
  dsimp only
  rw [if_pos awaits, State.answerFrame, heard, State.heard]

/-- A response is formed in the transaction that the command leaves (R157). -/
theorem State.respond_of_transaction {u : State} {t : Transaction} (h : u.lp.transaction = some t) (a : Answer) :
    State.respond (u, a) = { u with lp := { u.lp with
      transaction := some { t with response := some { bytes := a.bytes, shifted := 0, advance := a.advance } } } } := by
  simp only [State.respond, h]

theorem Answer.ok_bytes : (Answer.ok []).bytes = [0x80, 0x00, 0x80] := by
  decide

/-! ## The resets -/

/-- Settles O3: a pin reset is a state written out but for the straps, MARK_N's other drivers and the waiting commands. -/
theorem pinResetState : Obligations.PinResetState := by
  unfold Obligations.PinResetState
  intro addr rate s
  have free : ∀ i, (s.pinReset addr rate).recordAt i = none := by
    intro i
    simp [State.recordAt, State.pinReset, State.reset]
  have station : (s.pinReset addr rate).mu.station = if 24 ≤ addr.toNat then .fault .strap else .config := rfl
  have off : (s.pinReset addr rate).receiverOn = false := by
    unfold State.receiverOn State.isListen State.isMember State.isLeaving
    rw [station]
    split <;> rfl
  have count : (s.pinReset addr rate).freeCount = 4 := by
    simp [State.freeCount, free, slots]
  refine ⟨_, rfl, station, rfl, rfl, rfl, rfl, rfl, rfl, rfl, fun n hn => ?_, rfl, rfl, rfl, rfl, rfl, rfl, rfl, rfl, rfl,
    off, rfl, rfl, rfl, rfl, free, fun _ => rfl, rfl, rfl, count, rfl, rfl, rfl, rfl, rfl, rfl, rfl, rfl, rfl, rfl⟩
  simp [State.pinReset, State.reset, Peer.cleared, hn]

theorem StationState.softReset_eq (st : StationState) :
    st.softReset = if st = .fault .strap then .fault .strap else .config := by
  unfold StationState.softReset
  split
  · rfl
  · rename_i h
    rw [if_neg h]

/-- After a soft reset the receiver is off: the station is CONFIG or FAULT. -/
theorem State.softReset_receiverOff (s : State) : s.softReset.receiverOn = false := by
  have station : s.softReset.mu.station = s.mu.station.softReset := by simp [State.softReset, Mu.softReset]
  unfold State.receiverOn State.isListen State.isMember State.isLeaving
  rw [station, StationState.softReset_eq]
  split <;> rfl

theorem State.softReset_transaction (s : State) (code : Byte) (args : List Byte) :
    (s.heard code args).softReset.lp.transaction = some { deaf := false, decoder := [], response := none } := by
  simp [State.heard, State.setTransaction, State.softReset, Lp.softReset]

/-- Settles O4: what the reset keeps of a record is `keptBySoftReset`; every other field is written out. -/
theorem softResetState : Obligations.SoftResetState := by
  unfold Obligations.SoftResetState
  intro s h
  have next : exec (.softReset []) s = .next (State.respond ((s.heard 0x0F []).softReset, .ok [])) :=
    congrArg Host.Outcome.next (h.clockCommand (takeSoftReset []))
  rw [next, State.respond_of_transaction (s.softReset_transaction _ _), Answer.ok_bytes]
  have kept : ∀ i, (s.heard 0x0F []).softReset.recordAt i = keptBySoftReset s.cfg.retain (s.recordAt i) :=
    State.Safe.recordAt_softReset _
  refine ⟨_, rfl, StationState.softReset_eq _, rfl, rfl, rfl, rfl, rfl, rfl, rfl, fun n hn => ?_, rfl, rfl, rfl, rfl, rfl,
    rfl, rfl, rfl, rfl, State.softReset_receiverOff _, rfl, rfl, rfl, rfl, fun i hi => ?_, fun i r hi hr => ?_,
    fun i r hi hc hr => ?_, fun _ => rfl, rfl, rfl, rfl, rfl, rfl, rfl, rfl, rfl, rfl, rfl, rfl, rfl⟩
  · simp [State.softReset, Mu.softReset, Peer.cleared, hn]
  · refine (kept i).trans ?_
    rw [hi]
    rfl
  · refine (kept i).trans ?_
    rw [hi]
    rcases hr with hr | hr <;> simp [keptBySoftReset, hr]
  · refine (kept i).trans ?_
    rw [hi]
    simp only [keptBySoftReset, hc, hr, Bool.and_self, if_true, CapRecord.withdrawSpot]
    split <;> simp_all

end Sys2Proof.Machine
end

