-- ==== Sys2Proof/Proofs/Line.lean ====
section
/-! MARK_N outside a mark event, and the choice of a slot: O33, O34. -/

namespace Sys2Proof.Machine

/-! ## The line -/

theorem isMember_iff {s : State} : s.isMember = true ↔ s.mu.station = .member := by
  simp [State.isMember]

theorem isMember_eq_false_iff {s : State} : s.isMember = false ↔ s.mu.station ≠ .member := by
  simp [State.isMember]

theorem State.observeRelease_of_driving {s : State} (h : s.driving = true) : s.observeRelease = s := by
  simp [State.observeRelease, State.markAsserted, h]

theorem State.observeRelease_of_released {s : State} (hd : s.driving = false) (ho : s.cc.othersDrive = false) :
    s.observeRelease = { s with cc := { s.cc with lineEntry := .empty, stuck := 0, edgePending := false } } := by
  simp [State.observeRelease, State.markAsserted, hd, ho]

/-- Where the edge of this station's own pulse waits, a MARK_EVENT is that edge (log 5). -/
theorem State.markEdge_pending {s : State} (h : s.cc.edgePending = true) :
    s.markEdge = if s.isMember then State.takeMark { s with cc := { s.cc with edgePending := false } }
      else { s with cc := { s.cc with edgePending := false } } := by
  simp only [State.markEdge, h, if_true]
  rfl

/-- Otherwise another station drives the line, which is an edge where the line was released (R5). -/
theorem State.markEdge_others {s : State} (h : s.cc.edgePending = false) :
    s.markEdge = if !s.markAsserted && s.isMember then State.takeMark { s with cc := { s.cc with othersDrive := true } }
      else { s with cc := { s.cc with othersDrive := true } } := by
  simp only [State.markEdge, h, Bool.false_eq_true, if_false]
  rfl

/-- Settles O33: the release by `observeRelease`, the assertion by the two readings of a MARK_EVENT. -/
theorem markLineOtherwise : Obligations.MarkLineOtherwise := by
  unfold Obligations.MarkLineOtherwise
  intro s
  refine ⟨fun hd => ?_, fun hd => ?_, fun hm => ?_, fun hp ha => ?_⟩
  · exact congrArg Host.Outcome.next (State.observeRelease_of_released hd rfl)
  · exact congrArg Host.Outcome.next (State.observeRelease_of_driving hd)
  · have outside := isMember_eq_false_iff.2 hm
    cases hp : s.cc.edgePending with
    | true =>
      refine ⟨s.cc.othersDrive, false, congrArg Host.Outcome.next ?_⟩
      rw [State.markEdge_pending hp, outside, if_neg Bool.false_ne_true]
    | false =>
      refine ⟨true, false, congrArg Host.Outcome.next ?_⟩
      rw [State.markEdge_others hp, outside, Bool.and_false, if_neg Bool.false_ne_true, ← hp]
  · refine congrArg Host.Outcome.next ?_
    rw [State.markEdge_others hp, ha, Bool.not_true, Bool.false_and, if_neg Bool.false_ne_true]

/-! ## Slot opening (R10) -/

theorem State.chooseSlot_of_free {s : State} {i : Fin 4} (h : s.lowestFree = some i) : s.chooseSlot = some i := by
  simp only [State.chooseSlot, h]

/-- With no FREE record, the slot policy decides (R10). -/
theorem State.chooseSlot_of_full {s : State} (h : ∀ i, s.recordAt i ≠ none) :
    s.chooseSlot = if s.cfg.replace then s.cc.opening.find? s.replaceable else none := by
  have full : s.lowestFree = none := by
    simp [State.lowestFree, List.find?_eq_none, h]
  simp only [State.chooseSlot, full]

theorem State.replaceable_iff {s : State} {i : Fin 4} :
    s.replaceable i = true ↔ (∃ r, s.recordAt i = some r ∧ r.isComplete = true) ∧ s.reader i = false := by
  cases h : s.recordAt i <;> simp [State.replaceable, h]

theorem State.replaceable_eq_false_iff {s : State} {i : Fin 4} :
    s.replaceable i = false ↔ ∀ r, s.recordAt i = some r → r.isComplete = true → s.reader i = true := by
  cases h : s.recordAt i <;> simp [State.replaceable, h]

/-- The lowest FREE slot is found by going through the slots in their order. -/
theorem State.lowestFree_eq_some {s : State} {i : Fin 4} (free : s.recordAt i = none)
    (below : ∀ j, j < i → s.recordAt j ≠ none) : s.lowestFree = some i := by
  have taken : ∀ j, j < i → (s.recordAt j).isNone = false := by
    intro j hj
    simpa only [Option.isNone_eq_false_iff, Option.isSome_iff_ne_none] using below j hj
  unfold State.lowestFree slots
  fin_cases i
  · simp_all
  · have h0 := taken 0 (by decide)
    simp_all
  · have h0 := taken 0 (by decide)
    have h1 := taken 1 (by decide)
    simp_all
  · have h0 := taken 0 (by decide)
    have h1 := taken 1 (by decide)
    have h2 := taken 2 (by decide)
    simp_all

/-! ## Sequence numbers (R10) -/

/-- While the counter's values are all held, the search goes through them one by one. -/
theorem pickSeq_mem {held : List Word} {n : Nat} {c : Word} (h : pickSeq held n c ∈ held) :
    ∀ k < n, c + BitVec.ofNat 16 k ∈ held := by
  induction n generalizing c with
  | zero => intro k hk; omega
  | succ n ih =>
    unfold pickSeq at h
    split at h
    · rename_i hc
      intro k hk
      cases k with
      | zero => simpa using hc
      | succ k =>
        have later := ih h k (by omega)
        have next : c + 1 + BitVec.ofNat 16 k = c + BitVec.ofNat 16 (k + 1) := by
          rw [BitVec.ofNat_add, BitVec.add_assoc, BitVec.add_comm (BitVec.ofNat 16 k)]
          rfl
        rwa [next] at later
    · rename_i hc
      exact absurd h hc

/-- Fewer than four records hold a number, so the number picked is held by none. -/
theorem pickSeq_not_mem {held : List Word} (h : held.length < 4) (c : Word) : pickSeq held 4 c ∉ held := by
  intro hmem
  have values : (List.range 4).map (fun k => c + BitVec.ofNat 16 k) ⊆ held := by
    intro w hw
    obtain ⟨k, hk, rfl⟩ := List.mem_map.1 hw
    exact pickSeq_mem hmem k (List.mem_range.1 hk)
  have nodup : ((List.range 4).map (fun k => c + BitVec.ofNat 16 k)).Nodup := by
    refine (List.nodup_map_iff_inj_on List.nodup_range).2 fun a ha b hb e => ?_
    have := List.mem_range.1 ha
    have := List.mem_range.1 hb
    bv_omega
  have := (List.subperm_of_subset nodup values).length_le
  simp only [List.length_map, List.length_range] at this
  omega

theorem pickSeq_of_not_mem {held : List Word} {c : Word} (h : c ∉ held) (n : Nat) : pickSeq held n c = c := by
  cases n with
  | zero => rfl
  | succ n => rw [pickSeq, if_neg h]

theorem State.mem_heldSeqs {s : State} {q : Word} : q ∈ s.heldSeqs ↔ ∃ j r, s.recordAt j = some r ∧ r.seq = q := by
  simp [State.heldSeqs, Tables.mem_slots]

/-- A slot being FREE, at most three records hold a number. -/
theorem State.length_heldSeqs_freeRecord (s : State) (i : Fin 4) : (s.freeRecord i).heldSeqs.length < 4 := by
  have le := List.length_filterMap_le (fun j => ((s.freeRecord i).recordAt j).map CapRecord.seq) slots
  refine lt_of_le_of_ne le fun e => ?_
  have all := List.filterMap_length_eq_length.1 e i (Tables.mem_slots i)
  rw [State.recordAt_freeRecord, if_pos rfl] at all
  cases all

/-- The number taken is held by no other record, and is the counter's own value when no other holds that. -/
theorem State.nextSeq_spec (s : State) (i : Fin 4) :
    (∀ j r, j ≠ i → s.recordAt j = some r → r.seq ≠ s.nextSeq i) ∧
      ((∀ j r, j ≠ i → s.recordAt j = some r → r.seq ≠ s.cc.seqCounter) → s.nextSeq i = s.cc.seqCounter) := by
  have held : ∀ q, q ∈ (s.freeRecord i).heldSeqs ↔ ∃ j r, j ≠ i ∧ s.recordAt j = some r ∧ r.seq = q := by
    intro q
    rw [State.mem_heldSeqs]
    constructor
    · rintro ⟨j, r, hr, e⟩
      rw [State.recordAt_freeRecord] at hr
      split at hr
      · cases hr
      · rename_i hj
        exact ⟨j, r, Ne.symm hj, hr, e⟩
    · rintro ⟨j, r, hj, hr, e⟩
      exact ⟨j, r, by rw [State.recordAt_freeRecord, if_neg (Ne.symm hj), hr], e⟩
  constructor
  · intro j r hj hr e
    exact pickSeq_not_mem (s.length_heldSeqs_freeRecord i) s.cc.seqCounter ((held _).2 ⟨j, r, hj, hr, e⟩)
  · intro h
    refine pickSeq_of_not_mem (fun hm => ?_) 4
    obtain ⟨j, r, hj, hr, e⟩ := (held _).1 hm
    exact h j r hj hr e

/-- Settles O34. -/
theorem slotChoice : Obligations.SlotChoice := by
  unfold Obligations.SlotChoice
  intro s
  refine ⟨fun i free below => State.chooseSlot_of_free (State.lowestFree_eq_some free below), fun full policy => ?_,
    fun full policy => ⟨fun before i after order complete reader none => ?_, fun none => ?_⟩,
    fun point h base o i t ho => ?_⟩
  · rw [State.chooseSlot_of_full full, policy, if_neg Bool.false_ne_true]
  · rw [State.chooseSlot_of_full full, policy, if_pos rfl, order, List.find?_append]
    have skipped : before.find? s.replaceable = .none :=
      List.find?_eq_none.2 fun j hj => by simp [State.replaceable_eq_false_iff.2 (none j hj)]
    rw [skipped, Option.none_or, List.find?_cons_of_pos (State.replaceable_iff.2 ⟨complete, reader⟩)]
  · rw [State.chooseSlot_of_full full, policy, if_pos rfl]
    exact List.find?_eq_none.2 fun j hj => by simp [State.replaceable_eq_false_iff.2 (none j hj)]
  · obtain ⟨choice, record, others, _, counter, _⟩ := State.openSlot_some ho
    obtain ⟨fresh, own⟩ := s.nextSeq_spec i
    exact ⟨_, record, choice, counter, fun j r' hj hr => ⟨(others j hj).trans hr, fresh j r' hj hr⟩, own⟩

end Sys2Proof.Machine
end

