-- ==== Sys2Proof/Proofs/Claims.lean ====
section
/-! CLAIMs and FROZENs in the transmit queue, alerts, the mark event: O16, O32. -/

namespace Sys2Proof.Machine

/-! ## Submissions of CC (R126) -/

/-- A message of CC: a CLAIM or a FROZEN. -/
def Payload.OfCapture (p : Payload) : Prop := p.isEpoch = false ∧ p.isHelloOrPresent = false ∧ p.isBye = false

theorem Payload.claim_ofCapture (p : Point) : (Payload.claim p).OfCapture := ⟨rfl, rfl, rfl⟩

theorem Payload.frozen_ofCapture (key : Key) (offset outcome : Byte) : (Payload.frozen key offset outcome).OfCapture :=
  ⟨rfl, rfl, rfl⟩

theorem not_isLeaving_of_isMember {s : State} (h : s.isMember = true) : s.isLeaving = false := by
  simp [State.isLeaving, isMember_iff.1 h]

theorem State.submit_noRoom {s : State} {p : Payload} (hp : p.OfCapture)
    (full : s.NoRoom s.lc.queue) (mark : Option Nat) : s.submit p mark = none := by
  obtain ⟨epoch, hello, bye⟩ := hp
  have refused : s.admission p = .refused := by
    rcases full with mute | full
    · exact State.admission_mute mute p
    · simp [State.admission, epoch, hello, bye, full]
  simp only [State.submit, refused]

theorem State.submit_room {s : State} {p : Payload} (hp : p.OfCapture) (member : s.isMember = true)
    (room : ¬s.NoRoom s.lc.queue) (mark : Option Nat) : s.submit p mark = some (s.enqueue p mark) := by
  obtain ⟨epoch, hello, bye⟩ := hp
  have plain : s.admission p = .plain := by
    simp only [State.NoRoom, not_or, Bool.not_eq_true, not_le] at room
    simp [State.admission, epoch, hello, bye, member, not_isLeaving_of_isMember member, room]
  simp only [State.submit, plain]

theorem State.mem_enqueue {s : State} {p : Payload} {mark : Option Nat} {q : Msg} :
    q ∈ (s.enqueue p mark).lc.queue ↔
      q = { payload := p, age := s.lc.nextAge, fails := 0, cond := .queued, mark := mark } ∨ q ∈ s.lc.queue := by
  rw [State.enqueue, (insertMsg_perm _ _).mem_iff, List.mem_cons]

/-- The new message stands in the queue. -/
theorem State.enqueue_new (s : State) (p : Payload) (mark : Option Nat) :
    ∃ q ∈ (s.enqueue p mark).lc.queue, q.payload = p ∧ q.cond = .queued ∧ q.fails = 0 ∧ q.mark = mark :=
  ⟨_, State.mem_enqueue.2 (.inl rfl), rfl, rfl, rfl, rfl⟩

/-! ## An entry's CLAIM (R13, Table 1-3) -/

theorem State.markOf_of_mem {s : State} {id : Nat} {m : Mark} (hm : m ∈ s.cc.marks) (e : m.id = id)
    (nodup : (s.cc.marks.map Mark.id).Nodup) : s.markOf id = some m := by
  cases h : s.markOf id with
  | none =>
    have := List.find?_eq_none.1 h m hm
    simp [e] at this
  | some x =>
    obtain ⟨hx, ex⟩ := State.markOf_some h
    rw [mark_eq_of_id nodup hm hx (ex.trans e.symm)]

/-- A lost CLAIM: the entry's status, and ANNOUNCE_LOST on the record of its slot. -/
theorem State.claimLost_eq {s : State} {id : Nat} {m : Mark} (h : s.markOf id = some m) :
    s.claimLost id = match m.slot with
      | none => s.modifyMark id (fun x => { x with claim := .lost })
      | some i => (s.modifyMark id (fun x => { x with claim := .lost })).modifyRecord i CapRecord.loseAnnounce := by
  cases hs : m.slot <;> simp only [State.claimLost, h, hs]

theorem State.claimLost_marks {s : State} {id : Nat} {m : Mark} (h : s.markOf id = some m) :
    (s.claimLost id).cc.marks = s.cc.marks.map (fun x => if x.id = id then { x with claim := .lost } else x) := by
  rw [State.claimLost_eq h]
  split
  · rfl
  · rw [State.marks_modifyRecord]
    rfl

theorem State.claimLost_recordAt {s : State} {id : Nat} {m : Mark} (h : s.markOf id = some m) (j : Fin 4) :
    (s.claimLost id).recordAt j =
      if m.slot = some j then (s.recordAt j).map CapRecord.loseAnnounce else s.recordAt j := by
  rw [State.claimLost_eq h]
  split
  · rename_i hs
    rw [hs, if_neg (by simp)]
    rfl
  · rename_i i hs
    rw [State.recordAt_modifyRecord]
    by_cases e : i = j
    · subst e
      rw [if_pos rfl, if_pos hs]
      rfl
    · rw [if_neg e, if_neg (by simpa [hs] using e)]
      rfl

theorem State.submitClaim_noRoom {s : State} (full : s.NoRoom s.lc.queue) (id : Nat) :
    s.submitClaim id = s.claimLost id := by
  unfold State.submitClaim
  split
  · rename_i h
    simp only [State.claimLost, h]
  · rw [State.submit_noRoom (Payload.claim_ofCapture _) full]

theorem State.submitClaim_room {s : State} (member : s.isMember = true) (room : ¬s.NoRoom s.lc.queue) {id : Nat} {m : Mark}
    (h : s.markOf id = some m) :
    s.submitClaim id =
      (s.enqueue (.claim m.point) (some id)).modifyMark id (fun x => { x with claim := .queued }) := by
  simp only [State.submitClaim, h, State.submit_room (Payload.claim_ofCapture _) member room]

/-! ## An alert at an entry (R4) -/

/-- The entry and the record of its slot are this station's own from now on. -/
def State.originate (m : Mark) (s : State) : State :=
  match m.slot with
  | none => s.modifyMark m.id (fun x => { x with originator := true })
  | some i =>
    (s.modifyMark m.id (fun x => { x with originator := true })).modifyRecord i
      (fun r => { r with flags := { r.flags with originator := true } })

theorem State.coOriginate_claimed {s : State} (line : s.cc.lineEntry = .claimed) : s.coOriginate = s := by
  simp only [State.coOriginate, line]

theorem State.coOriginate_empty {s : State} (line : s.cc.lineEntry = .empty) :
    s.coOriginate = s.raise .captureRefused := by
  simp only [State.coOriginate, line]

theorem State.coOriginate_own {s : State} {id : Nat} {m : Mark} (line : s.cc.lineEntry = .entry id)
    (h : s.markOf id = some m) (own : m.originator = true) :
    s.coOriginate = if m.claim = .lost then s.submitClaim id else s := by
  simp only [State.coOriginate, line, h, own, if_true]

theorem State.coOriginate_other {s : State} {id : Nat} {m : Mark} (line : s.cc.lineEntry = .entry id)
    (h : s.markOf id = some m) (other : m.originator = false) :
    s.coOriginate = (s.originate m).submitClaim id := by
  obtain ⟨_, rfl⟩ := State.markOf_some h
  cases hs : m.slot <;> simp only [State.coOriginate, line, h, other, Bool.false_eq_true, if_false, State.originate, hs]

theorem State.originate_calm (m : Mark) (s : State) : s.Calm (s.originate m) := by
  have own := State.Calm.modifyMark m.id (f := fun x => { x with originator := true }) (fun _ => ⟨rfl, rfl⟩) s
  unfold State.originate
  split
  · exact own
  · refine own.trans (.modifyRecord _ ?_ _)
    exact fun _ => .of_phase rfl rfl

theorem State.originate_lc (m : Mark) (s : State) : (s.originate m).lc = s.lc := by
  unfold State.originate
  split <;> simp

theorem State.originate_lp (m : Mark) (s : State) : (s.originate m).lp = s.lp := by
  unfold State.originate
  split <;> simp

theorem State.originate_marks (m : Mark) (s : State) : (s.originate m).cc.marks =
    s.cc.marks.map (fun x => if x.id = m.id then { x with originator := true } else x) := by
  unfold State.originate
  split
  · rfl
  · rw [State.marks_modifyRecord]
    rfl

theorem State.originate_recordAt {m : Mark} {i : Fin 4} (hs : m.slot = some i) (s : State) :
    (s.originate m).recordAt i =
      (s.recordAt i).map (fun r => { r with flags := { r.flags with originator := true } }) := by
  unfold State.originate
  simp only [hs]
  rw [State.recordAt_modifyRecord, if_pos rfl]
  rfl

/-- The entry that the alert makes an originator's: the entry itself, or one that is one already. -/
theorem markOf_originated {s u : State} {m : Mark} (hm : m ∈ s.cc.marks) (nodup : (s.cc.marks.map Mark.id).Nodup)
    (marks : u.cc.marks = s.cc.marks.map (fun x => if x.id = m.id then { x with originator := true } else x)) :
    u.markOf m.id = some { m with originator := true } := by
  refine State.markOf_of_mem ?_ rfl ?_
  · rw [marks]
    exact List.mem_map.2 ⟨m, hm, if_pos rfl⟩
  · rw [marks, List.map_map]
    convert nodup using 1
    refine List.map_congr_left fun x _ => ?_
    simp only [Function.comp_apply]
    split <;> rfl

/-- What R4 asks of an alert at an entry that is no originator's, or whose CLAIM is lost: the CLAIM is submitted from a
state `u` in which the entry is an originator's, with all else but the record's flag as it was. -/
theorem State.coOriginate_claims {s : State} {m : Mark} (line : s.cc.lineEntry = .entry m.id) (hm : m ∈ s.cc.marks)
    (nodup : (s.cc.marks.map Mark.id).Nodup) (due : m.originator = false ∨ m.claim = .lost) :
    ∃ u, s.coOriginate = u.submitClaim m.id ∧ s.Calm u ∧ u.lc = s.lc ∧ u.lp = s.lp ∧
      u.cc.marks = s.cc.marks.map (fun x => if x.id = m.id then { x with originator := true } else x) ∧
      ∀ i r, m.slot = some i → s.recordAt i = some r →
        ∃ r', u.recordAt i = some r' ∧ (m.originator = false → r'.flags.originator = true) := by
  have found := State.markOf_of_mem hm rfl nodup
  cases own : m.originator with
  | true =>
    have lost : m.claim = .lost := due.resolve_left (by simp [own])
    refine ⟨s, ?_, .refl s, rfl, rfl, ?_, fun i r _ hr => ⟨r, hr, by simp⟩⟩
    · rw [State.coOriginate_own line found own, if_pos lost]
    · conv_lhs => rw [← List.map_id s.cc.marks]
      refine List.map_congr_left fun x hx => ?_
      split
      · rename_i e
        rw [mark_eq_of_id nodup hm hx e, ← own]
        rfl
      · rfl
  | false =>
    refine ⟨s.originate m, State.coOriginate_other line found own, s.originate_calm m, s.originate_lc m, s.originate_lp m,
      s.originate_marks m, fun i r hs hr => ?_⟩
    rw [State.originate_recordAt hs, hr]
    exact ⟨_, rfl, fun _ => rfl⟩

/-- The list after such an alert: the entry is an originator's, its CLAIM queued, or lost where the queue has no room. -/
theorem submitClaim_marks {s u : State} {m : Mark} (member : u.isMember = true)
    (found : u.markOf m.id = some { m with originator := true })
    (marks : u.cc.marks = s.cc.marks.map (fun x => if x.id = m.id then { x with originator := true } else x))
    {claim : ClaimStatus} (lost : u.NoRoom u.lc.queue → claim = .lost) (queued : ¬u.NoRoom u.lc.queue → claim = .queued) :
    (u.submitClaim m.id).cc.marks =
      s.cc.marks.map (fun x => if x.id = m.id then { x with originator := true, claim := claim } else x) := by
  have both : ∀ c : ClaimStatus, u.cc.marks.map (fun x => if x.id = m.id then { x with claim := c } else x) =
      s.cc.marks.map (fun x => if x.id = m.id then { x with originator := true, claim := c } else x) := by
    intro c
    rw [marks, List.map_map]
    refine List.map_congr_left fun x _ => ?_
    by_cases e : x.id = m.id <;> simp [e]
  by_cases full : u.NoRoom u.lc.queue
  · rw [State.submitClaim_noRoom full, State.claimLost_marks found, lost full, both]
  · rw [State.submitClaim_room member full found, queued full, ← both]
    simp [State.modifyMark]

/-! ## TRIGGER -/

/-- In MEMBER the alert is raised in the state that has heard the command, and answered OK. -/
theorem exec_trigger_member {s u : State} (h : s.AwaitsCommand 0x05 []) (station : s.mu.station = .member)
    (alert : (s.heard 0x05 []).alert = u) (transaction : u.lp.transaction = (s.heard 0x05 []).lp.transaction) :
    exec (.trigger []) s = .next { u with lp := { u.lp with
      transaction := (s.answered 0x05 [] 0x80 [] none).lp.transaction } } := by
  have taken : takeTrigger [] (s.heard 0x05 []) = (u, .ok []) := by
    rw [← alert]
    exact if_pos (isMember_iff.2 station)
  refine congrArg Host.Outcome.next ((h.clockCommand (takeTrigger [])).trans ?_)
  rw [taken, State.respond_of_transaction (transaction.trans rfl)]
  rfl

theorem State.alert_mute_station {s : State} (member : s.isMember = true) (mute : s.lc.mute = true) :
    s.alert = s.raise .alertSuppressed := by
  simp [State.alert, member, mute]

theorem State.alert_released {s : State} (member : s.isMember = true) (mute : s.lc.mute = false)
    (released : s.markAsserted = false) :
    s.alert = { s with cc := { s.cc with driver := .driving 4, edgePending := true } } := by
  simp [State.alert, member, mute, released]

theorem State.alert_pending {s : State} (member : s.isMember = true) (mute : s.lc.mute = false)
    (asserted : s.markAsserted = true) (pending : s.cc.edgePending = true) : s.alert = s := by
  simp [State.alert, member, mute, asserted, pending]

theorem State.alert_asserted {s : State} (member : s.isMember = true) (mute : s.lc.mute = false)
    (asserted : s.markAsserted = true) (taken : s.cc.edgePending = false) : s.alert = s.coOriginate := by
  simp [State.alert, member, mute, asserted, taken]

/-- Settles O16: one clause per branch of `alert`, and of `coOriginate` where the line is asserted. -/
theorem triggerAlerts : Obligations.TriggerAlerts := by
  unfold Obligations.TriggerAlerts
  intro s h
  refine ⟨fun outside => ?_, fun station mute => ?_, fun station mute released => ?_, fun station mute asserted => ?_⟩
  · refine congrArg Host.Outcome.next ((h.clockCommand (takeTrigger [])).trans ?_)
    have refused : takeTrigger [] (s.heard 0x05 []) = (s.heard 0x05 [], .bare codeBadState) :=
      if_neg fun hm => outside (isMember_iff.1 hm)
    rw [refused]
    rfl
  · exact exec_trigger_member h station (State.alert_mute_station (isMember_iff.2 station) mute) rfl
  · exact exec_trigger_member h station (State.alert_released (isMember_iff.2 station) mute released) rfl
  · have member : (s.heard 0x05 []).isMember = true := isMember_iff.2 station
    refine ⟨fun pending => ?_, fun taken => ?_⟩
    · exact exec_trigger_member h station (State.alert_pending member mute asserted pending) rfl
    have alert : (s.heard 0x05 []).alert = (s.heard 0x05 []).coOriginate :=
      State.alert_asserted member mute asserted taken
    refine ⟨fun line => ?_, fun line => ?_, fun id m line hm hid nodup => ?_⟩
    · exact exec_trigger_member h station (alert.trans (State.coOriginate_claimed line)) rfl
    · exact exec_trigger_member h station (alert.trans (State.coOriginate_empty line)) rfl
    subst hid
    refine ⟨fun own kept => ?_, fun due => ?_⟩
    · have found : (s.heard 0x05 []).markOf m.id = some m := State.markOf_of_mem hm rfl nodup
      exact exec_trigger_member h station
        (alert.trans ((State.coOriginate_own (s := s.heard 0x05 []) line found own).trans (if_neg kept))) rfl
    obtain ⟨u, claims, calm, lc, lp, marks, record⟩ :=
      State.coOriginate_claims (s := s.heard 0x05 []) line hm nodup due
    have found := markOf_originated hm nodup marks
    have own : u.isMember = true := by
      rw [State.isMember, calm.mu]
      exact member
    have room : u.NoRoom u.lc.queue ↔ 11 ≤ (s.lc.queue.filter (fun q => !q.payload.isEpoch)).length := by
      rw [State.NoRoom, lc]
      exact or_iff_right fun hm => by
        rw [show (s.heard 0x05 []).lc.mute = false from mute] at hm
        cases hm
    have submitted := State.Calm.submitClaim m.id u
    have port : (u.submitClaim m.id).lp = (s.heard 0x05 []).lp := by simp [lp]
    refine ⟨_, exec_trigger_member h station (alert.trans claims) (by rw [port]), ?_, ?_, ?_, ?_, fun hroom => ?_,
      fun i r hs hr => ?_⟩
    · simp only [port]
      rfl
    · exact (calm.trans submitted).aside.driver
    · exact (calm.trans submitted).lineEntry
    · refine submitClaim_marks own found marks (fun full => ?_) fun full => ?_
      · rw [if_pos (room.1 full)]
      · rw [if_neg fun hf => full (room.2 hf)]
    · have free : ¬u.NoRoom u.lc.queue := fun full => absurd (room.1 full) (not_le.2 hroom)
      dsimp only
      rw [State.submitClaim_room own free found]
      obtain ⟨q, hq, payload, cond, fails, mark⟩ := u.enqueue_new (.claim m.point) (some m.id)
      exact ⟨q, hq, payload, cond, fails, mark⟩
    · obtain ⟨r', hr', flag⟩ := record i r hs hr
      by_cases full : u.NoRoom u.lc.queue
      · refine ⟨r'.loseAnnounce, ?_, flag, fun _ => rfl⟩
        change (u.submitClaim m.id).recordAt i = _
        rw [State.submitClaim_noRoom full, State.claimLost_recordAt found, if_pos hs, hr', Option.map_some]
      · refine ⟨r', ?_, flag, fun hf => absurd (room.2 hf) full⟩
        change (u.submitClaim m.id).recordAt i = _
        rw [State.submitClaim_room own full found, ← hr']
        exact State.recordAt_of_records (by simp [State.modifyMark]) i

end Sys2Proof.Machine
end

