-- ==== Sys2Proof/Proofs/MarkEvent.lean ====
section
/-! The mark event: O32. -/

namespace Sys2Proof.Machine

/-! ## Slot opening at AS (R12) -/

theorem State.placeSpot_acq (i : Fin 4) (seq : Word) (s : State) :
    (s.placeSpot i seq).acq = { s.acq with spotList := s.acq.spotList ++
      (if s.cfg.spots = [] then [] else [{ requester := .capture i seq, inRun := false }]) } := by
  unfold State.placeSpot
  cases h : s.cfg.spots <;> simp

/-- A slot opening withdraws the place of the record that it discards, and puts in the new record's place. -/
theorem State.openSlot_acq {point : Point} {h : Nat} {base : Word32} {o : Bool} {s t : State} {i : Fin 4}
    (hs : s.openSlot point h base o = some (i, t)) :
    t.acq = { s.acq with spotList := s.acq.spotList.filter (fun p => !p.ofSlot i) ++
      (if s.cfg.spots = [] then [] else [{ requester := .capture i (s.nextSeq i), inRun := false }]) } := by
  unfold State.openSlot at hs
  split at hs
  · cases hs
  · cases hs
    exact (State.placeSpot_acq _ _ _).trans rfl

theorem State.hasCause_raise (c : Cause) (s : State) : (s.raise c).hasCause c = true := by
  have bit : c.mask.getLsbD c.index = true := by
    cases c <;> decide
  simp [State.hasCause, State.raise, bit]

/-! ## The entry of a mark event and its slot -/

/-- A change of the last entry, whose identity no other has. -/
theorem map_last_of_fresh {l : List Mark} {m : Mark} {f : Mark → Mark} (fresh : ∀ x ∈ l, x.id ≠ m.id) :
    (l ++ [m]).map (fun x => if x.id = m.id then f x else x) = l ++ [f m] := by
  rw [List.map_append, List.map_singleton, if_pos rfl]
  congr 1
  conv_rhs => rw [← List.map_id l]
  exact List.map_congr_left fun x hx => if_neg (fresh x hx)

/-- What the mark event's slot opening comes to: the entry stands last with the slot chosen, if one was; the refusal is
told otherwise; LC and LP's session are as they were. -/
theorem State.openFor_withMark {s : State} (point : Point) (fresh : ∀ m ∈ s.cc.marks, m.id ≠ s.cc.nextMark) {u : State}
    (hu : (s.withMark point).openFor (s.newMark point) = u) :
    u.cc.marks = s.cc.marks ++ [{ s.newMark point with slot := s.chooseSlot }] ∧
      u.cc.lineEntry = .entry s.cc.nextMark ∧ u.lc = s.lc ∧ u.mu = s.mu ∧
      (s.chooseSlot = none → u.hasCause .captureRefused = true ∧ u.acq = s.acq ∧ ∀ i, u.recordAt i = s.recordAt i) ∧
      (∀ i, s.chooseSlot = some i →
        (∀ j, j ≠ i → u.recordAt j = s.recordAt j) ∧ u.lp = s.lp ∧
        u.cc.opening = s.cc.opening.filter (fun j => j ≠ i) ++ [i] ∧
        u.recordAt i = some (s.newRecord (s.nextSeq i) point s.hr.frames.length s.hr.nextWrite s.driving) ∧
        u.acq = { s.acq with spotList := s.acq.spotList.filter (fun p => !p.ofSlot i) ++
          (if s.cfg.spots = [] then [] else [{ requester := .capture i (s.nextSeq i), inRun := false }]) }) := by
  have choice : (s.withMark point).chooseSlot = s.chooseSlot := rfl
  unfold State.openFor at hu
  cases ho : (s.withMark point).openSlot (s.newMark point).point (s.withMark point).hr.frames.length
      (s.withMark point).hr.nextWrite (s.newMark point).originator with
  | none =>
    simp only [ho] at hu
    subst hu
    have none_ : s.chooseSlot = none := choice ▸ State.openSlot_none.1 ho
    refine ⟨by rw [none_]; rfl, rfl, rfl, rfl, fun _ => ⟨?_, rfl, fun i => rfl⟩, fun i hi => ?_⟩
    · exact State.hasCause_raise _ _
    · rw [none_] at hi
      cases hi
  | some it =>
    obtain ⟨i, t⟩ := it
    simp only [ho] at hu
    subst hu
    obtain ⟨chosen, record, others, opening, _, marks, _, line, _, _⟩ := State.openSlot_some ho
    obtain ⟨mu, _, lc, _, _, lp, _⟩ := State.openSlot_frame ho
    have acq := State.openSlot_acq ho
    have some_ : s.chooseSlot = some i := choice ▸ chosen
    refine ⟨?_, line, lc, mu, fun hn => ?_, fun k hk => ?_⟩
    · rw [some_]
      simp only [State.modifyMark, marks]
      exact map_last_of_fresh (m := s.newMark point) fresh
    · rw [some_] at hn
      cases hn
    · rw [some_] at hk
      cases hk
      exact ⟨others, lp, opening, record, acq⟩

theorem State.addMark_assembly (point : Point) (s : State) : (s.addMark point).acq.assembly = s.acq.assembly := by
  have opened : ((s.withMark point).openFor (s.newMark point)).acq.assembly = s.acq.assembly := by
    unfold State.openFor
    split
    · rfl
    · rename_i ho
      have acq := State.openSlot_acq ho
      simp only [State.modifyMark, acq]
      rfl
  by_cases room : s.cc.marks.length < 6
  · rw [State.addMark_room room]
    split
    · rw [(State.submitClaim_frame _ _).2.2.2.1, opened]
    · exact opened
  · rw [State.addMark_full (not_lt.1 room)]
    rfl

/-- The CLAIM of the entry that stands last, when it is an originator's: queued, or lost with ANNOUNCE_LOST (R9, R13). -/
theorem State.submitClaim_last {w : State} {l : List Mark} {e : Mark} (member : w.isMember = true)
    (marks : w.cc.marks = l ++ [e]) (fresh : ∀ x ∈ l, x.id ≠ e.id) :
    (w.NoRoom w.lc.queue → (w.submitClaim e.id).cc.marks = l ++ [{ e with claim := .lost }] ∧
      ∀ j, (w.submitClaim e.id).recordAt j =
        if e.slot = some j then (w.recordAt j).map CapRecord.loseAnnounce else w.recordAt j) ∧
    (¬w.NoRoom w.lc.queue → (w.submitClaim e.id).cc.marks = l ++ [{ e with claim := .queued }] ∧
      (∀ j, (w.submitClaim e.id).recordAt j = w.recordAt j) ∧
      ∃ q ∈ (w.submitClaim e.id).lc.queue, q.cond = .queued ∧ q.payload = .claim e.point) := by
  have found : w.markOf e.id = some e := by
    have before : l.find? (fun m => m.id == e.id) = none :=
      List.find?_eq_none.2 fun x hx => by simpa using fresh x hx
    rw [State.markOf, marks, List.find?_append, before, Option.none_or, List.find?_cons_of_pos (by simp)]
  refine ⟨fun full => ?_, fun room => ?_⟩
  · rw [State.submitClaim_noRoom full]
    refine ⟨?_, State.claimLost_recordAt found⟩
    rw [State.claimLost_marks found, marks, map_last_of_fresh fresh]
  · rw [State.submitClaim_room member room found]
    refine ⟨?_, fun j => State.recordAt_of_records (by simp [State.modifyMark]) j, ?_⟩
    · have queued : ∀ u : State, u.cc.marks = w.cc.marks →
          (u.modifyMark e.id (fun x => { x with claim := .queued })).cc.marks = l ++ [{ e with claim := .queued }] := by
        intro u hu
        rw [State.modifyMark, hu, marks]
        exact map_last_of_fresh fresh
      exact queued _ rfl
    · obtain ⟨q, hq, payload, cond, _⟩ := w.enqueue_new (.claim e.point) (some e.id)
      exact ⟨q, hq, cond, payload⟩

/-! ## The mark event (R8) -/

/-- The mark event in MEMBER comes from this station's own edge or from another station that begins to drive. -/
theorem State.markEdge_takeMark {s : State} (member : s.isMember = true)
    (edge : s.cc.edgePending = true ∨ s.markAsserted = false) :
    ∃ others pending, s.markEdge =
      State.takeMark { s with cc := { s.cc with othersDrive := others, edgePending := pending } } := by
  cases hp : s.cc.edgePending with
  | true =>
    refine ⟨s.cc.othersDrive, false, ?_⟩
    rw [State.markEdge_pending hp, if_pos member]
  | false =>
    have released : s.markAsserted = false := edge.resolve_left (by simp [hp])
    refine ⟨true, false, ?_⟩
    rw [State.markEdge_others hp, released, member, Bool.not_false, Bool.and_self, if_pos rfl, ← hp]

/-- Settles O32. -/
theorem markEventAdds : Obligations.MarkEventAdds := by
  unfold Obligations.MarkEventAdds
  intro s station edge
  obtain ⟨others, pending, next⟩ := State.markEdge_takeMark (isMember_iff.2 station) edge
  have next : exec .markEvent s = .next _ := congrArg Host.Outcome.next next
  refine ⟨fun none_ => ?_, fun a some_ => ?_⟩
  · have taken : State.takeMark { s with cc := { s.cc with othersDrive := others, edgePending := pending } } =
        { s with cc := { s.cc with othersDrive := others, edgePending := pending, lineEntry := .empty } } := by
      simp only [State.takeMark, none_]
    rw [taken] at next
    exact ⟨_, next, rfl, rfl, fun _ => rfl, rfl, rfl, rfl⟩
  /- The mark frame is flagged, and the entry is added in that state. -/
  obtain ⟨v, hv⟩ : ∃ v : State, v = { s with
      cc := { s.cc with othersDrive := others, edgePending := pending }
      acq := { s.acq with assembly := some { a with mark := true } } } := ⟨_, rfl⟩
  have taken : State.takeMark { s with cc := { s.cc with othersDrive := others, edgePending := pending } } =
      v.addMark ⟨a.epoch, a.tick⟩ := by
    simp only [State.takeMark, some_, hv]
  rw [taken] at next
  refine ⟨_, next, ?_, fun full => ?_, fun room fresh => ?_⟩
  · rw [State.addMark_assembly, hv]
  · rw [State.addMark_full (by rwa [hv])]
    rw [hv]
    exact ⟨rfl, rfl, State.hasCause_raise _ _, fun _ => rfl, rfl, rfl⟩
  intro full claim entry
  have roomV : v.cc.marks.length < 6 := by rwa [hv]
  have freshV : ∀ m ∈ v.cc.marks, m.id ≠ v.cc.nextMark := by rwa [hv]
  have chooseV : v.chooseSlot = s.chooseSlot := by rw [hv]; rfl
  have drivingV : v.driving = s.driving := by rw [hv]; rfl
  obtain ⟨marks, line, lc, mu, refused, opened⟩ := State.openFor_withMark ⟨a.epoch, a.tick⟩ freshV rfl
  rw [State.addMark_room roomV]
  generalize (v.withMark ⟨a.epoch, a.tick⟩).openFor (v.newMark ⟨a.epoch, a.tick⟩) = w at marks line lc mu refused opened ⊢
  have member : w.isMember = true := by
    rw [State.isMember, mu, hv]
    exact isMember_iff.2 station
  obtain ⟨lost, queued⟩ := State.submitClaim_last member marks freshV
  have noRoom : w.NoRoom w.lc.queue ↔ s.lc.mute = true ∨ full := by
    rw [State.NoRoom, lc, hv]
  /- The state after the entry's CLAIM, if it is an originator's: only the entry, the queue and ANNOUNCE_LOST differ. -/
  obtain ⟨x, hx, calm, acq, lp, marksX, recordX, queueX⟩ : ∃ x,
      (if v.driving = true then w.submitClaim v.cc.nextMark else w) = x ∧ w.Calm x ∧ x.acq = w.acq ∧ x.lp = w.lp ∧
      x.cc.marks = v.cc.marks ++ [{ v.newMark ⟨a.epoch, a.tick⟩ with slot := v.chooseSlot, claim := claim }] ∧
      (∀ j, x.recordAt j =
        if claim = .lost ∧ v.chooseSlot = some j then (w.recordAt j).map CapRecord.loseAnnounce else w.recordAt j) ∧
      (claim = .queued → ∃ q ∈ x.lc.queue, q.cond = .queued ∧ q.payload = .claim ⟨a.epoch, a.tick⟩) := by
    have submitted := State.Calm.submitClaim v.cc.nextMark w
    have acq := (w.submitClaim_frame v.cc.nextMark).2.2.2.1
    have lp := (w.submitClaim_frame v.cc.nextMark).2.2.2.2.2.1
    cases hd : s.driving with
    | false =>
      have hc : claim = .none := by simp [claim, hd]
      rw [drivingV, hd, if_neg Bool.false_ne_true, hc]
      exact ⟨w, rfl, .refl w, rfl, rfl, marks, fun j => by simp, by simp⟩
    | true =>
      rw [drivingV, hd, if_pos rfl]
      by_cases h : s.lc.mute = true ∨ full
      · have hc : claim = .lost := by simp only [claim, hd, if_true, if_pos h]
        obtain ⟨lostMarks, lostRecords⟩ := lost (noRoom.2 h)
        rw [hc]
        exact ⟨_, rfl, submitted, acq, lp, lostMarks, fun j => (lostRecords j).trans (by simp), by simp⟩
      · have hc : claim = .queued := by simp only [claim, hd, if_true, if_neg h]
        obtain ⟨queuedMarks, queuedRecords, message⟩ := queued fun hn => h (noRoom.1 hn)
        rw [hc]
        exact ⟨_, rfl, submitted, acq, lp, queuedMarks, fun j => (queuedRecords j).trans (by simp), fun _ => message⟩
  rw [hx]
  have entryV : { v.newMark ⟨a.epoch, a.tick⟩ with slot := v.chooseSlot, claim := claim } = entry s.chooseSlot := by
    rw [chooseV, hv]
    rfl
  refine ⟨?_, ?_, queueX, fun none_ => ⟨?_, fun i => ?_⟩, fun i some_ => ⟨fun j hj => ?_, ?_, ?_, ?_⟩⟩
  · rw [calm.lineEntry, line, hv]
  · rw [marksX, entryV, hv]
  · exact calm.causes _ (refused (chooseV.trans none_)).1
  · rw [recordX, chooseV, none_, if_neg (by simp), (refused (chooseV.trans none_)).2.2, hv]
    rfl
  · rw [recordX, chooseV, some_, if_neg (by simpa using fun _ => Ne.symm hj), (opened i (chooseV.trans some_)).1 j hj, hv]
    rfl
  · rw [lp, (opened i (chooseV.trans some_)).2.1, hv]
  · rw [calm.opening, (opened i (chooseV.trans some_)).2.2.1, hv]
  · obtain ⟨_, _, _, record, spot⟩ := opened i (chooseV.trans some_)
    refine ⟨{ s.newRecord (v.nextSeq i) ⟨a.epoch, a.tick⟩ s.hr.frames.length s.hr.nextWrite s.driving with
      flags :=
        { originator := s.driving, shortPre := decide (s.hr.frames.length < s.cfg.npre)
          announceLost := decide (claim = .lost) } }, ?_, rfl, rfl, rfl, rfl, rfl, rfl, rfl, rfl, rfl, rfl, rfl, ?_, ?_⟩
    · rw [recordX, record, chooseV, some_, hv]
      by_cases hc : claim = .lost
      · rw [if_pos ⟨hc, rfl⟩]
        simp only [hc, decide_true]
        rfl
      · rw [if_neg fun h => hc h.1]
        simp only [hc, decide_false]
        rfl
    · simp only [State.newRecord, List.isEmpty_iff]
    · rw [acq, spot, hv]
      rfl

end Sys2Proof.Machine
end

