-- ==== Sys2Proof/Proofs/TickParts.lean ====
section
/-! SUPPORT. The parts of a tick in MEMBER, as CC sees them: each is made of a few operations, and what all of those keep
every part keeps, in any order. -/

namespace Sys2Proof.Machine

/-! ## A tick in MEMBER -/

theorem State.takeTick_member {s : State} (running : s.et.running = true) (station : s.mu.station = .member)
    (order : List Part) : s.takeTick order = s.memberTick order := by
  have listen : s.isListen = false := by simp [State.isListen, station]
  simp [State.takeTick, running, listen, isMember_iff.2 station]

theorem State.tickWhen_member {s : State} (running : s.et.running = true) (station : s.mu.station = .member) {due : Bool}
    (h : due = true) (order : List Part) : s.tickWhen due order = s.memberTick order := by
  rw [State.tickWhen, if_pos h, State.takeTick_member running station]

theorem State.wrapsNext_iff {s : State} (running : s.et.running = true) (station : s.mu.station = .member) :
    s.wrapsNext = true ↔ s.et.counter.toNat + 1 = s.cfg.epochLen := by
  simp [State.wrapsNext, State.memberTicks, State.atEpochEnd, running, isMember_iff.2 station]

/-- A step of a fold brings `Q` about at one element, the elements before it keep `P`, and those after it keep `Q`. -/
theorem foldl_reach {α β : Type} (P Q : α → Prop) (f : α → β → α) (q : β) (l : List β) (nodup : l.Nodup) (hq : q ∈ l)
    (before : ∀ a b, b ≠ q → P a → P (f a b)) (here : ∀ a, P a → Q (f a q)) (after : ∀ a b, b ≠ q → Q a → Q (f a b))
    {a : α} (ha : P a) : Q (l.foldl f a) := by
  induction l generalizing a with
  | nil => cases hq
  | cons b l ih =>
    rw [List.nodup_cons] at nodup
    by_cases hb : b = q
    · subst hb
      refine List.foldlRecOn l f (here a ha) fun a' ha' c hc => after a' c ?_ ha'
      exact fun e => nodup.1 (e ▸ hc)
    · exact ih nodup.2 ((List.mem_cons.1 hq).resolve_left (Ne.symm hb)) (before a b hb ha)

/-- One part of a tick brings `Q` about, the others keep `P` before it and `Q` after it. -/
theorem State.memberTick_reach (P Q : State → Prop) (q : Part) (hq : q ∈ tickParts) {s : State} {order : List Part}
    (start : P (s.advanceCounter.winWith order))
    (before : ∀ u p, p ≠ q → P u → P (State.tickPart s.atEpochEnd s u p))
    (here : ∀ u, P u → Q (State.tickPart s.atEpochEnd s u q))
    (after : ∀ u p, p ≠ q → Q u → Q (State.tickPart s.atEpochEnd s u p)) : Q (s.memberTick order) :=
  foldl_parts_reach P Q _ q _ (nodup_completeOrder order (by decide)) (mem_completeOrder.2 hq) before here after start

/-! ## What the parts are made of -/

/-- Nothing has changed at CC; the queue has no message more that stands for an entry, the monitors in use are as many,
and no attention cause is gone. -/
structure State.Beside (s t : State) : Prop where
  cc       : t.cc = s.cc
  queue    : ∀ q ∈ t.lc.queue, q.mark ≠ none → q ∈ s.lc.queue
  monitors : t.tm.monitors = [] ↔ s.tm.monitors = []
  causes   : ∀ c, s.hasCause c = true → t.hasCause c = true

namespace State.Beside

theorem refl (s : State) : s.Beside s := ⟨rfl, fun _ h _ => h, Iff.rfl, fun _ h => h⟩

theorem trans {s t u : State} (h : s.Beside t) (k : t.Beside u) : s.Beside u :=
  ⟨k.cc.trans h.cc, fun q hq hm => h.queue q (k.queue q hq hm) hm, k.monitors.trans h.monitors,
    fun c hc => k.causes c (h.causes c hc)⟩

theorem of_frame {s t : State} (cc : t.cc = s.cc) (lc : t.lc = s.lc) (tm : t.tm = s.tm) (lp : t.lp = s.lp) : s.Beside t :=
  ⟨cc, fun q hq _ => lc ▸ hq, by rw [tm], fun c hc => by simpa only [State.hasCause, lp] using hc⟩

theorem raise (c : Cause) (s : State) : s.Beside (s.raise c) :=
  ⟨rfl, fun _ hq _ => hq, Iff.rfl, (Calm.raise c s).causes⟩

theorem submit {p : Payload} {s t : State} (h : s.submit p none = some t) : s.Beside t := by
  obtain ⟨_, _, cc, _, _, tm, lp, _⟩ := State.submit_frame h
  refine ⟨cc, fun q hq hm => ?_, by rw [tm], fun c hc => by simpa only [State.hasCause, lp] using hc⟩
  rcases State.submit_mem h hq with hq | ⟨_, mark, _⟩
  · exact hq
  · exact absurd mark hm

theorem submitOrDrop (p : Payload) (s : State) : s.Beside (s.submitOrDrop p) := by
  unfold State.submitOrDrop
  cases h : s.submit p none with
  | none => exact refl s
  | some t => exact submit h

theorem submitEpoch (n : Word32) (s : State) : s.Beside (s.submitEpoch n) := by
  unfold State.submitEpoch
  split
  · exact refl s
  · split
    · exact of_frame rfl rfl rfl rfl
    · rename_i h
      exact (submit h).trans (of_frame rfl rfl rfl rfl)

theorem lcEpochStart (s : State) : s.Beside s.lcEpochStart := by
  have moved : ∀ u : State, u.Beside { u with lc := { u.lc with obsPrev := u.lc.obsCur, obsCur := .empty } } :=
    fun u => ⟨rfl, fun _ hq _ => hq, Iff.rfl, fun _ hc => hc⟩
  unfold State.lcEpochStart
  refine trans ?_ (moved _)
  split
  · refine trans ?_ (raise .linkMute _)
    exact ⟨rfl, fun _ hq _ => hq, Iff.rfl, fun _ hc => hc⟩
  · exact refl s

theorem expirePeers (s : State) : s.Beside s.expirePeers := by
  unfold State.expirePeers
  dsimp only
  split
  · refine trans ?_ (raise .peerChange _)
    exact of_frame rfl rfl rfl rfl
  · exact of_frame rfl rfl rfl rfl

theorem muEpochStart (s : State) : s.Beside s.muEpochStart := by
  unfold State.muEpochStart
  split
  · exact refl s
  · have spoke : s.Beside (if s.mu.spoken then s else s.submitPresent) := by
      split
      · exact refl s
      · exact submitOrDrop _ s
    dsimp only
    refine spoke.trans (trans ?_ (expirePeers _))
    exact of_frame rfl rfl rfl rfl

theorem storeFrame (f : Frame) (s : State) : s.Beside (s.storeFrame f) := of_frame rfl rfl rfl rfl

theorem advanceRing (s : State) : s.Beside s.advanceRing := of_frame rfl rfl rfl rfl

end State.Beside

theorem length_evaluate (f : Frame) (ps : List MonitorParams) (ms : List MonitorState) :
    (evaluate f ps ms).1.length = ms.length := by
  induction ps generalizing ms with
  | nil => cases ms <;> rfl
  | cons p ps ih =>
    cases ms with
    | nil => rfl
    | cons m ms => simp [evaluate, ih]

theorem evaluate_nil (f : Frame) (ps : List MonitorParams) : evaluate f ps [] = ([], 0) := by
  cases ps <;> rfl

/-- What alerts keep, many of them keep; without monitors in use there are none. -/
theorem State.handOn_keeps {P : State → Prop} (beside : ∀ u v, u.Beside v → P u → P v)
    (alert : ∀ u, u.tm.monitors ≠ [] → P u → P u.alert) (f : Frame) {s : State} (h : P s) : P (s.handOn f) := by
  have evaluated : P { s with tm := { monitors := (evaluate f s.cfg.monitors s.tm.monitors).1 } } := by
    refine beside s _ ⟨rfl, fun _ hq _ => hq, ?_, fun _ hc => hc⟩ h
    rw [← List.length_eq_zero_iff, length_evaluate, List.length_eq_zero_iff]
  have many : ∀ n u, u.tm.monitors ≠ [] → P u → P (State.alerts n u) := by
    intro n
    induction n with
    | zero => exact fun u _ hu => hu
    | succ n ih => exact fun u hm hu => ih u.alert (by rwa [(State.alert_frame u).2.2.2.2.1]) (alert u hm hu)
  unfold State.handOn
  dsimp only
  by_cases hm : s.tm.monitors = []
  · have none_ : (evaluate f s.cfg.monitors s.tm.monitors).2 = 0 := by rw [hm, evaluate_nil]
    rw [none_]
    exact evaluated
  · refine many _ _ ?_ evaluated
    rw [ne_eq, ← List.length_eq_zero_iff, length_evaluate, List.length_eq_zero_iff]
    exact hm

/-- What the copying of a frame into a record whose cursor stands on it keeps, a write keeps. -/
theorem State.writeFrame_keeps {P : State → Prop} (beside : ∀ u v, u.Beside v → P u → P v)
    (copy : ∀ u i k f, u.cursorAt i k = true → P u → P (u.copyInto i f)) (f : Frame) {s : State} (h : P s) :
    P (s.writeFrame f) := by
  have all : ∀ k g u, P u → P (State.copyToAll k g u) := by
    intro k g u hu
    refine foldl_keeps P _ slots (fun t i ht => ?_) hu
    split
    · rename_i at_
      exact copy t i k g at_ ht
    · exact ht
  have room : P s.makeRoom := by
    unfold State.makeRoom
    split
    · exact h
    · split
      · exact all _ _ s h
      · exact h
  unfold State.writeFrame
  exact beside _ _ (.advanceRing _) (all _ _ _ (beside _ _ (.storeFrame f _) room))

theorem State.acquire_keeps {P : State → Prop} (beside : ∀ u v, u.Beside v → P u → P v)
    (copy : ∀ u i k f, u.cursorAt i k = true → P u → P (u.copyInto i f))
    (alert : ∀ u, u.tm.monitors ≠ [] → P u → P u.alert) {s : State} (h : P s) : P s.acquire := by
  have begun : P (s.cutSweep.beginFrame.startSweep) :=
    beside s _ (.of_frame (by simp) (by simp) (by simp) (by simp)) h
  unfold State.acquire
  split
  · exact begun
  · exact State.handOn_keeps beside alert _ (State.writeFrame_keeps beside copy _ begun)

/-- What the operations that a part of a tick is made of keep, the part keeps. -/
theorem State.tickPart_keeps {P : State → Prop} {wrapped : Bool} {before : State} {p : Part}
    (beside : ∀ u v, u.Beside v → P u → P v)
    (copy : ∀ u i k f, u.cursorAt i k = true → P u → P (u.copyInto i f))
    (alert : ∀ u, u.tm.monitors ≠ [] → P u → P u.alert)
    (ccTick : p = .ccTick → ∀ u, P u → P (u.ccTick before.markAsserted before.cc.driver))
    (ccEpoch : p = .ccEpoch → ∀ u, P u → P u.ccEpochStart) {u : State} (h : P u) :
    P (State.tickPart wrapped before u p) := by
  unfold State.tickPart
  cases p with
  | ccTick => exact ccTick rfl u h
  | acquisition => exact State.acquire_keeps beside copy alert h
  | epochSubmit =>
    dsimp only
    split
    · exact beside u _ (.submitEpoch _ u) h
    · exact h
  | lcEpoch =>
    dsimp only
    split
    · exact beside u _ (.lcEpochStart u) h
    · exact h
  | ccEpoch =>
    dsimp only
    split
    · exact ccEpoch rfl u h
    · exact h
  | muEpoch =>
    dsimp only
    split
    · exact beside u _ (.muEpochStart u) h
    · exact h
  | muTake => exact h
  | win => exact h

end Sys2Proof.Machine
end

