-- ==== Sys2Proof/Proofs/EpochStart.lean ====
section
/-! SUPPORT. The epoch start at an open-mark entry, case by case, and what abandonment leaves (R22, R23). -/

namespace Sys2Proof.Machine

theorem State.recordAt_retireLine (id : Nat) (d : LineEntry) (s : State) (j : Fin 4) :
    (s.retireLine id d).recordAt j = s.recordAt j := by
  unfold State.retireLine
  split <;> rfl

theorem State.marks_retireLine (id : Nat) (d : LineEntry) (s : State) : (s.retireLine id d).cc.marks = s.cc.marks := by
  unfold State.retireLine
  split <;> rfl

theorem State.lineEntry_retireLine (id : Nat) (d : LineEntry) (s : State) :
    (s.retireLine id d).cc.lineEntry = if s.cc.lineEntry = .entry id then d else s.cc.lineEntry := by
  unfold State.retireLine
  split <;> rfl

/-! ## Abandonment (R23) -/

/-- The abandoned entry's record is freed. -/
def State.freeSlotOf (m : Mark) (s : State) : State :=
  match m.slot with
  | none => s
  | some i => s.freeRecord i

theorem State.abandon_eq {s : State} {id : Nat} {m : Mark} (h : s.markOf id = some m) :
    s.abandon id =
      (((((s.dropMark id).withdrawMsg (claimOf id)).freeSlotOf m).retireLine id .empty).raise .captureAbandoned) := by
  cases hs : m.slot <;> simp only [State.abandon, State.freeSlotOf, h, hs]

theorem State.freeSlotOf_cc (m : Mark) (s : State) : (s.freeSlotOf m).cc.marks = s.cc.marks ∧
    (s.freeSlotOf m).cc.lineEntry = s.cc.lineEntry ∧ (s.freeSlotOf m).lc = s.lc := by
  unfold State.freeSlotOf
  split
  · exact ⟨rfl, rfl, rfl⟩
  · exact ⟨rfl, rfl, rfl⟩

theorem State.recordAt_freeSlotOf (m : Mark) (s : State) (j : Fin 4) :
    (s.freeSlotOf m).recordAt j = if m.slot = some j then none else s.recordAt j := by
  unfold State.freeSlotOf
  split
  · rename_i hs
    simp [hs]
  · rename_i i hs
    simp [hs]

section
variable {s : State} {id : Nat} {m : Mark} (h : s.markOf id = some m)
include h

theorem State.abandon_marks : (s.abandon id).cc.marks = s.cc.marks.filter (fun x => x.id ≠ id) := by
  rw [State.abandon_eq h]
  refine (State.marks_retireLine _ _ _).trans ?_
  rw [(State.freeSlotOf_cc m _).1]
  rfl

theorem State.abandon_lineEntry :
    (s.abandon id).cc.lineEntry = if s.cc.lineEntry = .entry id then .empty else s.cc.lineEntry := by
  rw [State.abandon_eq h]
  refine (State.lineEntry_retireLine _ _ _).trans ?_
  rw [(State.freeSlotOf_cc m _).2.1]
  rfl

theorem State.abandon_recordAt (j : Fin 4) :
    (s.abandon id).recordAt j = if m.slot = some j then none else s.recordAt j := by
  rw [State.abandon_eq h]
  refine (State.recordAt_retireLine _ _ _ j).trans ?_
  rw [State.recordAt_freeSlotOf]
  rfl

theorem State.abandon_queue :
    (s.abandon id).lc.queue = s.lc.queue.filter (fun q => q.moving || !claimOf id q) := by
  rw [State.abandon_eq h]
  have retired : ∀ u : State, ((u.retireLine id .empty).raise .captureAbandoned).lc = u.lc := fun u => by simp
  rw [retired, (State.freeSlotOf_cc m _).2.2]
  rfl

theorem State.abandon_told : (s.abandon id).hasCause .captureAbandoned = true := by
  rw [State.abandon_eq h]
  exact State.hasCause_raise _ _

/-! ## An entry at an epoch start (R22) -/

theorem State.markEpoch_deferred (deferred : m.deferred = true) : s.markEpoch id = s := by
  simp only [State.markEpoch, h, deferred, if_true]

theorem State.markEpoch_first (deferred : m.deferred = false) (starts : m.starts = 0) :
    s.markEpoch id = s.modifyMark id (fun x => { x with starts := 1 }) := by
  simp [State.markEpoch, h, deferred, starts]

theorem State.markEpoch_moving (deferred : m.deferred = false) (starts : m.starts ≠ 0) (claim : m.claim = .inTransmission) :
    s.markEpoch id = s.modifyMark id (fun x => { x with deferred := true }) := by
  simp [State.markEpoch, h, deferred, starts, claim]

theorem State.markEpoch_abandons (deferred : m.deferred = false) (starts : m.starts ≠ 0) (claim : m.claim ≠ .inTransmission) :
    s.markEpoch id = s.abandon id := by
  simp [State.markEpoch, h, deferred, starts, claim]

end

theorem State.markEpoch_none {s : State} {id : Nat} (h : s.markOf id = none) : s.markEpoch id = s := by
  simp only [State.markEpoch, h]

/-- What the entry of one identity can meet at an epoch start: nothing, a change of its own fields, or abandonment. -/
theorem State.markEpoch_cases (s : State) (id : Nat) :
    s.markEpoch id = s ∨
    (∃ f : Mark → Mark, (∀ x, (f x).id = x.id ∧ (f x).slot = x.slot) ∧ s.markEpoch id = s.modifyMark id f) ∨
    ∃ m, s.markOf id = some m ∧ s.markEpoch id = s.abandon id := by
  cases h : s.markOf id with
  | none => exact .inl (State.markEpoch_none h)
  | some m =>
    cases deferred : m.deferred with
    | true => exact .inl (State.markEpoch_deferred h deferred)
    | false =>
      by_cases starts : m.starts = 0
      · refine .inr (.inl ⟨_, ?_, State.markEpoch_first h deferred starts⟩)
        exact fun _ => ⟨rfl, rfl⟩
      · by_cases claim : m.claim = .inTransmission
        · refine .inr (.inl ⟨_, ?_, State.markEpoch_moving h deferred starts claim⟩)
          exact fun _ => ⟨rfl, rfl⟩
        · exact .inr (.inr ⟨m, rfl, State.markEpoch_abandons h deferred starts claim⟩)

/-- The line entry stays at an epoch start, or is retired. -/
theorem State.markEpoch_lineEntry (s : State) (id : Nat) :
    (s.markEpoch id).cc.lineEntry = s.cc.lineEntry ∨ (s.markEpoch id).cc.lineEntry = .empty := by
  rcases s.markEpoch_cases id with e | ⟨f, _, e⟩ | ⟨m, h, e⟩
  · exact .inl (by rw [e])
  · exact .inl (by rw [e]; rfl)
  · rw [e, State.abandon_lineEntry h]
    split
    · exact .inr rfl
    · exact .inl rfl

end Sys2Proof.Machine
end

