-- ==== Sys2Proof/Proofs/PulseTick.lean ====
section
/-! O28. The mark pulse and the stuck count at a tick: CC's own tick works on them, and what the other parts can do to the
line, before it or after it, is one relation. -/

namespace Sys2Proof.Machine

/-! ## The line beside CC's own tick -/

/-- What the parts of a tick but CC's own do at the line: the line entry may be retired, and an alert of a monitor may begin
a pulse on a released line. -/
structure State.LineTurn (s t : State) : Prop where
  others    : t.cc.othersDrive = s.cc.othersDrive
  stuck     : t.cc.stuck = s.cc.stuck
  lineEntry : t.cc.lineEntry = s.cc.lineEntry ∨ t.cc.lineEntry = .empty
  pulse     : (t.cc.driver = s.cc.driver ∧ t.cc.edgePending = s.cc.edgePending) ∨
    (s.markAsserted = false ∧ s.tm.monitors ≠ [] ∧ t.cc.driver = .driving 4 ∧ t.cc.edgePending = true)
  monitors  : t.tm.monitors = [] ↔ s.tm.monitors = []
  causes    : ∀ c, s.hasCause c = true → t.hasCause c = true

theorem markAsserted_eq_false_iff {s : State} :
    s.markAsserted = false ↔ s.cc.driver = .idle ∧ s.cc.othersDrive = false := by
  simp [State.markAsserted, State.driving]

theorem markAsserted_eq {s t : State} (driver : t.cc.driver = s.cc.driver) (others : t.cc.othersDrive = s.cc.othersDrive) :
    t.markAsserted = s.markAsserted := by
  simp only [State.markAsserted, State.driving, driver, others]

theorem markAsserted_of_driving {s : State} {n : Nat} (h : s.cc.driver = .driving n) : s.markAsserted = true := by
  simp [State.markAsserted, State.driving, h]

namespace State.LineTurn

theorem of_aside {s t : State} (h : s.Aside t) (line : t.cc.lineEntry = s.cc.lineEntry ∨ t.cc.lineEntry = .empty)
    (tm : t.tm = s.tm) : s.LineTurn t :=
  ⟨h.others, h.stuck, line, .inl ⟨h.driver, h.edge⟩, by rw [tm], h.causes⟩

theorem of_calm {s t : State} (h : s.Calm t) (tm : t.tm = s.tm) : s.LineTurn t := of_aside h.aside (.inl h.lineEntry) tm

theorem of_beside {s t : State} (h : s.Beside t) : s.LineTurn t := by
  refine ⟨?_, ?_, .inl ?_, .inl ⟨?_, ?_⟩, h.monitors, h.causes⟩ <;> rw [h.cc]

theorem refl (s : State) : s.LineTurn s := of_beside (.refl s)

theorem trans {s t u : State} (h : s.LineTurn t) (k : t.LineTurn u) : s.LineTurn u := by
  refine ⟨k.others.trans h.others, k.stuck.trans h.stuck, ?_, ?_, k.monitors.trans h.monitors,
    fun c hc => k.causes c (h.causes c hc)⟩
  · rcases k.lineEntry with same | empty
    · rw [same]
      exact h.lineEntry
    · exact .inr empty
  · rcases h.pulse with ⟨driver, edge⟩ | ⟨released, monitored, begun, edge⟩
    · have next := k.pulse
      rwa [driver, edge, markAsserted_eq driver h.others, ne_eq, h.monitors] at next
    · rcases k.pulse with ⟨driver', edge'⟩ | ⟨released', _⟩
      · exact .inr ⟨released, monitored, driver'.trans begun, edge'.trans edge⟩
      · simp [markAsserted_of_driving begun] at released'

theorem alert {s : State} (monitored : s.tm.monitors ≠ []) : s.LineTurn s.alert := by
  unfold State.alert
  split
  · exact refl s
  split
  · exact of_calm (Calm.raise _ s) rfl
  split
  · rename_i _ _ released
    exact ⟨rfl, rfl, .inl rfl, .inr ⟨by simpa using released, monitored, rfl, rfl⟩, Iff.rfl, fun _ hc => hc⟩
  split
  · exact refl s
  · exact of_calm (Calm.coOriginate s) (by simp)

theorem ccEpochStart (s : State) : s.LineTurn s.ccEpochStart := by
  have marks : ∀ (l : List Nat) (u : State), (l.foldl State.markEpoch u).cc.lineEntry = u.cc.lineEntry ∨
      (l.foldl State.markEpoch u).cc.lineEntry = .empty := by
    intro l u
    refine foldl_keeps (fun v : State => v.cc.lineEntry = u.cc.lineEntry ∨ v.cc.lineEntry = .empty) _ l (fun v id hv => ?_) (.inl rfl)
    rcases v.markEpoch_lineEntry id with same | empty
    · rwa [same]
    · exact .inr empty
  refine of_aside (.ccEpochStart s) ?_ (by simp)
  unfold State.ccEpochStart
  dsimp only
  rw [(Calm.foldl (fun t i => Calm.windowEpoch i t) slots _).lineEntry]
  exact marks _ s

end State.LineTurn

/-! ## CC's own tick, and the tick around it -/

theorem State.LineTurn.tickPart {p : Part} (hp : p ≠ .ccTick) (wrapped : Bool) (before u : State) :
    u.LineTurn (State.tickPart wrapped before u p) :=
  State.tickPart_keeps (P := u.LineTurn) (fun _ _ h k => k.trans (.of_beside h))
    (fun _ i _ f _ k => k.trans (.of_calm (.copyInto i f _) (by simp))) (fun _ m k => k.trans (.alert m))
    (fun e => absurd e hp) (fun _ _ k => k.trans (.ccEpochStart _)) (.refl u)

/-- CC's own tick stands between two turns of the other parts. -/
theorem State.memberTick_turns (s : State) (order : List Part) :
    ∃ u, s.LineTurn u ∧ (u.ccTick s.markAsserted s.cc.driver).LineTurn (s.memberTick order) :=
  State.memberTick_reach s.LineTurn (fun v => ∃ u, s.LineTurn u ∧ (u.ccTick s.markAsserted s.cc.driver).LineTurn v)
    .ccTick (by decide)
    (.of_calm ((State.Calm.of_frame (by simp) (by simp) (by simp)).trans (.winWith order _)) (by simp))
    (fun _ _ hp hu => hu.trans (.tickPart hp _ _ _)) (fun u hu => ⟨u, hu, .refl _⟩)
    (fun _ _ hp ⟨u, hu, k⟩ => ⟨u, hu, k.trans (.tickPart hp _ _ _)⟩)

theorem State.countStuck_cc (asserted : Bool) (s : State) : (s.countStuck asserted).cc =
    { s.cc with stuck := if asserted = true ∧ s.cc.stuck < 65 then s.cc.stuck + 1 else s.cc.stuck } := by
  unfold State.countStuck
  by_cases h : asserted = true ∧ s.cc.stuck < 65
  · rw [if_pos (by simpa [Config.stuckLimit] using h), if_pos h]
    dsimp only
    split <;> rfl
  · rw [if_neg (by simpa [Config.stuckLimit] using h), if_neg h]

theorem State.countStuck_reaches {s : State} (h : s.cc.stuck = 64) : (s.countStuck true).hasCause .markStuck = true := by
  have counted : s.countStuck true = State.raise .markStuck { s with cc := { s.cc with stuck := s.cc.stuck + 1 } } := by
    simp [State.countStuck, Config.stuckLimit, h]
  rw [counted]
  exact State.hasCause_raise _ _

theorem State.countPulse_ending {s : State} {n : Nat} (driver : s.cc.driver = .driving n) (h : n ≤ 1) :
    (s.countPulse (.driving n)).cc = if s.cc.othersDrive then { s.cc with driver := .idle }
      else { s.cc with driver := .idle, lineEntry := .empty, stuck := 0, edgePending := false } := by
  simp only [State.countPulse, if_pos h]
  exact State.releaseLine_cc (by simp [State.driving, driver])

theorem State.countPulse_going (s : State) (n : Nat) :
    (s.countPulse (.driving (n + 2))).cc = { s.cc with driver := .driving (n + 1) } := by
  have more : ¬(n + 2 ≤ 1) := by omega
  simp only [State.countPulse, if_neg more]
  rfl

/-- While the station drives the line, no other part of the tick touches the pulse. -/
theorem State.LineTurn.driving {s u : State} (h : s.LineTurn u) {n : Nat} (driver : s.cc.driver = .driving n) :
    u.cc.driver = .driving n := by
  rcases h.pulse with ⟨same, _⟩ | ⟨released, _⟩
  · exact same.trans driver
  · simp [markAsserted_of_driving driver] at released

/-- The pulse ends at a tick that finds its count at 1. -/
theorem State.memberTick_pulseEnds {s : State} {order : List Part} (driver : s.cc.driver = .driving 1) :
    let t := s.memberTick order
    (t.cc.driver = .idle ∧ (s.cc.othersDrive = false → t.cc.edgePending = false)) ∨
      (s.tm.monitors ≠ [] ∧ s.cc.othersDrive = false ∧ t.cc.driver = .driving 4 ∧ t.cc.edgePending = true) := by
  obtain ⟨u, before, after⟩ := s.memberTick_turns order
  have counted := State.countStuck_cc s.markAsserted u
  have ended := State.countPulse_ending (s := u.countStuck s.markAsserted) (n := 1) (by rw [counted]; exact before.driving driver)
    (by omega)
  rw [counted, before.others] at ended
  rw [driver] at after
  have others : (u.ccTick s.markAsserted (.driving 1)).cc.othersDrive = s.cc.othersDrive := by
    rw [State.ccTick, ended]
    cases h : s.cc.othersDrive <;> simp [h, before.others]
  have idle : (u.ccTick s.markAsserted (.driving 1)).cc.driver = .idle := by
    rw [State.ccTick, ended]
    split <;> rfl
  rcases after.pulse with ⟨same, edge⟩ | ⟨released, monitored, begun, edge⟩
  · refine .inl ⟨same.trans idle, fun released => edge.trans ?_⟩
    rw [State.ccTick, ended, released]
    rfl
  · refine .inr ⟨?_, ?_, begun, edge⟩
    · simpa [← before.monitors] using monitored
    · rw [← others]
      exact (markAsserted_eq_false_iff.1 released).2

theorem State.memberTick_pulseGoes {s : State} {order : List Part} {n : Nat} (driver : s.cc.driver = .driving (n + 2)) :
    (s.memberTick order).cc.driver = .driving (n + 1) := by
  obtain ⟨u, _, after⟩ := s.memberTick_turns order
  refine after.driving ?_
  rw [State.ccTick, driver, State.countPulse_going]

/-- The end of the own pulse on a line that no other station drives: CC observes the release in the same tick. -/
theorem State.memberTick_released {s : State} {order : List Part} (others : s.cc.othersDrive = false) {n : Nat}
    (driver : s.cc.driver = .driving n) (h : n ≤ 1) :
    (s.memberTick order).cc.stuck = 0 ∧ (s.memberTick order).cc.lineEntry = .empty := by
  obtain ⟨u, before, after⟩ := s.memberTick_turns order
  have counted := State.countStuck_cc s.markAsserted u
  have ended := State.countPulse_ending (s := u.countStuck s.markAsserted) (n := n) (by rw [counted]; exact before.driving driver) h
  rw [counted, before.others, others] at ended
  have quiet : (u.ccTick s.markAsserted s.cc.driver).cc.stuck = 0 ∧
      (u.ccTick s.markAsserted s.cc.driver).cc.lineEntry = .empty := by
    rw [State.ccTick, driver, ended]
    exact ⟨rfl, rfl⟩
  refine ⟨after.stuck.trans quiet.1, ?_⟩
  rcases after.lineEntry with same | empty
  · exact same.trans quiet.2
  · exact empty

/-- The stuck count at a tick whose pulse does not release the line. -/
theorem State.memberTick_stuck {s : State} {order : List Part}
    (h : ¬(s.cc.othersDrive = false ∧ (s.cc.driver = .driving 0 ∨ s.cc.driver = .driving 1))) :
    (s.memberTick order).cc.stuck = if s.markAsserted = true ∧ s.cc.stuck < 65 then s.cc.stuck + 1 else s.cc.stuck := by
  obtain ⟨u, before, after⟩ := s.memberTick_turns order
  have counted := State.countStuck_cc s.markAsserted u
  refine after.stuck.trans ?_
  have kept : (u.ccTick s.markAsserted s.cc.driver).cc.stuck = (u.countStuck s.markAsserted).cc.stuck := by
    rw [State.ccTick]
    cases driver : s.cc.driver with
    | idle => rfl
    | driving n =>
      by_cases small : n ≤ 1
      · rw [State.countPulse_ending (by rw [counted]; exact before.driving driver) small]
        have others : s.cc.othersDrive = true := by
          have last : n = 0 ∨ n = 1 := by omega
          simpa [driver, last] using h
        simp [counted, before.others, others]
      · obtain ⟨k, rfl⟩ : ∃ k, n = k + 2 := ⟨n - 2, by omega⟩
        rw [State.countPulse_going]
  rw [kept, counted]
  simp only [before.stuck]

/-- MARK_STUCK is raised at the tick that brings the count to 65. -/
theorem State.memberTick_markStuck {s : State} {order : List Part} (asserted : s.markAsserted = true)
    (stuck : s.cc.stuck = 64) : (s.memberTick order).hasCause .markStuck = true := by
  obtain ⟨u, before, after⟩ := s.memberTick_turns order
  refine after.causes _ ?_
  have reached := State.countStuck_reaches (before.stuck.trans stuck)
  rw [asserted, State.ccTick]
  simpa [State.hasCause] using reached

/-- Settles O28: CC's own tick between two turns of the other parts, for each level of the pulse. -/
theorem pulseAndStuck : Obligations.PulseAndStuck := by
  intro s order running station
  have tick : exec (.tick order) s = .next (s.memberTick order) :=
    congrArg Host.Outcome.next (State.takeTick_member running station order)
  have member : s.memberTicks = true := by simp [State.memberTicks, running, isMember_iff.2 station]
  refine ⟨fun driver => ⟨_, congrArg Host.Outcome.next (State.tickWhen_member running station ?_ order), tick,
      State.memberTick_pulseEnds driver⟩,
    fun n driver => ⟨_, tick, State.memberTick_pulseGoes driver⟩,
    fun asserted stuck => ⟨_, congrArg Host.Outcome.next (State.tickWhen_member running station ?_ order), tick,
      State.memberTick_markStuck asserted stuck⟩,
    _, tick, fun released => ?_, fun going => ?_⟩
  · simp [State.pulseEndsNext, member, driver]
  · simp [State.stuckNext, member, asserted, stuck, Config.stuckLimit]
  · obtain ⟨others, driver | driver⟩ := released
    · exact State.memberTick_released others driver (by omega)
    · exact State.memberTick_released others driver (by omega)
  · rw [State.memberTick_stuck going]
    refine ⟨fun released => by simp [released], fun asserted room => by simp [asserted, room], fun asserted full => by simp [full]⟩

end Sys2Proof.Machine
end

