-- ==== Sys2Proof/Proofs/WindowTick.lean ====
section
/-! O31. The answer windows at a tick that wraps: the epoch start at CC counts the window or closes it, and the other parts
only copy a frame into the record, before it or after it. -/

namespace Sys2Proof.Machine

/-! ## A record that frames are copied into -/

/-- The record after some frames have been copied into it, each at its cursor (R59, R37). -/
inductive CapRecord.Copied (r : CapRecord) : CapRecord → Prop
  | refl : CapRecord.Copied r r
  | copy {r' : CapRecord} {k : Word32} (f : Frame) (h : CapRecord.Copied r r') (cursor : r'.cursor = some k) :
    CapRecord.Copied r (r'.take f).completed

theorem CapRecord.Copied.open_ {r r' : CapRecord} (h : r.Copied r') {c : Capture} (phase : r.phase = .filling c)
    (opened : c.answersClosed = false) : r'.phase = .filling c := by
  induction h with
  | refl => exact phase
  | @copy r' _ f _ _ ih =>
    have filling : (r'.take f).phase = .filling c := ih
    rw [CapRecord.completed_of_filling filling, opened, Bool.and_false]
    exact ih

theorem CapRecord.completed_cursor (r : CapRecord) : r.completed.cursor = r.cursor ∧ r.completed.framesDone = r.framesDone := by
  unfold CapRecord.completed
  split
  · split <;> exact ⟨rfl, rfl⟩
  · exact ⟨rfl, rfl⟩
  · exact ⟨rfl, rfl⟩

/-- A record whose frames are done waits at no cursor. -/
theorem CapRecord.Copied.cursor {r r' : CapRecord} (h : r.Copied r') (start : r.framesDone = true → r.cursor = none) :
    r'.framesDone = true → r'.cursor = none := by
  induction h with
  | refl => exact start
  | @copy r' _ f _ _ _ =>
    rw [(CapRecord.completed_cursor _).1, (CapRecord.completed_cursor _).2]
    intro done
    exact if_pos done

/-- The record's capture is `c`, its answers closed: it is COMPLETE when its frames are done, and FILLING otherwise. -/
structure CapRecord.Closed (c : Capture) (r : CapRecord) : Prop where
  cursor : r.framesDone = true → r.cursor = none
  phase  : r.phase = if r.framesDone then .complete c else .filling c

theorem CapRecord.Closed.isComplete {c : Capture} {r : CapRecord} (h : r.Closed c) : r.isComplete = r.framesDone := by
  cases done : r.framesDone <;> simp [CapRecord.isComplete, h.phase, done]

theorem CapRecord.Closed.of_completed {c : Capture} {r : CapRecord} (phase : r.phase = .filling c)
    (closed : c.answersClosed = true) (cursor : r.framesDone = true → r.cursor = none) : r.completed.Closed c := by
  rw [CapRecord.completed_of_filling phase, closed, Bool.and_true]
  cases done : r.framesDone with
  | true => exact ⟨fun _ => cursor done, by simp⟩
  | false => exact ⟨by simp [done], by simp [done, phase]⟩

theorem CapRecord.Copied.closed {r r' : CapRecord} (h : r.Copied r') {c : Capture} (closed : c.answersClosed = true)
    (start : r.Closed c) : r'.Closed c := by
  induction h with
  | refl => exact start
  | @copy r' k f _ cursor ih =>
    have going : r'.framesDone = false := by
      by_contra done
      simp [ih.cursor (by simpa using done)] at cursor
    have filling : (r'.take f).phase = .filling c := by
      have phase := ih.phase
      rw [going] at phase
      exact phase
    exact .of_completed filling closed fun done => if_pos done

/-! ## Its answer window (R25, R26) -/

theorem CapRecord.windowAtEpoch_first {r : CapRecord} {c : Capture} (phase : r.phase = .filling c)
    (opened : c.answersClosed = false) (first : c.answerCount = 0) :
    r.windowAtEpoch = { r with phase := .filling { c with answerCount := 1 } } := by
  simp [CapRecord.windowAtEpoch, phase, opened, first]

theorem CapRecord.windowAtEpoch_second {r : CapRecord} {c : Capture} (phase : r.phase = .filling c)
    (opened : c.answersClosed = false) (second : c.answerCount ≠ 0) :
    r.windowAtEpoch = CapRecord.completed { r with phase := .filling c.close } := by
  simp [CapRecord.windowAtEpoch, CapRecord.windowClosed, phase, opened, second]

theorem stationOfNat_toNat {n : Nat} (h : n < 24) : (BitVec.ofNat 5 n).toNat = n := by
  simp only [BitVec.toNat_ofNat]
  omega

/-- The silent stations by their numbers. -/
theorem Capture.silent_eq (c : Capture) : c.silent =
    ((List.range 24).filter (fun n => c.expected.getLsbD n && !c.participants.any (fun p => p.station.toNat == n))).map
      (BitVec.ofNat 5) := by
  rw [Capture.silent, stationsOf, List.filter_map, List.filter_filter]
  congr 1
  refine List.filter_congr fun n hn => ?_
  have entry : c.hasEntry (BitVec.ofNat 5 n) = c.participants.any (fun p => p.station.toNat == n) := by
    unfold Capture.hasEntry
    congr 1
    funext p
    rw [Bool.eq_iff_iff, beq_iff_eq, beq_iff_eq, ← BitVec.toNat_inj, stationOfNat_toNat (List.mem_range.1 hn)]
  rw [Function.comp_apply, entry, Bool.and_comm]

theorem windowAtEpochStart_first {r r' : CapRecord} {c : Capture} (h : r.windowAtEpoch.Copied r')
    (phase : r.phase = .filling c) (opened : c.answersClosed = false) (first : c.answerCount = 0) :
    WindowAtEpochStart c r' := by
  rw [CapRecord.windowAtEpoch_first phase opened first] at h
  exact ⟨fun _ => h.open_ rfl opened, fun second => absurd first second⟩

theorem windowAtEpochStart_second {r r' : CapRecord} {c : Capture} (h : r.windowAtEpoch.Copied r')
    (phase : r.phase = .filling c) (opened : c.answersClosed = false) (second : c.answerCount ≠ 0)
    (cursor : r.framesDone = true → r.cursor = none) : WindowAtEpochStart c r' := by
  rw [CapRecord.windowAtEpoch_second phase opened second] at h
  have closed := h.closed (c := c.close) rfl (.of_completed rfl rfl cursor)
  refine ⟨fun first => absurd first second, fun _ => ⟨closed.isComplete, c.close, ?_, rfl, rfl, rfl, ?_⟩⟩
  · rw [closed.phase]
    cases r'.framesDone <;> simp
  · simp only [Capture.close, Capture.silent_eq, List.map_map]
    rfl

/-! ## CC's own tick beside the tables -/

theorem State.releaseLine_tables (s : State) : s.releaseLine.cc.marks = s.cc.marks ∧ s.releaseLine.cc.records = s.cc.records := by
  cases driving : s.driving with
  | true =>
    rw [State.releaseLine_cc driving]
    split <;> exact ⟨rfl, rfl⟩
  | false => simp [State.releaseLine, driving]

theorem State.countPulse_tables (d : Driver) (s : State) :
    (s.countPulse d).cc.marks = s.cc.marks ∧ (s.countPulse d).cc.records = s.cc.records := by
  unfold State.countPulse
  split
  · exact ⟨rfl, rfl⟩
  · split
    · exact s.releaseLine_tables
    · exact ⟨rfl, rfl⟩

/-- CC's own tick is at the line alone. -/
theorem State.ccTick_tables (asserted : Bool) (d : Driver) (s : State) :
    (s.ccTick asserted d).cc.marks = s.cc.marks ∧ ∀ i, (s.ccTick asserted d).recordAt i = s.recordAt i := by
  have counted := State.countStuck_cc asserted s
  obtain ⟨marks, records⟩ := State.countPulse_tables d (s.countStuck asserted)
  rw [counted] at marks records
  exact ⟨marks, State.recordAt_of_records records⟩

theorem State.countPulse_lineEntry (d : Driver) (s : State) :
    (s.countPulse d).cc.lineEntry = s.cc.lineEntry ∨ (s.countPulse d).cc.lineEntry = .empty := by
  unfold State.countPulse
  split
  · exact .inl rfl
  · split
    · cases driving : s.driving with
      | true =>
        rw [State.releaseLine_cc driving]
        split
        · exact .inl rfl
        · exact .inr rfl
      | false => exact .inl (by simp [State.releaseLine, driving])
    · exact .inl rfl

theorem State.ccTick_lineEntry (asserted : Bool) (d : Driver) (s : State) :
    (s.ccTick asserted d).cc.lineEntry = s.cc.lineEntry ∨ (s.ccTick asserted d).cc.lineEntry = .empty := by
  have counted := State.countStuck_cc asserted s
  have line := State.countPulse_lineEntry d (s.countStuck asserted)
  rwa [counted] at line

theorem State.countStuck_causes (asserted : Bool) (s : State) {c : Cause} (h : s.hasCause c = true) :
    (s.countStuck asserted).hasCause c = true := by
  unfold State.countStuck
  split
  · dsimp only
    split
    · refine (Calm.raise .markStuck _).causes c ?_
      exact h
    · exact h
  · exact h

theorem State.ccTick_causes (asserted : Bool) (d : Driver) (s : State) {c : Cause} (h : s.hasCause c = true) :
    (s.ccTick asserted d).hasCause c = true := by
  have counted := s.countStuck_causes asserted h
  rw [State.ccTick]
  simpa [State.hasCause] using counted

/-! ## The record of a slot that no entry holds, at the parts of a tick -/

/-- No open-mark entry holds the slot. -/
def State.Unheld (s : State) (i : Fin 4) : Prop := ∀ m ∈ s.cc.marks, m.slot ≠ some i

theorem State.Unheld.calm {s t : State} (h : s.Calm t) {i : Fin 4} (unheld : s.Unheld i) : t.Unheld i := by
  intro m hm
  obtain ⟨x, hx, _, slot⟩ := exists_mark_of_map_eq h.marks hm
  rw [← slot]
  exact unheld x hx

/-- The slot is held by no entry, its record is `r` with frames copied into it, and its completion has been told. -/
structure State.SlotGoes (i : Fin 4) (r : CapRecord) (s : State) : Prop where
  unheld : s.Unheld i
  record : ∃ r', s.recordAt i = some r' ∧ r.Copied r' ∧ (r'.isComplete = true → s.hasCause .captureComplete = true)

/-- A record that becomes COMPLETE has it told. -/
theorem State.completeIfReady_told {u : State} {j : Fin 4} {q : CapRecord} (hq : u.recordAt j = some q)
    (told : q.isComplete = true → u.hasCause .captureComplete = true) (complete : q.completed.isComplete = true) :
    (u.completeIfReady j).hasCause .captureComplete = true := by
  cases phase : q.phase with
  | filling c =>
    rw [CapRecord.completed_of_filling phase] at complete
    simp only [State.completeIfReady, hq, phase]
    split at complete
    · rename_i ready
      rw [if_pos ready]
      exact State.hasCause_raise _ _
    · simp [CapRecord.isComplete, phase] at complete
  | opened => simp [CapRecord.completed, CapRecord.isComplete, phase] at complete
  | complete c => exact (Calm.completeIfReady j u).causes _ (told (by simp [CapRecord.isComplete, phase]))

namespace State.SlotGoes
variable {i : Fin 4} {r : CapRecord} {s t : State}

theorem of_recordAt (h : s.SlotGoes i r) (unheld : t.Unheld i) (same : t.recordAt i = s.recordAt i)
    (causes : ∀ c, s.hasCause c = true → t.hasCause c = true) : t.SlotGoes i r := by
  obtain ⟨r', hr, copied, told⟩ := h.record
  exact ⟨unheld, r', same.trans hr, copied, fun hc => causes _ (told hc)⟩

theorem calm (h : s.SlotGoes i r) (k : s.Calm t) (same : t.recordAt i = s.recordAt i) : t.SlotGoes i r :=
  h.of_recordAt (h.unheld.calm k) same k.causes

theorem beside (h : s.SlotGoes i r) (k : s.Beside t) : t.SlotGoes i r :=
  h.of_recordAt (fun m hm => h.unheld m (k.cc ▸ hm)) (State.recordAt_of_cc k.cc i) k.causes

theorem copyInto (h : s.SlotGoes i r) {j : Fin 4} {k : Word32} (cursor : s.cursorAt j k = true) (f : Frame) :
    (s.copyInto j f).SlotGoes i r := by
  by_cases e : j = i
  · subst e
    obtain ⟨r', hr, copied, told⟩ := h.record
    have taken : (s.modifyRecord j (fun r => r.take f)).recordAt j = some (r'.take f) := by
      rw [State.recordAt_modifyRecord, if_pos rfl, hr]
      rfl
    refine ⟨h.unheld.calm (.copyInto j f s), (r'.take f).completed, ?_, .copy f copied (k := k) ?_, fun hc => ?_⟩
    · rw [State.recordAt_copyInto, if_pos rfl, hr]
      rfl
    · simpa [State.cursorAt, hr] using cursor
    · refine State.completeIfReady_told taken (fun h' => ?_) hc
      simpa [State.hasCause] using told h'
  · exact h.calm (.copyInto j f s) (by rw [State.recordAt_copyInto, if_neg e])

theorem submitClaim_recordAt (unheld : s.Unheld i) (id : Nat) : (s.submitClaim id).recordAt i = s.recordAt i := by
  unfold State.submitClaim
  split
  · rfl
  · rename_i m hm
    split
    · rw [State.claimLost_recordAt hm, if_neg (unheld m (State.markOf_some hm).1)]
    · rename_i u hu
      exact State.recordAt_of_cc (State.submit_frame hu).2.2.1 i

theorem coOriginate_recordAt (unheld : s.Unheld i) : s.coOriginate.recordAt i = s.recordAt i := by
  cases line : s.cc.lineEntry with
  | claimed => rw [State.coOriginate_claimed line]
  | empty => rw [State.coOriginate_empty line]; rfl
  | entry id =>
    cases hm : s.markOf id with
    | none => simp only [State.coOriginate, line, hm]; rfl
    | some m =>
      cases own : m.originator with
      | true =>
        simp only [State.coOriginate, line, hm, own, if_true]
        split
        · exact submitClaim_recordAt unheld id
        · rfl
      | false =>
        have slot := unheld m (State.markOf_some hm).1
        have begun : (s.originate m).recordAt i = s.recordAt i := by
          unfold State.originate
          split
          · rfl
          · rename_i j hs
            rw [State.recordAt_modifyRecord, if_neg (fun e : j = i => slot (e ▸ hs))]
            rfl
        rw [State.coOriginate_other line hm own, submitClaim_recordAt (unheld.calm (State.originate_calm m s)), begun]

theorem alert (h : s.SlotGoes i r) : s.alert.SlotGoes i r := by
  unfold State.alert
  split
  · exact h
  split
  · exact h.calm (.raise _ s) rfl
  split
  · exact h.of_recordAt h.unheld rfl fun _ hc => hc
  split
  · exact h
  · exact h.calm (.coOriginate s) (coOriginate_recordAt h.unheld)

theorem ccTick (h : s.SlotGoes i r) (asserted : Bool) (driver : Driver) : (s.ccTick asserted driver).SlotGoes i r := by
  obtain ⟨marks, records⟩ := s.ccTick_tables asserted driver
  exact h.of_recordAt (fun m hm => h.unheld m (marks ▸ hm)) (records i) fun _ hc => s.ccTick_causes asserted driver hc

theorem tickPart (h : s.SlotGoes i r) {p : Part} (hp : p ≠ .ccEpoch) (wrapped : Bool) (before : State) :
    (State.tickPart wrapped before s p).SlotGoes i r :=
  State.tickPart_keeps (P := fun u => u.SlotGoes i r) (fun _ _ k h => h.beside k) (fun _ _ _ f at_ h => h.copyInto at_ f)
    (fun _ _ h => h.alert) (fun _ _ h => h.ccTick _ _) (fun e => absurd e hp) h

/-! ## The epoch start at CC -/

theorem markEpoch_unheld (unheld : s.Unheld i) (id : Nat) : (s.markEpoch id).Unheld i := by
  rcases s.markEpoch_cases id with e | ⟨f, hf, e⟩ | ⟨m, hm, e⟩
  · rwa [e]
  · rw [e]
    exact unheld.calm (.modifyMark id hf s)
  · intro x hx
    rw [e, State.abandon_marks hm] at hx
    exact unheld x (List.mem_filter.1 hx).1

theorem markEpoch_recordAt (unheld : s.Unheld i) (id : Nat) : (s.markEpoch id).recordAt i = s.recordAt i := by
  rcases s.markEpoch_cases id with e | ⟨f, _, e⟩ | ⟨m, hm, e⟩
  · rw [e]
  · rw [e]
    rfl
  · rw [e, State.abandon_recordAt hm, if_neg (unheld m (State.markOf_some hm).1)]

theorem markEpoch (h : s.SlotGoes i r) (id : Nat) : (s.markEpoch id).SlotGoes i r :=
  h.of_recordAt (markEpoch_unheld h.unheld id) (markEpoch_recordAt h.unheld id) (Aside.markEpoch s id).causes

theorem windowEpoch_told {q : CapRecord} (hq : s.recordAt i = some q)
    (told : q.isComplete = true → s.hasCause .captureComplete = true) (complete : q.windowAtEpoch.isComplete = true) :
    (s.windowEpoch i).hasCause .captureComplete = true := by
  have before : q.windowAtEpoch = q → (s.windowEpoch i).hasCause .captureComplete = true := fun e =>
    (Calm.windowEpoch i s).causes _ (told (e ▸ complete))
  cases phase : q.phase with
  | opened => exact before (by simp only [CapRecord.windowAtEpoch, phase])
  | complete c => exact before (by simp only [CapRecord.windowAtEpoch, phase])
  | filling c =>
    cases opened : c.answersClosed with
    | true => exact before (by simp [CapRecord.windowAtEpoch, phase, opened])
    | false =>
      by_cases first : c.answerCount = 0
      · rw [CapRecord.windowAtEpoch_first phase opened first] at complete
        cases complete
      · rw [CapRecord.windowAtEpoch_second phase opened first] at complete
        have closes : s.windowEpoch i =
            (s.setRecord i (some { q with phase := .filling c.close })).completeIfReady i := by
          simp [State.windowEpoch, State.closeWindow, hq, phase, opened, first]
        rw [closes]
        refine State.completeIfReady_told ?_ (fun filling => ?_) complete
        · rw [State.recordAt_setRecord, if_pos rfl]
        · cases filling

theorem windowEpoch_other (h : s.SlotGoes i r) {j : Fin 4} (e : j ≠ i) : (s.windowEpoch j).SlotGoes i r :=
  h.calm (.windowEpoch j s) (by rw [State.recordAt_windowEpoch, if_neg e])

theorem ccEpochStart (h : s.SlotGoes i r) : ∃ r', r.Copied r' ∧ s.ccEpochStart.SlotGoes i r'.windowAtEpoch := by
  have marked : ((s.cc.marks.map Mark.id).foldl State.markEpoch s).SlotGoes i r :=
    foldl_keeps (fun u : State => u.SlotGoes i r) _ _ (fun _ id hu => hu.markEpoch id) h
  unfold State.ccEpochStart
  dsimp only
  generalize (s.cc.marks.map Mark.id).foldl State.markEpoch s = v at marked
  refine foldl_reach (fun u : State => u.SlotGoes i r) (fun u => ∃ r', r.Copied r' ∧ u.SlotGoes i r'.windowAtEpoch)
    (fun u j => u.windowEpoch j) i slots (by decide) (Tables.mem_slots i) (fun _ _ e hu => hu.windowEpoch_other e)
    (fun u hu => ?_) (fun _ _ e ⟨r', copied, hu⟩ => ⟨r', copied, hu.windowEpoch_other e⟩) marked
  obtain ⟨r', hr, copied, told⟩ := hu.record
  refine ⟨r', copied, hu.unheld.calm (.windowEpoch i u), _, ?_, .refl, windowEpoch_told hr told⟩
  rw [State.recordAt_windowEpoch, if_pos rfl, hr]
  rfl

end State.SlotGoes

theorem State.noticeWin_records (s : State) (m : Msg) : (s.noticeWin m).cc.records = s.cc.records := by
  unfold State.noticeWin
  split
  · rfl
  · split <;> rfl
  all_goals rfl

theorem State.winWith_recordAt (order : List Part) (s : State) (i : Fin 4) : (s.winWith order).recordAt i = s.recordAt i := by
  refine State.recordAt_of_records ?_ i
  unfold State.winWith State.winArbitration
  split
  · split
    · rfl
    · exact State.noticeWin_records _ _
  · rfl

/-- What a tick that wraps makes of a record whose slot no entry holds. -/
theorem State.SlotGoes.memberTick {i : Fin 4} {r : CapRecord} {s : State} (h : s.SlotGoes i r) (order : List Part)
    (wraps : s.atEpochEnd = true) : ∃ r', r.Copied r' ∧ (s.memberTick order).SlotGoes i r'.windowAtEpoch := by
  have advanced : s.Calm s.advanceCounter := .of_frame (by simp) (by simp) (by simp)
  refine State.memberTick_reach (fun u => u.SlotGoes i r) (fun u => ∃ r', r.Copied r' ∧ u.SlotGoes i r'.windowAtEpoch)
    .ccEpoch (by decide) ?_ (fun _ _ hp hu => hu.tickPart hp _ _) (fun u hu => ?_)
    (fun _ _ hp ⟨r', copied, hu⟩ => ⟨r', copied, hu.tickPart hp _ _⟩)
  · refine h.calm (advanced.trans (.winWith order _)) ?_
    rw [State.winWith_recordAt]
    exact State.recordAt_of_cc (by simp) i
  · rw [wraps]
    exact hu.ccEpochStart

/-- Settles O31: the record with frames copied into it, its window at the epoch start, and again frames copied. -/
theorem answerWindowCloses : Obligations.AnswerWindowCloses := by
  have begins : ∀ (s : State) (i : Fin 4) (r : CapRecord) (c : Capture), s.recordAt i = some r → r.phase = .filling c →
      (∀ m ∈ s.cc.marks, m.slot ≠ some i) → s.SlotGoes i r := fun s i r c hr phase unheld =>
    ⟨unheld, r, hr, .refl, fun complete => by simp [CapRecord.isComplete, phase] at complete⟩
  refine ⟨fun s order i r c running station wraps hr phase opened first unheld => ?_,
    fun s order i r c running station wraps hr phase opened second cursor unheld => ?_⟩
  · obtain ⟨r₁, copied, after⟩ := (begins s i r c hr phase unheld).memberTick order (decide_eq_true wraps)
    obtain ⟨r₂, hr₂, copied₂, _⟩ := after.record
    refine ⟨_, r₂, congrArg Host.Outcome.next (State.takeTick_member running station order), hr₂, ?_⟩
    exact windowAtEpochStart_first copied₂ (copied.open_ phase opened) opened first
  · obtain ⟨r₁, copied, after⟩ := (begins s i r c hr phase unheld).memberTick order (decide_eq_true wraps)
    obtain ⟨r₂, hr₂, copied₂, told⟩ := after.record
    have due : s.windowExpiresNext = true := by
      have any : slots.any (fun i => match s.recordAt i with
          | none => false
          | some r => r.windowDue) = true :=
        List.any_eq_true.2 ⟨i, Tables.mem_slots i, by simp [hr, CapRecord.windowDue, phase, opened, second]⟩
      rw [State.windowExpiresNext, (State.wrapsNext_iff running station).2 wraps, Bool.true_and]
      exact any
    refine ⟨_, r₂, congrArg Host.Outcome.next (State.tickWhen_member running station due order),
      congrArg Host.Outcome.next (State.takeTick_member running station order), hr₂, ?_, told⟩
    exact windowAtEpochStart_second copied₂ (copied.open_ phase opened) opened second (copied.cursor cursor)

end Sys2Proof.Machine
end

