-- ==== Sys2Proof/Proofs/ClaimTick.lean ====
section
/-! O30. The open-mark entries at a tick that wraps: the epoch start at CC takes each entry once, and the other parts leave
what it reads of them, and what it has made of them, as they are. -/

namespace Sys2Proof.Machine

/-! ## The list at the operations on records -/

theorem State.marks_completeIfReady (i : Fin 4) (s : State) : (s.completeIfReady i).cc.marks = s.cc.marks := by
  unfold State.completeIfReady
  split
  · rfl
  · split
    · split <;> rfl
    · rfl
    · rfl

theorem State.marks_copyInto (i : Fin 4) (f : Frame) (s : State) : (s.copyInto i f).cc.marks = s.cc.marks := by
  rw [State.copyInto, State.marks_completeIfReady, State.marks_modifyRecord]

theorem State.marks_closeWindow (i : Fin 4) (s : State) : (s.closeWindow i).cc.marks = s.cc.marks := by
  unfold State.closeWindow
  split
  · rfl
  · split
    · split
      · rfl
      · rw [State.marks_completeIfReady, State.marks_setRecord]
    · rfl
    · rfl

theorem State.marks_windowEpoch (i : Fin 4) (s : State) : (s.windowEpoch i).cc.marks = s.cc.marks := by
  unfold State.windowEpoch
  split
  · rfl
  · split
    · split
      · rfl
      · split
        · rfl
        · exact s.marks_closeWindow i
    · rfl
    · rfl

/-! ## The entries beside the epoch start -/

/-- The entry as the epoch start reads it: its own CLAIM in transmission stays so, and no other CLAIM comes into
transmission. -/
structure Mark.Stays (m x : Mark) : Prop where
  id       : x.id = m.id
  point    : x.point = m.point
  slot     : x.slot = m.slot
  starts   : x.starts = m.starts
  deferred : x.deferred = m.deferred
  moving   : m.claim = .inTransmission → m.originator = true → x.claim = .inTransmission ∧ x.originator = true
  still    : m.claim ≠ .inTransmission → x.claim ≠ .inTransmission

theorem Mark.Stays.refl (m : Mark) : m.Stays m := ⟨rfl, rfl, rfl, rfl, rfl, fun h k => ⟨h, k⟩, fun h => h⟩

theorem Mark.Stays.trans {m x y : Mark} (h : m.Stays x) (k : x.Stays y) : m.Stays y where
  id := k.id.trans h.id
  point := k.point.trans h.point
  slot := k.slot.trans h.slot
  starts := k.starts.trans h.starts
  deferred := k.deferred.trans h.deferred
  moving hc ho := k.moving (h.moving hc ho).1 (h.moving hc ho).2
  still hc := k.still (h.still hc)

/-- The identities of the entries differ. -/
def State.IdsDistinct (s : State) : Prop := (s.cc.marks.map Mark.id).Nodup

/-- What the parts of a tick but the epoch start at CC do to the open-mark entries: a CLAIM is submitted only for the entry
that the line entry names. -/
structure State.MarksTurn (s t : State) : Prop where
  marks  : s.IdsDistinct → List.Forall₂ Mark.Stays s.cc.marks t.cc.marks
  free   : ∀ i, s.recordAt i = none → t.recordAt i = none
  line   : ∀ id, t.cc.lineEntry = .entry id → s.cc.lineEntry = .entry id
  queue  : ∀ q ∈ t.lc.queue, ∀ id, q.mark = some id → q ∈ s.lc.queue ∨ s.cc.lineEntry = .entry id
  causes : ∀ c, s.hasCause c = true → t.hasCause c = true

theorem map_id_of_stays {l l' : List Mark} (h : List.Forall₂ Mark.Stays l l') : l'.map Mark.id = l.map Mark.id := by
  induction h with
  | nil => rfl
  | cons h _ ih => rw [List.map_cons, List.map_cons, h.id, ih]

theorem stays_refl (l : List Mark) : List.Forall₂ Mark.Stays l l := List.forall₂_same.2 fun m _ => .refl m

theorem stays_trans {l l' l'' : List Mark} (h : List.Forall₂ Mark.Stays l l') (k : List.Forall₂ Mark.Stays l' l'') :
    List.Forall₂ Mark.Stays l l'' := by
  induction h generalizing l'' with
  | nil => exact k
  | cons h _ ih =>
    cases k with
    | cons k ks => exact .cons (h.trans k) (ih ks)

namespace State.MarksTurn

theorem idsDistinct {s t : State} (h : s.MarksTurn t) (distinct : s.IdsDistinct) : t.IdsDistinct := by
  rw [State.IdsDistinct, map_id_of_stays (h.marks distinct)]
  exact distinct

theorem trans {s t u : State} (h : s.MarksTurn t) (k : t.MarksTurn u) : s.MarksTurn u where
  marks distinct := stays_trans (h.marks distinct) (k.marks (h.idsDistinct distinct))
  free i hi := k.free i (h.free i hi)
  line id hl := h.line id (k.line id hl)
  queue q hq id hm := by
    rcases k.queue q hq id hm with hq | hl
    · exact h.queue q hq id hm
    · exact .inr (h.line id hl)
  causes c hc := k.causes c (h.causes c hc)

theorem free_of_calm {s t : State} (h : s.Calm t) (i : Fin 4) (hi : s.recordAt i = none) : t.recordAt i = none := by
  have rel := h.records i
  rw [hi] at rel
  cases ht : t.recordAt i with
  | none => rfl
  | some r =>
    rw [ht] at rel
    cases rel

/-- A calm operation that leaves the entries and the queue alone. -/
theorem of_calm {s t : State} (h : s.Calm t) (marks : t.cc.marks = s.cc.marks) (lc : t.lc = s.lc) : s.MarksTurn t where
  marks _ := by
    rw [marks]
    exact stays_refl _
  free := free_of_calm h
  line id hl := h.lineEntry ▸ hl
  queue q hq _ _ := .inl (lc ▸ hq)
  causes := h.causes

theorem refl (s : State) : s.MarksTurn s := of_calm (.refl s) rfl rfl

theorem of_beside {s t : State} (h : s.Beside t) : s.MarksTurn t where
  marks _ := by
    rw [h.cc]
    exact stays_refl _
  free i hi := (State.recordAt_of_cc h.cc i).trans hi
  line id hl := h.cc ▸ hl
  queue q hq id hm := .inl (h.queue q hq (by simp [hm]))
  causes := h.causes

theorem copyInto (i : Fin 4) (f : Frame) (s : State) : s.MarksTurn (s.copyInto i f) :=
  of_calm (.copyInto i f s) (s.marks_copyInto i f) (by simp)

end State.MarksTurn

theorem State.submitClaim_queue {s : State} {id : Nat} {q : Msg} (h : q ∈ (s.submitClaim id).lc.queue) :
    q ∈ s.lc.queue ∨ q.mark = some id := by
  unfold State.submitClaim at h
  split at h
  · exact .inl h
  · split at h
    · left
      simpa using h
    · rename_i u hu
      rcases State.submit_mem hu h with old | ⟨_, mark, _⟩
      · exact .inl old
      · exact .inr mark

/-- A CLAIM submitted anew: the entry's was not in transmission, or the entry was no originator's. -/
theorem Mark.Stays.claimed {m : Mark} (due : m.originator = false ∨ m.claim = .lost) {c : ClaimStatus}
    (still : c ≠ .inTransmission) : m.Stays { m with originator := true, claim := c } :=
  ⟨rfl, rfl, rfl, rfl, rfl, fun hc ho => by rcases due with h | h <;> simp_all, fun _ => still⟩

theorem stays_map {l : List Mark} {f : Mark → Mark} (h : ∀ m ∈ l, m.Stays (f m)) : List.Forall₂ Mark.Stays l (l.map f) := by
  rw [List.forall₂_map_right_iff, List.forall₂_same]
  exact h

/-- The list after a CLAIM has been submitted anew. -/
theorem State.coOriginate_stays {s : State} {m : Mark} (member : s.isMember = true) (line : s.cc.lineEntry = .entry m.id)
    (hm : m ∈ s.cc.marks) (distinct : s.IdsDistinct) (due : m.originator = false ∨ m.claim = .lost) :
    List.Forall₂ Mark.Stays s.cc.marks s.coOriginate.cc.marks := by
  obtain ⟨u, claims, calm, _, _, marks, _⟩ := State.coOriginate_claims line hm distinct due
  have claimed : ∀ c : ClaimStatus, c ≠ .inTransmission →
      s.coOriginate.cc.marks = s.cc.marks.map (fun x => if x.id = m.id then { x with originator := true, claim := c } else x) →
      List.Forall₂ Mark.Stays s.cc.marks s.coOriginate.cc.marks := by
    intro c still e
    rw [e]
    refine stays_map fun x hx => ?_
    split
    · rename_i same
      rw [mark_eq_of_id distinct hm hx same]
      exact .claimed due still
    · exact .refl x
  have umember : u.isMember = true := by rw [State.isMember, calm.mu]; exact member
  have found := markOf_originated hm distinct marks
  rw [claims] at claimed ⊢
  by_cases full : u.NoRoom u.lc.queue
  · exact claimed .lost (by decide) (submitClaim_marks umember found marks (fun _ => rfl) (absurd full))
  · exact claimed .queued (by decide) (submitClaim_marks umember found marks (fun h => absurd h full) (fun _ => rfl))

/-- The messages after an alert at the line entry: those before, and the CLAIM of the entry that it names. -/
theorem State.coOriginate_queue {s : State} {q : Msg} (hq : q ∈ s.coOriginate.lc.queue) :
    q ∈ s.lc.queue ∨ ∃ id, s.cc.lineEntry = .entry id ∧ q.mark = some id := by
  cases line : s.cc.lineEntry with
  | claimed => exact .inl (by rwa [State.coOriginate_claimed line] at hq)
  | empty => exact .inl (by rwa [State.coOriginate_empty line] at hq)
  | entry id =>
    cases found : s.markOf id with
    | none =>
      simp only [State.coOriginate, line, found] at hq
      exact .inl hq
    | some m =>
      cases own : m.originator with
      | true =>
        rw [State.coOriginate_own line found own] at hq
        split at hq
        · exact (State.submitClaim_queue hq).imp_right fun mark => ⟨id, rfl, mark⟩
        · exact .inl hq
      | false =>
        rw [State.coOriginate_other line found own] at hq
        rw [← State.originate_lc m s]
        exact (State.submitClaim_queue hq).imp_right fun mark => ⟨id, rfl, mark⟩

theorem State.MarksTurn.coOriginate {s : State} (member : s.isMember = true) : s.MarksTurn s.coOriginate where
  marks distinct := by
    cases line : s.cc.lineEntry with
    | claimed =>
      rw [State.coOriginate_claimed line]
      exact stays_refl _
    | empty =>
      rw [State.coOriginate_empty line]
      exact stays_refl _
    | entry id =>
      cases found : s.markOf id with
      | none =>
        simp only [State.coOriginate, line, found]
        exact stays_refl _
      | some m =>
        obtain ⟨hm, rfl⟩ := State.markOf_some found
        by_cases due : m.originator = false ∨ m.claim = .lost
        · exact State.coOriginate_stays member line hm distinct due
        · obtain ⟨own, kept⟩ := not_or.1 due
          rw [State.coOriginate_own line found (by simpa using own), if_neg kept]
          exact stays_refl _
  free := free_of_calm (.coOriginate s)
  line id hl := (State.Calm.coOriginate s).lineEntry ▸ hl
  queue q hq id hm := by
    refine (State.coOriginate_queue hq).imp_right fun ⟨id', line, mark⟩ => ?_
    rw [line, Option.some.inj (mark.symm.trans hm)]
  causes := (State.Calm.coOriginate s).causes

namespace State.MarksTurn

theorem alert (s : State) : s.MarksTurn s.alert := by
  unfold State.alert
  split
  · exact refl s
  · rename_i member
    split
    · exact of_calm (.raise _ s) rfl rfl
    split
    · exact ⟨fun _ => stays_refl _, fun _ hi => hi, fun _ hl => hl, fun _ hq _ _ => .inl hq, fun _ hc => hc⟩
    split
    · exact refl s
    · exact coOriginate (by simpa using member)

theorem ccTick (asserted : Bool) (driver : Driver) (s : State) : s.MarksTurn (s.ccTick asserted driver) where
  marks _ := by
    rw [(s.ccTick_tables asserted driver).1]
    exact stays_refl _
  free i hi := ((s.ccTick_tables asserted driver).2 i).trans hi
  line id hl := by
    rcases s.ccTick_lineEntry asserted driver with same | empty
    · exact same ▸ hl
    · rw [empty] at hl
      cases hl
  queue q hq _ _ := .inl (by simpa using hq)
  causes _ hc := s.ccTick_causes asserted driver hc

theorem tickPart {p : Part} (hp : p ≠ .ccEpoch) (wrapped : Bool) (before u : State) :
    u.MarksTurn (State.tickPart wrapped before u p) :=
  State.tickPart_keeps (P := u.MarksTurn) (fun _ _ h k => k.trans (.of_beside h))
    (fun _ i _ f _ k => k.trans (.copyInto i f _)) (fun _ _ k => k.trans (.alert _))
    (fun _ _ k => k.trans (.ccTick _ _ _)) (fun e => absurd e hp) (.refl u)

end State.MarksTurn

/-! ## The epoch start (R22, R23) -/

/-- What an epoch start makes of an entry, if the entry stays. -/
def Mark.afterEpoch (m : Mark) : Option Mark :=
  if m.deferred = true then some m
  else if m.starts = 0 then some { m with starts := 1 }
  else if m.claim = .inTransmission then some { m with deferred := true }
  else none

theorem Mark.afterEpoch_id {m x : Mark} (h : m.afterEpoch = some x) : x.id = m.id := by
  unfold Mark.afterEpoch at h
  split at h
  · cases h; rfl
  split at h
  · cases h; rfl
  split at h
  · cases h; rfl
  · cases h

/-- Nothing is left of the abandoned entry: its record is FREE, and of its CLAIM only one in transmission is there. -/
structure State.Abandoned (m : Mark) (t : State) : Prop where
  gone  : ∀ x ∈ t.cc.marks, x.id ≠ m.id
  told  : t.hasCause .captureAbandoned = true
  free  : ∀ i, m.slot = some i → t.recordAt i = none
  line  : t.cc.lineEntry ≠ .entry m.id
  queue : ∀ q ∈ t.lc.queue, q.mark = some m.id → q.cond = .inTransmission

/-- The epoch start has taken the entry. -/
structure State.EpochTaken (m : Mark) (t : State) : Prop where
  stays     : ∀ x, m.afterEpoch = some x → x ∈ t.cc.marks
  abandoned : m.afterEpoch = none → t.Abandoned m

theorem State.MarksTurn.mem_id {s t : State} (h : s.MarksTurn t) (distinct : s.IdsDistinct) {x : Mark}
    (hx : x ∈ t.cc.marks) : ∃ y ∈ s.cc.marks, y.id = x.id := by
  have mem := List.mem_map_of_mem (f := Mark.id) hx
  rw [map_id_of_stays (h.marks distinct)] at mem
  exact List.mem_map.1 mem

theorem State.MarksTurn.abandoned {s t : State} (h : s.MarksTurn t) (distinct : s.IdsDistinct) {m : Mark}
    (k : s.Abandoned m) : t.Abandoned m where
  gone x hx := by
    obtain ⟨y, hy, e⟩ := h.mem_id distinct hx
    rw [← e]
    exact k.gone y hy
  told := h.causes _ k.told
  free i hi := h.free i (k.free i hi)
  line hl := k.line (h.line _ hl)
  queue q hq hm := by
    rcases h.queue q hq _ hm with old | line
    · exact k.queue q old hm
    · exact absurd line k.line

section
variable {s : State} {m : Mark} (distinct : s.IdsDistinct)

theorem State.IdsDistinct.calm {t : State} (h : s.Calm t) (distinct : s.IdsDistinct) : t.IdsDistinct := by
  rw [State.IdsDistinct, map_id_of_map_eq h.marks]
  exact distinct

theorem State.IdsDistinct.markEpoch {s : State} (id : Nat) (distinct : s.IdsDistinct) : (s.markEpoch id).IdsDistinct := by
  rcases s.markEpoch_cases id with e | ⟨f, hf, e⟩ | ⟨m, hm, e⟩
  · rwa [e]
  · rw [e]
    exact distinct.calm (.modifyMark id hf s)
  · rw [e, State.IdsDistinct, State.abandon_marks hm]
    exact distinct.sublist (List.filter_sublist.map _)

theorem State.IdsDistinct.ccEpochStart (distinct : s.IdsDistinct) : s.ccEpochStart.IdsDistinct := by
  unfold State.ccEpochStart
  exact (foldl_keeps State.IdsDistinct State.markEpoch _ (fun _ id h => h.markEpoch id) distinct).calm
    (State.Calm.foldl (fun t i => State.Calm.windowEpoch i t) slots _)

/-- The epoch start at another entry leaves the entry as it is. -/
theorem State.markEpoch_mem_other {id : Nat} (other : m.id ≠ id) (hm : m ∈ s.cc.marks) : m ∈ (s.markEpoch id).cc.marks := by
  rcases s.markEpoch_cases id with e | ⟨f, _, e⟩ | ⟨_, found, e⟩
  · rwa [e]
  · rw [e]
    exact List.mem_map.2 ⟨m, hm, if_neg other⟩
  · rw [e, State.abandon_marks found]
    exact List.mem_filter.2 ⟨hm, by simpa using other⟩

theorem State.modifyMark_mem {f : Mark → Mark} (hm : m ∈ s.cc.marks) : f m ∈ (s.modifyMark m.id f).cc.marks :=
  List.mem_map.2 ⟨m, hm, if_pos rfl⟩

theorem State.abandon_abandoned (found : s.markOf m.id = some m) : (s.abandon m.id).Abandoned m where
  gone x hx := by
    rw [State.abandon_marks found] at hx
    simpa using (List.mem_filter.1 hx).2
  told := State.abandon_told found
  free i hi := by rw [State.abandon_recordAt found, if_pos hi]
  line := by
    rw [State.abandon_lineEntry found]
    split
    · exact nofun
    · assumption
  queue q hq hm := by
    rw [State.abandon_queue found] at hq
    simpa [claimOf, hm, Msg.moving] using (List.mem_filter.1 hq).2

theorem State.EpochTaken.markEpoch_other (h : s.EpochTaken m) {id : Nat} (other : m.id ≠ id) : (s.markEpoch id).EpochTaken m where
  stays x hx := State.markEpoch_mem_other (by rwa [Mark.afterEpoch_id hx]) (h.stays x hx)
  abandoned hx := by
    have gone := h.abandoned hx
    rcases s.markEpoch_cases id with e | ⟨f, hf, e⟩ | ⟨m', found, e⟩
    · rwa [e]
    · rw [e]
      have calm := State.Calm.modifyMark id hf s
      refine ⟨fun x hx => ?_, gone.told, gone.free, gone.line, gone.queue⟩
      obtain ⟨y, hy, same, _⟩ := exists_mark_of_map_eq calm.marks hx
      rw [← same]
      exact gone.gone y hy
    · refine ⟨fun x hx => ?_, (State.Aside.markEpoch s id).causes _ gone.told, fun i hi => ?_, fun line => ?_,
        fun q hq => gone.queue q ?_⟩
      · rw [e, State.abandon_marks found] at hx
        exact gone.gone x (List.mem_filter.1 hx).1
      · rw [e, State.abandon_recordAt found, gone.free i hi, ite_self]
      · rcases s.markEpoch_lineEntry id with same | empty
        · exact gone.line (same ▸ line)
        · rw [empty] at line
          cases line
      · rw [e, State.abandon_queue found] at hq
        exact (List.mem_filter.1 hq).1

include distinct in
theorem State.markEpoch_taken (hm : m ∈ s.cc.marks) : (s.markEpoch m.id).EpochTaken m := by
  have found := State.markOf_of_mem hm rfl distinct
  have staying : ∀ x, m.afterEpoch = some x → x ∈ (s.markEpoch m.id).cc.marks → (s.markEpoch m.id).EpochTaken m := by
    intro x hx mem
    refine ⟨fun y hy => ?_, fun hn => by simp [hx] at hn⟩
    rw [hx] at hy
    cases hy
    exact mem
  cases deferred : m.deferred with
  | true =>
    refine staying m (by simp [Mark.afterEpoch, deferred]) ?_
    rw [State.markEpoch_deferred found deferred]
    exact hm
  | false =>
    by_cases starts : m.starts = 0
    · refine staying { m with starts := 1 } (by simp [Mark.afterEpoch, deferred, starts]) ?_
      rw [State.markEpoch_first found deferred starts]
      exact State.modifyMark_mem (f := fun x => { x with starts := 1 }) hm
    · by_cases claim : m.claim = .inTransmission
      · refine staying { m with deferred := true } (by simp [Mark.afterEpoch, deferred, starts, claim]) ?_
        rw [State.markEpoch_moving found deferred starts claim]
        exact State.modifyMark_mem (f := fun x => { x with deferred := true }) hm
      · rw [State.markEpoch_abandons found deferred starts claim]
        refine ⟨fun x hx => by simp [Mark.afterEpoch, deferred, starts, claim] at hx, fun _ => State.abandon_abandoned found⟩

include distinct in
/-- The epoch start at CC takes every entry of the list. -/
theorem State.ccEpochStart_taken (hm : m ∈ s.cc.marks) : s.ccEpochStart.EpochTaken m := by
  have marked : (((s.cc.marks.map Mark.id).foldl State.markEpoch s)).IdsDistinct ∧
      (((s.cc.marks.map Mark.id).foldl State.markEpoch s)).EpochTaken m :=
    foldl_reach (fun u : State => u.IdsDistinct ∧ m ∈ u.cc.marks) (fun u : State => u.IdsDistinct ∧ u.EpochTaken m)
      State.markEpoch m.id _ distinct (List.mem_map_of_mem hm)
      (fun _ id other ⟨hd, hu⟩ => ⟨hd.markEpoch id, State.markEpoch_mem_other (Ne.symm other) hu⟩)
      (fun _ ⟨hd, hu⟩ => ⟨hd.markEpoch _, State.markEpoch_taken hd hu⟩)
      (fun _ id other ⟨hd, hu⟩ => ⟨hd.markEpoch id, hu.markEpoch_other (Ne.symm other)⟩) ⟨distinct, hm⟩
  unfold State.ccEpochStart
  dsimp only
  generalize (s.cc.marks.map Mark.id).foldl State.markEpoch s = u at marked
  obtain ⟨du, hu⟩ := marked
  have windows : u.MarksTurn (slots.foldl (fun t i => t.windowEpoch i) u) ∧
      (slots.foldl (fun t i => t.windowEpoch i) u).cc.marks = u.cc.marks := by
    refine foldl_keeps (fun v : State => u.MarksTurn v ∧ v.cc.marks = u.cc.marks) _ slots (fun v i ⟨turn, same⟩ => ?_)
      ⟨.refl u, rfl⟩
    have marks := v.marks_windowEpoch i
    exact ⟨turn.trans (.of_calm (.windowEpoch i v) marks (by simp)), marks.trans same⟩
  refine ⟨fun x hx => ?_, fun hx => windows.1.abandoned du (hu.abandoned hx)⟩
  rw [windows.2]
  exact hu.stays x hx

end

theorem State.ids_ccEpochStart {s : State} {x : Mark} (hx : x ∈ s.ccEpochStart.cc.marks) : ∃ m ∈ s.cc.marks, x.id = m.id := by
  have marked : ∀ (l : List Nat), ∀ x ∈ (l.foldl State.markEpoch s).cc.marks, ∃ m ∈ s.cc.marks, x.id = m.id := by
    intro l
    refine foldl_keeps (fun u : State => ∀ x ∈ u.cc.marks, ∃ m ∈ s.cc.marks, x.id = m.id) _ l (fun u id hu => ?_)
      fun x hx => ⟨x, hx, rfl⟩
    intro x hx
    rcases u.markEpoch_cases id with e | ⟨f, hf, e⟩ | ⟨m, found, e⟩
    · exact hu x (e ▸ hx)
    · rw [e] at hx
      obtain ⟨y, hy, same, _⟩ := exists_mark_of_map_eq (State.Calm.modifyMark id hf u).marks hx
      rw [← same]
      exact hu y hy
    · rw [e, State.abandon_marks found] at hx
      exact hu x (List.mem_filter.1 hx).1
  unfold State.ccEpochStart at hx
  obtain ⟨y, hy, same, _⟩ := exists_mark_of_map_eq (State.Calm.foldl (fun t i => State.Calm.windowEpoch i t) slots _).marks hx
  rw [← same]
  exact marked _ y hy

/-! ## The tick -/

/-- An own win that comes with the tick leaves CC as it would without it. -/
theorem State.advanceCounter_winWith_cc (order : List Part) (s : State) :
    (s.advanceCounter.winWith order).cc = (s.winWith order).cc := by
  have lc : s.advanceCounter.lc = s.lc := by simp
  have cc : s.advanceCounter.cc = s.cc := by simp
  unfold State.winWith
  split
  · have same : s.advanceCounter.contender = s.contender := by rw [State.contender, State.contender, lc]
    unfold State.winArbitration
    rw [same]
    split
    · exact cc
    · rename_i m _
      cases hp : m.payload with
      | claim p =>
        cases hm : m.mark with
        | none => simp [State.noticeWin, State.fixPayload]
        | some id => simp [State.noticeWin, State.fixPayload, State.modifyMark]
      | _ => simp [State.noticeWin, State.fixPayload]
  · exact cc

/-- The epoch start at CC stands between two turns of the other parts. -/
theorem State.memberTick_marks {s : State} (wraps : s.atEpochEnd = true) (order : List Part) :
    ∃ u, (s.advanceCounter.winWith order).MarksTurn u ∧ u.ccEpochStart.MarksTurn (s.memberTick order) :=
  State.memberTick_reach (s.advanceCounter.winWith order).MarksTurn
    (fun v => ∃ u, (s.advanceCounter.winWith order).MarksTurn u ∧ u.ccEpochStart.MarksTurn v) .ccEpoch (by decide) (.refl _)
    (fun _ _ hp hu => hu.trans (.tickPart hp _ _ _))
    (fun u hu => by rw [wraps]; exact ⟨u, hu, .refl _⟩)
    (fun _ _ hp ⟨u, hu, k⟩ => ⟨u, hu, k.trans (.tickPart hp _ _ _)⟩)

theorem exists_of_stays {l l' : List Mark} (h : List.Forall₂ Mark.Stays l l') {m : Mark} (hm : m ∈ l) :
    ∃ x ∈ l', m.Stays x := by
  induction h with
  | nil => cases hm
  | cons h _ ih =>
    rcases List.mem_cons.1 hm with rfl | hm
    · exact ⟨_, List.mem_cons_self, h⟩
    · obtain ⟨x, hx, stays⟩ := ih hm
      exact ⟨x, List.mem_cons_of_mem _ hx, stays⟩

/-- What R22 and R23 ask of an entry, from the entry as the epoch start finds it. -/
theorem markAtEpochStart {m x : Mark} {u t : State} (stays : m.Stays x) (distinct : u.IdsDistinct) (taken : u.EpochTaken x)
    (after : u.MarksTurn t) : MarkAtEpochStart m t := by
  have kept : ∀ y, x.afterEpoch = some y →
      ∃ z ∈ t.cc.marks, z.id = m.id ∧ z.point = y.point ∧ z.starts = y.starts ∧ z.deferred = y.deferred := by
    intro y hy
    obtain ⟨z, hz, k⟩ := exists_of_stays (after.marks distinct) (taken.stays y hy)
    exact ⟨z, hz, k.id.trans ((Mark.afterEpoch_id hy).trans stays.id), k.point, k.starts, k.deferred⟩
  refine ⟨fun deferred => ?_, fun deferred starts => ?_, fun deferred starts claim own => ?_, fun deferred starts claim => ?_⟩
  · obtain ⟨z, hz, id, point, _, still⟩ := kept x (by simp [Mark.afterEpoch, stays.deferred, deferred])
    exact ⟨z, hz, id, point.trans stays.point, still.trans (stays.deferred.trans deferred)⟩
  · obtain ⟨z, hz, id, point, one, still⟩ := kept { x with starts := 1 }
      (by simp [Mark.afterEpoch, stays.deferred, stays.starts, deferred, starts])
    exact ⟨z, hz, id, point.trans stays.point, one, still.trans (stays.deferred.trans deferred)⟩
  · obtain ⟨z, hz, id, point, _, set⟩ := kept { x with deferred := true }
      (by simp [Mark.afterEpoch, stays.deferred, stays.starts, deferred, starts, (stays.moving claim own).1])
    exact ⟨z, hz, id, point.trans stays.point, set⟩
  · have gone := after.abandoned distinct (taken.abandoned
      (by simp [Mark.afterEpoch, stays.deferred, stays.starts, deferred, starts, stays.still claim]))
    refine ⟨fun y hy => ?_, gone.told, fun i hi => gone.free i (stays.slot.trans hi), ?_, fun q hq hm => gone.queue q hq ?_⟩
    · rw [← stays.id]
      exact gone.gone y hy
    · rw [← stays.id]
      exact gone.line
    · rw [stays.id]
      exact hm

/-- Settles O30: each entry as it stands after a win, through the parts before the epoch start, the epoch start, and the
parts after it. -/
theorem claimsTimeOut : Obligations.ClaimsTimeOut := by
  intro s order running station wraps distinct
  have calm : s.Calm (s.advanceCounter.winWith order) :=
    State.Calm.trans (.of_frame (by simp) (by simp) (by simp)) (.winWith order _)
  have begun : (s.advanceCounter.winWith order).IdsDistinct := State.IdsDistinct.calm calm distinct
  obtain ⟨u, before, after⟩ := State.memberTick_marks (decide_eq_true wraps) order
  have found := before.idsDistinct begun
  refine ⟨_, congrArg Host.Outcome.next (State.takeTick_member running station order), fun ⟨m, hm, starts, deferred⟩ => ?_,
    fun m hm => ?_, fun x hx => ?_⟩
  · refine congrArg Host.Outcome.next (State.tickWhen_member running station ?_ order)
    rw [State.claimTimesOutNext, (State.wrapsNext_iff running station).2 wraps, Bool.true_and]
    exact List.any_eq_true.2 ⟨m, hm, by simp [starts, deferred]⟩
  · rw [← State.advanceCounter_winWith_cc] at hm
    obtain ⟨x, hx, stays⟩ := exists_of_stays (before.marks begun) hm
    exact markAtEpochStart stays found.ccEpochStart (State.ccEpochStart_taken found hx) after
  · obtain ⟨y, hy, idx⟩ := after.mem_id found.ccEpochStart hx
    obtain ⟨z, hz, idy⟩ := State.ids_ccEpochStart hy
    obtain ⟨w, hw, idz⟩ := before.mem_id begun hz
    obtain ⟨m, hm, idw, _⟩ := exists_mark_of_map_eq calm.marks hw
    exact ⟨m, hm, by rw [← idx, idy, ← idz, idw]⟩

end Sys2Proof.Machine
end

