-- ==== Sys2Proof/Proofs/CaptureHeard.lean ====
section
/-! SUPPORT. A receiver accepts a CLAIM or FROZEN of another station: CC takes it, and MU takes it before or after, without
either seeing the difference (R122, R124, R145). -/

namespace Sys2Proof.Machine

/-! ## Decoding (R116, R177) -/

theorem word16_bytes (w : Word) : word16 (w.extractLsb' 8 8) (w.extractLsb' 0 8) = w := by
  rw [word16]
  exact BitVec.extractLsb'_append_extractLsb'_eq_extractLsb' (by decide) |>.trans (by simp)

theorem word32_bytes (w : Word32) :
    word32 (w.extractLsb' 24 8) (w.extractLsb' 16 8) (w.extractLsb' 8 8) (w.extractLsb' 0 8) = w := by
  rw [word32]
  have hi : w.extractLsb' 24 8 ++ w.extractLsb' 16 8 = w.extractLsb' 16 16 :=
    BitVec.extractLsb'_append_extractLsb'_eq_extractLsb' (by decide)
  have lo : w.extractLsb' 8 8 ++ w.extractLsb' 0 8 = w.extractLsb' 0 16 :=
    BitVec.extractLsb'_append_extractLsb'_eq_extractLsb' (by decide)
  rw [hi, lo]
  exact BitVec.extractLsb'_append_extractLsb'_eq_extractLsb' (by decide) |>.trans (by simp)

theorem decodePayload_claim (p : Point) : decodePayload (Payload.claim p).kind (Payload.claim p).encode = some (.claim p) := by
  have point : some (Payload.claim ⟨word32 (p.epoch.extractLsb' 24 8) (p.epoch.extractLsb' 16 8) (p.epoch.extractLsb' 8 8)
      (p.epoch.extractLsb' 0 8), word16 (p.tick.extractLsb' 8 8) (p.tick.extractLsb' 0 8)⟩) = some (.claim p) := by
    rw [word32_bytes, word16_bytes]
  exact point

theorem decodePayload_frozen (key : Key) (offset outcome : Byte) :
    decodePayload (Payload.frozen key offset outcome).kind (Payload.frozen key offset outcome).encode =
      some (.frozen key offset outcome) := by
  have fields : some (Payload.frozen ⟨key.origin, ⟨word32 (key.point.epoch.extractLsb' 24 8)
      (key.point.epoch.extractLsb' 16 8) (key.point.epoch.extractLsb' 8 8) (key.point.epoch.extractLsb' 0 8),
      word16 (key.point.tick.extractLsb' 8 8) (key.point.tick.extractLsb' 0 8)⟩⟩ offset outcome) =
      some (.frozen key offset outcome) := by
    rw [word32_bytes, word16_bytes]
  exact fields

/-! ## What CC does not see -/

/-- What LC and MU do at a message of the sender, as CC reads them: nothing but the sender's entry changes at MU, and that
to no other state in the eyes of CC. -/
structure State.HearsOf (sender : Station) (s t : State) : Prop where
  cc      : t.cc = s.cc
  acq     : t.acq = s.acq
  hr      : t.hr = s.hr
  et      : t.et = s.et
  tm      : t.tm = s.tm
  queue   : t.lc.queue = s.lc.queue
  mute    : t.lc.mute = s.lc.mute
  station : t.mu.station = s.mu.station
  number  : t.mu.number = s.mu.number
  config  : t.mu.config = s.mu.config
  others  : ∀ n, n ≠ sender.toNat → t.peerAt n = s.peerAt n
  sender  : (t.peerAt sender.toNat).afterCapture = (s.peerAt sender.toNat).afterCapture
  session : t.lp.session = s.lp.session
  causes  : ∀ c, s.hasCause c = true → t.hasCause c = true

namespace State.HearsOf
variable {sender : Station} {s t u : State}

theorem of_frame (cc : t.cc = s.cc) (acq : t.acq = s.acq) (hr : t.hr = s.hr) (et : t.et = s.et) (tm : t.tm = s.tm)
    (queue : t.lc.queue = s.lc.queue) (mute : t.lc.mute = s.lc.mute) (mu : t.mu = s.mu) (lp : t.lp = s.lp) : s.HearsOf sender t :=
  ⟨cc, acq, hr, et, tm, queue, mute, by rw [mu], by rw [mu], by rw [mu], fun n _ => by simp only [State.peerAt, mu],
    by simp only [State.peerAt, mu], by rw [lp], fun c hc => by simpa only [State.hasCause, lp] using hc⟩

theorem refl (sender : Station) (s : State) : s.HearsOf sender s := of_frame rfl rfl rfl rfl rfl rfl rfl rfl rfl

theorem trans (h : s.HearsOf sender t) (k : t.HearsOf sender u) : s.HearsOf sender u where
  cc := k.cc.trans h.cc
  acq := k.acq.trans h.acq
  hr := k.hr.trans h.hr
  et := k.et.trans h.et
  tm := k.tm.trans h.tm
  queue := k.queue.trans h.queue
  mute := k.mute.trans h.mute
  station := k.station.trans h.station
  number := k.number.trans h.number
  config := k.config.trans h.config
  others n hn := (k.others n hn).trans (h.others n hn)
  sender := k.sender.trans h.sender
  session := k.session.trans h.session
  causes c hc := k.causes c (h.causes c hc)

theorem acceptEffects (sender : Station) (p : Nat) (s : State) : s.HearsOf sender (s.acceptEffects p) :=
  of_frame rfl rfl rfl rfl rfl rfl rfl rfl rfl

end State.HearsOf

theorem State.peerAt_setIfInBounds (n k : Nat) (p : Peer) (s : State) :
    ({ s with mu := { s.mu with peers := s.mu.peers.setIfInBounds n p } } : State).peerAt k =
      if n = k ∧ n < 24 then p else s.peerAt k := by
  unfold State.peerAt
  rw [Vector.getElem?_setIfInBounds]
  by_cases e : n = k
  · subst e
    by_cases h : n < 24
    · simp [h]
    · simp [h]
  · simp [e]

/-- The state in which a CLAIM or FROZEN leaves an entry is left so by the next one. -/
theorem Peer.afterCapture_update {digest : Word} {epoch : Word32} {m : Payload} (none_ : m.announcement = none)
    (bye : m.isBye = false) (p : Peer) : (p.update digest epoch m).afterCapture = p.afterCapture := by
  have updated : p.update digest epoch m = { p with lastHeard := some epoch, state := p.afterCapture } := by
    simp [Peer.update, none_, bye, Peer.afterCapture]
  rw [updated]
  cases state : p.state with
  | absent =>
    by_cases known : p.digestMatches = some false
    · simp [Peer.afterCapture, state, known]
    · simp [Peer.afterCapture, state, known]
  | present => simp [Peer.afterCapture, state]
  | mismatch => simp [Peer.afterCapture, state]

theorem State.HearsOf.setPeer {sender : Station} {s : State} {p : Peer}
    (h : p.afterCapture = (s.peerAt sender.toNat).afterCapture) : s.HearsOf sender (s.setPeer sender.toNat p) := by
  have put : s.HearsOf sender { s with mu := { s.mu with peers := s.mu.peers.setIfInBounds sender.toNat p } } := by
    refine ⟨rfl, rfl, rfl, rfl, rfl, rfl, rfl, rfl, rfl, rfl, fun n hn => ?_, ?_, rfl, fun _ hc => hc⟩
    · rw [State.peerAt_setIfInBounds, if_neg fun e => hn e.1.symm]
    · rw [State.peerAt_setIfInBounds]
      split
      · exact h
      · rfl
  unfold State.setPeer
  dsimp only
  split
  · exact put
  · exact put.trans ⟨rfl, rfl, rfl, rfl, rfl, rfl, rfl, rfl, rfl, rfl, fun _ _ => rfl, rfl, rfl, (Calm.raise _ _).causes⟩

theorem Payload.OfCapture.facts {m : Payload} (h : m.OfCapture) (before : Peer) (digest : Word) :
    m.announcement = none ∧ m.isBye = false ∧ foreignEpoch digest m = false ∧ answersHello before digest m = false := by
  obtain ⟨epoch, hello, bye⟩ := h
  cases m with
  | claim p => exact ⟨rfl, rfl, rfl, rfl⟩
  | frozen k a b => exact ⟨rfl, rfl, rfl, rfl⟩
  | epoch _ _ _ => cases epoch
  | hello _ _ _ => cases hello
  | present _ _ _ => cases hello
  | bye => cases bye

theorem State.HearsOf.muTake {sender : Station} {m : Payload} {s : State} (capture : m.OfCapture)
    (other : sender ≠ s.mu.number) : s.HearsOf sender (s.muTake sender m) := by
  obtain ⟨announcement, bye, foreign, hello⟩ :=
    capture.facts (s.peerAt sender.toNat) s.mu.digest
  unfold State.muTake
  rw [if_neg other]
  split
  · exact refl sender s
  split
  · exact refl sender s
  simp only [foreign, hello, Bool.and_false, Bool.false_eq_true, if_false]
  exact setPeer (Peer.afterCapture_update announcement bye _)

/-! ## The delivery (R122, R124) -/

/-- Of the parts of a delivery without an epoch start only MU's taking counts. -/
theorem State.deliveryParts_still (sender : Station) (m : Payload) (muDone : Bool) (order : List Part) (s : State) :
    (completeOrder deliveryParts order).foldl (State.deliveryPart sender m muDone false) s =
      if muDone then s else s.muTake sender m := by
  refine foldl_parts_reach (fun u => u = s) (fun u => u = if muDone then s else s.muTake sender m)
    (State.deliveryPart sender m muDone false) .muTake _ (nodup_completeOrder order (by decide))
    (mem_completeOrder.2 (by decide)) (fun u p hp hu => ?_) (fun u hu => ?_) (fun u p hp hu => ?_) rfl
  · cases p with
    | muTake => exact absurd rfl hp
    | _ => exact hu
  · rw [hu]
    rfl
  · cases p with
    | muTake => exact absurd rfl hp
    | _ => exact hu

theorem State.frameAccepted_eq {s : State} {f : WireFrame} {m : Payload} (reads : s.ReadsAsReceiver) (carries : Carries f m)
    (decodes : decodePayload m.kind m.encode = some m) (muFirst : Bool) (order : List Part) :
    s.frameAccepted f muFirst order = (s.acceptEffects f.payload.length).deliverOther f.sender m muFirst order := by
  obtain ⟨station, view, queued⟩ := reads
  obtain ⟨kind, payload, crc, presence⟩ := carries
  have sending : s.sending = none := List.find?_eq_none.2 fun q hq => by simp [Msg.moving, queued q hq]
  have contender : s.contender = none := List.find?_eq_none.2 fun q hq => by simp [Msg.contends, queued q hq]
  have on : s.receiverOn = true := by
    rcases station with h | h | h <;> simp [State.receiverOn, State.isListen, State.isMember, State.isLeaving, h]
  have receives : s.receives = true := by
    rcases view with h | h <;> simp [State.receives, on, h, contender, sending]
  have judged : s.judge f = .accept m := by
    have good : crcGood f = true := by simpa [crcGood, CrcGood] using crc
    simp [State.judge, presence, good, kind, payload, decodes]
  simp only [State.frameAccepted, sending, receives, judged, if_true]

/-- CC takes the message of another station from a state that it reads as `s`, and so leaves the state that it is read in
after the delivery. -/
theorem State.frameAccepted_capture {s : State} {f : WireFrame} {m : Payload} {take : State → State}
    (reads : s.ReadsAsReceiver) (carries : Carries f m) (decodes : decodePayload m.kind m.encode = some m)
    (capture : m.OfCapture) (owner : ∀ u : State, u.ownerTake f.sender m = (take u, false))
    (mu : ∀ u : State, (take u).mu = u.mu) (other : f.sender ≠ s.mu.number) (muFirst : Bool) (order : List Part) :
    ∃ u t, exec (.frameAccepted f muFirst order) s = .next t ∧ s.HearsOf f.sender u ∧ (take u).HearsOf f.sender t := by
  have accepted := State.HearsOf.acceptEffects f.sender f.payload.length s
  have delivered : exec (.frameAccepted f muFirst order) s =
      .next ((s.acceptEffects f.payload.length).deliverOther f.sender m muFirst order) :=
    congrArg Host.Outcome.next (State.frameAccepted_eq reads carries decodes muFirst order)
  generalize s.acceptEffects f.payload.length = v at accepted delivered
  have other' : f.sender ≠ v.mu.number := by rwa [accepted.number]
  cases muFirst with
  | true =>
    refine ⟨v.muTake f.sender m, take (v.muTake f.sender m), delivered.trans ?_,
      accepted.trans (.muTake capture other'), .refl _ _⟩
    simp only [State.deliverOther, owner, State.deliveryParts_still, if_true]
  | false =>
    refine ⟨v, (take v).muTake f.sender m, delivered.trans ?_, accepted, .muTake capture (by rwa [mu])⟩
    simp only [State.deliverOther, owner, State.deliveryParts_still, Bool.false_eq_true, if_false]

theorem State.claim_heard {s : State} {f : WireFrame} {p : Point} (reads : s.ReadsAsReceiver) (carries : Carries f (.claim p))
    (other : f.sender ≠ s.mu.number) (muFirst : Bool) (order : List Part) :
    ∃ u t, exec (.frameAccepted f muFirst order) s = .next t ∧ s.HearsOf f.sender u ∧
      (u.claimAccepted f.sender p).HearsOf f.sender t :=
  State.frameAccepted_capture reads carries (decodePayload_claim p) (Payload.claim_ofCapture p) (fun _ => rfl)
    (fun u => by simp) other muFirst order

theorem State.frozen_heard {s : State} {f : WireFrame} {key : Key} {offset outcome : Byte} (reads : s.ReadsAsReceiver)
    (carries : Carries f (.frozen key offset outcome)) (other : f.sender ≠ s.mu.number) (muFirst : Bool) (order : List Part) :
    ∃ u t, exec (.frameAccepted f muFirst order) s = .next t ∧ s.HearsOf f.sender u ∧
      (u.frozenAccepted f.sender key offset outcome).HearsOf f.sender t :=
  State.frameAccepted_capture reads carries (decodePayload_frozen key offset outcome) (Payload.frozen_ofCapture key offset outcome)
    (fun _ => rfl) (fun u => by simp) other muFirst order

/-! ## What CC reads of the sender and the configuration -/

section
variable {sender : Station} {s u : State} (h : s.HearsOf sender u)
include h

theorem State.HearsOf.cfg : u.cfg = s.cfg := by rw [State.cfg, State.cfg, h.config]

theorem State.HearsOf.isMember : u.isMember = s.isMember := by rw [State.isMember, State.isMember, h.station]

theorem State.HearsOf.noRoom (queue : List Msg) : u.NoRoom queue ↔ s.NoRoom queue := by
  rw [State.NoRoom, State.NoRoom, h.mute]

theorem State.HearsOf.senderMismatch (other : sender ≠ s.mu.number) :
    u.senderMismatch sender = true ↔ s.MismatchAfter sender := by
  have taken : (s.peerAt sender.toNat).afterCapture = .mismatch ↔ s.MismatchAfter sender := by
    unfold State.MismatchAfter Peer.afterCapture
    cases state : (s.peerAt sender.toNat).state with
    | absent => by_cases known : (s.peerAt sender.toNat).digestMatches = some false <;> simp [known]
    | present => simp
    | mismatch => simp
  rw [State.senderMismatch, h.number, h.sender, ← taken]
  simp [other]

end

end Sys2Proof.Machine
end

