-- ==== Sys2Proof/Proofs/Answering.lean ====
section
/-! SUPPORT. A record becomes FILLING and its FROZEN is submitted (R17, R20, R29): the expected set, the lost FROZEN, and
the window that stays open while the sender is waited for. -/

namespace Sys2Proof.Machine

/-! ## Keys -/

theorem CapRecord.hasKey_iff {r : CapRecord} {key : Key} : r.hasKey key = true ↔ r.capture.map Capture.key = some key := by
  unfold CapRecord.hasKey
  cases r.capture with
  | none => simp
  | some c => simp

theorem State.keyAt_eq_some {s : State} {i : Fin 4} {key : Key} :
    s.keyAt i = some key ↔ ∃ r, s.recordAt i = some r ∧ r.hasKey key = true := by
  unfold State.keyAt
  cases s.recordAt i with
  | none => simp
  | some r => simp [CapRecord.hasKey_iff]

theorem State.keyHeld_iff {s : State} {key : Key} : s.keyHeld key = true ↔ ∃ i, s.keyAt i = some key := by
  simp only [State.keyHeld, List.any_eq_true, State.keyAt_eq_some]
  refine ⟨fun ⟨i, _, hi⟩ => ⟨i, ?_⟩, fun ⟨i, r, hr, hk⟩ => ⟨i, Tables.mem_slots i, by simpa only [hr] using hk⟩⟩
  cases hr : s.recordAt i with
  | none => simp [hr] at hi
  | some r => exact ⟨r, rfl, by simpa only [hr] using hi⟩

/-! ## The expected set (R17, R44) -/

theorem stationBit_getLsbD (t : Station) {n : Nat} (h : n < 24) : (stationBit t).getLsbD n = true ↔ n = t.toNat := by
  rw [stationBit, ← BitVec.twoPow_eq, BitVec.getLsbD_twoPow]
  rw [Bool.and_eq_true, decide_eq_true_iff, decide_eq_true_iff]
  exact ⟨fun ⟨_, e⟩ => e.symm, fun e => ⟨e ▸ h, e.symm⟩⟩

theorem State.presentSet_getLsbD (s : State) {n : Nat} (h : n < 24) :
    s.presentSet.getLsbD n = true ↔ (s.peerAt n).state = .present := by
  have gathered : ∀ (l : List Nat) (set : BitVec 24),
      ((l.foldl (fun set k => if (s.peerAt k).state = .present then set ||| (1#24 <<< k) else set) set).getLsbD n = true ↔
        set.getLsbD n = true ∨ (n ∈ l ∧ (s.peerAt n).state = .present)) := by
    intro l
    induction l with
    | nil => simp
    | cons k l ih =>
      intro set
      rw [List.foldl_cons, ih]
      by_cases present : (s.peerAt k).state = .present
      · rw [if_pos present, BitVec.getLsbD_or, ← BitVec.twoPow_eq, BitVec.getLsbD_twoPow]
        by_cases e : n = k
        · subst e
          simp [h, present]
        · simp [e, Ne.symm e]
      · rw [if_neg present]
        by_cases e : n = k
        · subst e
          simp [present]
        · simp [e]
  rw [State.presentSet, gathered]
  simp [h]

theorem State.expectedSet_getLsbD (s : State) (sender : Station) {n : Nat} (h : n < 24) :
    (s.expectedSet sender).getLsbD n = true ↔
      ((s.peerAt n).state = .present ∨ n = sender.toNat ∨ n = s.mu.number.toNat) := by
  rw [State.expectedSet, BitVec.getLsbD_or, BitVec.getLsbD_or, Bool.or_eq_true, Bool.or_eq_true, s.presentSet_getLsbD h,
    stationBit_getLsbD _ h, stationBit_getLsbD _ h, or_assoc]

/-- LC and MU at the sender's message do not change whom CC expects. -/
theorem State.HearsOf.expectedSet {sender : Station} {s u : State} (h : s.HearsOf sender u) {n : Nat} (hn : n < 24) :
    (u.expectedSet sender).getLsbD n = true ↔
      ((s.peerAt n).state = .present ∨ n = sender.toNat ∨ n = s.mu.number.toNat) := by
  rw [u.expectedSet_getLsbD sender hn, h.number]
  by_cases e : n = sender.toNat
  · simp [e]
  · rw [h.others n e]

/-! ## The FROZEN submitted (R29) -/

section
variable {s : State} (key : Key) (offset : Byte) (outcome : OutcomeCode)

theorem State.submitFrozen_noRoom (full : s.NoRoom s.lc.queue) : s.submitFrozen key offset outcome = s.frozenLost key := by
  unfold State.submitFrozen
  rw [State.submit_noRoom (Payload.frozen_ofCapture _ _ _) full]

theorem State.submitFrozen_room (member : s.isMember = true) (room : ¬s.NoRoom s.lc.queue) :
    s.submitFrozen key offset outcome = s.enqueue (.frozen key offset outcome.code) none := by
  unfold State.submitFrozen
  rw [State.submit_room (Payload.frozen_ofCapture _ _ _) member room]

theorem State.submitFrozen_submitted (member : s.isMember = true) (room : ¬s.NoRoom s.lc.queue) :
    ∃ q ∈ (s.submitFrozen key offset outcome).lc.queue, q.cond = .queued ∧ q.payload = .frozen key offset outcome.code := by
  rw [State.submitFrozen_room key offset outcome member room]
  obtain ⟨q, hq, payload, cond, _⟩ := s.enqueue_new (.frozen key offset outcome.code) none
  exact ⟨q, hq, cond, payload⟩

theorem State.submitFrozen_queue {q : Msg} (hq : q ∈ (s.submitFrozen key offset outcome).lc.queue) :
    q ∈ s.lc.queue ∨ q.mark = none := by
  unfold State.submitFrozen at hq
  split at hq
  · exact .inl hq
  · rename_i t ht
    rcases State.submit_mem ht hq with old | ⟨_, mark, _⟩
    · exact .inl old
    · exact .inr mark

theorem State.submitFrozen_marks : (s.submitFrozen key offset outcome).cc.marks = s.cc.marks := by
  unfold State.submitFrozen
  split
  · rfl
  · rename_i t ht
    rw [(State.submit_frame ht).2.2.1]

/-- A FROZEN whose key no record holds: lost or submitted, CC stays as it is. -/
theorem State.submitFrozen_cc (new : ∀ i, s.keyAt i ≠ some key) : (s.submitFrozen key offset outcome).cc = s.cc := by
  unfold State.submitFrozen
  split
  · have kept : s.cc.records.map (fun o => o.map (fun r => if r.hasKey key then r.loseAnnounce else r)) = s.cc.records := by
      refine Vector.ext fun n hn => ?_
      rw [Vector.getElem_map]
      cases hr : s.cc.records[n] with
      | none => rfl
      | some r =>
        have other : r.hasKey key = false := by
          by_contra held
          exact new ⟨n, hn⟩ (State.keyAt_eq_some.2 ⟨r, hr, by simpa using held⟩)
        simp [other]
    unfold State.frozenLost State.mapRecords
    simp [kept]
  · rename_i t ht
    exact (State.submit_frame ht).2.2.1

/-- A lost FROZEN is noted in the record that holds its key (R29). -/
theorem State.submitFrozen_recordAt (member : s.isMember = true) :
    ∃ lost : Bool, (lost = true ↔ s.NoRoom s.lc.queue) ∧ ∀ j, (s.submitFrozen key offset outcome).recordAt j =
      (s.recordAt j).map (fun r => if lost && r.hasKey key then r.loseAnnounce else r) := by
  by_cases full : s.NoRoom s.lc.queue
  · refine ⟨true, by simp [full], fun j => ?_⟩
    rw [State.submitFrozen_noRoom key offset outcome full, State.frozenLost, State.recordAt_mapRecords]
    simp only [Bool.true_and]
  · refine ⟨false, by simp [full], fun j => ?_⟩
    rw [State.submitFrozen_room key offset outcome member full]
    simp only [Bool.false_and, Bool.false_eq_true, if_false, Option.map_id']
    rfl

end

/-! ## A record becomes FILLING (R17, R20) -/

theorem State.mem_stationsOf {set : BitVec 24} {t : Station} : t ∈ stationsOf set ↔ t.toNat < 24 ∧ set.getLsbD t.toNat = true := by
  simp only [stationsOf, List.mem_map, List.mem_filter, List.mem_range]
  refine ⟨fun ⟨n, ⟨hn, hs⟩, e⟩ => ?_, fun ⟨hn, hs⟩ => ⟨t.toNat, ⟨hn, hs⟩, by simp⟩⟩
  subst e
  rw [stationOfNat_toNat hn]
  exact ⟨hn, hs⟩

theorem CapRecord.answeredAll_waiting {r : CapRecord} {c : Capture} (phase : r.phase = .filling c) (waits : c.silent ≠ []) :
    r.answeredAll = r := by
  have some_ : c.silent.isEmpty = false := by simpa using waits
  simp [CapRecord.answeredAll, phase, some_]

/-- A new capture waits for every other station that it expects. -/
theorem State.newCapture_silent {s : State} {key : Key} {outcome : OutcomeCode} {offset : Byte} {expected : BitVec 24}
    {t : Station} (ht : t.toNat < 24) (asked : expected.getLsbD t.toNat = true) (other : t ≠ s.mu.number) :
    (s.newCapture key outcome offset expected).silent ≠ [] := by
  refine List.ne_nil_of_mem (a := t) (List.mem_filter.2 ⟨State.mem_stationsOf.2 ⟨ht, asked⟩, ?_⟩)
  simp [Capture.hasEntry, State.newCapture, Ne.symm other]

section
variable {s : State} (i : Fin 4) (key : Key) (outcome : OutcomeCode) (offset : Byte) (expected : BitVec 24)

theorem State.fillRecord_recordAt (j : Fin 4) : (s.fillRecord i key outcome offset expected).recordAt j =
    if i = j then
      (s.recordAt i).map (fun r => { r with phase := .filling (s.newCapture key outcome offset expected) })
    else s.recordAt j := by
  rw [State.fillRecord_eq, State.recordAt_modifyRecord]

theorem State.fillRecord_marks : (s.fillRecord i key outcome offset expected).cc.marks = s.cc.marks := by
  rw [State.fillRecord_eq, State.marks_modifyRecord]

theorem State.marks_closeIfAnswered : (s.closeIfAnswered i).cc.marks = s.cc.marks := by
  unfold State.closeIfAnswered
  split
  · rfl
  · split
    · split
      · exact s.marks_closeWindow i
      · rfl
    · rfl
    · rfl

theorem State.fillAndAnswer_marks : (s.fillAndAnswer i key outcome offset expected).cc.marks = s.cc.marks := by
  rw [State.fillAndAnswer, State.marks_closeIfAnswered, State.submitFrozen_marks, State.fillRecord_marks]

theorem State.fillAndAnswer_lineEntry :
    (s.fillAndAnswer i key outcome offset expected).cc.lineEntry = s.cc.lineEntry := by
  rw [State.fillAndAnswer, (Calm.closeIfAnswered i _).lineEntry, (Calm.submitFrozen key offset outcome _).lineEntry,
    State.fillRecord_eq, State.modifyRecord_cc]

theorem State.fillAndAnswer_lc : (s.fillAndAnswer i key outcome offset expected).lc =
    ((s.fillRecord i key outcome offset expected).submitFrozen key offset outcome).lc := by
  simp [State.fillAndAnswer]

theorem State.fillAndAnswer_submitted (member : s.isMember = true) (room : ¬s.NoRoom s.lc.queue) :
    ∃ q ∈ (s.fillAndAnswer i key outcome offset expected).lc.queue,
      q.cond = .queued ∧ q.payload = .frozen key offset outcome.code := by
  rw [State.fillAndAnswer_lc]
  refine State.submitFrozen_submitted key offset outcome ?_ ?_
  · simpa [State.isMember] using member
  · simpa [State.NoRoom] using room

theorem State.fillAndAnswer_queue {q : Msg} (hq : q ∈ (s.fillAndAnswer i key outcome offset expected).lc.queue) :
    q ∈ s.lc.queue ∨ q.mark = none := by
  rw [State.fillAndAnswer_lc] at hq
  simpa using State.submitFrozen_queue key offset outcome hq

/-- The record of the slot takes the key, and waits for another expected station; no other record changes. -/
theorem State.fillAndAnswer_recordAt {r : CapRecord} {t : Station} (member : s.isMember = true) (hr : s.recordAt i = some r)
    (new : ∀ j, j ≠ i → s.keyAt j ≠ some key) (ht : t.toNat < 24) (asked : expected.getLsbD t.toNat = true)
    (other : t ≠ s.mu.number) :
    (∀ j, j ≠ i → (s.fillAndAnswer i key outcome offset expected).recordAt j = s.recordAt j) ∧
      ∃ lost : Bool, (lost = true ↔ s.NoRoom s.lc.queue) ∧
        (s.fillAndAnswer i key outcome offset expected).recordAt i = some { r with
          phase := .filling (s.newCapture key outcome offset expected)
          flags := { r.flags with announceLost := r.flags.announceLost || lost } } := by
  have filled := fun j => s.fillRecord_recordAt i key outcome offset expected j
  have umember : (s.fillRecord i key outcome offset expected).isMember = true := by simpa [State.isMember] using member
  obtain ⟨lost, full, submitted⟩ := State.submitFrozen_recordAt key offset outcome umember
  refine ⟨fun j hj => ?_, lost, full.trans (by simp [State.NoRoom]), ?_⟩
  · rw [State.fillAndAnswer, State.recordAt_closeIfAnswered, if_neg (Ne.symm hj), submitted, filled, if_neg (Ne.symm hj)]
    cases hq : s.recordAt j with
    | none => rfl
    | some q =>
      have without : q.hasKey key = false := by
        by_contra held
        exact new j hj (State.keyAt_eq_some.2 ⟨q, hq, by simpa using held⟩)
      simp [without]
  · rw [State.fillAndAnswer, State.recordAt_closeIfAnswered, if_pos rfl, submitted, filled, if_pos rfl, hr]
    simp only [Option.map_some, Option.some.injEq]
    have holds : CapRecord.hasKey key { r with phase := .filling (s.newCapture key outcome offset expected) } = true := by
      simp [CapRecord.hasKey, CapRecord.capture, State.newCapture]
    rw [holds, Bool.and_true]
    have waits := State.newCapture_silent (s := s) (key := key) (outcome := outcome) (offset := offset) ht asked other
    cases lost with
    | true => rw [if_pos rfl, CapRecord.answeredAll_waiting rfl waits]; simp [CapRecord.loseAnnounce]
    | false => rw [if_neg (by simp), CapRecord.answeredAll_waiting rfl waits]; simp

end

end Sys2Proof.Machine
end

