-- ==== Sys2Proof/Proofs/ClaimHeard.lean ====
section
/-! O48, O49. Another station's CLAIM: ignored, matched to an open-mark entry, or joined late (R15 to R21). -/

namespace Sys2Proof.Machine

/-! ## Points (R15, R100) -/

theorem pointsNear_iff {E : Nat} {p q : Point} : pointsNear E p q = true ↔ |pointDelta E p q| ≤ 2 := by
  rw [pointsNear, Bool.and_eq_true, decide_eq_true_iff, decide_eq_true_iff, abs_le, Config.matchTicks]

/-- The epochs between two points, the short way round. -/
theorem epochDelta_spec {a b : Word32} (ha : a ≠ 0) (hb : b ≠ 0) :
    -2147483647 ≤ epochDelta a b ∧ epochDelta a b ≤ 2147483647 ∧
      (4294967295 : Int) ∣ (a.toNat : Int) - b.toNat - epochDelta a b := by
  have apos : a.toNat ≠ 0 := fun e => ha (BitVec.eq_of_toNat_eq e)
  have bpos : b.toNat ≠ 0 := fun e => hb (BitVec.eq_of_toNat_eq e)
  have abound : a.toNat < 4294967296 := a.isLt
  have bbound : b.toNat < 4294967296 := b.isLt
  have forward : epochsForward b a = if b.toNat ≤ a.toNat then a.toNat - b.toNat else a.toNat + 4294967295 - b.toNat := rfl
  have delta : epochDelta a b = if epochsForward b a ≤ 2147483647 then (epochsForward b a : Int)
      else (epochsForward b a : Int) - 4294967295 := by
    rw [epochDelta, if_neg (not_or.2 ⟨ha, hb⟩)]
    rfl
  rw [delta, forward]
  split <;> split <;> omega

/-! ## What CC looks for (R15, R16) -/

theorem State.findMark_eq_none {s : State} {p : Point} :
    s.findMark p = none ↔ ∀ x ∈ s.cc.marks, ¬|pointDelta s.cfg.epochLen x.point p| ≤ 2 := by
  simp only [State.findMark, List.find?_eq_none, pointsNear_iff]

theorem State.findMark_oldest {s : State} {p : Point} {m : Mark} {older newer : List Mark}
    (marks : s.cc.marks = older ++ m :: newer) (near : |pointDelta s.cfg.epochLen m.point p| ≤ 2)
    (before : ∀ x ∈ older, ¬|pointDelta s.cfg.epochLen x.point p| ≤ 2) : s.findMark p = some m := by
  rw [State.findMark, marks, List.find?_append, List.find?_eq_none.2 fun x hx => by rw [pointsNear_iff]; exact before x hx,
    Option.none_or]
  exact List.find?_cons_of_pos (pointsNear_iff.2 near)

theorem State.nearRecord_iff {s : State} {p : Point} : s.nearRecord p = true ↔
    ∃ i r, s.recordAt i = some r ∧ r.phase ≠ .opened ∧ |pointDelta s.cfg.epochLen p r.mark| ≤ 2 := by
  have captured : ∀ r : CapRecord, r.capture.isSome = true ↔ r.phase ≠ .opened := by
    intro r
    cases h : r.phase <;> simp [CapRecord.capture, h]
  simp only [State.nearRecord, List.any_eq_true]
  refine ⟨fun ⟨i, _, hi⟩ => ⟨i, ?_⟩, fun ⟨i, r, hr, hp, near⟩ => ⟨i, Tables.mem_slots i, ?_⟩⟩
  · cases hr : s.recordAt i with
    | none => simp [hr] at hi
    | some r =>
      simp only [hr, Bool.and_eq_true] at hi
      exact ⟨r, rfl, (captured r).1 hi.1, pointsNear_iff.1 hi.2⟩
  · simp only [hr, Bool.and_eq_true]
    exact ⟨(captured r).2 hp, pointsNear_iff.2 near⟩

/-! ## The ways of a CLAIM (R15) -/

section
variable {s : State} {sender : Station} {p : Point}

theorem State.claimAccepted_ignored (h : s.isMember = false ∨ 24 ≤ sender.toNat ∨ s.cfg.epochLen ≤ p.tick.toNat ∨
    s.senderMismatch sender = true ∨ s.keyHeld (claimKey sender p) = true ∨ (s.findMark p = none ∧ s.nearRecord p = true)) :
    s.claimAccepted sender p = s := by
  unfold State.claimAccepted
  split
  · rfl
  split
  · rfl
  split
  · rfl
  split
  · rfl
  split
  · rfl
  rename_i member number tick match_ held
  obtain ⟨none_, near⟩ : s.findMark p = none ∧ s.nearRecord p = true := by
    simpa [number, tick, match_, held, by simpa using member] using h
  rw [none_, near]
  rfl

/-- CC goes on with the CLAIM: none of R15's first cases. -/
structure State.TakesClaim (s : State) (sender : Station) (p : Point) : Prop where
  member : s.isMember = true
  number : sender.toNat < 24
  tick   : p.tick.toNat < s.cfg.epochLen
  digest : s.senderMismatch sender = false
  new    : s.keyHeld (claimKey sender p) = false

theorem State.claimAccepted_taken (h : s.TakesClaim sender p) : s.claimAccepted sender p =
    match s.findMark p with
    | some m => s.matchMark m sender p
    | none => if s.nearRecord p then s else s.lateJoin sender p := by
  simp only [State.claimAccepted, h.member, not_le.2 h.number, not_le.2 h.tick, h.digest, h.new]
  rfl

end

/-- CC goes on with a CLAIM in the eyes of whom LC and MU have brought the message to. -/
theorem State.HearsOf.takesClaim {sender : Station} {s u : State} (h : s.HearsOf sender u) {p : Point}
    (station : s.mu.station = .member) (number : sender.toNat < 24) (other : sender ≠ s.mu.number)
    (tick : p.tick.toNat < s.cfg.epochLen) (digest : ¬s.MismatchAfter sender)
    (new : ∀ i, s.keyAt i ≠ some (claimKey sender p)) : u.TakesClaim sender p where
  member := h.isMember.trans (isMember_iff.2 station)
  number := number
  tick := by rwa [h.cfg]
  digest := by
    rw [← Bool.not_eq_true, h.senderMismatch other]
    exact digest
  new := by
    rw [← Bool.not_eq_true, State.keyHeld_iff]
    rintro ⟨i, hi⟩
    exact new i (by rwa [← keyAt_eq (State.recordAt_of_cc h.cc i)])

/-! ## A CLAIM that matches an entry (R16 to R18) -/

/-- The state with the matched entry and its own CLAIM gone, the line entry CLAIMED where it named the entry. -/
def State.withoutMark (m : Mark) (s : State) : State :=
  ((s.dropMark m.id).withdrawMsg (claimOf m.id)).retireLine m.id .claimed

section
variable {s : State} {m : Mark} (sender : Station) (p : Point)

theorem State.matchMark_none (slot : m.slot = none) : s.matchMark m sender p =
    (s.withoutMark m).submitFrozen (claimKey sender p) (offsetByte (pointDelta s.cfg.epochLen m.point p)) .noSlot := by
  simp only [State.matchMark, State.withoutMark, slot]

theorem State.matchMark_some {i : Fin 4} (slot : m.slot = some i) : s.matchMark m sender p =
    (s.withoutMark m).fillAndAnswer i (claimKey sender p) .ok (offsetByte (pointDelta s.cfg.epochLen m.point p))
      (s.expectedSet sender) := by
  simp only [State.matchMark, State.withoutMark, slot]

variable (s m)

theorem State.withoutMark_recordAt (j : Fin 4) : (s.withoutMark m).recordAt j = s.recordAt j :=
  State.recordAt_retireLine _ _ _ j

theorem State.withoutMark_lineEntry (h : s.cc.lineEntry = .entry m.id) : (s.withoutMark m).cc.lineEntry = .claimed := by
  rw [State.withoutMark, State.lineEntry_retireLine]
  exact if_pos h

theorem State.withoutMark_mu : (s.withoutMark m).mu = s.mu ∧ (s.withoutMark m).lc.mute = s.lc.mute := by
  simp [State.withoutMark, State.withdrawMsg]

end

theorem State.withoutMark_marks {s : State} {m : Mark} {older newer : List Mark} (marks : s.cc.marks = older ++ m :: newer)
    (distinct : (s.cc.marks.map Mark.id).Nodup) : (s.withoutMark m).cc.marks = older ++ newer := by
  rw [State.withoutMark, State.marks_retireLine]
  have kept : ∀ x ∈ older ++ newer, x.id ≠ m.id := by
    rw [marks, List.map_append, List.map_cons, List.nodup_middle, List.nodup_cons, ← List.map_append] at distinct
    exact fun x hx e => distinct.1 (List.mem_map.2 ⟨x, hx, e⟩)
  have dropped : s.cc.marks.filter (fun x => x.id ≠ m.id) = older ++ newer := by
    rw [marks, List.filter_append, List.filter_cons_of_neg (by simp), ← List.filter_append]
    exact List.filter_eq_self.2 fun x hx => by simpa using kept x hx
  exact dropped

/-- With nothing of this station's in transmission the withdrawal takes the entry's CLAIM. -/
theorem State.withoutMark_queue {s : State} (m : Mark) (queued : ∀ q ∈ s.lc.queue, q.cond = .queued) :
    (s.withoutMark m).lc.queue = s.lc.queue.filter (fun q => decide (q.mark ≠ some m.id)) := by
  have withdrawn : (s.withoutMark m).lc.queue = s.lc.queue.filter (fun q => q.moving || !claimOf m.id q) := by
    simp [State.withoutMark, State.withdrawMsg]
  rw [withdrawn]
  refine List.filter_congr fun q hq => ?_
  by_cases e : q.mark = some m.id <;> simp [Msg.moving, queued q hq, claimOf, e]

section
variable {s : State} {m : Mark} (sender : Station) (p : Point)

theorem State.matchMark_marks {older newer : List Mark} (marks : s.cc.marks = older ++ m :: newer)
    (distinct : (s.cc.marks.map Mark.id).Nodup) : (s.matchMark m sender p).cc.marks = older ++ newer := by
  rw [← State.withoutMark_marks marks distinct]
  cases slot : m.slot with
  | none => rw [State.matchMark_none sender p slot, State.submitFrozen_marks]
  | some i => rw [State.matchMark_some sender p slot, State.fillAndAnswer_marks]

theorem State.matchMark_lineEntry (h : s.cc.lineEntry = .entry m.id) :
    (s.matchMark m sender p).cc.lineEntry = .claimed := by
  rw [← s.withoutMark_lineEntry m h]
  cases slot : m.slot with
  | none => rw [State.matchMark_none sender p slot, (State.Calm.submitFrozen _ _ _ _).lineEntry]
  | some i => rw [State.matchMark_some sender p slot, State.fillAndAnswer_lineEntry]

variable (queued : ∀ q ∈ s.lc.queue, q.cond = .queued)
include queued

theorem State.matchMark_queue {q : Msg} (hq : q ∈ (s.matchMark m sender p).lc.queue) : q.mark ≠ some m.id := by
  have old : q ∈ (s.withoutMark m).lc.queue ∨ q.mark = none := by
    cases slot : m.slot with
    | none =>
      rw [State.matchMark_none sender p slot] at hq
      exact State.submitFrozen_queue _ _ _ hq
    | some i =>
      rw [State.matchMark_some sender p slot] at hq
      exact State.fillAndAnswer_queue _ _ _ _ _ hq
  rcases old with hq | none_
  · rw [State.withoutMark_queue m queued] at hq
    exact of_decide_eq_true (List.mem_filter.1 hq).2
  · rw [none_]
    exact nofun

theorem State.withoutMark_noRoom : (s.withoutMark m).NoRoom (s.withoutMark m).lc.queue ↔
    s.NoRoom (s.lc.queue.filter (fun q => decide (q.mark ≠ some m.id))) := by
  rw [State.withoutMark_queue m queued, State.NoRoom, State.NoRoom, (s.withoutMark_mu m).2]

/-- A matched entry without a record is answered NO_SLOT (R18). -/
theorem State.matchMark_slotless (slot : m.slot = none) (member : s.isMember = true)
    (new : ∀ i, s.keyAt i ≠ some (claimKey sender p)) :
    (∀ i, (s.matchMark m sender p).recordAt i = s.recordAt i) ∧
      (¬s.NoRoom (s.lc.queue.filter (fun q => decide (q.mark ≠ some m.id))) →
        ∃ q ∈ (s.matchMark m sender p).lc.queue, q.cond = .queued ∧
          q.payload = .frozen (claimKey sender p) (BitVec.ofInt 8 (pointDelta s.cfg.epochLen m.point p)) 3) := by
  rw [State.matchMark_none sender p slot, ← State.withoutMark_noRoom queued]
  refine ⟨fun i => ?_, fun room => State.submitFrozen_submitted _ _ .noSlot ?_ room⟩
  · rw [State.recordAt_of_cc (State.submitFrozen_cc _ _ _ fun j => ?_), State.withoutMark_recordAt]
    rw [keyAt_eq (s.withoutMark_recordAt m j)]
    exact new j
  · rwa [State.isMember, (s.withoutMark_mu m).1]

/-- The record of a matched entry is FILLING, answered OK, and waits for the sender (R17, R27). -/
theorem State.matchMark_slot {i : Fin 4} (slot : m.slot = some i) {r : CapRecord} (hr : s.recordAt i = some r)
    (member : s.isMember = true) (new : ∀ i, s.keyAt i ≠ some (claimKey sender p)) (number : sender.toNat < 24)
    (other : sender ≠ s.mu.number) :
    (∀ j, j ≠ i → (s.matchMark m sender p).recordAt j = s.recordAt j) ∧
      (¬s.NoRoom (s.lc.queue.filter (fun q => decide (q.mark ≠ some m.id))) →
        ∃ q ∈ (s.matchMark m sender p).lc.queue, q.cond = .queued ∧
          q.payload = .frozen (claimKey sender p) (BitVec.ofInt 8 (pointDelta s.cfg.epochLen m.point p)) 1) ∧
      ∃ lost : Bool, (lost = true ↔ s.NoRoom (s.lc.queue.filter (fun q => decide (q.mark ≠ some m.id)))) ∧
        (s.matchMark m sender p).recordAt i = some { r with
          phase := .filling (s.newCapture (claimKey sender p) .ok
            (BitVec.ofInt 8 (pointDelta s.cfg.epochLen m.point p)) (s.expectedSet sender))
          flags := { r.flags with announceLost := r.flags.announceLost || lost } } := by
  have vmember : (s.withoutMark m).isMember = true := by rwa [State.isMember, (s.withoutMark_mu m).1]
  have capture : ∀ key outcome offset expected,
      (s.withoutMark m).newCapture key outcome offset expected = s.newCapture key outcome offset expected := fun _ _ _ _ => by
    rw [State.newCapture, State.newCapture, (s.withoutMark_mu m).1]
  obtain ⟨others, lost, full, record⟩ := State.fillAndAnswer_recordAt (s := s.withoutMark m) i (claimKey sender p) .ok
    (offsetByte (pointDelta s.cfg.epochLen m.point p)) (s.expectedSet sender) (t := sender) vmember
    ((s.withoutMark_recordAt m i).trans hr) (fun j _ => by rw [keyAt_eq (s.withoutMark_recordAt m j)]; exact new j) number
    ((s.expectedSet_getLsbD sender number).2 (.inr (.inl rfl))) (by rwa [(s.withoutMark_mu m).1])
  rw [State.matchMark_some sender p slot, ← State.withoutMark_noRoom queued]
  refine ⟨fun j hj => (others j hj).trans (s.withoutMark_recordAt m j),
    fun room => State.fillAndAnswer_submitted _ _ .ok _ _ vmember room, lost, full, ?_⟩
  rw [record, capture]
  rfl

end

/-- Settles O48: the arithmetic of points, and the matched entry at the state in which CC takes the CLAIM. -/
theorem claimMatched : Obligations.ClaimMatched := by
  refine ⟨fun E p q hp hq => ?_, ?_⟩
  · obtain ⟨low, high, divides⟩ := epochDelta_spec hp hq
    exact ⟨_, low, high, divides, rfl⟩
  intro s f p m older newer muFirst order reads station carries number other tick digest key near new marks hnear before
    distinct offset noRoom
  obtain ⟨u, t, run, h, after⟩ := State.claim_heard reads carries other muFirst order
  have umarks : u.cc.marks = older ++ m :: newer := by rw [h.cc]; exact marks
  have udistinct : (u.cc.marks.map Mark.id).Nodup := by rw [h.cc]; exact distinct
  have umember : u.isMember = true := h.isMember.trans (isMember_iff.2 station)
  have uqueued : ∀ q ∈ u.lc.queue, q.cond = .queued := by rw [h.queue]; exact reads.2.2
  have unew : ∀ i, u.keyAt i ≠ some (claimKey f.sender p) := fun i => by
    rw [keyAt_eq (State.recordAt_of_cc h.cc i)]
    exact new i
  have found : u.findMark p = some m := State.findMark_oldest umarks (by rw [h.cfg]; exact hnear) (by rw [h.cfg]; exact before)
  have taken : u.claimAccepted f.sender p = u.matchMark m f.sender p := by
    rw [State.claimAccepted_taken (h.takesClaim station number other tick digest new), found]
  rw [taken] at after
  have room : u.NoRoom (u.lc.queue.filter (fun q => decide (q.mark ≠ some m.id))) ↔ noRoom := by
    rw [h.queue]
    exact h.noRoom _
  have record : ∀ i, u.recordAt i = s.recordAt i := State.recordAt_of_cc h.cc
  have recorded : ∀ i, t.recordAt i = (u.matchMark m f.sender p).recordAt i := State.recordAt_of_cc after.cc
  refine ⟨t, run, ?_, fun line => ?_, fun q hq => ?_, ?_, ?_, ?_, ?_, fun slot => ?_, fun i r slot hr => ?_⟩
  · rw [after.cc, State.matchMark_marks f.sender p umarks udistinct]
  · rw [after.cc]
    exact State.matchMark_lineEntry f.sender p (by rw [h.cc]; exact line)
  · rw [after.queue] at hq
    exact State.matchMark_queue f.sender p uqueued hq
  · simpa [h.et] using after.et
  · simpa [h.hr] using after.hr
  · simpa [h.acq] using after.acq
  · simpa [h.tm] using after.tm
  · obtain ⟨records, submitted⟩ := State.matchMark_slotless f.sender p uqueued slot umember unew
    rw [room, h.cfg] at submitted
    rw [after.queue]
    exact ⟨fun i => (recorded i).trans ((records i).trans (record i)), submitted⟩
  · obtain ⟨others, submitted, lost, full, filled⟩ := State.matchMark_slot f.sender p uqueued slot ((record i).trans hr) umember
      unew number (by rwa [h.number])
    rw [room, h.cfg] at submitted
    rw [room] at full
    rw [h.cfg] at filled
    rw [after.queue]
    refine ⟨fun j hj => (recorded j).trans ((others j hj).trans (record j)), submitted, _, lost, full,
      (recorded i).trans filled, rfl, rfl, rfl, rfl, ?_, fun n hn => h.expectedSet hn⟩
    rw [← h.number]
    rfl

end Sys2Proof.Machine
end

