-- ==== Sys2Proof/Proofs/LateJoin.lean ====
section
/-! O49. Another station's CLAIM that matches no entry: ignored, or answered from the ring (R15, R19 to R21). -/

namespace Sys2Proof.Machine

/-- LC and MU at the sender's message leave CC the same choice of a slot. -/
theorem State.HearsOf.chooseSlot {sender : Station} {s u : State} (h : s.HearsOf sender u) : u.chooseSlot = s.chooseSlot := by
  have record : ∀ i, u.recordAt i = s.recordAt i := State.recordAt_of_cc h.cc
  have replaceable : u.replaceable = s.replaceable := by
    funext i
    simp only [State.replaceable, record, State.reader, h.session]
  simp only [State.chooseSlot, State.lowestFree, record, h.cfg, h.cc, replaceable]

/-! ## The ring is searched (R19 to R21) -/

section
variable {s : State} (sender : Station) (p : Point)

theorem State.lateJoin_missed (none_ : searchRing p s.hr.frames = none) :
    s.lateJoin sender p = s.submitFrozen (claimKey sender p) 0 .missed := by
  simp only [State.lateJoin, none_]

theorem State.lateJoin_refused {n : Nat} (found : searchRing p s.hr.frames = some n) (full : s.chooseSlot = none) :
    s.lateJoin sender p = (s.submitFrozen (claimKey sender p) 0 .noSlot).raise .captureRefused := by
  simp only [State.lateJoin, found, State.openSlot_none.2 full]

theorem State.lateJoin_opens {n : Nat} (found : searchRing p s.hr.frames = some n) {i : Fin 4}
    (free : s.chooseSlot = some i) : ∃ v, s.openSlot p n (s.writeNumber n) false = some (i, v) ∧
      s.lateJoin sender p = v.fillAndAnswer i (claimKey sender p) .late 0 (s.expectedSet sender) := by
  cases opened : s.openSlot p n (s.writeNumber n) false with
  | none => simp [State.openSlot_none.1 opened] at free
  | some w =>
    obtain ⟨j, v⟩ := w
    obtain rfl : j = i := Option.some.inj ((State.openSlot_some opened).1.symm.trans free)
    exact ⟨v, rfl, by simp only [State.lateJoin, found, opened]⟩

/-- The FILLING record of a late join (R20, R11). -/
def State.lateRecord (n : Nat) (i : Fin 4) (lost : Bool) (s : State) : CapRecord :=
  { s.newRecord (s.nextSeq i) p n (s.writeNumber n) false with
    phase := .filling (s.newCapture (claimKey sender p) .late 0 (s.expectedSet sender))
    flags := { originator := false, shortPre := decide (n < s.cfg.npre), announceLost := lost } }

/-- With a frame and a slot the station joins late (R20). -/
theorem State.lateJoin_slot {n : Nat} (found : searchRing p s.hr.frames = some n) {i : Fin 4}
    (free : s.chooseSlot = some i) (member : s.isMember = true) (new : ∀ i, s.keyAt i ≠ some (claimKey sender p))
    (number : sender.toNat < 24) (other : sender ≠ s.mu.number) :
    (s.lateJoin sender p).cc.marks = s.cc.marks ∧ (∀ j, j ≠ i → (s.lateJoin sender p).recordAt j = s.recordAt j) ∧
      (¬s.NoRoom s.lc.queue → ∃ q ∈ (s.lateJoin sender p).lc.queue, q.cond = .queued ∧
        q.payload = .frozen (claimKey sender p) 0 2) ∧
      ∃ lost : Bool, (lost = true ↔ s.NoRoom s.lc.queue) ∧
        (s.lateJoin sender p).recordAt i = some (s.lateRecord sender p n i lost) := by
  obtain ⟨v, opened, joined⟩ := State.lateJoin_opens sender p found free
  obtain ⟨_, record, others, _, _, marks, _⟩ := State.openSlot_some opened
  obtain ⟨mu, _, lc, _⟩ := State.openSlot_frame opened
  have vmember : v.isMember = true := by rwa [State.isMember, mu]
  have room : v.NoRoom v.lc.queue ↔ s.NoRoom s.lc.queue := by rw [State.NoRoom, State.NoRoom, show v.lc = s.lc from lc]
  obtain ⟨kept, lost, full, filled⟩ := State.fillAndAnswer_recordAt (s := v) i (claimKey sender p) .late 0
    (s.expectedSet sender) (t := sender) vmember record (fun j hj => by rw [keyAt_eq (others j hj)]; exact new j) number
    ((s.expectedSet_getLsbD sender number).2 (.inr (.inl rfl))) (by rwa [mu])
  rw [joined]
  refine ⟨(State.fillAndAnswer_marks _ _ _ _ _).trans marks, fun j hj => (kept j hj).trans (others j hj),
    fun noRoom => State.fillAndAnswer_submitted _ _ .late _ _ vmember (by rwa [room]), lost, full.trans room, ?_⟩
  rw [filled]
  have capture : v.newCapture (claimKey sender p) .late 0 (s.expectedSet sender) =
      s.newCapture (claimKey sender p) .late 0 (s.expectedSet sender) := by
    rw [State.newCapture, State.newCapture, mu]
  rw [capture]
  rfl

end

/-- Settles O49: R15's cases at the state in which CC takes the CLAIM, and the three ends of the search. -/
theorem claimLateOrIgnored : Obligations.ClaimLateOrIgnored := by
  intro s f p muFirst order reads carries other key near unmatched nearRecord held noRoom
  obtain ⟨u, t, run, h, after⟩ := State.claim_heard reads carries other muFirst order
  have record : ∀ i, u.recordAt i = s.recordAt i := State.recordAt_of_cc h.cc
  have key_ : ∀ i, u.keyAt i = s.keyAt i := fun i => keyAt_eq (record i)
  have found : u.findMark p = none ↔ unmatched := by rw [State.findMark_eq_none, h.cc, h.cfg]
  have nearby : u.nearRecord p = true ↔ nearRecord := by simp only [State.nearRecord_iff, record, h.cfg]; rfl
  have room : u.NoRoom u.lc.queue ↔ noRoom := by rw [h.queue]; exact h.noRoom _
  refine ⟨fun ignored => ?_, fun station number tick digest fresh apart far => ?_⟩
  · have same : u.claimAccepted f.sender p = u := by
      refine State.claimAccepted_ignored ?_
      rw [h.isMember, isMember_eq_false_iff, h.cfg, h.senderMismatch other, State.keyHeld_iff, found, nearby]
      simp only [key_]
      exact ignored
    rw [same] at after
    have heard := h.trans after
    exact ⟨t, run, heard.cc, heard.acq, heard.hr, heard.et, heard.queue⟩
  · have new : ∀ i, s.keyAt i ≠ some (claimKey f.sender p) := fun i hi => fresh ⟨i, hi⟩
    have unew : ∀ i, u.keyAt i ≠ some (claimKey f.sender p) := fun i => by rw [key_]; exact new i
    have umember : u.isMember = true := h.isMember.trans (isMember_iff.2 station)
    have late : u.claimAccepted f.sender p = u.lateJoin f.sender p := by
      rw [State.claimAccepted_taken (h.takesClaim station number other tick digest new), found.2 apart]
      exact if_neg (fun n => far (nearby.1 n))
    rw [late] at after
    refine ⟨fun missed => ?_, fun n hit => ⟨fun full => ?_, fun i free => ?_⟩⟩
    · rw [State.lateJoin_missed f.sender p (by rwa [h.hr])] at after
      refine ⟨t, run, ?_, ?_, ?_, ?_, fun space => ?_⟩
      · rw [after.cc, State.submitFrozen_cc _ _ _ unew, h.cc]
      · simpa [h.acq] using after.acq
      · simpa [h.hr] using after.hr
      · simpa [h.et] using after.et
      · rw [after.queue]
        exact State.submitFrozen_submitted _ _ .missed umember (by rwa [room])
    · rw [State.lateJoin_refused f.sender p (by rwa [h.hr]) (by rwa [h.chooseSlot])] at after
      refine ⟨t, run, ?_, ?_, after.causes _ (State.hasCause_raise _ _), fun space => ?_⟩
      · exact after.cc.trans ((State.submitFrozen_cc _ _ _ unew).trans h.cc)
      · simpa [h.acq] using after.acq
      · rw [after.queue]
        exact State.submitFrozen_submitted _ _ .noSlot umember (by rwa [room])
    · obtain ⟨marks, others, submitted, lost, full, joined⟩ := State.lateJoin_slot f.sender p (by rwa [h.hr])
        (by rwa [h.chooseSlot]) umember unew number (by rwa [h.number])
      have recorded : ∀ j, t.recordAt j = (u.lateJoin f.sender p).recordAt j := State.recordAt_of_cc after.cc
      refine ⟨t, run, ?_, ?_, fun j hj => (recorded j).trans ((others j hj).trans (record j)), fun space => ?_,
        u.lateRecord f.sender p n i lost, _, lost, full.trans room, (recorded i).trans joined, rfl, rfl, rfl, rfl, rfl, ?_,
        fun k hk => h.expectedSet hk, rfl, ?_, ?_, rfl, rfl, ?_, ?_, ?_⟩
      · rw [after.cc, marks, h.cc]
      · simpa [h.hr] using after.hr
      · rw [after.queue]
        exact submitted (by rwa [room])
      all_goals simp only [← h.number, ← h.cfg, ← h.hr]
      · rfl
      · rfl
      · rfl
      · rfl
      · rfl
      · simp only [State.lateRecord, State.newRecord, List.isEmpty_iff]

end Sys2Proof.Machine
end

