-- ==== Sys2Proof/Proofs/FrozenHeard.lean ====
section
/-! O50. Another station's FROZEN: ignored, or an answer in the record with its key, whose window may close with it (R25,
R27, R28). -/

namespace Sys2Proof.Machine

/-! ## Outcome codes (R178) -/

theorem outcomeOfCode_eq_none {out : Byte} (h : out = 0 ∨ 5 ≤ out.toNat) : outcomeOfCode out = none := by
  have code : out.toNat = 0 ∨ 5 ≤ out.toNat := h.imp_left fun e => by rw [e]; rfl
  unfold outcomeOfCode
  split
  · omega
  · omega
  · omega
  · omega
  · rfl

theorem outcomeOfCode_code {o : OutcomeCode} (h : o ≠ .noAnswer) : outcomeOfCode o.code = some o := by
  cases o with
  | noAnswer => exact absurd rfl h
  | ok => rfl
  | late => rfl
  | noSlot => rfl
  | missed => rfl

/-! ## The record that takes the answer (R28) -/

theorem Capture.hasEntry_eq_false {c : Capture} {t : Station} :
    c.hasEntry t = false ↔ ∀ e ∈ c.participants, e.station ≠ t := by
  simp [Capture.hasEntry]

theorem CapRecord.takesAnswer_iff {r : CapRecord} {key : Key} {t : Station} : r.takesAnswer key t = true ↔
    ∃ c, r.phase = .filling c ∧ c.key = key ∧ c.answersClosed = false ∧ ∀ e ∈ c.participants, e.station ≠ t := by
  cases phase : r.phase with
  | opened => simp [CapRecord.takesAnswer, phase]
  | complete c => simp [CapRecord.takesAnswer, phase]
  | filling c => simp [CapRecord.takesAnswer, phase, ← Capture.hasEntry_eq_false, and_assoc]

theorem State.answerSlot_eq_none {s : State} {key : Key} {t : Station}
    (h : ∀ i r, s.recordAt i = some r → r.takesAnswer key t = false) : s.answerSlot key t = none := by
  refine List.find?_eq_none.2 fun i _ => ?_
  cases hr : s.recordAt i with
  | none => simp
  | some r => simp [h i r hr]

/-- With distinct keys one record takes the answer. -/
theorem State.answerSlot_eq_some {s : State} {key : Key} {t : Station} {i : Fin 4} {r : CapRecord} (distinct : KeysDistinct s)
    (hr : s.recordAt i = some r) (takes : r.takesAnswer key t = true) : s.answerSlot key t = some i := by
  have keyed : ∀ j q, s.recordAt j = some q → q.takesAnswer key t = true → s.keyAt j = some key := by
    intro j q hq hj
    obtain ⟨c, phase, rfl, _⟩ := CapRecord.takesAnswer_iff.1 hj
    exact State.keyAt_eq_some.2 ⟨q, hq, by simp [CapRecord.hasKey, CapRecord.capture, phase]⟩
  cases found : s.answerSlot key t with
  | none =>
    have skipped := List.find?_eq_none.1 found i (Tables.mem_slots i)
    simp [hr, takes] at skipped
  | some j =>
    have at_ := List.find?_some found
    cases hq : s.recordAt j with
    | none => simp [hq] at at_
    | some q => rw [distinct i j key (keyed i r hr takes) (keyed j q hq (by simpa [hq] using at_))]

section
variable {s : State} {sender : Station} {key : Key} {offset outcome : Byte}

theorem State.frozenAccepted_ignored (h : s.isMember = false ∨ 24 ≤ sender.toNat ∨ s.cfg.epochLen ≤ key.point.tick.toNat ∨
    s.senderMismatch sender = true ∨ outcomeOfCode outcome = none ∨ s.answerSlot key sender = none) :
    s.frozenAccepted sender key offset outcome = s := by
  unfold State.frozenAccepted
  split
  · rfl
  split
  · rfl
  split
  · rfl
  split
  · rfl
  split
  · rename_i member number tick match_ _ _ _ _ code slot
    simp_all
  · rfl

theorem State.frozenAccepted_taken {o : OutcomeCode} {i : Fin 4} (member : s.isMember = true) (number : sender.toNat < 24)
    (tick : key.point.tick.toNat < s.cfg.epochLen) (digest : s.senderMismatch sender = false)
    (code : outcomeOfCode outcome = some o) (slot : s.answerSlot key sender = some i) :
    s.frozenAccepted sender key offset outcome =
      (s.modifyRecord i (fun r => r.addAnswer ⟨sender, o, offset⟩)).closeIfAnswered i := by
  simp only [State.frozenAccepted, member, not_le.2 number, not_le.2 tick, digest, code, slot]
  rfl

end

/-! ## The window closes at once (R25, R27) -/

/-- Every expected station has its entry. -/
theorem Capture.silent_isEmpty {c : Capture} : c.silent.isEmpty = true ↔
    ∀ n < 24, c.expected.getLsbD n = true → ∃ e ∈ c.participants, e.station.toNat = n := by
  rw [List.isEmpty_iff, Capture.silent_eq, List.map_eq_nil_iff, List.filter_eq_nil_iff]
  refine forall_congr' fun n => ?_
  rw [List.mem_range]
  refine imp_congr_right fun _ => ?_
  simp

/-- The capture with one answer more. -/
def Capture.answered (c : Capture) (p : Participant) : Capture :=
  { c with
    participants := c.participants ++ [p]
    answersClosed := { c with participants := c.participants ++ [p] : Capture }.silent.isEmpty }

theorem CapRecord.addAnswer_filling {r : CapRecord} {c : Capture} (phase : r.phase = .filling c) (p : Participant) :
    r.addAnswer p = { r with phase := .filling { c with participants := c.participants ++ [p] } } := by
  simp only [CapRecord.addAnswer, phase]

theorem CapRecord.answeredAll_closes {r : CapRecord} {c : Capture} (phase : r.phase = .filling c)
    (opened : c.answersClosed = false) (all : c.silent = []) :
    r.answeredAll = CapRecord.completed { r with phase := .filling c.close } := by
  simp [CapRecord.answeredAll, CapRecord.windowClosed, phase, opened, all]

theorem Capture.close_of_silent {c : Capture} (all : c.silent = []) : c.close = { c with answersClosed := true } := by
  rw [Capture.close, all, List.map_nil, List.append_nil]

theorem CapRecord.addAnswer_answeredAll {r : CapRecord} {c : Capture} (phase : r.phase = .filling c)
    (opened : c.answersClosed = false) (p : Participant) : (r.addAnswer p).answeredAll =
      { r with phase := if (c.answered p).answersClosed && r.framesDone then .complete (c.answered p)
                        else .filling (c.answered p) } := by
  rw [CapRecord.addAnswer_filling phase, Capture.answered]
  have opened' : ({ c with participants := c.participants ++ [p] } : Capture).answersClosed = false := opened
  generalize hc : ({ c with participants := c.participants ++ [p] } : Capture) = c' at opened'
  have answered : ({ c with participants := c.participants ++ [p], answersClosed := c'.silent.isEmpty } : Capture) =
      { c' with answersClosed := c'.silent.isEmpty } := by rw [← hc]
  rw [answered]
  by_cases all : c'.silent = []
  · rw [CapRecord.answeredAll_closes rfl opened' all, Capture.close_of_silent all, CapRecord.completed_of_filling rfl, all,
      Bool.and_comm]
    cases r.framesDone <;> rfl
  · have waits : c'.silent.isEmpty = false := by simpa using all
    have still : ({ c' with answersClosed := false } : Capture) = c' := by rw [← opened']
    rw [CapRecord.answeredAll_waiting rfl all, waits, still, opened', Bool.false_and, if_neg Bool.false_ne_true]

/-- A record that an answer completes has its completion told. -/
theorem State.closeIfAnswered_told {s : State} {i : Fin 4} {r : CapRecord} {c : Capture} (hr : s.recordAt i = some r)
    (phase : r.phase = .filling c) (opened : c.answersClosed = false) (complete : r.answeredAll.isComplete = true) :
    (s.closeIfAnswered i).hasCause .captureComplete = true := by
  by_cases all : c.silent = []
  · have closes : s.closeIfAnswered i =
        (s.setRecord i (some { r with phase := .filling c.close })).completeIfReady i := by
      simp [State.closeIfAnswered, State.closeWindow, hr, phase, all, opened]
    rw [CapRecord.answeredAll_closes phase opened all] at complete
    rw [closes]
    refine State.completeIfReady_told ?_ (fun filling => ?_) complete
    · rw [State.recordAt_setRecord, if_pos rfl]
    · cases filling
  · rw [CapRecord.answeredAll_waiting phase all] at complete
    simp [CapRecord.isComplete, phase] at complete

/-- Settles O50: R28's conditions at the state in which CC takes the FROZEN, and the answer in its record. -/
theorem frozenCollected : Obligations.FrozenCollected := by
  intro s f key off out muFirst order reads carries other
  obtain ⟨u, t, run, h, after⟩ := State.frozen_heard reads carries other muFirst order
  have record : ∀ i, u.recordAt i = s.recordAt i := State.recordAt_of_cc h.cc
  refine ⟨fun ignored => ?_, fun i r c o station number digest sent code tick distinct hr phase keyed opened fresh => ?_⟩
  · have same : u.frozenAccepted f.sender key off out = u := by
      refine State.frozenAccepted_ignored ?_
      rw [h.isMember, isMember_eq_false_iff, h.cfg, h.senderMismatch other]
      rcases ignored with outside | foreign | mismatch | zero | big | tick | taken
      · exact .inl outside
      · exact .inr (.inl foreign)
      · exact .inr (.inr (.inr (.inl mismatch)))
      · exact .inr (.inr (.inr (.inr (.inl (outcomeOfCode_eq_none (.inl zero))))))
      · exact .inr (.inr (.inr (.inr (.inl (outcomeOfCode_eq_none (.inr big))))))
      · exact .inr (.inr (.inl tick))
      · refine .inr (.inr (.inr (.inr (.inr (State.answerSlot_eq_none fun i r hr => ?_)))))
        rw [← Bool.not_eq_true, CapRecord.takesAnswer_iff]
        rintro ⟨c, phase, keyed, opened, fresh⟩
        rcases taken i r c ((record i).symm.trans hr) phase keyed with closed | ⟨e, he, same⟩
        · simp [closed] at opened
        · exact fresh e he same
    rw [same] at after
    have heard := h.trans after
    exact ⟨t, run, heard.cc, heard.acq, heard.hr, heard.et, heard.queue⟩
  · intro entries answered filled
    have ur : u.recordAt i = some r := (record i).trans hr
    have udistinct : KeysDistinct u := fun a b k ha hb => distinct a b k (by rwa [← keyAt_eq (record a)])
      (by rwa [← keyAt_eq (record b)])
    have slot := State.answerSlot_eq_some udistinct ur (CapRecord.takesAnswer_iff.2 ⟨c, phase, keyed, opened, fresh⟩)
    have taken := State.frozenAccepted_taken (offset := off) (h.isMember.trans (isMember_iff.2 station)) number
      (by rwa [h.cfg]) (by rw [← Bool.not_eq_true, h.senderMismatch other]; exact digest)
      (code ▸ outcomeOfCode_code sent : outcomeOfCode out = some o) slot
    have same : c.answered ⟨f.sender, o, off⟩ = filled := by
      have all : ({ c with participants := entries } : Capture).silent.isEmpty = answered := by
        rw [Bool.eq_iff_iff, Capture.silent_isEmpty, decide_eq_true_iff]
      rw [Capture.answered, all]
    have added : (u.modifyRecord i (fun r => r.addAnswer ⟨f.sender, o, off⟩)).recordAt i =
        some (r.addAnswer ⟨f.sender, o, off⟩) := by
      rw [State.recordAt_modifyRecord, if_pos rfl, ur]
      rfl
    have result : (r.addAnswer ⟨f.sender, o, off⟩).answeredAll =
        { r with phase := if answered && r.framesDone then .complete filled else .filling filled } := by
      rw [CapRecord.addAnswer_answeredAll phase opened, same]
    rw [taken] at after
    have recorded : ∀ j, t.recordAt j = _ := fun j => State.recordAt_of_cc after.cc j
    refine ⟨t, run, ?_, fun j hj => ?_, ?_, ?_, ?_, ?_, ?_, fun done => after.causes _ ?_⟩
    · rw [recorded, State.recordAt_closeIfAnswered, if_pos rfl, added, Option.map_some, result]
    · rw [recorded, State.recordAt_closeIfAnswered, if_neg (Ne.symm hj), State.recordAt_modifyRecord, if_neg (Ne.symm hj), record]
    · rw [after.cc, State.marks_closeIfAnswered, State.marks_modifyRecord, h.cc]
    · simpa [h.acq] using after.acq
    · simpa [h.et] using after.et
    · simpa [h.hr] using after.hr
    · simpa [h.queue] using after.queue
    · refine State.closeIfAnswered_told (c := { c with participants := entries }) added (by rw [CapRecord.addAnswer_filling phase]) opened ?_
      rw [result, done]
      rfl

end Sys2Proof.Machine
end

