-- ==== Sys2Proof/Proofs/Release.lean ====
section
/-! CLOSE_READ and RELEASE: O22 (R47, R173). -/

namespace Sys2Proof.Machine

/-! ## A command that leaves the frame heard in place -/

/-- A command that comes out as if it had been taken before its frame was heard is answered in the state it makes. -/
theorem State.AwaitsCommand.clockCommand_answered {s u : State} {code : Byte} {args : List Byte} {a : Answer}
    {answer : State → State × Answer} (h : s.AwaitsCommand code args)
    (taken : answer (s.heard code args) = (u.heard code args, a)) :
    s.clockCommand code args answer = u.answered code args a.status a.data a.advance := by
  rw [h.clockCommand, taken]
  rfl

/-! ## CLOSE_READ (R173) -/

theorem takeCloseRead_of_session {s : State} (h : s.lp.session.isSome = true) :
    takeCloseRead [] s = (s.endSession, .ok []) :=
  if_pos h

theorem takeCloseRead_of_noSession {s : State} (h : s.lp.session = none) :
    takeCloseRead [] s = (s, .bare codeBadState) :=
  if_neg (by simp [h])

/-! ## The arguments of RELEASE (R159) -/

theorem takeRelease_outside {b hi lo : Byte} (h : 4 ≤ b.toNat) (s : State) :
    takeRelease [b, hi, lo] s = (s, .badArg 0) := by
  have outside : slotOf b = none := dif_neg (not_lt.2 h)
  simp [takeRelease, slotArgs, outside]

theorem takeRelease_slot {b hi lo : Byte} {i : Fin 4} (h : b.toNat = i.val) (s : State) :
    takeRelease [b, hi, lo] s = s.releaseRecord i (hi ++ lo) := by
  have slot : slotOf b = some i := by simp [slotOf, h]
  simp [takeRelease, slotArgs, slot, word16]

/-! ## Table 2-5, row by row -/

section
variable {s : State} {i : Fin 4} {seq : Word} {r : CapRecord}

theorem State.releaseRecord_free (free : s.recordAt i = none) :
    s.releaseRecord i seq = (s, .bare codeBadState) := by
  simp [State.releaseRecord, free]

theorem State.releaseRecord_stale (record : s.recordAt i = some r) (stale : r.seq ≠ seq) :
    s.releaseRecord i seq = (s, .bare codeStale) := by
  simp [State.releaseRecord, record, stale]

theorem State.releaseRecord_unfinished (record : s.recordAt i = some r) (named : r.seq = seq)
    (unfinished : r.isComplete = false) : s.releaseRecord i seq = (s, .bare codeBadState) := by
  simp [State.releaseRecord, record, named, unfinished]

theorem State.releaseRecord_read (record : s.recordAt i = some r) (named : r.seq = seq)
    (complete : r.isComplete = true) (read : s.reader i = true) : s.releaseRecord i seq = (s, .bare codeBusy) := by
  simp [State.releaseRecord, record, named, complete, read]

theorem State.releaseRecord_complete (record : s.recordAt i = some r) (named : r.seq = seq)
    (complete : r.isComplete = true) (unread : s.reader i = false) :
    s.releaseRecord i seq = (s.freeRecord i, .ok []) := by
  simp [State.releaseRecord, record, named, complete, unread]

end

/-- RELEASE of a slot that exists is answered with what Table 2-5 gives for the record in it. -/
theorem exec_release_slot {s u : State} {b hi lo : Byte} {i : Fin 4} {a : Answer}
    (h : s.AwaitsCommand 0x0C [b, hi, lo]) (slot : b.toNat = i.val)
    (row : (s.heard 0x0C [b, hi, lo]).releaseRecord i (hi ++ lo) = (u.heard 0x0C [b, hi, lo], a)) :
    exec (.release [b, hi, lo]) s = .next (u.answered 0x0C [b, hi, lo] a.status a.data a.advance) :=
  congrArg Host.Outcome.next (h.clockCommand_answered ((takeRelease_slot slot _).trans row))

/-! ## The number of FREE records (R50) -/

theorem State.freeCount_eq_card (s : State) :
    s.freeCount = (Finset.univ.filter fun i => s.recordAt i = none).card := by
  have distinct : (slots.filter fun i => (s.recordAt i).isNone).Nodup := List.Nodup.filter _ (by decide)
  have all : (Finset.univ : Finset (Fin 4)) = slots.toFinset := by decide
  rw [State.freeCount, ← List.toFinset_card_of_nodup distinct, all, List.toFinset_filter]
  simp only [Option.isNone_iff_eq_none]

/-- Freeing a record adds its slot to the FREE ones. -/
theorem State.freeCount_freeRecord {s : State} {i : Fin 4} {r : CapRecord} (record : s.recordAt i = some r) :
    (s.freeRecord i).freeCount = s.freeCount + 1 := by
  have slotsFree : (Finset.univ.filter fun j => (s.freeRecord i).recordAt j = none) =
      insert i (Finset.univ.filter fun j => s.recordAt j = none) := by
    ext j
    by_cases e : j = i
    · simp [e]
    · simp [e, Ne.symm e]
  rw [State.freeCount_eq_card, State.freeCount_eq_card, slotsFree, Finset.card_insert_of_notMem (by simp [record])]

/-- Settles O22: CLOSE_READ by whether a session is open, RELEASE by the rows of Table 2-5. -/
theorem closesAndReleases : Obligations.ClosesAndReleases := by
  unfold Obligations.ClosesAndReleases
  refine ⟨fun s h => ⟨fun session => ?_, fun session => ?_⟩, fun s b hi lo h => ⟨fun outside => ?_, fun i slot =>
    ⟨fun free => ?_, fun r record => ⟨fun stale => ?_, fun named unfinished => ?_, fun named complete read => ?_,
      fun named complete unread => ?_⟩⟩⟩⟩
  · exact congrArg Host.Outcome.next (h.clockCommand_answered (u := s.endSession) (takeCloseRead_of_session session))
  · exact congrArg Host.Outcome.next (h.clockCommand_answered (takeCloseRead_of_noSession session))
  · exact congrArg Host.Outcome.next (h.clockCommand_answered (takeRelease_outside outside _))
  · exact exec_release_slot h slot (State.releaseRecord_free free)
  · exact exec_release_slot h slot (State.releaseRecord_stale record stale)
  · exact exec_release_slot h slot (State.releaseRecord_unfinished record named unfinished)
  · exact exec_release_slot h slot (State.releaseRecord_read record named complete read)
  · refine ⟨s.freeRecord i,
      exec_release_slot (u := s.freeRecord i) h slot (State.releaseRecord_complete record named complete unread), ?_,
      fun j other => ?_, State.freeCount_freeRecord record, rfl, rfl, rfl, rfl, rfl, rfl, rfl, rfl, rfl, rfl⟩
    · rw [State.recordAt_freeRecord, if_pos rfl]
    · rw [State.recordAt_freeRecord, if_neg (Ne.symm other)]

end Sys2Proof.Machine
end

