-- ==== Sys2Proof/Proofs/RingSearch.lean ====
section
/-! The search of the ring for a tagged frame: O37 (R63). -/

namespace Sys2Proof.Machine

theorem Frame.taggedAs_iff {p : Point} {f : Frame} :
    f.taggedAs p = true ↔ f.tag0 = p.tick ∧ f.tag1.setWidth 12 = p.epoch.setWidth 12 := by
  simp [Frame.taggedAs, Frame.epochLow]

theorem searchRing_cons_of_none {p : Point} {fs : List Frame} (none_ : searchRing p fs = none) (f : Frame) :
    searchRing p (f :: fs) = if f.taggedAs p then some 0 else none := by
  simp only [searchRing, none_]

theorem searchRing_cons_of_some {p : Point} {fs : List Frame} {j : Nat} (found : searchRing p fs = some j) (f : Frame) :
    searchRing p (f :: fs) = some (j + 1) := by
  simp only [searchRing, found]

theorem searchRing_eq_none_iff {p : Point} {frames : List Frame} :
    searchRing p frames = none ↔ ∀ f ∈ frames, ¬f.taggedAs p = true := by
  induction frames with
  | nil => simp [searchRing]
  | cons f fs ih =>
    rw [List.forall_mem_cons, ← ih]
    cases found : searchRing p fs with
    | none => simp [searchRing_cons_of_none found]
    | some j => simp [searchRing_cons_of_some found]

/-- The oldest frame is the answer when it is tagged and no newer one is. -/
theorem searchRing_cons_eq_zero_iff {p : Point} {f : Frame} {fs : List Frame} :
    searchRing p (f :: fs) = some 0 ↔ f.taggedAs p = true ∧ searchRing p fs = none := by
  cases found : searchRing p fs with
  | none => simp [searchRing_cons_of_none found]
  | some j => simp [searchRing_cons_of_some found]

theorem searchRing_cons_eq_succ_iff {p : Point} {f : Frame} {fs : List Frame} {j : Nat} :
    searchRing p (f :: fs) = some (j + 1) ↔ searchRing p fs = some j := by
  cases found : searchRing p fs with
  | none => simp [searchRing_cons_of_none found]
  | some i => simp [searchRing_cons_of_some found]

theorem searchRing_eq_some_iff {p : Point} {frames : List Frame} {j : Nat} :
    searchRing p frames = some j ↔
      (∃ f, frames[j]? = some f ∧ f.taggedAs p = true) ∧ ∀ k f, j < k → frames[k]? = some f → ¬f.taggedAs p = true := by
  induction frames generalizing j with
  | nil => simp [searchRing]
  | cons f fs ih =>
    cases j with
    | zero =>
      have newer : (∀ k g, 0 < k → (f :: fs)[k]? = some g → ¬g.taggedAs p = true) ↔ ∀ g ∈ fs, ¬g.taggedAs p = true := by
        constructor
        · intro h g mem
          obtain ⟨k, at_⟩ := List.mem_iff_getElem?.1 mem
          exact h (k + 1) g k.succ_pos at_
        · rintro h (_ | k) g pos at_
          · exact absurd pos (Nat.lt_irrefl 0)
          · exact h g (List.mem_of_getElem? at_)
      rw [searchRing_cons_eq_zero_iff, searchRing_eq_none_iff, newer]
      simp
    | succ j =>
      have newer : (∀ k g, j + 1 < k → (f :: fs)[k]? = some g → ¬g.taggedAs p = true) ↔
          ∀ k g, j < k → fs[k]? = some g → ¬g.taggedAs p = true := by
        constructor
        · intro h k g later
          exact h (k + 1) g (Nat.succ_lt_succ later)
        · rintro h (_ | k) g later
          · exact absurd later (Nat.not_lt_zero _)
          · exact h k g (Nat.lt_of_succ_lt_succ later)
      rw [searchRing_cons_eq_succ_iff, ih, newer, List.getElem?_cons_succ]

/-- Settles O37: by induction on the ring's frames, oldest first. -/
theorem ringSearchFinds : Obligations.RingSearchFinds := by
  unfold Obligations.RingSearchFinds
  intro p frames
  simp only [← Frame.taggedAs_iff]
  exact ⟨searchRing_eq_none_iff, fun j => searchRing_eq_some_iff⟩

end Sys2Proof.Machine
end

