-- ==== Sys2Proof/Proofs/CopyStep.lean ====
section
/-! A copy step, and the record that takes a frame: O35 (R37, R59, R60). -/

namespace Sys2Proof.Machine

/-! ## A record that takes a frame (R59) -/

/-- Looking for a record's completion changes its phase and nothing else (R37). -/
theorem CapRecord.completed_eq (r : CapRecord) : r.completed = { r with phase := r.completed.phase } := by
  cases phase : r.phase with
  | filling c =>
    rw [CapRecord.completed_of_filling phase]
    split <;> rfl
  | opened => rw [CapRecord.completed_of_not_filling (by simp [CapRecord.isFilling, phase])]
  | complete c => rw [CapRecord.completed_of_not_filling (by simp [CapRecord.isFilling, phase])]

/-- The record after a frame is copied into it, and its completion looked for (R59, R37). -/
def CapRecord.takeFrame (r : CapRecord) (f : Frame) : CapRecord := (r.take f).completed

/-- The frame is the record's last one (R36). -/
def CapRecord.finishedByNext (r : CapRecord) : Bool := decide (r.frames.length + 1 = r.total)

theorem CapRecord.takeFrame_eq (r : CapRecord) (f : Frame) : r.takeFrame f =
    { r with
      phase := (r.takeFrame f).phase
      frames := r.frames ++ [f]
      cursor := if r.finishedByNext then none else r.cursor.map (· + 1)
      framesDone := r.finishedByNext
      flags := { r.flags with
        incompleteFrames := r.flags.incompleteFrames || f.tag1.getLsbD 12
        timeSlip := r.flags.timeSlip || (f.tag1.getLsbD 14 && decide (r.pre + 1 ≤ r.frames.length)) } } :=
  CapRecord.completed_eq (r.take f)

section
variable (r : CapRecord) (f : Frame)

@[simp] theorem CapRecord.takeFrame_frames : (r.takeFrame f).frames = r.frames ++ [f] :=
  congrArg CapRecord.frames (r.takeFrame_eq f)

@[simp] theorem CapRecord.takeFrame_cursor :
    (r.takeFrame f).cursor = if r.finishedByNext then none else r.cursor.map (· + 1) :=
  congrArg CapRecord.cursor (r.takeFrame_eq f)

@[simp] theorem CapRecord.takeFrame_framesDone : (r.takeFrame f).framesDone = r.finishedByNext :=
  congrArg CapRecord.framesDone (r.takeFrame_eq f)

@[simp] theorem CapRecord.takeFrame_flags : (r.takeFrame f).flags =
    { r.flags with
      incompleteFrames := r.flags.incompleteFrames || f.tag1.getLsbD 12
      timeSlip := r.flags.timeSlip || (f.tag1.getLsbD 14 && decide (r.pre + 1 ≤ r.frames.length)) } :=
  congrArg CapRecord.flags (r.takeFrame_eq f)

@[simp] theorem CapRecord.takeFrame_fixed : (r.takeFrame f).seq = r.seq ∧ (r.takeFrame f).mark = r.mark ∧
    (r.takeFrame f).pre = r.pre ∧ (r.takeFrame f).total = r.total ∧ (r.takeFrame f).words = r.words := by
  rw [r.takeFrame_eq f]
  exact ⟨rfl, rfl, rfl, rfl, rfl⟩

end

theorem CapRecord.takeFrame_phase_filling {r : CapRecord} {c : Capture} (phase : r.phase = .filling c) (f : Frame) :
    (r.takeFrame f).phase = if r.finishedByNext && c.answersClosed then .complete c else .filling c := by
  have done : (r.take f).framesDone = r.finishedByNext := rfl
  rw [CapRecord.takeFrame, CapRecord.completed_of_filling (r := r.take f) phase, done]
  split_ifs
  · rfl
  · exact phase

theorem CapRecord.takeFrame_phase_of_not_filling {r : CapRecord} (h : r.isFilling = false) (f : Frame) :
    (r.takeFrame f).phase = r.phase := by
  rw [CapRecord.takeFrame, CapRecord.completed_of_not_filling (r := r.take f) h]
  rfl

/-! ## The slot it is copied into -/

theorem State.recordAt_copyInto_takeFrame (i j : Fin 4) (f : Frame) (s : State) :
    (s.copyInto i f).recordAt j = if i = j then (s.recordAt i).map (·.takeFrame f) else s.recordAt j :=
  s.recordAt_copyInto i j f

theorem State.opening_copyInto (i : Fin 4) (f : Frame) (s : State) : (s.copyInto i f).cc.opening = s.cc.opening := by
  have completed : ∀ u : State, (u.completeIfReady i).cc.opening = u.cc.opening := by
    intro u
    unfold State.completeIfReady
    (repeat' split) <;> rfl
  rw [State.copyInto, completed, State.modifyRecord_cc]

/-- CAPTURE_COMPLETE is raised exactly when the record completes (R37). -/
theorem State.hasCause_completeIfReady {s : State} {i : Fin 4} {r : CapRecord} (record : s.recordAt i = some r) :
    (s.completeIfReady i).hasCause .captureComplete =
      (s.hasCause .captureComplete || (r.isFilling && r.completed.isComplete)) := by
  unfold State.completeIfReady
  simp only [record]
  cases phase : r.phase with
  | filling c =>
    rw [CapRecord.completed_of_filling phase]
    by_cases ready : (r.framesDone && c.answersClosed) = true
    · simp [ready, State.hasCause_raise, CapRecord.isFilling, CapRecord.isComplete, phase]
    · simp [ready, CapRecord.isComplete, phase]
  | opened => simp [CapRecord.isFilling, phase]
  | complete c => simp [CapRecord.isFilling, phase]

theorem State.hasCause_copyInto {s : State} {i : Fin 4} {r : CapRecord} (record : s.recordAt i = some r) (f : Frame) :
    (s.copyInto i f).hasCause .captureComplete =
      (s.hasCause .captureComplete || (r.isFilling && (r.takeFrame f).isComplete)) := by
  have taken : (s.modifyRecord i (·.take f)).recordAt i = some (r.take f) := by
    rw [State.recordAt_modifyRecord, if_pos rfl, record]
    rfl
  have pending : (s.modifyRecord i (·.take f)).hasCause .captureComplete = s.hasCause .captureComplete := by
    simp [State.hasCause]
  rw [State.copyInto, State.hasCause_completeIfReady taken, pending]
  rfl

/-! ## The copy step (R60) -/

/-- A record whose cursor is the next write number does not lag. -/
theorem State.frameAt_nextWrite (s : State) : s.frameAt s.hr.nextWrite = none := by
  simp [State.frameAt]

theorem State.frameAt_of_lag {s : State} {k : Word32} {lag : Nat} (is : lag = (s.hr.nextWrite - k).toNat) (lags : 0 < lag)
    (held : lag ≤ s.hr.frames.length) : s.frameAt k = s.hr.frames[s.hr.frames.length - lag]? := by
  rw [State.frameAt, ← is]
  exact if_neg (by omega)

section
variable {s : State} {i : Fin 4} {r : CapRecord}

theorem State.copyStep_of_free (free : s.recordAt i = none) : s.copyStep i = s := by
  simp only [State.copyStep, free]

theorem State.copyStep_of_noCursor (record : s.recordAt i = some r) (cursor : r.cursor = none) : s.copyStep i = s := by
  simp only [State.copyStep, record, cursor]

theorem State.copyStep_of_noFrame {k : Word32} (record : s.recordAt i = some r) (cursor : r.cursor = some k)
    (noFrame : s.frameAt k = none) : s.copyStep i = s := by
  simp only [State.copyStep, record, cursor, noFrame]

theorem State.copyStep_of_lagging {k : Word32} {f : Frame} (record : s.recordAt i = some r) (cursor : r.cursor = some k)
    (frame : s.frameAt k = some f) : s.copyStep i = s.copyInto i f := by
  simp only [State.copyStep, record, cursor, frame]

end

theorem exec_copyStep (i : Fin 4) (s : State) : exec (.copyStep i) s = .next (s.copyStep i) := rfl

/-- Settles O35: a record that lags takes the frame at its cursor, and no other record does. -/
theorem copyStepCopies : Obligations.CopyStepCopies := by
  unfold Obligations.CopyStepCopies
  intro s i
  simp only [exec_copyStep]
  refine ⟨fun free => ?_, fun r record => ⟨fun cursor => ?_, fun cursor => ?_, fun k lag f cursor is lags held frame => ?_⟩⟩
  · rw [State.copyStep_of_free free]
  · rw [State.copyStep_of_noCursor record cursor]
  · rw [State.copyStep_of_noFrame record cursor s.frameAt_nextWrite]
  · have step : s.copyStep i = s.copyInto i f :=
      State.copyStep_of_lagging record cursor ((State.frameAt_of_lag is lags held).trans frame)
    refine ⟨s.copyInto i f, r.takeFrame f, by rw [step], ?_, r.takeFrame_frames f, ?_, r.takeFrame_framesDone f,
      r.takeFrame_flags f, ?_, State.hasCause_copyInto record f, fun j other => ?_, ?_⟩
    · rw [State.recordAt_copyInto_takeFrame, if_pos rfl, record]
      rfl
    · rw [CapRecord.takeFrame_cursor, cursor]
      rfl
    · cases phase : r.phase with
      | filling c => exact CapRecord.takeFrame_phase_filling phase f
      | opened => rw [r.takeFrame_phase_of_not_filling (by simp [CapRecord.isFilling, phase]), phase]
      | complete c => rw [r.takeFrame_phase_of_not_filling (by simp [CapRecord.isFilling, phase]), phase]
    · rw [State.recordAt_copyInto_takeFrame, if_neg (Ne.symm other)]
    · simp [State.marks_copyInto, State.opening_copyInto]

end Sys2Proof.Machine
end

