-- ==== Sys2Proof/Proofs/RingWords.lean ====
section
/-! SUPPORT. The places of the ring and the frames that lie in them, and what a write does to the ring (R54, R55): the
first half of O36. -/

namespace Sys2Proof.Machine

/-! ## A write, at the ring (R55) -/

theorem State.depth_of_geometry {s : State} {g : Geometry} (formed : s.hr.geometry = some g) : s.depth = g.depth := by
  simp only [State.depth, formed]

/-- The frames that a write leaves in the ring: all but the oldest of a full one (R55). -/
def State.keptAtWrite (s : State) : List Frame :=
  if s.hr.frames.length = s.depth then s.hr.frames.drop 1 else s.hr.frames

theorem State.hr_writeFrame (f : Frame) (s : State) : (s.writeFrame f).hr =
    { s.hr with
      nextWrite := s.hr.nextWrite + 1
      writePos := (s.hr.writePos + 1) % s.depth
      frames := s.keptAtWrite ++ [f] } := by
  simp [State.writeFrame, State.advanceRing, State.storeFrame, State.depth, State.keptAtWrite]

theorem State.depth_writeFrame (f : Frame) (s : State) : (s.writeFrame f).depth = s.depth := by
  simp only [State.depth, State.hr_writeFrame]

theorem State.length_keptAtWrite {s : State} (bounded : s.hr.frames.length ≤ s.depth) (place : 0 < s.depth) :
    s.keptAtWrite.length + 1 ≤ s.depth := by
  unfold State.keptAtWrite
  split
  · rw [List.length_drop]
    omega
  · omega

theorem State.mem_of_mem_keptAtWrite {s : State} {f : Frame} (mem : f ∈ s.keptAtWrite) : f ∈ s.hr.frames := by
  unfold State.keptAtWrite at mem
  split at mem
  · exact List.mem_of_mem_drop mem
  · exact mem

theorem RingLaidOut.writeFrame {s : State} {g : Geometry} (h : RingLaidOut s g) {f : Frame}
    (fits : f.wordList.length = g.words) : RingLaidOut (s.writeFrame f) g := by
  obtain ⟨formed, places, words, position, bounded, frames⟩ := h
  have depth := State.depth_of_geometry formed
  have kept := State.length_keptAtWrite (s := s) (by rwa [depth]) (by rwa [depth])
  unfold RingLaidOut
  rw [State.hr_writeFrame, ← depth, List.length_append]
  refine ⟨formed, by rwa [depth], words, Nat.mod_lt _ (by rwa [depth]), kept, fun h mem => ?_⟩
  obtain old | new := List.mem_append.1 mem
  · exact frames h (State.mem_of_mem_keptAtWrite old)
  · rwa [List.mem_singleton.1 new]

/-! ## Places, counted back from the write position (R54) -/

theorem mod_of_lt_twice {x d : Nat} (h : x < d + d) : x % d = if x < d then x else x - d := by
  split
  · rename_i small
    exact Nat.mod_eq_of_lt small
  · rename_i large
    rw [Nat.mod_eq_sub_mod (Nat.le_of_not_lt large), Nat.mod_eq_of_lt (by omega)]

/-- How many frames have been written since the one in a place, in a ring whose write position is `pos`. -/
def framesBehind (depth pos place : Nat) : Nat := (pos + depth - 1 - place) % depth

/-- The place `n` behind the write position holds the frame written `n - 1` frames before the newest. -/
theorem framesBehind_place {depth pos n : Nat} (position : pos < depth) (behind : 1 ≤ n) (bounded : n ≤ depth) :
    framesBehind depth pos ((pos + depth - n) % depth) = n - 1 := by
  unfold framesBehind
  rw [mod_of_lt_twice (x := pos + depth - n) (by omega)]
  split_ifs
  · rw [mod_of_lt_twice (by omega), if_pos (by omega)]
    omega
  · rw [mod_of_lt_twice (by omega), if_neg (by omega)]
    omega

/-- A write goes to the place at the write position, which it leaves as the newest. -/
theorem framesBehind_written {depth pos : Nat} (position : pos < depth) :
    framesBehind depth ((pos + 1) % depth) pos = 0 := by
  unfold framesBehind
  rw [mod_of_lt_twice (x := pos + 1) (by omega)]
  split_ifs
  all_goals
    rw [mod_of_lt_twice (by omega)]
    split_ifs <;> omega

/-- A write leaves every other place one frame further behind. -/
theorem framesBehind_other {depth pos place : Nat} (position : pos < depth) (inside : place < depth) (other : place ≠ pos) :
    framesBehind depth ((pos + 1) % depth) place = framesBehind depth pos place + 1 := by
  unfold framesBehind
  rw [mod_of_lt_twice (x := pos + 1) (by omega), mod_of_lt_twice (x := pos + depth - 1 - place) (by omega)]
  split_ifs
  all_goals
    rw [mod_of_lt_twice (by omega)]
    split_ifs <;> omega

/-! ## The frame in a place -/

/-- The frame that lies in a place of the ring. -/
def State.frameIn (s : State) (place : Nat) : Option Frame := (s.ringIndexAt place).bind (s.hr.frames[·]?)

/-- A word of the ring is a word of the frame in its place. -/
theorem State.ringWordAt_eq {s : State} {g : Geometry} (formed : s.hr.geometry = some g) (addr : Nat) :
    s.ringWordAt addr = (s.frameIn (addr / g.words)).bind (·.wordList[addr % g.words]?) := by
  unfold State.ringWordAt State.frameIn
  simp only [formed]
  cases s.ringIndexAt (addr / g.words) <;> rfl

/-- A word of the ring, by its place and its number in the frame. -/
theorem State.ringWordAt_place {s : State} {g : Geometry} (formed : s.hr.geometry = some g) (place : Nat) {k : Nat}
    (inside : k < g.words) : s.ringWordAt (place * g.words + k) = (s.frameIn place).bind (·.wordList[k]?) := by
  rw [State.ringWordAt_eq formed, Nat.mul_comm, Nat.mul_add_div (by omega), Nat.div_eq_of_lt inside,
    Nat.mul_add_mod, Nat.mod_eq_of_lt inside, Nat.add_zero]

/-- The places are filled in the order of writing: the frame in a place is found by counting back from the newest. -/
theorem State.frameIn_eq {s : State} {place : Nat} (inside : place < s.depth) :
    s.frameIn place = s.hr.frames.reverse[framesBehind s.depth s.hr.writePos place]? := by
  have index : s.ringIndexAt place =
      if framesBehind s.depth s.hr.writePos place < s.hr.frames.length then
        some (s.hr.frames.length - 1 - framesBehind s.depth s.hr.writePos place)
      else none :=
    if_congr (and_iff_right inside) rfl rfl
  rw [State.frameIn, index]
  by_cases held : framesBehind s.depth s.hr.writePos place < s.hr.frames.length
  · rw [if_pos held, List.getElem?_reverse held]
    rfl
  · rw [if_neg held, List.getElem?_eq_none (by rw [List.length_reverse]; omega)]
    rfl

theorem State.frameIn_outside {s : State} {place : Nat} (outside : s.depth ≤ place) : s.frameIn place = none := by
  rw [State.frameIn, State.ringIndexAt, if_neg fun h => Nat.not_lt.2 outside h.1]
  rfl

theorem State.ringPlaceOf_eq {s : State} (bounded : s.hr.frames.length ≤ s.depth) {j : Nat} (held : j < s.hr.frames.length) :
    s.ringPlaceOf j = (s.hr.writePos + s.depth - (s.hr.frames.length - j)) % s.depth := by
  rw [State.ringPlaceOf]
  congr 1
  omega

/-- A frame lies in the place that its index gives. -/
theorem State.frameIn_ringPlaceOf {s : State} (position : s.hr.writePos < s.depth)
    (bounded : s.hr.frames.length ≤ s.depth) {j : Nat} {h : Frame} (at_ : s.hr.frames[j]? = some h) :
    s.frameIn (s.ringPlaceOf j) = some h := by
  have held : j < s.hr.frames.length := (List.getElem?_eq_some_iff.1 at_).1
  rw [State.ringPlaceOf_eq bounded held, State.frameIn_eq (Nat.mod_lt _ (by omega)),
    framesBehind_place position (by omega) (by omega), List.getElem?_reverse (by omega), ← at_]
  congr 1
  omega

/-- The frame written lies in the place at the write position (R55). -/
theorem State.frameIn_writeFrame_same {s : State} (position : s.hr.writePos < s.depth) (f : Frame) :
    (s.writeFrame f).frameIn s.hr.writePos = some f := by
  rw [State.frameIn_eq (by rwa [State.depth_writeFrame]), State.depth_writeFrame, State.hr_writeFrame]
  simp only [framesBehind_written position, List.reverse_append, List.reverse_singleton, List.singleton_append,
    List.getElem?_cons_zero]

/-- The frames kept, counted back from the newest, are those that were there, but for the overwritten one. -/
theorem State.getElem?_reverse_keptAtWrite {s : State} {n : Nat} (other : n + 1 < s.depth) :
    s.keptAtWrite.reverse[n]? = s.hr.frames.reverse[n]? := by
  unfold State.keptAtWrite
  split
  · rw [List.drop_one, ← List.dropLast_reverse, List.getElem?_dropLast, if_pos (by rw [List.length_reverse]; omega)]
  · rfl

/-- A write leaves the other places as they are (R55). -/
theorem State.frameIn_writeFrame_other {s : State} (position : s.hr.writePos < s.depth) (f : Frame) {place : Nat}
    (other : place ≠ s.hr.writePos) :
    (s.writeFrame f).frameIn place = s.frameIn place := by
  by_cases inside : place < s.depth
  · have further := framesBehind_other position inside other
    have last : framesBehind s.depth s.hr.writePos place + 1 < s.depth := by
      rw [← further]
      exact Nat.mod_lt _ (by omega)
    rw [State.frameIn_eq (by rwa [State.depth_writeFrame]), State.frameIn_eq inside, State.depth_writeFrame,
      State.hr_writeFrame]
    simp only [further, List.reverse_append, List.reverse_singleton, List.singleton_append, List.getElem?_cons_succ]
    exact State.getElem?_reverse_keptAtWrite last
  · rw [State.frameIn_outside (by rw [State.depth_writeFrame]; omega), State.frameIn_outside (by omega)]

end Sys2Proof.Machine
end

