-- ==== Sys2Proof/Proofs/RingWrite.lean ====
section
/-! A write at the records (R55, R59, R61, R62), and the ring's words across it: O36. -/

namespace Sys2Proof.Machine

/-! ## Copying into every record at a write number (R61, R62) -/

/-- The record after a frame is offered to it at a write number: it takes the frame when its cursor stands there. -/
def CapRecord.takeAt (k : Word32) (f : Frame) (r : CapRecord) : CapRecord :=
  if r.cursor = some k then r.takeFrame f else r

theorem CapRecord.takeAt_here {r : CapRecord} {k : Word32} (cursor : r.cursor = some k) (f : Frame) :
    r.takeAt k f = r.takeFrame f := if_pos cursor

theorem CapRecord.takeAt_elsewhere {r : CapRecord} {k : Word32} (cursor : r.cursor ≠ some k) (f : Frame) :
    r.takeAt k f = r := if_neg cursor

theorem State.cursorAt_iff {s : State} {i : Fin 4} {r : CapRecord} (record : s.recordAt i = some r) {k : Word32} :
    s.cursorAt i k = true ↔ r.cursor = some k := by
  simp only [State.cursorAt, record, beq_iff_eq]

theorem State.recordAt_copyToAll (k : Word32) (f : Frame) (s : State) (j : Fin 4) :
    (s.copyToAll k f).recordAt j = (s.recordAt j).map (·.takeAt k f) := by
  rw [Option.map_eq_bind]
  refine recordAt_foldl_slots _ _ (fun s i j => ?_) s j
  cases record : s.recordAt i with
  | none =>
    have idle : s.cursorAt i k = false := by simp only [State.cursorAt, record]
    rw [if_neg (by simp [idle])]
    split
    · rename_i e
      rw [← e, record]
      rfl
    · rfl
  | some r =>
    by_cases cursor : r.cursor = some k
    · rw [if_pos ((State.cursorAt_iff record).2 cursor), State.recordAt_copyInto_takeFrame, record]
      simp [CapRecord.takeAt_here cursor]
    · rw [if_neg (mt (State.cursorAt_iff record).1 cursor)]
      split
      · rename_i e
        rw [← e, record]
        simp [CapRecord.takeAt_elsewhere cursor]
      · rfl

/-! ## One record at a write (R55) -/

/-- The write number of the frame that a write into a full ring overwrites. -/
def State.oldestNumber (s : State) : Word32 := s.hr.nextWrite - BitVec.ofNat 32 s.depth

theorem State.oldestNumber_ne {s : State} (place : 0 < s.depth) (counted : s.depth < 4294967296) :
    s.oldestNumber ≠ s.hr.nextWrite := by
  intro same
  have numbers := congrArg BitVec.toNat same
  simp only [State.oldestNumber, BitVec.toNat_sub, BitVec.toNat_ofNat, Nat.reducePow] at numbers
  have range := s.hr.nextWrite.isLt
  omega

/-- The record after step 1 of a write: in a full ring it takes the oldest frame if its cursor stands on it (R61). -/
def State.roomMade (s : State) (r : CapRecord) : CapRecord :=
  match s.hr.frames with
  | [] => r
  | f :: _ => if s.hr.frames.length = s.depth then r.takeAt s.oldestNumber f else r

theorem State.roomMade_full {s : State} {f₀ : Frame} {rest : List Frame} (frames : s.hr.frames = f₀ :: rest)
    (full : s.hr.frames.length = s.depth) (r : CapRecord) : s.roomMade r = r.takeAt s.oldestNumber f₀ := by
  simp only [State.roomMade, frames]
  exact if_pos (by rwa [frames] at full)

theorem State.roomMade_elsewhere {s : State} {r : CapRecord}
    (elsewhere : s.hr.frames.length = s.depth → r.cursor ≠ some s.oldestNumber) : s.roomMade r = r := by
  unfold State.roomMade
  split
  · rfl
  · split
    · rename_i full
      exact CapRecord.takeAt_elsewhere (elsewhere full) _
    · rfl

theorem State.recordAt_makeRoom (s : State) (j : Fin 4) : s.makeRoom.recordAt j = (s.recordAt j).map s.roomMade := by
  unfold State.makeRoom State.roomMade
  cases s.hr.frames with
  | nil => exact Option.map_id'.symm
  | cons f₀ rest =>
    by_cases full : (f₀ :: rest).length = s.depth
    · simp only [if_pos full]
      exact s.recordAt_copyToAll _ _ j
    · simp only [if_neg full]
      exact Option.map_id'.symm

/-- The record after a write: what step 1 made of it takes the new frame if it is caught up (R62). -/
def State.afterWrite (s : State) (f : Frame) (r : CapRecord) : CapRecord := (s.roomMade r).takeAt s.hr.nextWrite f

theorem State.recordAt_writeFrame (f : Frame) (s : State) (j : Fin 4) :
    (s.writeFrame f).recordAt j = (s.recordAt j).map (s.afterWrite f) := by
  have stored : (s.makeRoom.storeFrame f).recordAt j = s.makeRoom.recordAt j :=
    State.recordAt_of_cc (State.storeFrame_frame _ _).2.2.2.1 j
  rw [State.writeFrame, State.recordAt_of_cc (State.advanceRing_frame _).2.2.2.1, State.recordAt_copyToAll, stored,
    State.recordAt_makeRoom, Option.map_map]
  rfl

theorem State.recordAt_writeFrame_some {s : State} {i : Fin 4} {r : CapRecord} (record : s.recordAt i = some r)
    (f : Frame) : (s.writeFrame f).recordAt i = some (s.afterWrite f r) := by
  rw [State.recordAt_writeFrame, record]
  rfl

section
variable {s : State} {r : CapRecord} (f : Frame)

/-- A caught-up record takes the new frame alone (R62). -/
theorem State.afterWrite_caughtUp (place : 0 < s.depth) (counted : s.depth < 4294967296)
    (cursor : r.cursor = some s.hr.nextWrite) :
    s.copiedAtWrite f r = [f] ∧ s.afterWrite f r = r.takeFrame f := by
  have elsewhere : r.cursor ≠ some s.oldestNumber := by
    rw [cursor]
    exact fun same => State.oldestNumber_ne place counted (Option.some.inj same).symm
  constructor
  · simp [State.copiedAtWrite, cursor]
  · rw [State.afterWrite, State.roomMade_elsewhere fun _ => elsewhere, CapRecord.takeAt_here cursor]

/-- A record at the frame that is overwritten takes it, and the new frame too when it is caught up with it and not finished
by it (R61, R62). -/
theorem State.afterWrite_overwritten (place : 0 < s.depth) (counted : s.depth < 4294967296) {f₀ : Frame} {rest : List Frame}
    (frames : s.hr.frames = f₀ :: rest) (full : s.hr.frames.length = s.depth) (cursor : r.cursor = some s.oldestNumber) :
    s.copiedAtWrite f r =
        f₀ :: (if s.oldestNumber + 1 = s.hr.nextWrite ∧ r.frames.length + 1 ≠ r.total then [f] else []) ∧
      s.afterWrite f r =
        if s.oldestNumber + 1 = s.hr.nextWrite ∧ r.frames.length + 1 ≠ r.total then (r.takeFrame f₀).takeFrame f
        else r.takeFrame f₀ := by
  constructor
  · have older := State.oldestNumber_ne place counted
    simp only [State.copiedAtWrite, cursor, if_neg older]
    rw [if_pos ⟨full, rfl⟩, frames]
    rfl
  · have reached : (r.takeFrame f₀).cursor = some s.hr.nextWrite ↔
        s.oldestNumber + 1 = s.hr.nextWrite ∧ r.frames.length + 1 ≠ r.total := by
      rw [CapRecord.takeFrame_cursor, cursor, CapRecord.finishedByNext]
      by_cases last : r.frames.length + 1 = r.total <;> simp [last]
    rw [State.afterWrite, State.roomMade_full frames full, CapRecord.takeAt_here cursor, CapRecord.takeAt]
    simp only [reached]

/-- Every other record is left as it is. -/
theorem State.afterWrite_elsewhere (behind : r.cursor ≠ some s.hr.nextWrite)
    (elsewhere : s.hr.frames.length = s.depth → r.cursor ≠ some s.oldestNumber) :
    s.copiedAtWrite f r = [] ∧ s.afterWrite f r = r := by
  constructor
  · unfold State.copiedAtWrite
    split
    · rfl
    · rename_i k cursor
      rw [cursor] at behind elsewhere
      rw [if_neg fun same => behind (congrArg some same), if_neg fun same => elsewhere same.1 (congrArg some same.2)]
  · rw [State.afterWrite, State.roomMade_elsewhere elsewhere, CapRecord.takeAt_elsewhere behind]

end

/-! ## Each frame copied is taken as R59 gives -/

theorem TakesFrames.nil (r : CapRecord) : TakesFrames [] r r := by
  simp [TakesFrames]

/-- A FILLING record whose answers are closed completes with its last frame (R37). -/
theorem CapRecord.takeFrame_phase_closed {r : CapRecord} {c : Capture} (phase : r.phase = .filling c)
    (closed : c.answersClosed = true) (f : Frame) :
    (r.takeFrame f).phase = if r.finishedByNext then .complete c else .filling c := by
  rw [CapRecord.takeFrame_phase_filling phase, closed, Bool.and_true]

theorem TakesFrames.one (r : CapRecord) (f : Frame) : TakesFrames [f] r (r.takeFrame f) := by
  refine ⟨r.takeFrame_frames f, ?_, ?_, ?_, ?_, fun _ c phase closed => ?_, r.takeFrame_fixed f⟩
  · simp [CapRecord.finishedByNext]
  · simp [CapRecord.finishedByNext]
  · simp
  · simp
  · rw [CapRecord.takeFrame_phase_closed phase closed, CapRecord.finishedByNext, List.length_append]
    rfl

theorem TakesFrames.two (r : CapRecord) (f₀ f : Frame) (unfinished : r.frames.length + 1 ≠ r.total) :
    TakesFrames [f₀, f] r ((r.takeFrame f₀).takeFrame f) := by
  have first : r.finishedByNext = false := decide_eq_false unfinished
  have last : (r.takeFrame f₀).finishedByNext = decide ((r.frames ++ [f₀, f]).length = r.total) := by
    simp [CapRecord.finishedByNext]
  refine ⟨?_, ?_, ?_, ?_, ?_, fun _ c phase closed => ?_, ?_⟩
  · simp
  · rw [CapRecord.takeFrame_cursor, last, CapRecord.takeFrame_cursor, first]
    cases r.cursor <;> simp [BitVec.add_assoc]
  · simp [last]
  · simp [Bool.or_assoc]
  · simp [Bool.or_assoc]
  · have filling : (r.takeFrame f₀).phase = .filling c := by
      rw [CapRecord.takeFrame_phase_closed phase closed, first]
      rfl
    rw [CapRecord.takeFrame_phase_closed filling closed, last]
  · simp

/-- What a write makes of a record is the taking of the frames it copies there. -/
theorem State.takesFrames_afterWrite {s : State} (place : 0 < s.depth) (counted : s.depth < 4294967296) (f : Frame)
    (r : CapRecord) : TakesFrames (s.copiedAtWrite f r) r (s.afterWrite f r) := by
  by_cases caughtUp : r.cursor = some s.hr.nextWrite
  · obtain ⟨copied, after⟩ := State.afterWrite_caughtUp f place counted caughtUp
    rw [copied, after]
    exact .one r f
  · by_cases oldest : s.hr.frames.length = s.depth ∧ r.cursor = some s.oldestNumber
    · obtain ⟨full, cursor⟩ := oldest
      obtain ⟨f₀, rest, frames⟩ := List.exists_cons_of_length_pos (full ▸ place)
      obtain ⟨copied, after⟩ := State.afterWrite_overwritten f place counted frames full cursor
      rw [copied, after]
      split
      · rename_i both
        exact .two r f₀ f both.2
      · exact .one r f₀
    · obtain ⟨copied, after⟩ := State.afterWrite_elsewhere f caughtUp fun full cursor => oldest ⟨full, cursor⟩
      rw [copied, after]
      exact .nil r

/-! ## The two halves of O36 -/

/-- The ring's words, and what a write does to them (R54, R55). -/
theorem ringWords_writeFrame {s : State} {g : Geometry} (laid : RingLaidOut s g) (f : Frame) :
    (∀ j h, s.hr.frames[j]? = some h →
      s.ringPlaceOf j < g.depth ∧ s.ringPlaceOf j = (s.hr.writePos + g.depth - (s.hr.frames.length - j)) % g.depth ∧
        ∀ k, k < g.words → s.ringWordAt (s.ringPlaceOf j * g.words + k) = h.wordList[k]?) ∧
    (∀ a, g.depth * g.words ≤ a → s.ringWordAt a = none) ∧
    (∀ k, k < g.words → (s.writeFrame f).ringWordAt (s.hr.writePos * g.words + k) = f.wordList[k]?) ∧
    (∀ a, ¬(s.hr.writePos * g.words ≤ a ∧ a < s.hr.writePos * g.words + g.words) →
      (s.writeFrame f).ringWordAt a = s.ringWordAt a) := by
  obtain ⟨formed, places, words, position, bounded, _⟩ := laid
  have formed' : (s.writeFrame f).hr.geometry = some g := by rw [State.hr_writeFrame, formed]
  rw [← State.depth_of_geometry formed] at places position bounded ⊢
  refine ⟨fun j h at_ => ⟨Nat.mod_lt _ places, ?_, fun k inside => ?_⟩, fun a above => ?_, fun k inside => ?_,
    fun a other => ?_⟩
  · exact State.ringPlaceOf_eq bounded (List.getElem?_eq_some_iff.1 at_).1
  · rw [State.ringWordAt_place formed _ inside, State.frameIn_ringPlaceOf position bounded at_]
    rfl
  · rw [State.ringWordAt_eq formed, State.frameIn_outside ((Nat.le_div_iff_mul_le words).2 above)]
    rfl
  · rw [State.ringWordAt_place formed' _ inside, State.frameIn_writeFrame_same position]
    rfl
  · have elsewhere : a / g.words ≠ s.hr.writePos := by
      intro same
      refine other ⟨same ▸ Nat.div_mul_le_self a g.words, ?_⟩
      rw [← same]
      exact Nat.lt_div_mul_add words
    rw [State.ringWordAt_eq formed', State.ringWordAt_eq formed, State.frameIn_writeFrame_other position f elsewhere]

/-- Settles O36: the words as views of the frames in their places, and each record by where its cursor stands. -/
theorem writeKeepsHeld : Obligations.WriteKeepsHeld := by
  unfold Obligations.WriteKeepsHeld
  refine ⟨fun s g f laid fits => ?_, fun s f place counted bounded => ⟨?_, ?_, ?_, ?_, ?_, ?_⟩⟩
  · obtain ⟨frames, above, written, others⟩ := ringWords_writeFrame laid f
    refine ⟨frames, above, laid.writeFrame fits, ?_, written, others⟩
    rw [State.hr_writeFrame, State.depth_of_geometry laid.1]
  · rw [State.hr_writeFrame, State.keptAtWrite]
  · rw [State.hr_writeFrame]
  · intro i r record
    exact ⟨s.afterWrite f r, State.recordAt_writeFrame_some record f, State.takesFrames_afterWrite place counted f r⟩
  · intro i r k record cursor
    have after := State.recordAt_writeFrame_some record f
    have frames := (State.takesFrames_afterWrite place counted f r).1
    refine ⟨fun full oldest f₀ first => ⟨_, after, ?_⟩, fun caughtUp => ⟨_, after, ?_⟩, fun notOldest behind => ?_⟩
    · obtain ⟨rest, ring⟩ := List.head?_eq_some_iff.1 (List.head?_eq_getElem?.trans first)
      rw [frames, (State.afterWrite_overwritten f place counted ring full (cursor.trans (congrArg some oldest))).1, oldest]
      rfl
    · rw [frames, (State.afterWrite_caughtUp f place counted (cursor.trans (congrArg some caughtUp))).1]
    · rw [after, (State.afterWrite_elsewhere f _ _).2]
      · rw [cursor]
        exact fun same => behind (Option.some.inj same)
      · rw [cursor]
        exact fun full same => notOldest.elim (fun room => absurd full room.ne) (absurd (Option.some.inj same))
  · intro i free
    rw [State.recordAt_writeFrame, free]
    rfl
  · intro i r record cursor
    rw [State.recordAt_writeFrame_some record, (State.afterWrite_elsewhere f (by simp [cursor]) (by simp [cursor])).2]

end Sys2Proof.Machine
end

