-- ==== Sys2Proof/Proofs/SpotRuns.lean ====
section
/-! Spot runs: a SPOT command's place, the run that serves the list, and the delivery of its codes: O17, O39. -/

namespace Sys2Proof.Machine

/-! ## SPOT (R80, R165) -/

theorem State.spotRefused_of_configured {s : State} {c : Configuration} (config : s.mu.config = some c) :
    s.spotRefused = true ↔ s.mu.station = .leaving ∨ s.isFault = true ∨ c.spots = [] := by
  simp [State.spotRefused, State.isLeaving, State.cfg, config, or_assoc]

theorem State.spotRefused_of_unconfigured {s : State} (config : s.mu.config = none) : s.spotRefused = true := by
  simp [State.spotRefused, config]

theorem takeSpot_refused {s : State} (refused : s.spotRefused = true) : takeSpot [] s = (s, .bare codeBadState) :=
  if_pos refused

theorem takeSpot_pending {s : State} (allowed : ¬s.spotRefused = true) (pending : s.acq.localPending = true) :
    takeSpot [] s = (s, .bare codeBusy) :=
  (if_neg allowed).trans (if_pos pending)

theorem takeSpot_placed {s : State} (allowed : ¬s.spotRefused = true) (vacant : s.acq.localPending = false) :
    takeSpot [] s = (s.placeLocal, .ok []) :=
  (if_neg allowed).trans (if_neg (by simp [vacant]))

/-- Settles O17: one clause per branch of `takeSpot`. -/
theorem spotRequested : Obligations.SpotRequested := by
  unfold Obligations.SpotRequested
  refine fun s h => ⟨fun refusal => ?_, fun c station fault config spots => ?_⟩
  · have refused : s.spotRefused = true := by
      cases config : s.mu.config with
      | none => exact State.spotRefused_of_unconfigured config
      | some c => exact (State.spotRefused_of_configured config).2 (by simpa [config] using refusal)
    exact congrArg Host.Outcome.next (h.clockCommand_answered (takeSpot_refused (s := s.heard 0x06 []) refused))
  · have allowed : ¬s.spotRefused = true := by
      simp [State.spotRefused_of_configured config, station, fault, spots]
    refine ⟨fun pending => ?_, fun vacant => ?_⟩
    · exact congrArg Host.Outcome.next
        (h.clockCommand_answered (takeSpot_pending (s := s.heard 0x06 []) allowed pending))
    · exact congrArg Host.Outcome.next
        (h.clockCommand_answered (u := s.placeLocal) (takeSpot_placed (s := s.heard 0x06 []) allowed vacant))

/-! ## Delivering a run's codes (R43, R77, R80) -/

/-- A record of slot `i` after a run has served the places: it takes the codes when its own place is among them and its
request is placed. -/
def CapRecord.servedAt (i : Fin 4) (places : List SpotPlace) (codes : List Code) (r : CapRecord) : CapRecord :=
  if r.spotRequest = .placed ∧ { requester := .capture i r.seq, inRun := true } ∈ places then
    { r with spotRequest := .served, spotValues := some codes }
  else r

theorem CapRecord.servedAt_of_absent {i : Fin 4} {places : List SpotPlace} (codes : List Code)
    (absent : ∀ seq, { requester := .capture i seq, inRun := true } ∉ places) :
    CapRecord.servedAt i places codes = id :=
  funext fun r => if_neg fun h => absent r.seq h.2

/-- A record that one place has served takes nothing more from the others. -/
theorem CapRecord.servedAt_cons (i : Fin 4) (p : SpotPlace) (places : List SpotPlace) (codes : List Code)
    (r : CapRecord) : (r.servedAt i [p] codes).servedAt i places codes = r.servedAt i (p :: places) codes := by
  by_cases first : r.spotRequest = .placed ∧ { requester := .capture i r.seq, inRun := true } = p
  · simp [CapRecord.servedAt, first.1, first.2]
  · have missed : r.servedAt i [p] codes = r := if_neg (by simpa using first)
    rw [missed]
    refine if_congr (and_congr_right fun placed => ?_) rfl rfl
    rw [List.mem_cons, or_iff_right fun same => first ⟨placed, same⟩]

/-- The state after a run has served the places, as far as the local requester goes (R80). -/
def State.localServed (places : List SpotPlace) (run : SpotRun) (codes : List Code) (s : State) : State :=
  if { requester := .localPort, inRun := true } ∈ places then
    State.raise .spotDone { s with acq := { s.acq with
      lastSpot := some { codes := codes, station := run.began, stamp := run.stamp }, localPending := false } }
  else s

/-- One place served: of the records, its own requester's alone can take the codes. -/
theorem State.recordAt_deliver (run : SpotRun) (codes : List Code) (s : State) (p : SpotPlace) (i : Fin 4) :
    (s.deliver run codes p).recordAt i = (s.recordAt i).map (CapRecord.servedAt i [p] codes) := by
  obtain ⟨requester, inRun⟩ := p
  cases inRun with
  | false =>
    rw [CapRecord.servedAt_of_absent codes (by simp), Option.map_id]
    rfl
  | true =>
    cases requester with
    | localPort =>
      rw [CapRecord.servedAt_of_absent codes (by simp), Option.map_id]
      rfl
    | capture j seq =>
      change (s.modifyRecord j (CapRecord.serve seq codes)).recordAt i = _
      rw [State.recordAt_modifyRecord]
      by_cases own : j = i
      · subst own
        have serve : CapRecord.serve seq codes = CapRecord.servedAt j [⟨.capture j seq, true⟩] codes :=
          funext fun r => if_congr (by simp [and_comm]) rfl rfl
        rw [if_pos rfl, serve]
      · rw [if_neg own, CapRecord.servedAt_of_absent codes (by simp [Ne.symm own]), Option.map_id]
        rfl

/-- One place served: AS and LP change for the local requester's place alone. -/
theorem State.deliver_acq_lp (run : SpotRun) (codes : List Code) (s : State) (p : SpotPlace) :
    (s.deliver run codes p).acq = (s.localServed [p] run codes).acq ∧
      (s.deliver run codes p).lp = (s.localServed [p] run codes).lp := by
  obtain ⟨requester, inRun⟩ := p
  cases inRun with
  | false =>
    rw [State.localServed, if_neg (by simp)]
    exact ⟨rfl, rfl⟩
  | true =>
    cases requester with
    | localPort =>
      rw [State.localServed, if_pos (by simp)]
      exact ⟨rfl, rfl⟩
    | capture j seq =>
      rw [State.localServed, if_neg (by simp)]
      change (s.modifyRecord j _).acq = _ ∧ (s.modifyRecord j _).lp = _
      simp

/-- All places served: each record takes the codes when its place is among them. -/
theorem State.recordAt_foldl_deliver (run : SpotRun) (codes : List Code) (places : List SpotPlace) (s : State)
    (i : Fin 4) : (places.foldl (State.deliver run codes) s).recordAt i =
      (s.recordAt i).map (CapRecord.servedAt i places codes) := by
  induction places generalizing s with
  | nil =>
    rw [CapRecord.servedAt_of_absent codes (by simp), Option.map_id]
    rfl
  | cons p places ih =>
    rw [List.foldl_cons, ih, State.recordAt_deliver, Option.map_map]
    exact congrArg (fun f => Option.map f _) (funext (CapRecord.servedAt_cons i p places codes))

/-- What the local requester is given depends on AS and LP alone. -/
theorem State.localServed_congr {s t : State} (acq : t.acq = s.acq) (lp : t.lp = s.lp) (places : List SpotPlace)
    (run : SpotRun) (codes : List Code) :
    (t.localServed places run codes).acq = (s.localServed places run codes).acq ∧
      (t.localServed places run codes).lp = (s.localServed places run codes).lp := by
  unfold State.localServed
  split
  · exact ⟨by simp [acq], by simp [State.raise, lp]⟩
  · exact ⟨acq, lp⟩

/-- A second place of the local requester would bring nothing new: SPOT_DONE is pending once (R174). -/
theorem State.localServed_cons (p : SpotPlace) (places : List SpotPlace) (run : SpotRun) (codes : List Code)
    (s : State) : (s.localServed [p] run codes).localServed places run codes = s.localServed (p :: places) run codes := by
  by_cases first : { requester := .localPort, inRun := true } = p
  · simp only [State.localServed, List.mem_cons, first, true_or, if_true]
    split
    · simp [State.raise, BitVec.or_assoc]
    · rfl
  · simp [State.localServed, first]

/-- All places served: the local requester has its result, wherever in the list its place stands. -/
theorem State.foldl_deliver_acq_lp (run : SpotRun) (codes : List Code) (places : List SpotPlace) (s : State) :
    (places.foldl (State.deliver run codes) s).acq = (s.localServed places run codes).acq ∧
      (places.foldl (State.deliver run codes) s).lp = (s.localServed places run codes).lp := by
  induction places generalizing s with
  | nil => exact ⟨rfl, rfl⟩
  | cons p places ih =>
    obtain ⟨restAcq, restLp⟩ := ih (s.deliver run codes p)
    obtain ⟨acq, lp⟩ := s.deliver_acq_lp run codes p
    obtain ⟨nextAcq, nextLp⟩ := State.localServed_congr acq lp places run codes
    rw [List.foldl_cons, ← State.localServed_cons]
    exact ⟨restAcq.trans nextAcq, restLp.trans nextLp⟩

/-! ## The run -/

/-- A waiting place begins a run once the converter is IDLE or sweeping and no self-check is due (R68, R76). -/
theorem State.beginSpotRun_of_waiting {s : State} (waiting : s.spotWaiting = true)
    (free : s.acq.converter = .idle ∨ s.acq.converter = .sweep) (noRun : s.acq.run = none)
    (noCheck : ¬(s.mu.station = .checking ∧ s.acq.selfCheck.isSome = true)) :
    s.beginSpotRun = { s with acq := { s.acq with
      converter := .spot
      assembly := s.acq.assembly.map (fun a => { a with spot := true })
      spotList := s.acq.spotList.map (fun p => { p with inRun := true })
      run := some { spots := s.cfg.spots, codes := [], began := s.mu.station, stamp := s.runStamp } } } := by
  refine if_pos ?_
  simpa [State.spotRunMayBegin, State.isChecking, waiting, noRun, free, imp_iff_not_or] using noCheck

section
variable {s : State} {run : SpotRun} (code : Code)

theorem State.endSpotConversion_more (spot : s.acq.converter = .spot) (running : s.acq.run = some run)
    (more : run.codes.length + 1 < run.spots.length) :
    s.endSpotConversion code =
      { s with acq := { s.acq with run := some { run with codes := run.codes ++ [code] } } } := by
  simp [State.endSpotConversion, spot, running, more]

theorem State.endSpotConversion_last (spot : s.acq.converter = .spot) (running : s.acq.run = some run)
    (last : run.codes.length + 1 = run.spots.length) :
    s.endSpotConversion code = s.endSpotRun run (run.codes ++ [code]) := by
  simp [State.endSpotConversion, spot, running, last]

end

/-- The state in which a run's codes are delivered: the converter free, the served places gone from the list (R77). -/
def State.runOver (s : State) : State :=
  { s with acq := { s.acq with
      converter := .idle, run := none, spotList := s.acq.spotList.filter (fun p => !p.inRun) } }

theorem State.endSpotRun_eq (run : SpotRun) (codes : List Code) (s : State) :
    s.endSpotRun run codes = s.acq.spotList.foldl (State.deliver run codes) s.runOver := rfl

theorem State.recordAt_endSpotRun (run : SpotRun) (codes : List Code) (s : State) (i : Fin 4) :
    (s.endSpotRun run codes).recordAt i = (s.recordAt i).map (CapRecord.servedAt i s.acq.spotList codes) := by
  rw [State.endSpotRun_eq, State.recordAt_foldl_deliver]
  rfl

/-- The end of a run at AS and LP (R77, R80). -/
theorem State.endSpotRun_acq_lp (run : SpotRun) (codes : List Code) (s : State) :
    (s.endSpotRun run codes).acq = (s.runOver.localServed s.acq.spotList run codes).acq ∧
      (s.endSpotRun run codes).lp = (s.runOver.localServed s.acq.spotList run codes).lp := by
  rw [State.endSpotRun_eq]
  exact s.runOver.foldl_deliver_acq_lp run codes s.acq.spotList

/-- Whoever is served, the converter is free after the run, and no place of it is left in the list (R77). -/
theorem State.endSpotRun_converter (run : SpotRun) (codes : List Code) (s : State) :
    (s.endSpotRun run codes).acq.converter = .idle ∧ (s.endSpotRun run codes).acq.run = none ∧
      (s.endSpotRun run codes).acq.spotList = s.acq.spotList.filter (fun p => !p.inRun) ∧
      (s.endSpotRun run codes).acq.assembly = s.acq.assembly := by
  rw [(s.endSpotRun_acq_lp run codes).1]
  unfold State.localServed
  split <;> exact ⟨rfl, rfl, rfl, rfl⟩

/-- Settles O39: the begin as one state; a conversion's end by whether it is the run's last, whose delivery is `servedAt`
at each record and `localServed` at the local requester. -/
theorem spotRuns : Obligations.SpotRuns := by
  unfold Obligations.SpotRuns
  refine ⟨fun s waiting free noRun noCheck => ?_, fun s code run spot running => ⟨fun more => ?_, fun last => ?_⟩⟩
  · refine congrArg Host.Outcome.next ((State.beginSpotRun_of_waiting waiting free noRun noCheck).trans ?_)
    simp only [State.runStamp, isMember_iff]
  · exact congrArg Host.Outcome.next (State.endSpotConversion_more code spot running more)
  · obtain ⟨converter, ended, list, assembly⟩ := s.endSpotRun_converter run (run.codes ++ [code])
    obtain ⟨acq, lp⟩ := s.endSpotRun_acq_lp run (run.codes ++ [code])
    refine ⟨s.endSpotRun run (run.codes ++ [code]),
      congrArg Host.Outcome.next (State.endSpotConversion_last code spot running last), converter, ended, list, assembly,
      fun i r record => ?_, fun served => ?_, fun unserved => ?_⟩
    · rw [State.recordAt_endSpotRun, record]
      rfl
    · rw [State.localServed, if_pos served] at acq lp
      refine ⟨by rw [acq]; rfl, ?_, by rw [acq]; rfl⟩
      rw [State.hasCause, lp]
      exact State.hasCause_raise _ _
    · rw [State.localServed, if_neg unserved] at acq lp
      exact ⟨by rw [acq]; rfl, by rw [acq]; rfl, lp⟩

end Sys2Proof.Machine
end

