-- ==== Sys2Proof/Proofs/Conversions.lean ====
section
/-! The conversions of the sweep and of the self-check: O38, O40. -/

namespace Sys2Proof.Machine

/-! ## The sweep (R68, R71, R79) -/

/-- The value word is the code minus the offset in 16 bits (R71). -/
theorem storedValue_eq (code : Code) (offset : Nat) :
    storedValue code offset = BitVec.ofInt 16 ((code.toNat : Int) - offset) := by
  have small : code.toNat < 4096 := code.isLt
  apply BitVec.eq_of_toNat_eq
  simp only [storedValue, wordOf, BitVec.toNat_sub, BitVec.toNat_setWidth, BitVec.toNat_ofNat, BitVec.toNat_ofInt]
  omega

/-- Row 3 of Table 4-1: in MEMBER, with entries left to convert, no place waiting and the converter IDLE. -/
theorem State.sweepMayStart_iff {s : State} {a : Assembly} (assembly : s.acq.assembly = some a) :
    s.sweepMayStart = true ↔ (s.mu.station = .member ∧ a.pos < s.cfg.sweep.length ∧
      s.acq.spotList.any (fun p => !p.inRun) = false) ∧ s.acq.converter = .idle := by
  simp [State.sweepMayStart, State.sweepLeft, State.spotWaiting, State.isMember, assembly, and_assoc]

theorem State.startSweep_eq (s : State) :
    s.startSweep = { s with acq := { s.acq with
      converter := if s.sweepMayStart = true then .sweep else s.acq.converter } } := by
  unfold State.startSweep
  split <;> rfl

theorem State.endSweepConversion_eq {s : State} {a : Assembly} {e : SweepEntry} (code : Code)
    (sweep : s.acq.converter = .sweep) (assembly : s.acq.assembly = some a) (entry : s.cfg.sweep[a.pos]? = some e) :
    s.endSweepConversion code = State.startSweep { s with acq := { s.acq with
      converter := .idle
      assembly := some
        { a with values := a.values.set a.pos (storedValue code e.offset), pos := a.pos + 1 } } } := by
  simp only [State.endSweepConversion, sweep, assembly, entry]

/-- Settles O38: a conversion's end is the value stored and the sweep's start from there; the resumption is that start. -/
theorem sweepConversions : Obligations.SweepConversions := by
  unfold Obligations.SweepConversions
  refine ⟨fun s code a e sweep assembly entry => ?_, fun s a station idle assembly left noPlace => ?_⟩
  · refine congrArg Host.Outcome.next ((State.endSweepConversion_eq code sweep assembly entry).trans ?_)
    rw [State.startSweep_eq, storedValue_eq, if_congr (State.sweepMayStart_iff rfl) rfl rfl]
    simp [State.cfg]
  · have may : s.sweepMayStart = true := (State.sweepMayStart_iff assembly).2 ⟨⟨station, left, noPlace⟩, idle⟩
    exact congrArg Host.Outcome.next (if_pos may)

/-! ## The self-check (R81, R82, R84) -/

section
variable {s : State} {c : SelfCheck} (code : Code)

theorem State.endSelfCheckConversion_more (converting : s.acq.converter = .selfCheck)
    (check : s.acq.selfCheck = some c) (more : c.made ≠ 7) :
    s.endSelfCheckConversion code =
      { s with acq := { s.acq with selfCheck := some { made := c.made + 1, sum := c.sum + code.toNat } } } := by
  simp [State.endSelfCheckConversion, converting, check, more, Config.selfCheckCount]

theorem State.endSelfCheckConversion_last (converting : s.acq.converter = .selfCheck)
    (check : s.acq.selfCheck = some c) (last : c.made = 7) :
    s.endSelfCheckConversion code = s.endSelfCheck (c.sum + code.toNat) := by
  simp [State.endSelfCheckConversion, converting, check, last]

end

/-- The state in which the mean is judged: the converter free, no self-check due any more (R82). -/
def State.selfChecked (mean : Nat) (s : State) : State :=
  { s with acq := { s.acq with converter := .idle, selfCheck := none, lastMean := some mean } }

theorem State.endSelfCheck_pass {s : State} {sum : Nat} (pass : 1984 ≤ sum / 8 ∧ sum / 8 ≤ 2112) :
    s.endSelfCheck sum =
      State.lineQuiet { s.selfChecked (sum / 8) with mu := { s.mu with station := .listen, listenCount := 0 } } :=
  if_pos pass

theorem State.endSelfCheck_fail {s : State} {sum : Nat} (fail : ¬(1984 ≤ sum / 8 ∧ sum / 8 ≤ 2112)) :
    s.endSelfCheck sum = (s.selfChecked (sum / 8)).enterFault .selfcheck :=
  if_neg fail

/-- A fault outside MEMBER is no departure: what it does is the clearing of AS, the flush, the end of ticks and the
cause (R151, R84). -/
theorem State.enterFault_of_not_member {s : State} (outside : s.isMember = false) (reason : FaultReason) :
    s.enterFault reason = State.raise .fault { s with
      acq := s.acqFault.acq
      lc := { s.lc with queue := [], view := .none, idle := 0 }
      et := { s.et with own := .none, running := false }
      mu := { s.mu with station := .fault reason, spoken := false } } := by
  rw [State.enterFault, outside]
  rfl

/-- Settles O40: the begin, a conversion that is not the eighth, and the eighth by its mean. -/
theorem selfChecks : Obligations.SelfChecks := by
  unfold Obligations.SelfChecks
  refine ⟨fun s station due idle => ?_, fun s code c station converting check => ⟨fun more => ?_, fun last => ?_⟩⟩
  · have may : s.selfCheckMayBegin = true := by
      simp [State.selfCheckMayBegin, State.isChecking, station, due, idle]
    exact congrArg Host.Outcome.next (if_pos may)
  · exact congrArg Host.Outcome.next (State.endSelfCheckConversion_more code converting check more)
  · have ends : exec (.selfCheckConversionEnd code) s = .next (s.endSelfCheck (c.sum + code.toNat)) :=
      congrArg Host.Outcome.next (State.endSelfCheckConversion_last code converting check last)
    by_cases pass : 1984 ≤ (c.sum + code.toNat) / 8 ∧ (c.sum + code.toNat) / 8 ≤ 2112
    · rw [State.endSelfCheck_pass pass] at ends
      exact ⟨_, ends, rfl, rfl, rfl, rfl, rfl, rfl, fun _ => ⟨rfl, rfl, rfl, rfl, rfl, rfl, rfl⟩,
        fun fail => absurd pass fail⟩
    · have outside : (s.selfChecked ((c.sum + code.toNat) / 8)).isMember = false :=
        isMember_eq_false_iff.2 (by simp [State.selfChecked, station])
      rw [State.endSelfCheck_fail pass, State.enterFault_of_not_member outside] at ends
      exact ⟨_, ends, rfl, rfl, rfl, rfl, rfl, rfl, fun passed => absurd passed pass,
        fun _ => ⟨rfl, State.hasCause_raise _ _, rfl, rfl, rfl, rfl, rfl, rfl, rfl, rfl, rfl⟩⟩

end Sys2Proof.Machine
end

