-- ==== Sys2Proof/Proofs/Monitors.lean ====
section
/-! The monitors: O41. -/

namespace Sys2Proof.Machine

/-! ## The class of a value (R88) -/

theorem classify_absent (p : MonitorParams) : classify p 0x8000 = .absent := if_pos rfl

theorem classify_inside {p : MonitorParams} {v : Word} (present : v ≠ 0x8000) (low : p.low ≤ v.toInt)
    (high : v.toInt ≤ p.high) : classify p v = .inside :=
  (if_neg present).trans (if_neg (by omega))

theorem classify_outside {p : MonitorParams} {v : Word} (present : v ≠ 0x8000)
    (out : v.toInt < p.low ∨ p.high < v.toInt) : classify p v = .outside :=
  (if_neg present).trans (if_pos out)

/-! ## The step by class and phase (Table 5-1) -/

section
variable {p : MonitorParams} {v : Word}

theorem monitorStep_absent (absent : classify p v = .absent) (m : MonitorState) : monitorStep p v m = (m, false) := by
  simp [monitorStep, absent]

variable (c : Nat)

theorem monitorStep_armed_inside (inside : classify p v = .inside) :
    monitorStep p v ⟨.armed, c⟩ = (⟨.armed, 0⟩, false) := by
  simp [monitorStep, inside]

theorem monitorStep_armed_outside (outside : classify p v = .outside) :
    monitorStep p v ⟨.armed, c⟩ = if p.persistence = 1 then (⟨.tripped, 0⟩, true) else (⟨.pending, 1⟩, false) := by
  simp [monitorStep, outside]

theorem monitorStep_pending_inside (inside : classify p v = .inside) :
    monitorStep p v ⟨.pending, c⟩ = (⟨.armed, 0⟩, false) := by
  simp [monitorStep, inside]

theorem monitorStep_pending_outside (outside : classify p v = .outside) :
    monitorStep p v ⟨.pending, c⟩ =
      if c + 1 = p.persistence then (⟨.tripped, 0⟩, true) else (⟨.pending, c + 1⟩, false) := by
  simp [monitorStep, outside]

theorem monitorStep_tripped_inside (inside : classify p v = .inside) :
    monitorStep p v ⟨.tripped, c⟩ =
      if c + 1 = p.persistence then (⟨.armed, 0⟩, false) else (⟨.tripped, c + 1⟩, false) := by
  simp [monitorStep, inside]

theorem monitorStep_tripped_outside (outside : classify p v = .outside) :
    monitorStep p v ⟨.tripped, c⟩ = (⟨.tripped, 0⟩, false) := by
  simp [monitorStep, outside]

end

/-! ## The steps on a frame, and their alerts (R88, R92, R93) -/

/-- The step of each monitor in use on its own value word of a frame. -/
def stepsOnFrame (f : Frame) (ps : List MonitorParams) (ms : List MonitorState) : List (MonitorState × Bool) :=
  List.zipWith (fun p m => monitorStep p (f.valueWord p.entry) m) ps ms

/-- `evaluate` makes these steps and counts those that trip; a monitor without parameters takes none. -/
theorem evaluate_eq (f : Frame) (ps : List MonitorParams) (ms : List MonitorState) :
    evaluate f ps ms = ((stepsOnFrame f ps ms).map (fun r => r.1) ++ ms.drop ps.length,
      ((stepsOnFrame f ps ms).filter (fun r => r.2)).length) := by
  induction ps generalizing ms with
  | nil => rfl
  | cons p ps ih =>
    cases ms with
    | nil => rfl
    | cons m ms =>
      have steps : stepsOnFrame f (p :: ps) (m :: ms) =
        monitorStep p (f.valueWord p.entry) m :: stepsOnFrame f ps ms := rfl
      cases trips : (monitorStep p (f.valueWord p.entry) m).2 <;>
        simp [evaluate, ih, steps, trips, Nat.add_comm]

theorem State.alerts_length {α : Type} (trips : List α) (s : State) :
    s.alerts trips.length = trips.foldl (fun u _ => u.alert) s := by
  induction trips generalizing s with
  | nil => rfl
  | cons _ trips ih => exact ih s.alert

/-- The monitors that trip on a frame handed on. -/
def State.tripsOn (f : Frame) (s : State) : List (MonitorState × Bool) :=
  (stepsOnFrame f s.cfg.monitors s.tm.monitors).filter (fun r => r.2)

/-- The state in which CC takes the first alert of a frame: every monitor has made its step. -/
def State.monitorsStepped (f : Frame) (s : State) : State :=
  { s with tm := { monitors := (stepsOnFrame f s.cfg.monitors s.tm.monitors).map (fun r => r.1) ++
      s.tm.monitors.drop s.cfg.monitors.length } }

theorem State.handOn_eq (f : Frame) (s : State) :
    s.handOn f = (s.tripsOn f).foldl (fun u _ => u.alert) (s.monitorsStepped f) := by
  rw [State.handOn, evaluate_eq]
  exact State.alerts_length _ _

/-- Where a second alert changes nothing more, the outcome does not depend on how many monitors trip (R93). -/
theorem State.handOn_settled {s t : State} {f : Frame} (trips : s.tripsOn f ≠ [])
    (first : (s.monitorsStepped f).alert = t) (again : t.alert = t) : s.handOn f = t := by
  obtain ⟨_, rest, tripped⟩ := List.exists_cons_of_ne_nil trips
  rw [State.handOn_eq, tripped, List.foldl_cons, first]
  exact List.foldl_fixed' (fun _ => again) rest

theorem State.raise_raise (c : Cause) (s : State) : (s.raise c).raise c = s.raise c := by
  simp [State.raise, BitVec.or_assoc]

/-- In MUTE a second alert finds its cause pending already (R1, R174). -/
theorem State.alert_raised_mute {s : State} (member : s.isMember = true) (mute : s.lc.mute = true) :
    (s.raise .alertSuppressed).alert = s.raise .alertSuppressed :=
  (State.alert_mute_station (s := s.raise .alertSuppressed) member mute).trans (State.raise_raise _ _)

/-- On a released line the first alert begins the pulse, and the others merge while its edge is not yet taken (R1, R93). -/
theorem State.handOn_released {s : State} {f : Frame} (trips : s.tripsOn f ≠ []) (member : s.isMember = true)
    (mute : s.lc.mute = false) (released : s.markAsserted = false) :
    s.handOn f =
      { s.monitorsStepped f with cc := { s.cc with driver := .driving 4, edgePending := true } } :=
  State.handOn_settled trips (State.alert_released member mute released) (State.alert_pending member mute rfl rfl)

/-- In MUTE every alert is dropped (R1). -/
theorem State.handOn_mute {s : State} {f : Frame} (trips : s.tripsOn f ≠ []) (member : s.isMember = true)
    (mute : s.lc.mute = true) : s.handOn f = (s.monitorsStepped f).raise .alertSuppressed :=
  State.handOn_settled trips (State.alert_mute_station member mute) (State.alert_raised_mute member mute)

/-- Settles O41: Table 5-1 by the class of the value, and the alerts of a frame by what the first one does. -/
theorem monitorSteps : Obligations.MonitorSteps := by
  unfold Obligations.MonitorSteps
  refine fun p v c => ⟨?absent, fun present low high => ?inside, fun present out => ?outside, fun s f => ?frame⟩
  case absent =>
    rintro rfl m
    exact monitorStep_absent (classify_absent p) m
  case inside =>
    have inside := classify_inside present low high
    exact ⟨monitorStep_armed_inside c inside, monitorStep_pending_inside c inside,
      fun complete => (monitorStep_tripped_inside c inside).trans (if_pos complete),
      fun more => (monitorStep_tripped_inside c inside).trans (if_neg more.ne)⟩
  case outside =>
    have outside := classify_outside present out
    exact ⟨fun single => (monitorStep_armed_outside c outside).trans (if_pos single),
      fun several => (monitorStep_armed_outside c outside).trans (if_neg (by omega)),
      fun complete => (monitorStep_pending_outside c outside).trans (if_pos complete),
      fun more => (monitorStep_pending_outside c outside).trans (if_neg more.ne),
      monitorStep_tripped_outside c outside⟩
  case frame =>
    exact ⟨State.handOn_eq f s,
      fun trips station mute released => State.handOn_released trips (isMember_iff.2 station) mute released,
      fun trips station mute => State.handOn_mute trips (isMember_iff.2 station) mute⟩

end Sys2Proof.Machine
end

