-- ==== Sys2Proof/Proofs/Listen.lean ====
section
/-! Ticks outside MEMBER: O24. -/

namespace Sys2Proof.Machine

/-- TICK takes a tick. -/
theorem exec_tick (order : List Part) (s : State) : exec (.tick order) s = .next (s.takeTick order) := rfl

theorem State.takeTick_stopped {s : State} (h : s.et.running = false) (order : List Part) : s.takeTick order = s := by
  simp [State.takeTick, h]

theorem State.takeTick_elsewhere {s : State} (listen : s.mu.station ≠ .listen) (member : s.mu.station ≠ .member)
    (order : List Part) : s.takeTick order = s := by
  simp [State.takeTick, State.isListen, State.isMember, listen, member]

theorem State.takeTick_listen {s : State} (running : s.et.running = true) (listen : s.mu.station = .listen)
    (order : List Part) : s.takeTick order = s.listenTick := by
  simp [State.takeTick, State.isListen, running, listen]

theorem State.listenTick_counts {s : State} (h : s.mu.listenCount + 1 ≠ s.mu.listenLength) :
    s.listenTick = { s with mu := { s.mu with listenCount := s.mu.listenCount + 1 } } := by
  simp [State.listenTick, h]

/-- Settles O24: a tick reaches a block only in LISTEN and MEMBER, with the generator running; in LISTEN, short of the
window's length, it only counts. -/
theorem tickOutsideMember : Obligations.TickOutsideMember := by
  intro s order
  refine ⟨?_, fun running listen short => ?_⟩
  · rintro (stopped | ⟨listen, member⟩)
    · rw [exec_tick, State.takeTick_stopped stopped]
    · rw [exec_tick, State.takeTick_elsewhere listen member]
  · rw [exec_tick, State.takeTick_listen running listen, State.listenTick_counts short]

end Sys2Proof.Machine
end

