-- ==== Sys2Proof/Proofs/Range.lean ====
section
/-! SUPPORT. What keeps the timebase, the configuration and the ring in range: the operations that leave all of it alone,
and those that do not. -/

namespace Sys2Proof.Machine

/-- The invariants of the timebase, taken together: each station state's rules lean on the others' (R54, R81, R99, R100,
R137, R139). -/
structure State.InRange (s : State) : Prop where
  config    : ConfigInRange s
  joined    : JoinedConfigured s
  selfCheck : SelfCheckInChecking s
  ring      : RingBounded s
  counter   : CounterInEpoch s
  epoch     : MemberEpochPositive s

theorem State.inRange_iff (s : State) : s.InRange ↔
    ConfigInRange s ∧ JoinedConfigured s ∧ SelfCheckInChecking s ∧ RingBounded s ∧ CounterInEpoch s ∧
      MemberEpochPositive s :=
  ⟨fun ⟨config, joined, selfCheck, ring, counter, epoch⟩ => ⟨config, joined, selfCheck, ring, counter, epoch⟩,
    fun ⟨config, joined, selfCheck, ring, counter, epoch⟩ => ⟨config, joined, selfCheck, ring, counter, epoch⟩⟩

/-- The configuration in force at a station that a configuration is in force at. -/
theorem State.cfg_of_some {s : State} {c : Configuration} (h : s.mu.config = some c) : s.cfg = c := by
  simp [State.cfg, h]

/-- In MEMBER the configuration in force is in range. -/
theorem State.InRange.cfg {s : State} (h : s.InRange) (station : s.isConfig = false) (fault : s.isFault = false) :
    1 ≤ s.cfg.sweep.length ∧ s.cfg.sweep.length ≤ 12 ∧ 256 ≤ s.cfg.epochLen ∧ s.cfg.epochLen ≤ 65535 := by
  obtain ⟨c, hc⟩ := Option.isSome_iff_exists.1 (h.joined station fault)
  rw [State.cfg_of_some hc]
  exact h.config c hc

theorem State.InRange.cfg_member {s : State} (h : s.InRange) (member : s.isMember = true) :
    1 ≤ s.cfg.sweep.length ∧ s.cfg.sweep.length ≤ 12 ∧ 256 ≤ s.cfg.epochLen ∧ s.cfg.epochLen ≤ 65535 := by
  have station := isMember_iff.1 member
  exact h.cfg (by simp [State.isConfig, station]) (by simp [State.isFault, station])

theorem State.InRange.cfg_listen {s : State} (h : s.InRange) (listen : s.isListen = true) :
    1 ≤ s.cfg.sweep.length ∧ s.cfg.sweep.length ≤ 12 ∧ 256 ≤ s.cfg.epochLen ∧ s.cfg.epochLen ≤ 65535 := by
  have station : s.mu.station = .listen := by simpa [State.isListen] using listen
  exact h.cfg (by simp [State.isConfig, station]) (by simp [State.isFault, station])

/-! ## Operations that leave it alone -/

/-- At AS nothing but the spot request list is touched. -/
def State.SpotListOnly (s t : State) : Prop := t.acq = { s.acq with spotList := t.acq.spotList }

/-- Between the two states nothing that the invariants of the timebase and the ring speak of has changed. -/
structure State.Steady (s t : State) : Prop where
  station   : t.mu.station = s.mu.station
  config    : t.mu.config = s.mu.config
  counter   : t.et.counter = s.et.counter
  epoch     : t.et.epoch = s.et.epoch
  hr        : t.hr = s.hr
  selfCheck : t.acq.selfCheck.isSome = true → s.acq.selfCheck.isSome = true
  width     : ∀ b, t.acq.assembly = some b → ∃ a, s.acq.assembly = some a ∧ b.values.length = a.values.length

/-- What is said of every command: it keeps the invariants of the timebase, and with them the ring's layout. -/
structure State.KeepsRange (s t : State) : Prop where
  range  : s.InRange → t.InRange
  formed : s.InRange → RingFormed s → RingFormed t

namespace State.SpotListOnly

theorem refl (s : State) : s.SpotListOnly s := rfl

theorem trans {s t u : State} (h : s.SpotListOnly t) (k : t.SpotListOnly u) : s.SpotListOnly u := by
  unfold State.SpotListOnly at h k ⊢
  rw [k, h]

theorem of_eq {s t : State} (h : t.acq = s.acq) : s.SpotListOnly t := by
  unfold State.SpotListOnly
  rw [h]

theorem foldl {β : Type} {f : State → β → State} (h : ∀ (s : State) b, s.SpotListOnly (f s b)) (l : List β)
    (s : State) : s.SpotListOnly (l.foldl f s) :=
  foldl_keeps (fun t => s.SpotListOnly t) f l (fun t b ht => ht.trans (h t b)) (refl s)

theorem freeRecord (i : Fin 4) (s : State) : s.SpotListOnly (s.freeRecord i) := rfl

theorem placeSpot (i : Fin 4) (seq : Word) (s : State) : s.SpotListOnly (s.placeSpot i seq) := by
  unfold State.placeSpot
  split <;> rfl

theorem openSlot {point : Point} {h : Nat} {base : Word32} {o : Bool} {s t : State} {i : Fin 4}
    (hs : s.openSlot point h base o = some (i, t)) : s.SpotListOnly t := by
  unfold State.openSlot at hs
  split at hs
  · cases hs
  · cases hs
    exact trans (freeRecord _ s) (placeSpot _ _ _)

theorem abandon (id : Nat) (s : State) : s.SpotListOnly (s.abandon id) := by
  unfold State.abandon
  split
  · exact refl s
  · dsimp only
    split
    · exact of_eq (by simp)
    · rename_i i _
      have left : s.SpotListOnly ((s.dropMark id).withdrawMsg (claimOf id)) := of_eq (by simp)
      have told : ∀ u : State, u.SpotListOnly ((u.retireLine id .empty).raise .captureAbandoned) :=
        fun u => of_eq (by simp)
      exact (left.trans (freeRecord i _)).trans (told _)

theorem addMark (point : Point) (s : State) : s.SpotListOnly (s.addMark point) := by
  have claimed : ∀ (own : Bool) (id : Nat) (u : State), u.SpotListOnly (if own then u.submitClaim id else u) := by
    intro own id u
    split
    · exact of_eq (by simp)
    · exact refl u
  unfold State.addMark
  split
  · exact of_eq (by simp)
  · dsimp only
    refine trans ?_ (claimed _ _ _)
    split
    · exact of_eq (by simp)
    · rename_i i t hs
      have listed : s.SpotListOnly { s with cc := { s.cc with
          marks := s.cc.marks ++ [s.newMark point], nextMark := (s.newMark point).id + 1
          lineEntry := .entry (s.newMark point).id } } := of_eq rfl
      exact (listed.trans (openSlot hs)).trans (of_eq (by simp))

theorem lateJoin (sender : Station) (p : Point) (s : State) : s.SpotListOnly (s.lateJoin sender p) := by
  unfold State.lateJoin
  dsimp only
  split
  · exact of_eq (by simp)
  · split
    · exact of_eq (by simp)
    · rename_i i t hs
      exact (openSlot hs).trans (of_eq (by simp))

theorem claimAccepted (sender : Station) (p : Point) (s : State) : s.SpotListOnly (s.claimAccepted sender p) := by
  unfold State.claimAccepted
  split
  · exact refl s
  split
  · exact refl s
  split
  · exact refl s
  split
  · exact refl s
  split
  · exact refl s
  split
  · exact of_eq (by simp)
  split
  · exact refl s
  · exact lateJoin sender p s

theorem settleClaim (mark : Option Nat) (s : State) : s.SpotListOnly (s.settleClaim mark) := by
  unfold State.settleClaim
  split
  · exact refl s
  split
  · exact refl s
  split
  · exact abandon _ s
  · exact of_eq (by simp)

theorem markEpoch (id : Nat) (s : State) : s.SpotListOnly (s.markEpoch id) := by
  unfold State.markEpoch
  split
  · exact refl s
  split
  · exact refl s
  split
  · exact of_eq (by simp)
  split
  · exact of_eq (by simp)
  · exact abandon id s

theorem ccEpochStart (s : State) : s.SpotListOnly s.ccEpochStart :=
  (foldl (fun t id => markEpoch id t) _ s).trans (foldl (fun t i => of_eq (by simp)) _ _)

end State.SpotListOnly

namespace State.Steady

theorem refl (s : State) : s.Steady s := ⟨rfl, rfl, rfl, rfl, rfl, id, fun a ha => ⟨a, ha, rfl⟩⟩

theorem trans {s t u : State} (h : s.Steady t) (k : t.Steady u) : s.Steady u where
  station := k.station.trans h.station
  config := k.config.trans h.config
  counter := k.counter.trans h.counter
  epoch := k.epoch.trans h.epoch
  hr := k.hr.trans h.hr
  selfCheck := h.selfCheck ∘ k.selfCheck
  width c hc := by
    obtain ⟨b, hb, e⟩ := k.width c hc
    obtain ⟨a, ha, e'⟩ := h.width b hb
    exact ⟨a, ha, e.trans e'⟩

theorem foldl {β : Type} {f : State → β → State} (h : ∀ (s : State) b, s.Steady (f s b)) (l : List β) (s : State) :
    s.Steady (l.foldl f s) :=
  foldl_keeps (fun t => s.Steady t) f l (fun t b ht => ht.trans (h t b)) (refl s)

/-- An operation that changes nothing of AS but the spot request list. -/
theorem of_spotList {s t : State} (acq : s.SpotListOnly t) (station : t.mu.station = s.mu.station := by simp)
    (config : t.mu.config = s.mu.config := by simp) (counter : t.et.counter = s.et.counter := by simp)
    (epoch : t.et.epoch = s.et.epoch := by simp) (hr : t.hr = s.hr := by simp) : s.Steady t where
  station := station
  config := config
  counter := counter
  epoch := epoch
  hr := hr
  selfCheck h := by
    rw [acq] at h
    exact h
  width a ha := by
    rw [acq] at ha
    exact ⟨a, ha, rfl⟩

/-- An operation that leaves AS alone. -/
theorem of_frame {s t : State} (station : t.mu.station = s.mu.station := by simp)
    (config : t.mu.config = s.mu.config := by simp) (counter : t.et.counter = s.et.counter := by simp)
    (epoch : t.et.epoch = s.et.epoch := by simp) (hr : t.hr = s.hr := by simp) (acq : t.acq = s.acq := by simp) :
    s.Steady t :=
  of_spotList (.of_eq acq) station config counter epoch hr

/-- An operation of AS that leaves the width of the frame under assembly, and begins no self-check. -/
theorem of_acq {s t : State} (mu : t.mu = s.mu) (et : t.et = s.et) (hr : t.hr = s.hr)
    (selfCheck : t.acq.selfCheck.isSome = true → s.acq.selfCheck.isSome = true)
    (width : ∀ b, t.acq.assembly = some b → ∃ a, s.acq.assembly = some a ∧ b.values.length = a.values.length) :
    s.Steady t :=
  ⟨by rw [mu], by rw [mu], by rw [et], by rw [et], hr, selfCheck, width⟩

theorem cfg {s t : State} (h : s.Steady t) : t.cfg = s.cfg := by
  simp only [State.cfg, h.config]

theorem isMember {s t : State} (h : s.Steady t) : t.isMember = s.isMember := by
  simp only [State.isMember, h.station]

theorem inRange {s t : State} (h : s.Steady t) (hs : s.InRange) : t.InRange where
  config := by simpa only [ConfigInRange, h.config] using hs.config
  joined := by simpa only [JoinedConfigured, State.isConfig, State.isFault, h.station, h.config] using hs.joined
  selfCheck checks := by simpa only [State.isChecking, h.station] using hs.selfCheck (h.selfCheck checks)
  ring := by simpa only [RingBounded, State.depth, h.isMember, h.hr] using hs.ring
  counter := by simpa only [CounterInEpoch, h.isMember, h.counter, h.cfg] using hs.counter
  epoch := by simpa only [MemberEpochPositive, h.isMember, h.epoch] using hs.epoch

theorem ringFormed {s t : State} (h : s.Steady t) (hs : RingFormed s) : RingFormed t := by
  obtain ⟨empty, laid, member⟩ := hs
  refine ⟨by simpa only [h.hr] using empty, by simpa only [RingLaidOut, h.hr] using laid, fun hm => ?_⟩
  obtain ⟨geometry, width⟩ := member (h.isMember ▸ hm)
  refine ⟨by rw [h.hr, h.cfg, geometry], fun b hb => ?_⟩
  obtain ⟨a, ha, e⟩ := h.width b hb
  rw [e, h.cfg, width a ha]

theorem keeps {s t : State} (h : s.Steady t) : s.KeepsRange t := ⟨h.inRange, fun _ => h.ringFormed⟩

end State.Steady

namespace State.KeepsRange

theorem refl (s : State) : s.KeepsRange s := ⟨id, fun _ => id⟩

theorem trans {s t u : State} (h : s.KeepsRange t) (k : t.KeepsRange u) : s.KeepsRange u :=
  ⟨k.range ∘ h.range, fun hs formed => k.formed (h.range hs) (h.formed hs formed)⟩

theorem foldl {β : Type} {f : State → β → State} (h : ∀ (s : State) b, s.KeepsRange (f s b)) (l : List β) (s : State) :
    s.KeepsRange (l.foldl f s) :=
  foldl_keeps (fun t => s.KeepsRange t) f l (fun t b ht => ht.trans (h t b)) (refl s)

/-! ## Operations that change it -/

/-- An operation after which the station is not MEMBER; the ring is as it was, or emptied. -/
theorem of_outside {s t : State} (outside : t.isMember = false) (config : t.mu.config = s.mu.config)
    (hr : t.hr = s.hr ∨ t.hr = s.hr.softReset) (joined : s.InRange → JoinedConfigured t)
    (selfCheck : s.InRange → SelfCheckInChecking t) : s.KeepsRange t where
  range hs :=
    { config := by simpa only [ConfigInRange, config] using hs.config
      joined := joined hs
      selfCheck := selfCheck hs
      ring := by
        obtain ⟨_, places, bounded⟩ := hs.ring
        have never : t.isMember = true → t.hr.geometry.isSome = true := fun h => by simp [outside] at h
        obtain hr | hr := hr
        · exact ⟨never, by simpa only [hr] using places, by simpa only [State.depth, hr] using bounded⟩
        · exact ⟨never, by simpa only [hr, Hr.softReset] using places, by simp [hr, Hr.softReset]⟩
      counter := fun h => by simp [outside] at h
      epoch := fun h => by simp [outside] at h }
  formed _ := fun ⟨empty, laid, _⟩ => by
    have never : ∀ {P : Prop}, t.isMember = true → P := fun h => by simp [outside] at h
    obtain hr | hr := hr
    · exact ⟨by simpa only [hr] using empty, by simpa only [RingLaidOut, hr] using laid, never⟩
    · refine ⟨fun _ => by rw [hr]; rfl, fun g hg => ?_, never⟩
      obtain ⟨_, places, words, _, _, _⟩ := laid g (by simpa [hr, Hr.softReset] using hg)
      refine ⟨hg, places, words, ?_, ?_, ?_⟩
      · rw [hr]
        exact places
      · rw [hr]
        exact Nat.zero_le _
      · rw [hr]
        exact fun f hf => absurd hf List.not_mem_nil

/-- ET sets its counter and epoch number. -/
theorem setTimebase {s : State} (et : Et)
    (good : s.InRange → s.isMember = true → et.counter.toNat < s.cfg.epochLen ∧ et.epoch ≠ 0) :
    s.KeepsRange { s with et := et } where
  range hs :=
    { config := hs.config
      joined := hs.joined
      selfCheck := hs.selfCheck
      ring := hs.ring
      counter := fun member => (good hs member).1
      epoch := fun member => (good hs member).2 }
  formed _ := id

end State.KeepsRange

theorem ringDepth_pos {len : Nat} (h : len ≤ 12) : 1 ≤ ringDepth len := by
  have : len + 2 ≤ 4096 := by omega
  exact Nat.div_pos this (by omega)

/-- The geometry that becoming MEMBER gives the ring fits an empty ring (R54, R64). -/
theorem State.KeepsRange.becomeMember {s : State} (listen : s.isListen = true)
    (counter : s.InRange → s.et.counter.toNat < s.cfg.epochLen) (epoch : s.et.epoch ≠ 0) :
    s.KeepsRange s.becomeMember := by
  have cfg : s.becomeMember.cfg = s.cfg := by simp [State.becomeMember, State.cfg, State.formRing, State.armMonitors]
  have hr : s.becomeMember.hr = ⟨some ⟨s.cfg.sweep.length + 2, ringDepth s.cfg.sweep.length⟩, 0, 0, []⟩ := by
    simp [State.becomeMember, State.cfg, State.formRing, State.armMonitors]
  have config : s.becomeMember.mu.config = s.mu.config := by simp [State.becomeMember]
  have acq : s.becomeMember.acq = { s.acq with slipPending := false, assembly := none } := by simp [State.becomeMember]
  have checking := (not_isChecking_of_isListen listen).1
  refine ⟨fun hs => ?_, fun hs _ => ?_⟩
  · have depth := ringDepth_pos (hs.cfg_listen listen).2.1
    refine ⟨by simpa only [ConfigInRange, config] using hs.config, fun _ _ => ?_, fun checks => ?_, ?_, fun _ => ?_,
      fun _ => ?_⟩
    · rw [config]
      have station : s.mu.station = .listen := by simpa [State.isListen] using listen
      exact hs.joined (by simp [State.isConfig, station]) (by simp [State.isFault, station])
    · rw [acq] at checks
      rw [hs.selfCheck checks] at checking
      cases checking
    · refine ⟨fun _ => by rw [hr]; rfl, fun g hg => ?_, by simp [hr]⟩
      rw [hr] at hg
      cases hg
      exact depth
    · rw [cfg, State.becomeMember_frame s |>.1]
      exact counter hs
    · rw [State.becomeMember_frame s |>.1]
      exact epoch
  · have depth := ringDepth_pos (hs.cfg_listen listen).2.1
    refine ⟨fun _ => by rw [hr], fun g hg => ?_, fun _ => ⟨by rw [hr, cfg]; rfl, fun a ha => ?_⟩⟩
    · rw [hr] at hg
      cases hg
      exact ⟨by rw [hr], depth, Nat.succ_pos _, by rw [hr]; exact depth, by rw [hr]; exact Nat.zero_le _,
        by rw [hr]; exact fun f hf => absurd hf List.not_mem_nil⟩
    · simp [acq] at ha

end Sys2Proof.Machine
end

