-- ==== Sys2Proof/Proofs/RangeExec.lean ====
section
/-! The timebase and the ring stay in range: O58. The walk over the commands. -/

namespace Sys2Proof.Machine

/-! ## ET's own EPOCH is no part of the timebase -/

/-- At ET nothing but the following of the own EPOCH is touched (R104). -/
def State.OwnOnly (s t : State) : Prop := t.et = { s.et with own := t.et.own }

namespace State.OwnOnly

theorem of_eq {s t : State} (h : t.et = s.et) : s.OwnOnly t := by
  unfold State.OwnOnly
  rw [h]

theorem trans {s t u : State} (h : s.OwnOnly t) (k : t.OwnOnly u) : s.OwnOnly u := by
  unfold State.OwnOnly at h k ⊢
  rw [k, h]

theorem counter {s t : State} (h : s.OwnOnly t) : t.et.counter = s.et.counter := by rw [h]

theorem epoch {s t : State} (h : s.OwnOnly t) : t.et.epoch = s.et.epoch := by rw [h]

theorem running {s t : State} (h : s.OwnOnly t) : t.et.running = s.et.running := by rw [h]

theorem submitEpoch (n : Word32) (s : State) : s.OwnOnly (s.submitEpoch n) := by
  unfold State.submitEpoch
  split
  · exact of_eq rfl
  split
  · exact rfl
  · rename_i t ht
    have et : t.et = s.et := (State.submit_frame ht).2.1
    show ({ t.et with own := .queued n } : Et) = _
    rw [et]

theorem noticeWin (m : Msg) (s : State) : s.OwnOnly (s.noticeWin m) := by
  unfold State.noticeWin
  split
  · exact rfl
  · split
    · exact of_eq rfl
    · exact of_eq (by simp)
  all_goals exact of_eq rfl

theorem winArbitration (s : State) : s.OwnOnly s.winArbitration := by
  unfold State.winArbitration
  split
  · exact of_eq rfl
  · exact noticeWin _ _

theorem winWith (order : List Part) (s : State) : s.OwnOnly (s.winWith order) := by
  unfold State.winWith
  split
  · exact winArbitration s
  · exact of_eq rfl

theorem noticeLoss (s : State) (m : Msg) : s.OwnOnly (s.noticeLoss m) := by
  unfold State.noticeLoss
  split
  · exact rfl
  · split
    · exact of_eq rfl
    · exact of_eq (by simp)
  · exact of_eq (by simp)
  all_goals exact of_eq rfl

end State.OwnOnly

/-! ## An accepted configuration block (R162) -/

theorem require_ok {good : Bool} {o : Nat} {u : Unit} (h : require good o = .ok u) : good = true := by
  cases good with
  | false => cases h
  | true => rfl

/-- A chain of checks that succeeds has each of them succeed. -/
theorem bind_ok {ε α β : Type} {x : Except ε α} {f : α → Except ε β} {b : β} (h : (x >>= f) = .ok b) :
    ∃ a, x = .ok a ∧ f a = .ok b := by
  cases x with
  | error e => cases h
  | ok a => exact ⟨a, rfl, h⟩

/-- The sweep list has the length that the block gives. -/
theorem length_parseSweep {block : List Byte} {period n o t : Nat} {l : List SweepEntry}
    (h : parseSweep block period n o t = .ok l) : l.length = n := by
  induction n generalizing o t l with
  | zero =>
    cases h
    rfl
  | succ n ih =>
    unfold parseSweep at h
    obtain ⟨channel, _, h⟩ := bind_ok h
    obtain ⟨_, _, h⟩ := bind_ok h
    obtain ⟨code, _, h⟩ := bind_ok h
    obtain ⟨_, _, h⟩ := bind_ok h
    obtain ⟨offset, _, h⟩ := bind_ok h
    obtain ⟨_, _, h⟩ := bind_ok h
    obtain ⟨rest, hrest, h⟩ := bind_ok h
    cases h
    rw [List.length_cons, ih hrest]

theorem parseConfig_range {block : List Byte} {c : Configuration} (h : parseConfig block = .ok c) :
    1 ≤ c.sweep.length ∧ c.sweep.length ≤ 12 ∧ 256 ≤ c.epochLen ∧ c.epochLen ≤ 65535 := by
  unfold parseConfig at h
  obtain ⟨period, _, h⟩ := bind_ok h
  obtain ⟨_, _, h⟩ := bind_ok h
  obtain ⟨epochLen, _, h⟩ := bind_ok h
  obtain ⟨_, long, h⟩ := bind_ok h
  obtain ⟨len, _, h⟩ := bind_ok h
  obtain ⟨_, short, h⟩ := bind_ok h
  obtain ⟨spotLen, _, h⟩ := bind_ok h
  obtain ⟨_, _, h⟩ := bind_ok h
  obtain ⟨count, _, h⟩ := bind_ok h
  obtain ⟨_, _, h⟩ := bind_ok h
  obtain ⟨npre, _, h⟩ := bind_ok h
  obtain ⟨_, _, h⟩ := bind_ok h
  obtain ⟨npost, _, h⟩ := bind_ok h
  obtain ⟨_, _, h⟩ := bind_ok h
  obtain ⟨flags, _, h⟩ := bind_ok h
  obtain ⟨_, _, h⟩ := bind_ok h
  obtain ⟨sweep, parsed, h⟩ := bind_ok h
  obtain ⟨spots, _, h⟩ := bind_ok h
  obtain ⟨monitors, _, h⟩ := bind_ok h
  obtain ⟨_, _, h⟩ := bind_ok h
  cases h
  have entries : 1 ≤ len ∧ len ≤ 12 := by simpa using require_ok short
  have ticks : 256 ≤ epochLen.toNat := by simpa using require_ok long
  have := epochLen.isLt
  simp only [length_parseSweep parsed]
  omega

/-! ## Operations that leave the timebase and the ring alone -/

namespace State.Steady

theorem of_own {s t : State} (h : s.OwnOnly t) (station : t.mu.station = s.mu.station := by simp)
    (config : t.mu.config = s.mu.config := by simp) (hr : t.hr = s.hr := by simp) (acq : t.acq = s.acq := by simp) :
    s.Steady t :=
  of_frame station config h.counter h.epoch hr acq

theorem takeMark (s : State) : s.Steady s.takeMark := by
  unfold State.takeMark
  split
  · exact of_frame rfl rfl rfl rfl rfl rfl
  · rename_i a ha
    have tagged : s.Steady { s with acq := { s.acq with assembly := some { a with mark := true } } } :=
      of_acq rfl rfl rfl id fun b hb => ⟨a, ha, by cases hb; rfl⟩
    exact tagged.trans (of_spotList (.addMark _ _))

theorem markEdge (s : State) : s.Steady s.markEdge := by
  have line : ∀ others edge, s.Steady { s with cc := { s.cc with othersDrive := others, edgePending := edge } } :=
    fun _ _ => of_frame rfl rfl rfl rfl rfl rfl
  unfold State.markEdge
  split
  · dsimp only
    split
    · exact (line _ _).trans (takeMark _)
    · exact line _ _
  · dsimp only
    split
    · exact (line _ _).trans (takeMark _)
    · exact line _ _

theorem setPeer (n : Nat) (p : Peer) (s : State) : s.Steady (s.setPeer n p) := by
  unfold State.setPeer
  dsimp only
  split
  · exact of_frame rfl rfl rfl rfl rfl rfl
  · exact of_frame rfl rfl rfl rfl rfl rfl

theorem expirePeers (s : State) : s.Steady s.expirePeers := by
  unfold State.expirePeers
  dsimp only
  split
  · exact of_frame rfl rfl rfl rfl rfl rfl
  · exact of_frame rfl rfl rfl rfl rfl rfl

theorem muEpochStart (s : State) : s.Steady s.muEpochStart := by
  unfold State.muEpochStart
  split
  · exact refl s
  · have spoke : s.Steady (if s.mu.spoken then s else s.submitPresent) := by
      split
      · exact refl s
      · exact of_frame
    have cleared : ∀ u : State, u.Steady { u with mu := { u.mu with spoken := false } } :=
      fun u => of_frame rfl rfl rfl rfl rfl rfl
    exact (spoke.trans (cleared _)).trans (expirePeers _)

theorem ccEpochStart (s : State) : s.Steady s.ccEpochStart := of_spotList (.ccEpochStart s)

theorem tickPart (wrapped : Bool) (before s : State) (p : Part) (hp : p ≠ .acquisition) :
    s.Steady (State.tickPart wrapped before s p) := by
  unfold State.tickPart
  cases p with
  | ccTick => exact of_frame
  | acquisition => exact absurd rfl hp
  | epochSubmit =>
    dsimp only
    split
    · exact of_own (.submitEpoch _ s)
    · exact refl s
  | lcEpoch =>
    dsimp only
    split
    · exact of_frame
    · exact refl s
  | ccEpoch =>
    dsimp only
    split
    · exact ccEpochStart s
    · exact refl s
  | muEpoch =>
    dsimp only
    split
    · exact muEpochStart s
    · exact refl s
  | muTake => exact refl s
  | win => exact refl s

/-! ## AS -/

theorem startSweep (s : State) : s.Steady s.startSweep := by
  unfold State.startSweep
  split
  · exact of_acq rfl rfl rfl id fun a ha => ⟨a, ha, rfl⟩
  · exact refl s

theorem cutSweep (s : State) : s.Steady s.cutSweep := by
  unfold State.cutSweep
  split
  · exact of_acq rfl rfl rfl id fun a ha => ⟨a, ha, rfl⟩
  · exact refl s

theorem endSweepConversion (code : Code) (s : State) : s.Steady (s.endSweepConversion code) := by
  unfold State.endSweepConversion
  split
  · rename_i a _ ha
    split
    · exact refl s
    · refine trans ?_ (startSweep _)
      refine of_acq rfl rfl rfl id fun b hb => ⟨a, ha, ?_⟩
      cases hb
      exact List.length_set
  · exact refl s

theorem beginSpotRun (s : State) : s.Steady s.beginSpotRun := by
  unfold State.beginSpotRun
  split
  · refine of_acq rfl rfl rfl id fun b hb => ?_
    obtain ⟨a, ha, e⟩ := Option.map_eq_some_iff.1 hb
    exact ⟨a, ha, by rw [← e]⟩
  · exact refl s

theorem deliver (run : SpotRun) (codes : List Code) (s : State) (p : SpotPlace) : s.Steady (s.deliver run codes p) := by
  unfold State.deliver
  split
  · exact refl s
  split
  · exact of_frame
  · exact of_acq rfl rfl rfl id fun a ha => ⟨a, ha, rfl⟩

theorem endSpotRun (run : SpotRun) (codes : List Code) (s : State) : s.Steady (s.endSpotRun run codes) := by
  have freed : s.Steady { s with acq := { s.acq with
      converter := .idle, run := none, spotList := s.acq.spotList.filter (fun p => !p.inRun) } } :=
    of_acq rfl rfl rfl id fun a ha => ⟨a, ha, rfl⟩
  exact freed.trans (foldl (deliver run codes) _ _)

theorem endSpotConversion (code : Code) (s : State) : s.Steady (s.endSpotConversion code) := by
  unfold State.endSpotConversion
  split
  · dsimp only
    split
    · exact endSpotRun _ _ s
    · exact of_acq rfl rfl rfl id fun a ha => ⟨a, ha, rfl⟩
  · exact refl s

theorem beginSelfCheck (s : State) : s.Steady s.beginSelfCheck := by
  unfold State.beginSelfCheck
  split
  · exact of_acq rfl rfl rfl id fun a ha => ⟨a, ha, rfl⟩
  · exact refl s

theorem placeLocal (s : State) : s.Steady s.placeLocal := of_acq rfl rfl rfl id fun a ha => ⟨a, ha, rfl⟩

theorem slip (s : State) : s.Steady s.slip :=
  of_acq (by simp) (by simp) (by simp) (by simp [State.slip]) fun a ha => ⟨a, by simpa [State.slip] using ha, rfl⟩

end State.Steady

namespace State.KeepsRange

/-! ## Leaving and faulting -/

theorem joined_config {t : State} (h : t.mu.station = .config) : JoinedConfigured t :=
  fun hc => by simp [State.isConfig, h] at hc

theorem joined_fault {t : State} {reason : FaultReason} (h : t.mu.station = .fault reason) : JoinedConfigured t :=
  fun _ hf => by simp [State.isFault, h] at hf

/-- Outside CHECKING no self-check is in progress. -/
theorem selfCheck_none {s : State} (hs : s.InRange) (h : s.isChecking = false) : s.acq.selfCheck = none := by
  by_contra hc
  have := hs.selfCheck (Option.isSome_iff_ne_none.2 hc)
  rw [h] at this
  cases this

theorem toConfig {s : State} (leaving : s.isLeaving = true) : s.KeepsRange s.toConfig := by
  have station : s.toConfig.mu.station = .config := rfl
  refine of_outside (by simp [State.isMember, station]) rfl (.inl (by simp)) (fun _ => joined_config station) fun hs => ?_
  exact selfCheckInChecking_of_none (by simpa using selfCheck_none hs (not_isChecking_of_isLeaving leaving).1)

theorem departMember_hr (s : State) : s.departMember.hr = s.hr.softReset := by
  simp [State.departMember, State.emptyRing, Hr.softReset]

theorem departMember_mu (s : State) : s.departMember.mu = { s.mu with spoken := false } := by
  simp [State.departMember]

theorem enterFault_station (reason : FaultReason) (s : State) : (s.enterFault reason).mu.station = .fault reason := rfl

theorem enterFault_config (reason : FaultReason) (s : State) : (s.enterFault reason).mu.config = s.mu.config := by
  unfold State.enterFault
  dsimp only
  split
  · simp [departMember_mu]
  · simp

theorem enterFault_hr (reason : FaultReason) (s : State) :
    (s.enterFault reason).hr = s.hr ∨ (s.enterFault reason).hr = s.hr.softReset := by
  unfold State.enterFault
  dsimp only
  split
  · exact .inr (by simp [departMember_hr])
  · exact .inl (by simp)

/-- A state that differs from `s` at AS alone, and then a fault. -/
theorem enterFault_after {s u : State} (reason : FaultReason) (mu : u.mu = s.mu) (hr : u.hr = s.hr) :
    s.KeepsRange (u.enterFault reason) := by
  have station := enterFault_station reason u
  refine of_outside (by simp [State.isMember, station]) (by rw [enterFault_config, mu]) (hr ▸ enterFault_hr reason u)
    (fun _ => joined_fault station) fun _ => selfCheckInChecking_of_none ?_
  simp [State.enterFault, State.acqFault]

theorem enterFault (reason : FaultReason) (s : State) : s.KeepsRange (s.enterFault reason) := enterFault_after reason rfl rfl

theorem leaveStation {s : State} (member : s.isMember = true) : s.KeepsRange s.leaveStation := by
  have left : ∀ t : State, t.mu = { s.departMember.mu with station := t.mu.station } → t.isMember = false →
      (t.mu.station = .config ∨ t.mu.station = .leaving) → t.hr = s.departMember.hr → t.acq = s.departMember.acq →
      s.KeepsRange t := by
    intro t mu outside station hr acq
    refine of_outside outside (by rw [mu, departMember_mu]) (.inr (by rw [hr, departMember_hr])) (fun hs => ?_) fun hs => ?_
    · obtain config | leaving := station
      · exact joined_config config
      · intro _ _
        rw [mu, departMember_mu]
        have at_ := isMember_iff.1 member
        exact hs.joined (by simp [State.isConfig, at_]) (by simp [State.isFault, at_])
    · refine selfCheckInChecking_of_none ?_
      rw [acq, (State.Safe.departMember_frame s).2.2, selfCheck_none hs (not_isChecking_of_isMember member)]
  unfold State.leaveStation
  dsimp only
  split
  · exact left _ rfl rfl (.inl rfl) (by simp) (by simp)
  · exact left _ (by simp) (by simp [State.isMember]) (.inr (by simp)) (by simp) (by simp)

theorem enterMute (s : State) : s.KeepsRange s.enterMute := by
  unfold State.enterMute
  have muted : s.Steady { s with lc := { s.lc with mute := true, queue := [], obsCur := .spoiled, obsPrev := .spoiled } } :=
    .of_frame rfl rfl rfl rfl rfl rfl
  have lost : ∀ u : State, u.Steady (s.lc.queue.foldl State.noticeLoss u) :=
    Steady.foldl (fun t m => .of_own (.noticeLoss t m)) _
  have quiet : ∀ u : State, u.Steady (u.raise .linkMute).releaseLine := fun _ => .of_frame
  have released := (muted.trans (lost _)).trans (quiet _)
  dsimp only
  split
  · rename_i leaving
    exact released.keeps.trans (toConfig leaving)
  · exact released.keeps

theorem muTake (sender : Station) (m : Payload) (s : State) : s.KeepsRange (s.muTake sender m) := by
  unfold State.muTake
  split
  · exact refl s
  split
  · split
    · exact refl s
    · exact enterFault _ s
  split
  · exact refl s
  have put := Steady.setPeer sender.toNat ((s.peerAt sender.toNat).update s.mu.digest s.et.epoch m) s
  dsimp only
  split
  · exact put.keeps.trans (enterFault _ _)
  split
  · exact (put.trans .of_frame).keeps
  · exact put.keeps

/-! ## AS at a tick, and the end of a self-check -/

theorem depth_le {s : State} (ring : RingBounded s) (member : s.isMember = true) :
    1 ≤ s.depth ∧ s.hr.frames.length ≤ s.depth := by
  obtain ⟨formed, places, bounded⟩ := ring
  obtain ⟨g, hg⟩ := Option.isSome_iff_exists.1 (formed member)
  exact ⟨State.depth_of_geometry hg ▸ places g hg, bounded⟩

theorem writeFrame_inRange {s : State} (hs : s.InRange) (member : s.isMember = true) {f : Frame} :
    (s.writeFrame f).InRange := by
  obtain ⟨place, bounded⟩ := depth_le hs.ring member
  obtain ⟨formed, places, _⟩ := hs.ring
  refine ⟨by simpa [ConfigInRange] using hs.config, ?_, ?_, ⟨fun _ => ?_, fun g hg => ?_, ?_⟩, ?_, ?_⟩
  · simpa only [JoinedConfigured, State.isConfig, State.isFault, State.writeFrame_frame] using hs.joined
  · simpa only [SelfCheckInChecking, State.isChecking, State.writeFrame_frame] using hs.selfCheck
  · rw [State.hr_writeFrame]
    exact formed member
  · rw [State.hr_writeFrame] at hg
    exact places g hg
  · rw [State.depth_writeFrame, State.hr_writeFrame, List.length_append]
    exact State.length_keptAtWrite bounded place
  · simpa only [CounterInEpoch, State.isMember, State.cfg, State.writeFrame_frame] using hs.counter
  · simpa only [MemberEpochPositive, State.isMember, State.writeFrame_frame] using hs.epoch

theorem writeFrame_ringFormed {s : State} (formed : RingFormed s) (member : s.isMember = true)
    {f : Frame} (fits : f.wordList.length = s.cfg.sweep.length + 2) : RingFormed (s.writeFrame f) := by
  obtain ⟨_, laid, geometry⟩ := formed
  obtain ⟨at_, width⟩ := geometry member
  have write := (laid _ at_).writeFrame fits
  refine ⟨fun hg => ?_, fun g hg => ?_, fun _ => ⟨?_, ?_⟩⟩
  · rw [write.1] at hg
    cases hg
  · rw [write.1] at hg
    cases hg
    exact write
  · rw [write.1]
    simp [State.cfg]
  · simpa [State.cfg] using width

/-- A MEMBER's tick at AS, HR and TM: the frame closed has the geometry's width, and so has the one begun (R69, R70). -/
theorem acquire {s : State} (member : s.isMember = true) : s.KeepsRange s.acquire := by
  have cut := Steady.cutSweep s
  have begun : s.cutSweep.KeepsRange s.cutSweep.beginFrame := by
    refine ⟨fun hs => ⟨hs.config, hs.joined, hs.selfCheck, hs.ring, hs.counter, hs.epoch⟩, ?_⟩
    rintro hs ⟨empty, laid, geometry⟩
    refine ⟨empty, laid, fun hm => ⟨(geometry hm).1, fun b hb => ?_⟩⟩
    cases hb
    exact List.length_replicate
  have restarted := (cut.keeps.trans begun).trans (Steady.startSweep _).keeps
  unfold State.acquire
  split
  · exact restarted
  · rename_i a ha
    have handed : ∀ u : State, u.KeepsRange (u.handOn a.close) := fun u => (Steady.of_frame).keeps
    refine .trans ⟨fun hs => ?_, fun hs formed => ?_⟩ (handed _)
    · exact writeFrame_inRange (restarted.range hs) (by simpa [State.isMember] using member)
    · refine writeFrame_ringFormed (restarted.formed hs formed) (by simpa [State.isMember] using member) ?_
      obtain ⟨_, _, geometry⟩ := formed
      simp [Frame.wordList, Assembly.close, State.cfg, (geometry member).2 a ha]

theorem endSelfCheck {s : State} (checks : s.acq.selfCheck.isSome = true) (sum : Nat) :
    s.KeepsRange (s.endSelfCheck sum) := by
  unfold State.endSelfCheck
  dsimp only
  split
  · refine of_outside rfl rfl (.inl (by simp)) (fun hs _ _ => ?_) fun _ => selfCheckInChecking_of_none (by simp)
    have station : s.mu.station = .checking := by simpa [State.isChecking] using hs.selfCheck checks
    exact hs.joined (by simp [State.isConfig, station]) (by simp [State.isFault, station])
  · exact enterFault_after _ rfl rfl

theorem endSelfCheckConversion (code : Code) (s : State) : s.KeepsRange (s.endSelfCheckConversion code) := by
  unfold State.endSelfCheckConversion
  split
  · rename_i c _ hc
    dsimp only
    split
    · exact endSelfCheck (by simp [hc]) _
    · refine Steady.keeps (.of_acq rfl rfl rfl (fun _ => ?_) fun a ha => ⟨a, ha, rfl⟩)
      rw [hc]
      rfl
  · exact refl s

/-! ## Ticks -/

theorem epochSucc_ne_zero (e : Word32) : epochSucc e ≠ 0 := by
  unfold epochSucc
  split
  · decide
  · rename_i h
    simp only [Config.lastEpoch] at h
    bv_omega

theorem advanceCounter (s : State) : s.KeepsRange s.advanceCounter := by
  unfold State.advanceCounter
  split
  · exact setTimebase _ fun hs member => ⟨by have := hs.cfg_member member; simp; omega, epochSucc_ne_zero _⟩
  · rename_i h
    refine setTimebase _ fun hs member => ⟨?_, hs.epoch member⟩
    have small := (hs.cfg_member member).2.2.2
    have counter := hs.counter member
    have short : s.et.counter.toNat + 1 ≠ s.cfg.epochLen := by simpa [State.atEpochEnd] using h
    bv_omega

theorem memberTick (order : List Part) {s : State} (member : s.isMember = true) : s.KeepsRange (s.memberTick order) := by
  have begun : s.KeepsRange (s.advanceCounter.winWith order) :=
    (advanceCounter s).trans (Steady.of_own (.winWith order _)).keeps
  refine (foldl_keeps (fun u : State => s.KeepsRange u ∧ u.isMember = true) _ _ (fun u p hu => ?_)
    ⟨begun, by simpa [State.isMember] using member⟩).1
  obtain ⟨kept, here⟩ := hu
  refine ⟨kept.trans ?_, by simpa only [State.isMember, State.tickPart_station] using here⟩
  by_cases hp : p = .acquisition
  · subst hp
    exact acquire here
  · exact (Steady.tickPart _ s u p hp).keeps

/-- Becoming MEMBER with a counter and an epoch number (R112, R113). -/
theorem becomeMemberAt {s : State} (et : Et) (listen : s.isListen = true)
    (counter : s.InRange → et.counter.toNat < s.cfg.epochLen) (epoch : et.epoch ≠ 0) :
    s.KeepsRange (State.becomeMember { s with et := et }) := by
  have outside := (not_isChecking_of_isListen listen).2
  have set : s.KeepsRange { s with et := et } := setTimebase et fun _ member => by simp [outside] at member
  have back : State.InRange { s with et := et } → s.InRange := fun h =>
    ⟨h.config, h.joined, h.selfCheck, h.ring, fun m => by simp [outside] at m, fun m => by simp [outside] at m⟩
  exact set.trans (becomeMember listen (fun h => counter (back h)) epoch)

theorem foundTimebase {s : State} (listen : s.isListen = true) : s.KeepsRange s.foundTimebase := by
  have first : ({ s.et with epoch := 1, counter := 0 } : Et).epoch ≠ 0 := by simp
  have founded := becomeMemberAt { s.et with epoch := 1, counter := 0 } listen
    (fun hs => by have := hs.cfg_listen listen; simp; omega) first
  exact founded.trans (Steady.of_own (.submitEpoch 1 _)).keeps

theorem listenTick {s : State} (listen : s.isListen = true) : s.KeepsRange s.listenTick := by
  have counted : s.Steady { s with mu := { s.mu with listenCount := s.mu.listenCount + 1 } } :=
    .of_frame rfl rfl rfl rfl rfl rfl
  unfold State.listenTick
  dsimp only
  split
  · exact counted.keeps.trans (foundTimebase listen)
  · exact counted.keeps

theorem takeTick (order : List Part) (s : State) : s.KeepsRange (s.takeTick order) := by
  unfold State.takeTick
  split
  · exact refl s
  split
  · rename_i listen
    exact listenTick listen
  split
  · rename_i member
    exact memberTick order member
  · exact refl s

theorem tickWhen (due : Bool) (order : List Part) (s : State) : s.KeepsRange (s.tickWhen due order) := by
  unfold State.tickWhen
  split
  · exact takeTick order s
  · exact refl s

/-! ## Adoption -/

/-- The adopted counter lies in the epoch (R109). -/
theorem adoptedCounter_lt {s : State} (h : 256 ≤ s.cfg.epochLen ∧ s.cfg.epochLen ≤ 65535) (lag : Word) :
    (s.adoptedCounter lag).toNat < s.cfg.epochLen := by
  simp only [State.adoptedCounter, wordOf, BitVec.toNat_ofNat]
  refine Nat.lt_of_le_of_lt (Nat.mod_le _ _) ?_
  omega

theorem adopt {n : Word32} (positive : n ≠ 0) (lag : Word) (s : State) : s.KeepsRange (s.adopt n lag).1 := by
  have withdrawn : s.KeepsRange (s.withdrawMsg (fun m => m.payload.isEpoch)) := Steady.keeps .of_frame
  have taken : s.KeepsRange { s.withdrawMsg (fun m => m.payload.isEpoch) with
      et := { (s.withdrawMsg (fun m => m.payload.isEpoch)).et with
        counter := s.adoptedCounter lag, epoch := n, own := .none } } :=
    withdrawn.trans (setTimebase _ fun hs member => ⟨adoptedCounter_lt (hs.cfg_member member).2.2 lag, positive⟩)
  unfold State.adopt
  dsimp only
  split
  · exact taken
  split
  · exact taken
  · exact taken.trans (Steady.slip _).keeps

theorem epochAccepted (sender : Station) (n : Word32) (lag digest : Word) (s : State) :
    s.KeepsRange (s.epochAccepted sender n lag digest).1 := by
  unfold State.epochAccepted
  split
  · exact refl s
  rename_i eligible
  have positive : n ≠ 0 := by
    rintro rfl
    simp [State.epochEligible] at eligible
  split
  · rename_i listen
    exact becomeMemberAt _ listen (fun hs => adoptedCounter_lt (hs.cfg_listen listen).2.2 lag) positive
  split
  · exact adopt positive lag s
  · exact refl s

/-! ## LC -/

theorem resubmitEpoch (n : Word32) (own : OwnEpoch) (s : State) :
    s.Steady (if n = s.et.epoch then { s with et := { s.et with own := own } }
      else State.submitEpoch s.et.epoch { s with et := { s.et with own := own } }) := by
  have told : s.Steady { s with et := { s.et with own := own } } := .of_frame rfl rfl rfl rfl rfl rfl
  split
  · exact told
  · exact told.trans (.of_own (.submitEpoch _ _))

theorem abandonDeferred (id : Nat) (s : State) :
    s.Steady (match s.markOf id with
      | none => s
      | some e => if e.deferred then s.abandon id else s) := by
  split
  · exact .refl s
  · split
    · exact .of_spotList (.abandon id s)
    · exact .refl s

theorem noticeDrop (s : State) (m : Msg) : s.KeepsRange (s.noticeDrop m) := by
  unfold State.noticeDrop
  split
  · exact (resubmitEpoch _ _ s).keeps
  · split
    · exact refl s
    · rename_i id _
      have lost : s.Steady (s.claimLost id) := .of_frame
      exact (lost.trans (abandonDeferred id _)).keeps
  · exact Steady.keeps .of_frame
  · exact refl s
  · exact refl s
  · split
    · rename_i leaving
      exact toConfig leaving
    · exact refl s

theorem noticeRetry (s : State) (m : Msg) : s.Steady (s.noticeRetry m) := by
  unfold State.noticeRetry
  split
  · exact resubmitEpoch _ _ s
  · split
    · exact .refl s
    · rename_i id _
      have queued : s.Steady (s.modifyMark id (fun e => { e with claim := .queued })) := .of_frame
      exact queued.trans (abandonDeferred id _)
  · exact .refl s
  · exact .refl s
  · exact .refl s
  · exact .refl s

/-- LC alone changes. -/
theorem setLc (s : State) (lc : Lc) : s.Steady { s with lc := lc } := .of_frame rfl rfl rfl rfl rfl rfl

theorem countFailure (s : State) : s.KeepsRange s.countFailure := by
  unfold State.countFailure
  dsimp only
  split
  · exact (setLc s _).keeps.trans (enterMute _)
  · exact (setLc s _).keeps

theorem countVeto (s : State) : s.KeepsRange s.countVeto := by
  unfold State.countVeto
  dsimp only
  split
  · exact (setLc s _).keeps.trans (enterMute _)
  · exact (setLc s _).keeps

theorem failAttempt (m : Msg) (s : State) : s.KeepsRange (s.failAttempt m) := by
  unfold State.failAttempt
  refine trans ?_ (countFailure _)
  split
  · exact ((setLc s _).trans (noticeRetry _ _)).keeps
  · exact (setLc s _).keeps.trans (noticeDrop _ _)

theorem attemptFails (reason : FailReason) (s : State) : s.KeepsRange (s.attemptFails reason) := by
  unfold State.attemptFails
  split
  · exact refl s
  split
  · exact (setLc s _).keeps.trans (failAttempt _ _)
  · exact (setLc s _).keeps.trans (failAttempt _ _)

theorem frameVetoed (f : WireFrame) (s : State) : s.KeepsRange (s.frameVetoed f) := by
  unfold State.frameVetoed
  split
  · exact attemptFails .veto s
  split
  · have ended : s.Steady (s.endFrame f.payload.length).spoil := setLc s _
    dsimp only
    split
    · exact ended.keeps.trans (countVeto _)
    · exact ended.keeps
  · exact refl s

theorem frameDiscarded (f : WireFrame) (s : State) : s.KeepsRange (s.frameDiscarded f) := by
  unfold State.frameDiscarded
  split
  · exact (setLc s _).keeps
  · exact refl s

theorem ownerTake (sender : Station) (m : Payload) (s : State) : s.KeepsRange (s.ownerTake sender m).1 := by
  unfold State.ownerTake
  split
  · exact epochAccepted _ _ _ _ s
  · exact Steady.keeps (.of_spotList (.claimAccepted _ _ s))
  · exact Steady.keeps .of_frame
  · exact refl s
  · exact refl s
  · exact refl s

theorem deliveryPart (sender : Station) (m : Payload) (muDone started : Bool) (s : State) (p : Part) :
    s.KeepsRange (s.deliveryPart sender m muDone started p) := by
  unfold State.deliveryPart
  cases p with
  | muTake =>
    dsimp only
    split
    · exact refl s
    · exact muTake sender m s
  | lcEpoch =>
    dsimp only
    split
    · exact Steady.keeps .of_frame
    · exact refl s
  | ccEpoch =>
    dsimp only
    split
    · exact (Steady.ccEpochStart s).keeps
    · exact refl s
  | muEpoch =>
    dsimp only
    split
    · exact (Steady.muEpochStart s).keeps
    · exact refl s
  | ccTick => exact refl s
  | acquisition => exact refl s
  | epochSubmit => exact refl s
  | win => exact refl s

theorem deliverOther (sender : Station) (m : Payload) (muFirst : Bool) (order : List Part) (s : State) :
    s.KeepsRange (s.deliverOther sender m muFirst order) := by
  have first : s.KeepsRange (if muFirst then s.muTake sender m else s) := by
    split
    · exact muTake sender m s
    · exact refl s
  unfold State.deliverOther
  exact (first.trans (ownerTake sender m _)).trans (foldl (deliveryPart sender m _ _) _ _)

/-- ET's own EPOCH completes: the counter is adopted where the number is still its own (R106). -/
theorem ownEpochDone (n : Word32) (lag : Word) (s : State) : s.KeepsRange (s.ownEpochDone n lag) := by
  refine setTimebase _ fun hs member => ⟨?_, hs.epoch member⟩
  dsimp only
  split
  · exact adoptedCounter_lt (hs.cfg_member member).2.2 lag
  · exact hs.counter member

theorem deliverOwn (m : Msg) (s : State) : s.KeepsRange (s.deliverOwn m) := by
  have spoke : s.Steady { s with mu := { s.mu with spoken := true } } := .of_frame rfl rfl rfl rfl rfl rfl
  refine spoke.keeps.trans ?_
  unfold State.deliverOwn
  dsimp only
  split
  · exact ownEpochDone _ _ _
  · exact Steady.keeps (.of_spotList ((State.SpotListOnly.claimAccepted _ _ _).trans (.settleClaim _ _)))
  · exact Steady.keeps .of_frame
  · exact refl _
  · exact refl _
  · split
    · rename_i leaving
      exact toConfig leaving
    · exact refl _

theorem frameAccepted (f : WireFrame) (muFirst : Bool) (order : List Part) (s : State) :
    s.KeepsRange (s.frameAccepted f muFirst order) := by
  unfold State.frameAccepted
  split
  · rename_i m _
    have left : s.Steady { s.acceptEffects m.payload.encode.length with lc :=
        { (s.acceptEffects m.payload.encode.length).lc with
          queue := (s.acceptEffects m.payload.encode.length).lc.queue.filter (fun x => !x.moving)
          failCount := (s.acceptEffects m.payload.encode.length).lc.failCount - 1 } } := setLc s _
    exact left.keeps.trans (deliverOwn _ _)
  split
  · split
    · rename_i m _
      have accepted : s.Steady (s.acceptEffects f.payload.length) := setLc s _
      exact accepted.keeps.trans (deliverOther _ _ _ _ _)
    · exact refl s
    · exact refl s
  · exact refl s

/-! ## The resets -/

theorem pinReset (addr : Station) (rate : BitVec 2) (s : State) : s.KeepsRange (s.pinReset addr rate) := by
  have stopped : (s.pinReset addr rate).mu.station = .config ∨
      (s.pinReset addr rate).mu.station = .fault .strap := by
    show strapState addr = _ ∨ strapState addr = _
    unfold strapState
    split
    · exact .inr rfl
    · exact .inl rfl
  have outside : (s.pinReset addr rate).isMember = true → False := by
    obtain h | h := stopped
    · simp [State.isMember, h]
    · simp [State.isMember, h]
  refine ⟨fun _ => ⟨fun c hc => ?_, ?_, selfCheckInChecking_of_none rfl, ?_, fun h => (outside h).elim,
    fun h => (outside h).elim⟩, fun _ _ => ⟨fun _ => rfl, fun g hg => ?_, fun h => (outside h).elim⟩⟩
  · cases hc
  · obtain h | h := stopped
    · exact joined_config h
    · exact joined_fault h
  · exact ⟨fun h => (outside h).elim, fun g (hg : none = some g) => (by cases hg), Nat.le_refl 0⟩
  · cases hg

theorem softReset (s : State) : s.KeepsRange s.softReset := by
  have stopped : s.softReset.mu.station = .config ∨ s.softReset.mu.station = .fault .strap := by
    show s.mu.station.softReset = _ ∨ s.mu.station.softReset = _
    unfold StationState.softReset
    split
    · exact .inr rfl
    · exact .inl rfl
  refine of_outside ?_ rfl (.inr rfl) (fun _ => ?_) fun _ => selfCheckInChecking_of_none rfl
  · obtain h | h := stopped
    · simp [State.isMember, h]
    · simp [State.isMember, h]
  · obtain h | h := stopped
    · exact joined_config h
    · exact joined_fault h

/-! ## LP -/

/-- A configuration comes into force in CONFIG (R137). -/
theorem configured {s : State} {c : Configuration} (station : s.mu.station = .config)
    (good : 1 ≤ c.sweep.length ∧ c.sweep.length ≤ 12 ∧ 256 ≤ c.epochLen ∧ c.epochLen ≤ 65535) :
    s.KeepsRange (s.configured c) := by
  have outside : (s.configured c).isMember = true → False := fun h => by
    simp [State.isMember, State.configured, State.armMonitors, station] at h
  refine ⟨fun hs => ⟨fun d hd => ?_, joined_config station, hs.selfCheck, ?_, fun h => (outside h).elim,
    fun h => (outside h).elim⟩, fun _ ⟨empty, laid, _⟩ => ⟨empty, laid, fun h => (outside h).elim⟩⟩
  · cases hd
    exact good
  · obtain ⟨_, places, bounded⟩ := hs.ring
    exact ⟨fun h => (outside h).elim, places, bounded⟩

theorem withoutArgs {args : List Byte} {s : State} {r : State × Answer} (h : s.KeepsRange r.1) :
    s.KeepsRange (withoutArgs args s r).1 := by
  cases args with
  | nil => exact h
  | cons _ _ => exact refl s

theorem takeConfigure (block : List Byte) (s : State) : s.KeepsRange (takeConfigure block s).1 := by
  unfold Machine.takeConfigure
  split
  · exact refl s
  rename_i config
  split
  · exact refl s
  split
  · exact refl s
  · rename_i c hc
    exact configured (by simpa [State.isConfig] using config) (parseConfig_range hc)

theorem takeJoin (args : List Byte) (s : State) : s.KeepsRange (takeJoin args s).1 := by
  refine withoutArgs ?_
  split
  · rename_i ready
    have inForce := (Bool.and_eq_true_iff.1 ready).2
    exact of_outside rfl rfl (.inl rfl) (fun _ _ _ => inForce) fun _ _ => rfl
  · exact refl s

theorem takeLeave (args : List Byte) (s : State) : s.KeepsRange (takeLeave args s).1 := by
  refine withoutArgs ?_
  split
  · rename_i member
    exact leaveStation member
  · exact refl s

theorem takeTrigger (args : List Byte) (s : State) : s.KeepsRange (takeTrigger args s).1 := by
  refine withoutArgs ?_
  split
  · exact Steady.keeps .of_frame
  · exact refl s

theorem takeSpot (args : List Byte) (s : State) : s.KeepsRange (takeSpot args s).1 := by
  refine withoutArgs ?_
  split
  · exact refl s
  split
  · exact refl s
  · exact (Steady.placeLocal s).keeps

theorem takeOpenRead (args : List Byte) (s : State) : s.KeepsRange (takeOpenRead args s).1 := by
  unfold Machine.takeOpenRead
  split
  · exact refl s
  unfold State.openSession
  split
  · exact refl s
  split
  · exact refl s
  split
  · exact refl s
  split
  · exact refl s
  · exact Steady.keeps .of_frame

theorem takeCloseRead (args : List Byte) (s : State) : s.KeepsRange (takeCloseRead args s).1 := by
  refine withoutArgs ?_
  split
  · exact Steady.keeps .of_frame
  · exact refl s

theorem takeRelease (args : List Byte) (s : State) : s.KeepsRange (takeRelease args s).1 := by
  unfold Machine.takeRelease
  split
  · exact refl s
  unfold State.releaseRecord
  split
  · exact refl s
  split
  · exact refl s
  split
  · exact refl s
  split
  · exact refl s
  · exact Steady.keeps (.of_spotList (.freeRecord _ s))

theorem takeAckAttn (args : List Byte) (s : State) : s.KeepsRange (takeAckAttn args s).1 := by
  unfold Machine.takeAckAttn
  split
  · split
    · exact Steady.keeps .of_frame
    · exact refl s
  · exact refl s

theorem takeCommand (code : Byte) (args : List Byte) (s : State) : s.KeepsRange (takeCommand code args s).1 := by
  unfold Machine.takeCommand
  split
  · exact withoutArgs (refl s)
  · exact takeConfigure args s
  · exact takeJoin args s
  · exact takeLeave args s
  · exact takeTrigger args s
  · exact takeSpot args s
  · exact withoutArgs (refl s)
  · exact withoutArgs (refl s)
  · exact takeOpenRead args s
  · exact withoutArgs (refl s)
  · exact takeCloseRead args s
  · exact takeRelease args s
  · exact withoutArgs (refl s)
  · exact takeAckAttn args s
  · exact withoutArgs (softReset s)
  · exact refl s

theorem takeFrame (frame : List Byte) (s : State) : s.KeepsRange (takeFrame frame s).1 := by
  unfold Machine.takeFrame
  split
  · exact refl s
  · exact takeCommand _ _ s

theorem answerFrame {answer : State → State × Answer} (h : ∀ u : State, u.KeepsRange (answer u).1) (t : Transaction)
    (frame : List Byte) (s : State) : s.KeepsRange (s.answerFrame t frame answer) := by
  have heard : s.Steady (s.setTransaction { t with decoder := frame } 0) := .of_frame
  have responds : ∀ r : State × Answer, r.1.Steady (State.respond r) := by
    intro r
    unfold State.respond
    split
    · exact .refl _
    · exact .of_frame rfl rfl rfl rfl rfl rfl
  exact (heard.keeps.trans (h _)).trans (responds _).keeps

theorem clockFrame {answer : State → State × Answer} (h : ∀ u : State, u.KeepsRange (answer u).1) (frame : List Byte)
    (s : State) : s.KeepsRange (s.clockFrame frame answer) := by
  unfold State.clockFrame
  split
  · exact refl s
  · split
    · exact answerFrame h _ _ s
    · exact refl s

theorem clockCommand {answer : State → State × Answer} (h : ∀ u : State, u.KeepsRange (answer u).1) (code : Byte)
    (args : List Byte) (s : State) : s.KeepsRange (s.clockCommand code args answer) := by
  unfold State.clockCommand
  split
  · exact clockFrame h _ s
  · exact refl s

theorem clockByte (sdi : Byte) (wait : Bool) (s : State) : s.KeepsRange (s.clockByte sdi wait) := by
  have set : ∀ t b, s.KeepsRange (s.setTransaction t b) := fun _ _ => Steady.keeps .of_frame
  unfold State.clockByte
  split
  · exact refl s
  split
  · exact set _ _
  split
  · unfold State.takeByte
    split
    · exact set _ _
    dsimp only
    split
    · exact answerFrame (takeFrame _) _ _ s
    · exact set _ _
  · split
    · exact set _ _
    · exact Steady.keeps .of_frame

end State.KeepsRange

/-- Every command keeps the timebase and the ring in range. -/
theorem exec_keepsRange (c : Instr) (s : State) : ∃ t, exec c s = .next t ∧ s.KeepsRange t := by
  cases c with
  | pinReset addr rate => exact ⟨_, rfl, .pinReset addr rate s⟩
  | initialisationComplete => exact ⟨_, rfl, State.Steady.keeps .of_frame⟩
  | selNRelease => exact ⟨_, rfl, State.Steady.keeps .of_frame⟩
  | readResponseShiftedOut => exact ⟨_, rfl, State.Steady.keeps .of_frame⟩
  | unknownCommand frame =>
    refine ⟨_, rfl, ?_⟩
    split
    · exact .clockFrame (.takeFrame frame) frame s
    · exact .refl s
  | status args => exact ⟨_, rfl, .clockCommand (fun u => .withoutArgs (.refl u)) _ _ s⟩
  | configure args => exact ⟨_, rfl, .clockCommand (.takeConfigure args) _ _ s⟩
  | join args => exact ⟨_, rfl, .clockCommand (.takeJoin args) _ _ s⟩
  | leave args => exact ⟨_, rfl, .clockCommand (.takeLeave args) _ _ s⟩
  | trigger args => exact ⟨_, rfl, .clockCommand (.takeTrigger args) _ _ s⟩
  | spot args => exact ⟨_, rfl, .clockCommand (.takeSpot args) _ _ s⟩
  | spotRead args => exact ⟨_, rfl, .clockCommand (fun u => .withoutArgs (.refl u)) _ _ s⟩
  | records args => exact ⟨_, rfl, .clockCommand (fun u => .withoutArgs (.refl u)) _ _ s⟩
  | openRead args => exact ⟨_, rfl, .clockCommand (.takeOpenRead args) _ _ s⟩
  | read args => exact ⟨_, rfl, .clockCommand (fun u => .withoutArgs (.refl u)) _ _ s⟩
  | closeRead args => exact ⟨_, rfl, .clockCommand (.takeCloseRead args) _ _ s⟩
  | release args => exact ⟨_, rfl, .clockCommand (.takeRelease args) _ _ s⟩
  | peers args => exact ⟨_, rfl, .clockCommand (fun u => .withoutArgs (.refl u)) _ _ s⟩
  | ackAttn args => exact ⟨_, rfl, .clockCommand (.takeAckAttn args) _ _ s⟩
  | softReset args => exact ⟨_, rfl, .clockCommand (fun u => .withoutArgs (.softReset u)) _ _ s⟩
  | tick order => exact ⟨_, rfl, .takeTick order s⟩
  | markPulseEnd order => exact ⟨_, rfl, .tickWhen _ order s⟩
  | markStuck order => exact ⟨_, rfl, .tickWhen _ order s⟩
  | tickWrap order => exact ⟨_, rfl, .tickWhen _ order s⟩
  | peerExpiry order => exact ⟨_, rfl, .tickWhen _ order s⟩
  | claimTimeout order => exact ⟨_, rfl, .tickWhen _ order s⟩
  | answerWindowExpiry order => exact ⟨_, rfl, .tickWhen _ order s⟩
  | listenWindowExpiry order => exact ⟨_, rfl, .tickWhen _ order s⟩
  | markEvent => exact ⟨_, rfl, (State.Steady.markEdge s).keeps⟩
  | markRelease => exact ⟨_, rfl, State.Steady.keeps .of_frame⟩
  | copyStep slot => exact ⟨_, rfl, State.Steady.keeps .of_frame⟩
  | sweepConversionEnd code => exact ⟨_, rfl, (State.Steady.endSweepConversion code s).keeps⟩
  | sweepResume => exact ⟨_, rfl, (State.Steady.startSweep s).keeps⟩
  | spotRunBegin => exact ⟨_, rfl, (State.Steady.beginSpotRun s).keeps⟩
  | spotConversionEnd code => exact ⟨_, rfl, (State.Steady.endSpotConversion code s).keeps⟩
  | selfCheckBegin => exact ⟨_, rfl, (State.Steady.beginSelfCheck s).keeps⟩
  | selfCheckConversionEnd code => exact ⟨_, rfl, .endSelfCheckConversion code s⟩
  | frameStart bits => exact ⟨_, rfl, State.Steady.keeps .of_frame⟩
  | arbitrationWin => exact ⟨_, rfl, (State.Steady.of_own (.winArbitration s)).keeps⟩
  | arbitrationLoss => exact ⟨_, rfl, State.Steady.keeps .of_frame⟩
  | txAttemptFail reason => exact ⟨_, rfl, .attemptFails reason s⟩
  | frameVetoed frame => exact ⟨_, rfl, .frameVetoed frame s⟩
  | frameDiscarded frame => exact ⟨_, rfl, .frameDiscarded frame s⟩
  | frameAccepted frame muFirst order => exact ⟨_, rfl, .frameAccepted frame muFirst order s⟩
  | transactionBegin => exact ⟨_, rfl, State.Steady.keeps .of_frame⟩
  | wholeByteClocked sdi wait => exact ⟨_, rfl, .clockByte sdi wait s⟩
  | startBitRead bits => exact ⟨_, rfl, State.Steady.keeps .of_frame⟩

theorem step_keepsRange {s t : State} (h : step s = .next t) : s.KeepsRange t := by
  unfold step at h
  split at h
  · cases h
    exact .refl _
  · rename_i c rest _
    obtain ⟨u, hu, kept⟩ := exec_keepsRange c { s with pending := rest }
    rw [hu] at h
    cases h
    have popped : s.Steady { s with pending := rest } := .of_frame rfl rfl rfl rfl rfl rfl
    exact popped.keeps.trans kept

/-- Settles O58: of the operations that a command is made of, most leave the timebase and the ring alone, and each of the
others keeps them in range. -/
theorem timebaseStaysInRange : Obligations.TimebaseStaysInRange := by
  simp only [Obligations.TimebaseStaysInRange, ← State.inRange_iff]
  exact ⟨fun s t h st => (step_keepsRange st).range h, fun s t h st => (step_keepsRange st).formed h.1 h.2⟩

end Sys2Proof.Machine
end

