-- ==== Sys2Proof/Proofs/Turns.lean ====
section
/-! SUPPORT. An event's parts around one or two of them, and what the parts leave of the transmit queue. -/

namespace Sys2Proof.Machine

/-! ## One part, or two, among the others -/

/-- One part of an event stands between two turns of the others. -/
theorem foldl_parts_around {α : Type} {R : α → α → Prop} (refl : ∀ a, R a a)
    (trans : ∀ {a b c}, R a b → R b c → R a c) {f : α → Part → α} {q : Part} {l : List Part} (nodup : l.Nodup)
    (hq : q ∈ l) (others : ∀ a p, p ∈ l → p ≠ q → R a (f a p)) (a : α) :
    ∃ u, R a u ∧ R (f u q) (l.foldl f a) := by
  obtain ⟨l₁, l₂, rfl⟩ := List.append_of_mem hq
  rw [List.nodup_append, List.nodup_cons] at nodup
  obtain ⟨_, ⟨fresh₂, _⟩, fresh₁⟩ := nodup
  have turn : ∀ l' : List Part, (∀ p ∈ l', p ∈ l₁ ++ q :: l₂ ∧ p ≠ q) → ∀ b, R b (l'.foldl f b) := fun l' hl' b =>
    foldl_parts_keeps (R b) f l' (fun c p hp hc => trans hc (others c p (hl' p hp).1 (hl' p hp).2)) (refl b)
  refine ⟨l₁.foldl f a, turn l₁ (fun p hp => ⟨by simp [hp], fresh₁ p hp q List.mem_cons_self⟩) a, ?_⟩
  rw [List.foldl_append, List.foldl_cons]
  exact turn l₂ (fun p hp => ⟨by simp [hp], fun e => fresh₂ (e ▸ hp)⟩) _

/-- Two parts of an event stand between three turns of the others, the one or the other of the two first. -/
theorem foldl_parts_around_two {α : Type} {R : α → α → Prop} (refl : ∀ a, R a a)
    (trans : ∀ {a b c}, R a b → R b c → R a c) {f : α → Part → α} {q r : Part} (ne : q ≠ r) {l : List Part}
    (nodup : l.Nodup) (hq : q ∈ l) (hr : r ∈ l) (others : ∀ a p, p ∈ l → p ≠ q → p ≠ r → R a (f a p)) (a : α) :
    ∃ u v, R a u ∧ ((R (f u q) v ∧ R (f v r) (l.foldl f a)) ∨ (R (f u r) v ∧ R (f v q) (l.foldl f a))) := by
  obtain ⟨l₁, l₂, rfl⟩ := List.append_of_mem hq
  rw [List.nodup_append, List.nodup_cons] at nodup
  obtain ⟨nodup₁, ⟨fresh₂, nodup₂⟩, fresh₁⟩ := nodup
  have here₁ : ∀ p ∈ l₁, p ∈ l₁ ++ q :: l₂ ∧ p ≠ q := fun p hp => ⟨by simp [hp], fresh₁ p hp q List.mem_cons_self⟩
  have here₂ : ∀ p ∈ l₂, p ∈ l₁ ++ q :: l₂ ∧ p ≠ q := fun p hp => ⟨by simp [hp], fun e => fresh₂ (e ▸ hp)⟩
  have turn : ∀ l' : List Part, (∀ p ∈ l', p ∈ l₁ ++ q :: l₂ ∧ p ≠ q) → r ∉ l' → ∀ b, R b (l'.foldl f b) :=
    fun l' hl' hr' b => foldl_parts_keeps (R b) f l'
      (fun c p hp hc => trans hc (others c p (hl' p hp).1 (hl' p hp).2 (fun e => hr' (e ▸ hp)))) (refl b)
  have around : ∀ l' : List Part, (∀ p ∈ l', p ∈ l₁ ++ q :: l₂ ∧ p ≠ q) → l'.Nodup → r ∈ l' → ∀ b,
      ∃ u, R b u ∧ R (f u r) (l'.foldl f b) := fun l' hl' nodup' hr' =>
    foldl_parts_around refl trans nodup' hr' fun c p hp hpr => others c p (hl' p hp).1 (hl' p hp).2 hpr
  rw [List.foldl_append, List.foldl_cons]
  by_cases hr₁ : r ∈ l₁
  · have hr₂ : r ∉ l₂ := fun h => fresh₁ r hr₁ r (List.mem_cons_of_mem _ h) rfl
    obtain ⟨u, before, between⟩ := around l₁ here₁ nodup₁ hr₁ a
    exact ⟨u, _, before, .inr ⟨between, turn l₂ here₂ hr₂ _⟩⟩
  · have hr₂ : r ∈ l₂ := by simpa [hr₁, Ne.symm ne] using hr
    obtain ⟨v, between, after⟩ := around l₂ here₂ nodup₂ hr₂ (f (l₁.foldl f a) q)
    exact ⟨_, v, turn l₁ here₁ hr₁ a, .inl ⟨between, after⟩⟩

section
variable {R : State → State → Prop} (refl : ∀ u, R u u) (trans : ∀ {u v w}, R u v → R v w → R u w)
include refl trans

/-- One part of a tick in MEMBER stands between two turns of the others. -/
theorem State.memberTick_around {q : Part} (hq : q ∈ tickParts) {s : State}
    (others : ∀ u p, p ≠ q → R u (State.tickPart s.atEpochEnd s u p)) (order : List Part) :
    ∃ u, R (s.advanceCounter.winWith order) u ∧ R (State.tickPart s.atEpochEnd s u q) (s.memberTick order) :=
  foldl_parts_around refl trans (nodup_completeOrder order (by decide)) (mem_completeOrder.2 hq)
    (fun u p _ => others u p) _

/-- One part of a delivery stands between two turns of the others. -/
theorem foldl_deliveryParts_around {q : Part} (hq : q ∈ deliveryParts) {f : State → Part → State}
    (others : ∀ u p, p ≠ q → R u (f u p)) (order : List Part) (s : State) :
    ∃ u, R s u ∧ R (f u q) ((completeOrder deliveryParts order).foldl f s) :=
  foldl_parts_around refl trans (nodup_completeOrder order (by decide)) (mem_completeOrder.2 hq)
    (fun u p _ => others u p) _

end

/-! ## LC but for its queue -/

/-- At LC nothing but the transmit queue is touched. -/
def State.QueueOnly (s t : State) : Prop := t.lc = { s.lc with queue := t.lc.queue, nextAge := t.lc.nextAge }

namespace State.QueueOnly

theorem of_eq {s t : State} (h : t.lc = s.lc) : s.QueueOnly t := by
  unfold State.QueueOnly
  rw [h]

theorem refl (s : State) : s.QueueOnly s := rfl

theorem trans {s t u : State} (h : s.QueueOnly t) (k : t.QueueOnly u) : s.QueueOnly u := by
  unfold State.QueueOnly at h k ⊢
  rw [k, h]

theorem foldl {β : Type} {f : State → β → State} (h : ∀ (s : State) b, s.QueueOnly (f s b)) (l : List β) (s : State) :
    s.QueueOnly (l.foldl f s) :=
  foldl_keeps (fun t => s.QueueOnly t) f l (fun t b ht => ht.trans (h t b)) (refl s)

theorem mute {s t : State} (h : s.QueueOnly t) : t.lc.mute = s.lc.mute := by rw [h]

theorem submit {p : Payload} {mark : Option Nat} {s t : State} (h : s.submit p mark = some t) : s.QueueOnly t := by
  obtain ⟨_, _, q, _, rfl⟩ := State.submit_some h
  exact rfl

theorem submitOrDrop (p : Payload) (s : State) : s.QueueOnly (s.submitOrDrop p) := by
  unfold State.submitOrDrop
  cases h : s.submit p none with
  | none => exact refl s
  | some t => exact submit h

theorem submitEpoch (n : Word32) (s : State) : s.QueueOnly (s.submitEpoch n) := by
  unfold State.submitEpoch
  split
  · exact refl s
  split
  · exact of_eq rfl
  · rename_i h
    exact (submit h).trans (of_eq rfl)

theorem submitClaim (id : Nat) (s : State) : s.QueueOnly (s.submitClaim id) := by
  unfold State.submitClaim
  split
  · exact refl s
  split
  · exact of_eq (by simp)
  · rename_i h
    exact (submit h).trans (of_eq (by simp))

theorem abandon (id : Nat) (s : State) : s.QueueOnly (s.abandon id) := by
  cases h : s.markOf id with
  | none => exact of_eq (by simp only [State.abandon, h])
  | some m =>
    have told : ∀ u : State, ((u.retireLine id .empty).raise .captureAbandoned).lc = u.lc := fun u => by simp
    rw [State.abandon_eq h, State.QueueOnly, told, (State.freeSlotOf_cc m _).2.2]
    rfl

theorem coOriginate (s : State) : s.QueueOnly s.coOriginate := by
  unfold State.coOriginate
  split
  · exact refl s
  · exact of_eq (by simp)
  · split
    · exact of_eq (by simp)
    · split
      · split
        · exact submitClaim _ s
        · exact refl s
      · refine trans (of_eq ?_) (submitClaim _ _)
        split <;> simp

theorem alert (s : State) : s.QueueOnly s.alert := by
  unfold State.alert
  split
  · exact refl s
  split
  · exact of_eq (by simp)
  split
  · exact of_eq rfl
  split
  · exact refl s
  · exact coOriginate s

theorem markEpoch (id : Nat) (s : State) : s.QueueOnly (s.markEpoch id) := by
  rcases s.markEpoch_cases id with e | ⟨f, _, e⟩ | ⟨m, _, e⟩
  · exact of_eq (by rw [e])
  · exact of_eq (by rw [e]; simp)
  · rw [e]
    exact abandon id s

theorem ccEpochStart (s : State) : s.QueueOnly s.ccEpochStart :=
  (foldl (fun t id => markEpoch id t) _ s).trans (foldl (fun t i => of_eq (by simp)) _ _)

theorem expirePeers (s : State) : s.QueueOnly s.expirePeers := of_eq (by simp)

theorem muEpochStart (s : State) : s.QueueOnly s.muEpochStart := by
  unfold State.muEpochStart
  split
  · exact refl s
  · have spoke : s.QueueOnly (if s.mu.spoken then s else s.submitPresent) := by
      split
      · exact refl s
      · exact submitOrDrop _ s
    exact spoke.trans (of_eq (by simp))

theorem handOn (f : Frame) (s : State) : s.QueueOnly (s.handOn f) := by
  have many : ∀ n u, State.QueueOnly u (State.alerts n u) := by
    intro n
    induction n with
    | zero => exact refl
    | succ n ih => exact fun u => (alert u).trans (ih u.alert)
  unfold State.handOn
  exact many _ _

theorem acquire (s : State) : s.QueueOnly s.acquire := by
  unfold State.acquire
  split
  · exact of_eq (by simp)
  · have written : ∀ f, s.QueueOnly (s.cutSweep.beginFrame.startSweep.writeFrame f) := fun f => of_eq (by simp)
    exact (written _).trans (handOn _ _)

/-- The parts of a tick but LC's own. -/
theorem tickPart {p : Part} (hp : p ≠ .lcEpoch) (wrapped : Bool) (before s : State) :
    s.QueueOnly (State.tickPart wrapped before s p) := by
  unfold State.tickPart
  cases p with
  | ccTick => exact of_eq (by simp)
  | acquisition => exact acquire s
  | epochSubmit =>
    dsimp only
    split
    · exact submitEpoch _ s
    · exact refl s
  | lcEpoch => exact absurd rfl hp
  | ccEpoch =>
    dsimp only
    split
    · exact ccEpochStart s
    · exact refl s
  | muEpoch =>
    dsimp only
    split
    · exact muEpochStart s
    · exact refl s
  | muTake => exact refl s
  | win => exact refl s

end State.QueueOnly

/-! ## The messages that stay, and those that come -/

/-- The messages in transmission stay, and those that stand for no entry; no EPOCH comes. -/
structure State.QueueTurn (s t : State) : Prop where
  kept   : ∀ q ∈ s.lc.queue, q.moving = true ∨ q.mark = none → q ∈ t.lc.queue
  epochs : ∀ q ∈ t.lc.queue, q.payload.isEpoch = true → q ∈ s.lc.queue

namespace State.QueueTurn

theorem of_queue {s t : State} (h : t.lc.queue = s.lc.queue) : s.QueueTurn t :=
  ⟨fun _ hq _ => h ▸ hq, fun _ hq _ => h ▸ hq⟩

theorem of_lc {s t : State} (h : t.lc = s.lc) : s.QueueTurn t := of_queue (by rw [h])

theorem refl (s : State) : s.QueueTurn s := of_queue rfl

theorem trans {s t u : State} (h : s.QueueTurn t) (k : t.QueueTurn u) : s.QueueTurn u :=
  ⟨fun q hq hm => k.kept q (h.kept q hq hm) hm, fun q hq he => h.epochs q (k.epochs q hq he) he⟩

theorem foldl {β : Type} {f : State → β → State} (h : ∀ (s : State) b, s.QueueTurn (f s b)) (l : List β) (s : State) :
    s.QueueTurn (l.foldl f s) :=
  foldl_keeps (fun t => s.QueueTurn t) f l (fun t b ht => ht.trans (h t b)) (refl s)

/-- A submission that makes no other message leave. -/
theorem submit {p : Payload} {mark : Option Nat} {s t : State} (h : s.submit p mark = some t)
    (epoch : p.isEpoch = false) (bye : p.isBye = false) : s.QueueTurn t := by
  obtain ⟨_, _, l, hl, rfl⟩ := State.submit_some h
  have all : l = s.lc.queue := by
    rcases hl with ⟨_, rfl⟩ | ⟨_, rfl⟩
    · rfl
    · exact List.filter_eq_self.2 fun q _ => by simp [replacedBy, epoch, bye]
  refine ⟨fun q hq _ => (insertMsg_perm _ _).mem_iff.2 (List.mem_cons_of_mem _ (all ▸ hq)), fun q hq he => ?_⟩
  rcases List.mem_cons.1 ((insertMsg_perm _ _).mem_iff.1 hq) with rfl | old
  · rw [epoch] at he
    cases he
  · exact all ▸ old

theorem submitPresent (s : State) : s.QueueTurn s.submitPresent := by
  unfold State.submitPresent State.submitOrDrop
  cases h : s.submit (.present s.mu.digest s.et.epoch s.freeField) none with
  | none => exact refl s
  | some t => exact submit h rfl rfl

theorem submitClaim (id : Nat) (s : State) : s.QueueTurn (s.submitClaim id) := by
  unfold State.submitClaim
  split
  · exact refl s
  split
  · exact of_lc (by simp)
  · rename_i h
    exact (submit h rfl rfl).trans (of_lc (by simp))

theorem abandon (id : Nat) (s : State) : s.QueueTurn (s.abandon id) := by
  cases h : s.markOf id with
  | none => exact of_lc (by simp only [State.abandon, h])
  | some m =>
    constructor
    · intro q hq still
      rw [State.abandon_queue h]
      refine List.mem_filter.2 ⟨hq, ?_⟩
      rcases still with moving | unmarked
      · simp [moving]
      · simp [claimOf, unmarked]
    · intro q hq _
      rw [State.abandon_queue h] at hq
      exact (List.mem_filter.1 hq).1

theorem coOriginate (s : State) : s.QueueTurn s.coOriginate := by
  unfold State.coOriginate
  split
  · exact refl s
  · exact of_lc (by simp)
  · split
    · exact of_lc (by simp)
    · split
      · split
        · exact submitClaim _ s
        · exact refl s
      · refine trans (of_lc ?_) (submitClaim _ _)
        split <;> simp

theorem alert (s : State) : s.QueueTurn s.alert := by
  unfold State.alert
  split
  · exact refl s
  split
  · exact of_lc (by simp)
  split
  · exact of_lc rfl
  split
  · exact refl s
  · exact coOriginate s

theorem markEpoch (id : Nat) (s : State) : s.QueueTurn (s.markEpoch id) := by
  rcases s.markEpoch_cases id with e | ⟨f, _, e⟩ | ⟨m, _, e⟩
  · exact of_lc (by rw [e])
  · exact of_lc (by rw [e]; simp)
  · rw [e]
    exact abandon id s

theorem ccEpochStart (s : State) : s.QueueTurn s.ccEpochStart :=
  (foldl (fun t id => markEpoch id t) _ s).trans (foldl (fun t i => of_lc (by simp)) _ _)

theorem lcEpochStart (s : State) : s.QueueTurn s.lcEpochStart := by
  refine of_queue ?_
  unfold State.lcEpochStart
  dsimp only
  split <;> simp

theorem muEpochStart (s : State) : s.QueueTurn s.muEpochStart := by
  unfold State.muEpochStart
  split
  · exact refl s
  · have spoke : s.QueueTurn (if s.mu.spoken then s else s.submitPresent) := by
      split
      · exact refl s
      · exact submitPresent s
    exact spoke.trans (of_lc (by simp))

theorem handOn (f : Frame) (s : State) : s.QueueTurn (s.handOn f) := by
  have many : ∀ n u, State.QueueTurn u (State.alerts n u) := by
    intro n
    induction n with
    | zero => exact refl
    | succ n ih => exact fun u => (alert u).trans (ih u.alert)
  have evaluated : s.QueueTurn { s with tm := { monitors := (evaluate f s.cfg.monitors s.tm.monitors).1 } } := of_lc rfl
  exact evaluated.trans (many _ _)

theorem acquire (s : State) : s.QueueTurn s.acquire := by
  unfold State.acquire
  split
  · exact of_lc (by simp)
  · have written : ∀ f, s.QueueTurn (s.cutSweep.beginFrame.startSweep.writeFrame f) := fun f => of_lc (by simp)
    exact (written _).trans (handOn _ _)

/-- The parts of a tick but ET's submission. -/
theorem tickPart {p : Part} (hp : p ≠ .epochSubmit) (wrapped : Bool) (before s : State) :
    s.QueueTurn (State.tickPart wrapped before s p) := by
  unfold State.tickPart
  cases p with
  | ccTick => exact of_lc (by simp)
  | acquisition => exact acquire s
  | epochSubmit => exact absurd rfl hp
  | lcEpoch =>
    dsimp only
    split
    · exact lcEpochStart s
    · exact refl s
  | ccEpoch =>
    dsimp only
    split
    · exact ccEpochStart s
    · exact refl s
  | muEpoch =>
    dsimp only
    split
    · exact muEpochStart s
    · exact refl s
  | muTake => exact refl s
  | win => exact refl s

end State.QueueTurn

/-! ## ET and MU at the parts of a tick -/

theorem State.tickPart_et {p : Part} (hp : p ≠ .epochSubmit) (wrapped : Bool) (before s : State) :
    (State.tickPart wrapped before s p).et = s.et := by
  unfold State.tickPart
  cases p with
  | epochSubmit => exact absurd rfl hp
  | ccTick => simp
  | acquisition => simp
  | lcEpoch => dsimp only; split <;> simp
  | ccEpoch => dsimp only; split <;> simp
  | muEpoch => dsimp only; split <;> simp
  | muTake => rfl
  | win => rfl

theorem State.tickPart_mu {p : Part} (hp : p ≠ .muEpoch) (wrapped : Bool) (before s : State) :
    (State.tickPart wrapped before s p).mu = s.mu := by
  unfold State.tickPart
  cases p with
  | muEpoch => exact absurd rfl hp
  | ccTick => simp
  | acquisition => simp
  | epochSubmit => dsimp only; split <;> simp
  | lcEpoch => dsimp only; split <;> simp
  | ccEpoch => dsimp only; split <;> simp
  | muTake => rfl
  | win => rfl

/-- MU's epoch start changes the spoken flag and the peer table, and nothing else of MU. -/
theorem State.muEpochStart_mu (s : State) : s.muEpochStart.mu =
    { s.mu with spoken := s.muEpochStart.mu.spoken, peers := s.muEpochStart.mu.peers } := by
  have expired : ∀ u : State, u.expirePeers.mu = { u.mu with peers := u.expirePeers.mu.peers } := by
    intro u
    unfold State.expirePeers
    dsimp only
    split <;> rfl
  unfold State.muEpochStart
  split
  · rfl
  · dsimp only
    rw [expired]
    split <;> simp

theorem State.tickPart_mu_fixed (wrapped : Bool) (before s : State) (p : Part) :
    (State.tickPart wrapped before s p).mu.digest = s.mu.digest ∧
      (State.tickPart wrapped before s p).mu.config = s.mu.config := by
  by_cases hp : p = .muEpoch
  · subst hp
    unfold State.tickPart
    dsimp only
    split
    · rw [State.muEpochStart_mu]
      exact ⟨rfl, rfl⟩
    · exact ⟨rfl, rfl⟩
  · rw [State.tickPart_mu hp]
    exact ⟨rfl, rfl⟩

end Sys2Proof.Machine
end

