-- ==== Sys2Proof/Proofs/WrapTick.lean ====
section
/-! O27. The tick that wraps, at LC, MU and ET: each takes the epoch start once, and the other parts leave what it reads and
what it has made as they are. -/

namespace Sys2Proof.Machine

/-! ## A win that comes with the tick (R105) -/

/-- The message of a contender that wins. -/
def State.wonBy (s : State) (m : Msg) : Msg := { m with payload := s.fixPayload m.payload, cond := .inTransmission }

theorem State.fixPayload_isEpoch (s : State) (p : Payload) : (s.fixPayload p).isEpoch = p.isEpoch := by
  cases p <;> rfl

theorem State.noticeWin_epoch {s : State} {m : Msg} {n : Word32} {lag digest : Word} (h : m.payload = .epoch n lag digest) :
    s.noticeWin m = { s with et := { s.et with own := .inTransmission n } } := by
  simp only [State.noticeWin, h]

theorem State.noticeWin_et {s : State} {m : Msg} (h : m.payload.isEpoch = false) : (s.noticeWin m).et = s.et := by
  unfold State.noticeWin
  split
  · rename_i hp
    rw [hp] at h
    cases h
  · split
    · rfl
    · simp
  all_goals rfl

theorem State.winArbitration_lc {s : State} {m : Msg} (h : s.contender = some m) :
    s.winArbitration.lc = { s.lc with queue := s.wonBy m :: s.lc.queue.filter (fun x => !x.contends) } := by
  simp only [State.winArbitration, h, State.noticeWin_frame]
  rfl

theorem State.winArbitration_none {s : State} (h : s.contender = none) : s.winArbitration = s := by
  simp only [State.winArbitration, h]

theorem State.winArbitration_et {s : State} {m : Msg} (h : s.contender = some m) (other : m.payload.isEpoch = false) :
    s.winArbitration.et = s.et := by
  simp only [State.winArbitration, h]
  rw [State.noticeWin_et (by rw [State.fixPayload_isEpoch]; exact other)]

theorem State.winArbitration_own {s : State} {m : Msg} {n : Word32} {lag digest : Word} (h : s.contender = some m)
    (epoch : m.payload = .epoch n lag digest) : s.winArbitration.et.own = .inTransmission n := by
  simp only [State.winArbitration, h]
  rw [State.noticeWin_epoch (n := n) (lag := s.et.counter) (digest := digest) (by simp only [State.fixPayload, epoch])]

theorem State.contender_mem {s : State} {m : Msg} (h : s.contender = some m) : m ∈ s.lc.queue ∧ m.cond = .contending :=
  ⟨List.mem_of_find?_eq_some h, by simpa [Msg.contends] using List.find?_some h⟩

theorem State.contender_of_only {s : State} {m : Msg} (hm : m ∈ s.lc.queue) (contends : m.cond = .contending)
    (only : ∀ x ∈ s.lc.queue, x.cond = .contending → x = m) : s.contender = some m := by
  cases h : s.contender with
  | none =>
    have := List.find?_eq_none.1 h m hm
    simp [Msg.contends, contends] at this
  | some x => rw [only x (State.contender_mem h).1 (State.contender_mem h).2]

/-- A win of no EPOCH, or none: ET is as it was, and the EPOCHs of the queue are among those from before. -/
theorem State.winWith_noEpoch {s : State} {order : List Part}
    (h : Part.win ∈ order → ∀ m ∈ s.lc.queue, m.payload.isEpoch = true → m.cond ≠ .contending) :
    (s.winWith order).et = s.et ∧ ∀ q ∈ (s.winWith order).lc.queue, q.payload.isEpoch = true → q ∈ s.lc.queue := by
  unfold State.winWith
  split
  · rename_i win
    cases hc : s.contender with
    | none =>
      rw [State.winArbitration_none hc]
      exact ⟨rfl, fun q hq _ => hq⟩
    | some m =>
      obtain ⟨hm, contends⟩ := State.contender_mem hc
      have other : m.payload.isEpoch = false := by
        by_contra he
        exact h win m hm (by simpa using he) contends
      refine ⟨State.winArbitration_et hc other, fun q hq epoch => ?_⟩
      rw [State.winArbitration_lc hc] at hq
      rcases List.mem_cons.1 hq with rfl | old
      · rw [State.wonBy, State.fixPayload_isEpoch, other] at epoch
        cases epoch
      · exact (List.mem_filter.1 old).1
  · exact ⟨rfl, fun q hq _ => hq⟩

/-- A win beside the tick leaves LC but for its queue. -/
theorem State.winWith_queueOnly (order : List Part) (s : State) : s.QueueOnly (s.winWith order) := by
  unfold State.winWith
  split
  · cases hc : s.contender with
    | none =>
      rw [State.winArbitration_none hc]
      exact .refl s
    | some m =>
      rw [State.QueueOnly, State.winArbitration_lc hc]
  · exact .refl s

/-! ## LC's epoch start (R133) -/

/-- LC leaves MUTE at an epoch start. -/
def Lc.unmutes (lc : Lc) : Prop := lc.mute = true ∧ lc.obsCur = .accepted ∧ lc.obsPrev = .accepted

theorem State.lcEpochStart_unmutes {s : State} (h : s.lc.unmutes) :
    s.lcEpochStart.lc = { s.lc with
      mute := false, failCount := 0, vetoCount := 0, obsPrev := s.lc.obsCur, obsCur := .empty } ∧
      s.lcEpochStart.hasCause .linkMute = true := by
  obtain ⟨mute, cur, prev⟩ := h
  have left : s.lcEpochStart =
      { State.raise .linkMute { s with lc := { s.lc with mute := false, failCount := 0, vetoCount := 0 } } with
        lc := { s.lc with
          mute := false, failCount := 0, vetoCount := 0, obsPrev := s.lc.obsCur, obsCur := .empty } } := by
    simp [State.lcEpochStart, mute, cur, prev]
  rw [left]
  exact ⟨rfl, State.hasCause_raise .linkMute { s with lc := { s.lc with mute := false, failCount := 0, vetoCount := 0 } }⟩

theorem State.lcEpochStart_stays {s : State} (h : ¬s.lc.unmutes) :
    s.lcEpochStart = { s with lc := { s.lc with obsPrev := s.lc.obsCur, obsCur := .empty } } := by
  have still : (s.lc.mute && s.lc.obsCur == .accepted && s.lc.obsPrev == .accepted) = false := by
    rw [Bool.eq_false_iff]
    intro all
    obtain ⟨⟨mute, cur⟩, prev⟩ : (s.lc.mute = true ∧ s.lc.obsCur = .accepted) ∧ s.lc.obsPrev = .accepted := by
      simpa using all
    exact h ⟨mute, cur, prev⟩
  simp [State.lcEpochStart, still]

/-- What an epoch start leaves at LC, the observations and MUTE (R133). -/
structure State.LcAtEpochStart (before : Lc) (t : State) : Prop where
  obsPrev : t.lc.obsPrev = before.obsCur
  obsCur  : t.lc.obsCur = .empty
  leaves  : before.unmutes → t.lc.mute = false ∧ t.lc.failCount = 0 ∧ t.lc.vetoCount = 0 ∧ t.hasCause .linkMute = true
  stays   : ¬before.unmutes →
    t.lc.mute = before.mute ∧ t.lc.failCount = before.failCount ∧ t.lc.vetoCount = before.vetoCount
  line    : t.lc.view = before.view ∧ t.lc.idle = before.idle

theorem State.lcEpochStart_taken (s : State) : s.lcEpochStart.LcAtEpochStart s.lc := by
  by_cases h : s.lc.unmutes
  · obtain ⟨lc, told⟩ := State.lcEpochStart_unmutes h
    exact ⟨by rw [lc], by rw [lc], fun _ => by rw [lc]; exact ⟨rfl, rfl, rfl, told⟩, fun hn => absurd h hn,
      by rw [lc]; exact ⟨rfl, rfl⟩⟩
  · rw [State.lcEpochStart_stays h]
    exact ⟨rfl, rfl, fun hp => absurd hp h, fun _ => ⟨rfl, rfl, rfl⟩, rfl, rfl⟩

/-- At LC nothing but the queue has changed, and no attention cause is gone. -/
structure State.LcTurn (s t : State) : Prop where
  lc     : s.QueueOnly t
  causes : ∀ c, s.hasCause c = true → t.hasCause c = true

theorem State.LcTurn.refl (s : State) : s.LcTurn s := ⟨.refl s, fun _ h => h⟩

theorem State.LcTurn.trans {s t u : State} (h : s.LcTurn t) (k : t.LcTurn u) : s.LcTurn u :=
  ⟨h.lc.trans k.lc, fun c hc => k.causes c (h.causes c hc)⟩

/-- What LC's epoch start reads is left alone before it, and what it makes after it. -/
theorem State.LcAtEpochStart.turns {s u t : State} (before : s.LcTurn u) (after : u.lcEpochStart.LcTurn t) :
    t.LcAtEpochStart s.lc := by
  obtain ⟨prev, cur, leaves, stays, line⟩ := u.lcEpochStart_taken
  have same : s.lc.unmutes ↔ u.lc.unmutes := by
    unfold Lc.unmutes
    rw [before.lc]
  refine ⟨?_, ?_, fun h => ?_, fun h => ?_, ?_⟩
  · rw [after.lc]
    rw [before.lc] at prev
    exact prev
  · rw [after.lc]
    exact cur
  · obtain ⟨mute, fails, vetoes, told⟩ := leaves (same.1 h)
    rw [after.lc]
    exact ⟨mute, fails, vetoes, after.causes _ told⟩
  · obtain ⟨mute, fails, vetoes⟩ := stays (fun hu => h (same.2 hu))
    rw [after.lc]
    rw [before.lc] at mute fails vetoes
    exact ⟨mute, fails, vetoes⟩
  · rw [after.lc]
    rw [before.lc] at line
    exact line

theorem State.tickPart_causes (wrapped : Bool) (before s : State) (p : Part) (c : Cause) (h : s.hasCause c = true) :
    (State.tickPart wrapped before s p).hasCause c = true :=
  State.tickPart_keeps (P := fun u => u.hasCause c = true) (fun _ _ k hu => k.causes c hu)
    (fun u i _ f _ hu => (State.Calm.copyInto i f u).causes c hu) (fun u _ hu => (State.MarksTurn.alert u).causes c hu)
    (fun _ u hu => u.ccTick_causes _ _ hu) (fun _ u hu => (State.Aside.ccEpochStart u).causes c hu) h

theorem State.memberTick_lcAtEpochStart {s : State} (wraps : s.atEpochEnd = true) (order : List Part) :
    (s.memberTick order).LcAtEpochStart s.lc := by
  obtain ⟨u, before, after⟩ := State.memberTick_around State.LcTurn.refl State.LcTurn.trans (q := .lcEpoch) (by decide)
    (s := s) (fun v p hp => ⟨.tickPart hp _ s v, State.tickPart_causes _ s v p⟩) order
  simp only [State.tickPart, wraps, if_true] at after
  refine .turns (.trans ⟨?_, fun c hc => ?_⟩ before) after
  · exact (State.QueueOnly.of_eq (by simp)).trans (s.advanceCounter.winWith_queueOnly order)
  · simpa [State.hasCause] using hc

/-! ## MU's epoch start (R148) -/

theorem State.expirePeers_mu (s : State) :
    s.expirePeers.mu = { s.mu with peers := s.mu.peers.map (Peer.expire s.et.epoch) } := by
  unfold State.expirePeers
  dsimp only
  split <;> rfl

theorem State.muEpochStart_spoken {s : State} (member : s.isMember = true) : s.muEpochStart.mu.spoken = false := by
  have here : (!s.isMember) ≠ true := by simp [member]
  rw [State.muEpochStart, if_neg here]
  dsimp only
  rw [State.expirePeers_mu]

theorem State.memberTick_spoken {s : State} (wraps : s.atEpochEnd = true) (member : s.isMember = true) (order : List Part) :
    (s.memberTick order).mu.spoken = false := by
  refine State.memberTick_reach (fun u => u.isMember = true) (fun u => u.mu.spoken = false) .muEpoch (by decide) ?_
    (fun u p _ hu => ?_) (fun u hu => ?_) (fun u p hp hu => ?_)
  · simpa [State.isMember] using member
  · rwa [State.isMember, State.tickPart_station]
  · simp only [State.tickPart, wraps, if_true]
    exact State.muEpochStart_spoken hu
  · rwa [State.tickPart_mu hp]

/-! ## ET's submission (R100, R104, R107) -/

theorem State.submitEpoch_moving {s : State} {k : Word32} (own : s.et.own = .inTransmission k) (n : Word32) :
    s.submitEpoch n = s := by
  simp only [State.submitEpoch, own]

theorem State.submitEpoch_refused {s : State} (own : ∀ k, s.et.own ≠ .inTransmission k) (mute : s.lc.mute = true)
    (n : Word32) : s.submitEpoch n = { s with et := { s.et with own := .none } } := by
  unfold State.submitEpoch
  split
  · rename_i k hk
    exact absurd hk (own k)
  · simp only [State.submit_mute mute]

theorem State.submitEpoch_admitted {s : State} (member : s.isMember = true) (mute : s.lc.mute = false)
    (own : ∀ k, s.et.own ≠ .inTransmission k)
    (still : ∀ m ∈ s.lc.queue, m.payload.isEpoch = true → m.cond ≠ .inTransmission) (n : Word32) :
    (s.submitEpoch n).et.own = .queued n ∧ ∃ m ∈ (s.submitEpoch n).lc.queue, m.payload = .epoch n 0 s.mu.digest ∧
      m.cond = .queued ∧ m.fails = 0 ∧ m.mark = none := by
  have admitted : ∃ t u : State, s.submit (.epoch n 0 s.mu.digest) none = some t ∧
      t = u.enqueue (.epoch n 0 s.mu.digest) none := by
    have leaving := not_isLeaving_of_isMember member
    have none_ : s.lc.queue.any (fun m => m.payload.isEpoch && m.moving) = false := by
      rw [List.any_eq_false]
      intro m hm both
      obtain ⟨epoch, moving⟩ : m.payload.isEpoch = true ∧ m.moving = true := by simpa using both
      exact still m hm epoch (by simpa [Msg.moving] using moving)
    have kind : (Payload.epoch n 0 s.mu.digest).isEpoch = true := rfl
    have room : s.admission (.epoch n 0 s.mu.digest) ≠ .refused := by
      simp only [State.admission, member, leaving, mute, none_, kind, Bool.true_or, Bool.not_true, Bool.false_and,
        Bool.true_and, Bool.false_eq_true, if_false, if_true]
      split <;> nofun
    unfold State.submit
    split
    · rename_i refused
      exact absurd refused room
    · exact ⟨_, s, rfl, rfl⟩
    · exact ⟨_, _, rfl, rfl⟩
  obtain ⟨t, u, ht, hu⟩ := admitted
  have sent : s.submitEpoch n = { t with et := { t.et with own := .queued n } } := by
    unfold State.submitEpoch
    split
    · rename_i k hk
      exact absurd hk (own k)
    · simp only [ht]
  rw [sent]
  refine ⟨rfl, ?_⟩
  obtain ⟨m, hm, payload, cond, fails, mark⟩ := u.enqueue_new (.epoch n 0 s.mu.digest) none
  exact ⟨m, by rw [← hu] at hm; exact hm, payload, cond, fails, mark⟩

/-- What the parts of a tick but ET's submission leave of what it reads and makes. -/
structure State.EpochTurn (s t : State) : Prop where
  queue   : s.QueueTurn t
  et      : t.et = s.et
  station : t.mu.station = s.mu.station
  digest  : t.mu.digest = s.mu.digest
  mute    : s.lc.mute = false → t.lc.mute = false

theorem State.EpochTurn.refl (s : State) : s.EpochTurn s := ⟨.refl s, rfl, rfl, rfl, id⟩

theorem State.EpochTurn.trans {s t u : State} (h : s.EpochTurn t) (k : t.EpochTurn u) : s.EpochTurn u :=
  ⟨h.queue.trans k.queue, k.et.trans h.et, k.station.trans h.station, k.digest.trans h.digest, k.mute ∘ h.mute⟩

/-- ET's submission at a wrap stands between two turns of the other parts. -/
theorem State.memberTick_announces {s : State} (wraps : s.atEpochEnd = true) (order : List Part) :
    ∃ u, (s.advanceCounter.winWith order).EpochTurn u ∧ (u.submitEpoch u.et.epoch).EpochTurn (s.memberTick order) := by
  obtain ⟨u, before, after⟩ := State.memberTick_around State.EpochTurn.refl State.EpochTurn.trans (q := .epochSubmit)
    (by decide) (s := s) (fun v p hp => ⟨.tickPart hp _ s v, State.tickPart_et hp _ s v, State.tickPart_station _ s v p,
      (State.tickPart_mu_fixed _ s v p).1, State.tickPart_mute _ s v p⟩) order
  simp only [State.tickPart, wraps, if_true] at after
  exact ⟨u, before, after⟩

/-- With an own EPOCH in transmission ET submits nothing. -/
theorem State.memberTick_moving {s : State} (wraps : s.atEpochEnd = true) {order : List Part} {n : Word32}
    (own : (s.advanceCounter.winWith order).et.own = .inTransmission n) :
    (s.advanceCounter.winWith order).EpochTurn (s.memberTick order) := by
  obtain ⟨u, before, after⟩ := State.memberTick_announces wraps order
  rw [State.submitEpoch_moving (by rw [before.et]; exact own)] at after
  exact before.trans after

/-! ## The counter at a wrap (R100) -/

theorem epochSucc_eq (e : Word32) : epochSucc e = if e = 0xFFFFFFFF then 1 else e + 1 := by
  have last : e.toNat = Config.lastEpoch ↔ e = 0xFFFFFFFF := by
    rw [BitVec.toNat_eq]
    rfl
  simp only [epochSucc, last]

theorem State.advanceCounter_wraps {s : State} (wraps : s.atEpochEnd = true) :
    s.advanceCounter = { s with et := { s.et with counter := 0, epoch := epochSucc s.et.epoch } } := by
  rw [State.advanceCounter, if_pos wraps]

/-- Settles O27: LC, MU and ET each take the epoch start once among the tick's parts, after a win that may come with it. -/
theorem wrapAnnounces : Obligations.WrapAnnounces := by
  intro s order running station wraps
  have atEnd : s.atEpochEnd = true := decide_eq_true wraps
  have member := isMember_iff.2 station
  have advanced := State.advanceCounter_wraps atEnd
  obtain ⟨prev, cur, leaves, stays, _⟩ := State.memberTick_lcAtEpochStart atEnd order
  have due := (State.wrapsNext_iff running station).2 wraps
  refine ⟨_, congrArg Host.Outcome.next (State.tickWhen_member running station due order),
    congrArg Host.Outcome.next (State.takeTick_member running station order), prev, cur,
    State.memberTick_spoken atEnd member order, fun mute c p => leaves ⟨mute, c, p⟩, stays, ?_, fun noEpoch n own => ?_, ?_⟩
  · intro m n lag digest win hm contends only epoch
    have hc : s.advanceCounter.contender = some m := by
      rw [advanced]
      exact State.contender_of_only hm contends only
    have won : s.advanceCounter.winWith order = s.advanceCounter.winArbitration := if_pos win
    have own : (s.advanceCounter.winWith order).et.own = .inTransmission n := by
      rw [won, State.winArbitration_own hc epoch]
    have turn := State.memberTick_moving atEnd own
    have lc := State.winArbitration_lc hc
    have message : s.advanceCounter.wonBy m = { m with payload := .epoch n 0 digest, cond := .inTransmission } := by
      rw [State.wonBy, advanced]
      simp only [State.fixPayload, epoch]
    refine ⟨by rw [turn.et, own], turn.queue.kept _ ?_ (.inl rfl), fun q hq isEpoch => ?_⟩
    · rw [won, lc, message]
      exact List.mem_cons_self
    · have old := turn.queue.epochs q hq isEpoch
      rw [won, lc, message] at old
      rcases List.mem_cons.1 old with same | old
      · exact .inl same
      · right
        rw [advanced] at old
        exact (List.mem_filter.1 old).1
  · have still := (State.winWith_noEpoch (s := s.advanceCounter) (order := order) (by rwa [advanced])).1
    have own' : (s.advanceCounter.winWith order).et.own = .inTransmission n := by
      rw [still, advanced]
      exact own
    rw [(State.memberTick_moving atEnd own').et, own']
  · rintro e rfl own noEpoch
    obtain ⟨still, epochs⟩ := State.winWith_noEpoch (s := s.advanceCounter) (order := order) (by rwa [advanced])
    obtain ⟨u, before, after⟩ := State.memberTick_announces atEnd order
    have et : u.et = { s.et with counter := 0, epoch := epochSucc s.et.epoch } := by
      rw [before.et, still, advanced]
    have ownU : ∀ k, u.et.own ≠ .inTransmission k := by
      rw [et]
      exact own
    have digest : u.mu.digest = s.mu.digest := by
      rw [before.digest]
      simp
    have muteS : (s.advanceCounter.winWith order).lc.mute = s.lc.mute := by
      rw [(s.advanceCounter.winWith_queueOnly order).mute]
      simp
    refine ⟨fun mute queue => ?_, fun _ muteT => ?_⟩
    · have memberU : u.isMember = true := by
        rw [State.isMember, before.station]
        simpa [State.isMember] using member
      have quiet : ∀ m ∈ u.lc.queue, m.payload.isEpoch = true → m.cond ≠ .inTransmission := by
        intro m hm epoch
        have old := epochs m (before.queue.epochs m hm epoch) epoch
        rw [advanced] at old
        exact queue m old epoch
      obtain ⟨queued, m, hm, payload, cond, fails, mark⟩ := State.submitEpoch_admitted memberU
        (before.mute (muteS.trans mute)) ownU quiet u.et.epoch
      rw [after.et, queued, et, ← epochSucc_eq]
      exact ⟨rfl, m, after.queue.kept m hm (.inr mark), cond, fails, 0, by rw [payload, et, digest]⟩
    · have muteU : u.lc.mute = true := by
        by_contra hu
        have := after.mute (by rw [(State.QueueOnly.submitEpoch _ u).mute]; simpa using hu)
        rw [muteT] at this
        cases this
      rw [after.et, State.submitEpoch_refused ownU muteU]

end Sys2Proof.Machine
end

