-- ==== Sys2Proof/Proofs/EpochCc.lean ====
section
/-! SUPPORT. The epoch start at CC, as the records and the spot request list see it (R22, R23, R26). -/

namespace Sys2Proof.Machine

/-! ## What it leaves alone -/

/-- Membership, ET, HR and TM are as they were, AS but for spot requests that are withdrawn, and no record is opened. -/
structure State.CcWork (s t : State) : Prop where
  mu    : t.mu = s.mu
  et    : t.et = s.et
  hr    : t.hr = s.hr
  tm    : t.tm = s.tm
  acq   : s.SpotListOnly t
  spots : t.acq.spotList.Sublist s.acq.spotList
  free  : ∀ i, s.recordAt i = none → t.recordAt i = none

theorem State.freeSlotOf_acq (m : Mark) (s : State) : (s.freeSlotOf m).acq.spotList.Sublist s.acq.spotList := by
  unfold State.freeSlotOf
  split
  · exact .refl _
  · exact List.filter_sublist

theorem State.abandon_spotList (id : Nat) (s : State) : (s.abandon id).acq.spotList.Sublist s.acq.spotList := by
  cases h : s.markOf id with
  | none =>
    simp only [State.abandon, h]
    exact .refl _
  | some m =>
    have told : ∀ u : State, ((u.retireLine id .empty).raise .captureAbandoned).acq = u.acq := fun u => by simp
    rw [State.abandon_eq h, told]
    exact State.freeSlotOf_acq m _

namespace State.CcWork

theorem refl (s : State) : s.CcWork s := ⟨rfl, rfl, rfl, rfl, rfl, .refl _, fun _ h => h⟩

theorem trans {s t u : State} (h : s.CcWork t) (k : t.CcWork u) : s.CcWork u :=
  ⟨k.mu.trans h.mu, k.et.trans h.et, k.hr.trans h.hr, k.tm.trans h.tm, h.acq.trans k.acq, k.spots.trans h.spots,
    fun i hi => k.free i (h.free i hi)⟩

theorem foldl {β : Type} {f : State → β → State} (h : ∀ (s : State) b, s.CcWork (f s b)) (l : List β) (s : State) :
    s.CcWork (l.foldl f s) :=
  foldl_keeps (fun t => s.CcWork t) f l (fun t b ht => ht.trans (h t b)) (refl s)

theorem markEpoch (id : Nat) (s : State) : s.CcWork (s.markEpoch id) := by
  rcases s.markEpoch_cases id with e | ⟨f, _, e⟩ | ⟨m, hm, e⟩
  · rw [e]
    exact refl s
  · rw [e]
    exact ⟨by simp, by simp, by simp, by simp, .of_eq (by simp), by simp, fun _ hi => hi⟩
  · rw [e]
    refine ⟨by simp, by simp, by simp, by simp, .abandon id s, s.abandon_spotList id, fun i hi => ?_⟩
    rw [State.abandon_recordAt hm, hi, ite_self]

theorem windowEpoch (i : Fin 4) (s : State) : s.CcWork (s.windowEpoch i) := by
  refine ⟨by simp, by simp, by simp, by simp, .of_eq (by simp), by simp, fun j hj => ?_⟩
  rw [State.recordAt_windowEpoch]
  split
  · rename_i e
    rw [e, hj]
    rfl
  · exact hj

theorem ccEpochStart (s : State) : s.CcWork s.ccEpochStart := by
  have marks : s.CcWork ((s.cc.marks.map Mark.id).foldl State.markEpoch s) := foldl (fun t id => markEpoch id t) _ s
  have windows : ∀ u : State, u.CcWork (slots.foldl (fun t i => t.windowEpoch i) u) :=
    foldl (fun t i => windowEpoch i t) slots
  exact marks.trans (windows _)

end State.CcWork

/-! ## The record of a slot that no entry loses -/

/-- No entry that holds the slot is abandoned at an epoch start (R22). -/
def State.Spared (s : State) (i : Fin 4) : Prop :=
  ∀ m ∈ s.cc.marks, m.slot = some i → m.starts = 0 ∨ m.deferred = true ∨ m.claim = .inTransmission

theorem State.mem_of_mem_markEpoch {s : State} {id : Nat} {x : Mark} (hx : x ∈ (s.markEpoch id).cc.marks)
    (other : x.id ≠ id) : x ∈ s.cc.marks := by
  rcases s.markEpoch_cases id with e | ⟨f, hf, e⟩ | ⟨m, hm, e⟩
  · rwa [e] at hx
  · rw [e] at hx
    obtain ⟨y, hy, rfl⟩ := List.mem_map.1 hx
    split at other
    · rename_i same
      exact absurd ((hf y).1.trans same) other
    · rename_i different
      rwa [if_neg different]
  · rw [e, State.abandon_marks hm] at hx
    exact (List.mem_filter.1 hx).1

/-- The entry of one identity at an epoch start leaves the record of a slot unless it is abandoned with it. -/
theorem State.recordAt_markEpoch {s : State} {id : Nat} {i : Fin 4}
    (spared : ∀ m ∈ s.cc.marks, m.id = id → m.slot = some i →
      m.starts = 0 ∨ m.deferred = true ∨ m.claim = .inTransmission) :
    (s.markEpoch id).recordAt i = s.recordAt i := by
  cases h : s.markOf id with
  | none => rw [State.markEpoch_none h]
  | some m =>
    obtain ⟨hm, same⟩ := State.markOf_some h
    cases deferred : m.deferred with
    | true => rw [State.markEpoch_deferred h deferred]
    | false =>
      by_cases starts : m.starts = 0
      · rw [State.markEpoch_first h deferred starts]
        rfl
      by_cases claim : m.claim = .inTransmission
      · rw [State.markEpoch_moving h deferred starts claim]
        rfl
      · have other : m.slot ≠ some i := fun slot => by
          have := spared m hm same slot
          simp [starts, deferred, claim] at this
        rw [State.markEpoch_abandons h deferred starts claim, State.abandon_recordAt h, if_neg other]

theorem State.recordAt_foldl_markEpoch {i : Fin 4} {l : List Nat} (nodup : l.Nodup) {s : State}
    (spared : ∀ m ∈ s.cc.marks, m.id ∈ l → m.slot = some i →
      m.starts = 0 ∨ m.deferred = true ∨ m.claim = .inTransmission) :
    (l.foldl State.markEpoch s).recordAt i = s.recordAt i := by
  induction l generalizing s with
  | nil => rfl
  | cons id l ih =>
    obtain ⟨fresh, nodup⟩ := List.nodup_cons.1 nodup
    rw [List.foldl_cons, ih nodup fun m hm later slot => ?_]
    · exact State.recordAt_markEpoch fun m hm same => spared m hm (same ▸ List.mem_cons_self)
    · exact spared m (State.mem_of_mem_markEpoch hm fun e => fresh (e ▸ later)) (List.mem_cons_of_mem _ later) slot

/-- The epoch start at CC leaves a spared record, but for its answer window (R26). -/
theorem State.recordAt_ccEpochStart {s : State} (distinct : s.IdsDistinct) {i : Fin 4} (spared : s.Spared i) :
    s.ccEpochStart.recordAt i = (s.recordAt i).map CapRecord.windowAtEpoch := by
  unfold State.ccEpochStart
  rw [recordAt_foldl_slots (fun t i => t.windowEpoch i) (fun r => some r.windowAtEpoch) (fun t i j => ?_),
    State.recordAt_foldl_markEpoch distinct fun m hm _ => spared m hm]
  · exact (Option.map_eq_bind).symm
  · rw [State.recordAt_windowEpoch]
    split
    · exact Option.map_eq_bind
    · rfl

end Sys2Proof.Machine
end

