-- ==== Sys2Proof/Proofs/FrameTick.lean ====
section
/-! SUPPORT. The frame at a tick in MEMBER: the one closed and the one begun, the write into the ring and into the records,
the monitors' steps, and what the alerts leave of a record (R55, R69, R70, R88, R182). -/

namespace Sys2Proof.Machine

/-! ## The tag word (R182) -/

theorem wordBit_getLsbD (b : Bool) (k n : Nat) :
    (wordBit b k).getLsbD n = (b && decide (n < 16) && decide (n = k)) := by
  cases b with
  | false => simp [wordBit]
  | true =>
    simp only [wordBit, if_true, BitVec.natCast_eq_ofNat, BitVec.getLsbD_ofNat, Nat.one_shiftLeft, Nat.testBit_two_pow,
      Bool.true_and]
    simp only [eq_comm]

theorem tagWord_getLsbD (epoch : Word32) (incomplete spot slip mark : Bool) {n : Nat} (h : n < 16) :
    (tagWord epoch incomplete spot slip mark).getLsbD n =
      ((decide (n < 12) && epoch.getLsbD n) || (incomplete && decide (n = 12)) || (spot && decide (n = 13)) ||
        (slip && decide (n = 14)) || (mark && decide (n = 15))) := by
  simp only [tagWord, BitVec.getLsbD_or, wordBit_getLsbD, BitVec.getLsbD_setWidth, h, decide_true, Bool.true_and,
    Bool.and_true]

theorem tagWord_low (epoch : Word32) (incomplete spot slip mark : Bool) {n : Nat} (h : n < 12) :
    (tagWord epoch incomplete spot slip mark).getLsbD n = epoch.getLsbD n := by
  have others : n ≠ 12 ∧ n ≠ 13 ∧ n ≠ 14 ∧ n ≠ 15 := by omega
  rw [tagWord_getLsbD _ _ _ _ _ (by omega)]
  simp [h, others]

theorem tagWord_flags (epoch : Word32) (incomplete spot slip mark : Bool) :
    (tagWord epoch incomplete spot slip mark).getLsbD 12 = incomplete ∧
      (tagWord epoch incomplete spot slip mark).getLsbD 13 = spot ∧
      (tagWord epoch incomplete spot slip mark).getLsbD 14 = slip ∧
      (tagWord epoch incomplete spot slip mark).getLsbD 15 = mark := by
  have bit := fun {n : Nat} (h : n < 16) => tagWord_getLsbD epoch incomplete spot slip mark h
  rw [bit (by decide), bit (by decide), bit (by decide), bit (by decide)]
  simp

theorem any_absent_iff (values : List Word) :
    values.any (· == Config.absentValue) = decide ((0x8000 : Word) ∈ values) := by
  rw [Bool.eq_iff_iff]
  simp [List.any_eq_true, Config.absentValue]

/-! ## The frame begun (R69, R70, R71) -/

/-- A tick's own frame begins: the sweep conversion in progress is cut, and the new frame's sweep starts. -/
def State.frameBegun (s : State) : State := s.cutSweep.beginFrame.startSweep

theorem State.acquire_first {s : State} (h : s.acq.assembly = none) : s.acquire = s.frameBegun := by
  simp only [State.acquire, h, State.frameBegun]

theorem State.acquire_closes {s : State} {a : Assembly} (h : s.acq.assembly = some a) :
    s.acquire = (s.frameBegun.writeFrame a.close).handOn a.close := by
  simp only [State.acquire, h, State.frameBegun]

/-- The converter once a sweep conversion is cut. -/
def State.converterCut (s : State) : Converter := if s.acq.converter = .sweep then .idle else s.acq.converter

/-- The frame that a tick begins. -/
def State.newAssembly (s : State) : Assembly where
  tick := s.et.counter
  epoch := s.et.epoch
  values := List.replicate s.cfg.sweep.length 0x8000
  spot := s.acq.run.isSome
  slip := s.acq.slipPending
  mark := false
  pos := 0

/-- The sweep of a new frame starts (R68, R71). -/
def State.SweepStarts (s : State) : Prop :=
  (s.mu.station = .member ∧ 0 < s.cfg.sweep.length ∧ s.acq.spotList.any (fun p => !p.inRun) = false) ∧
    s.converterCut = .idle

theorem State.cutSweep_eq (s : State) : s.cutSweep = { s with acq := { s.acq with converter := s.converterCut } } := by
  unfold State.cutSweep State.converterCut
  split <;> rfl

theorem State.sweepMayStart_begun (s : State) :
    (State.beginFrame { s with acq := { s.acq with converter := s.converterCut } }).sweepMayStart = true ↔ s.SweepStarts :=
  (State.sweepMayStart_iff rfl).trans Iff.rfl

theorem State.frameBegun_eq (s : State) : s.frameBegun = { s with acq := { s.acq with
    converter := s.frameBegun.acq.converter, assembly := some s.newAssembly, slipPending := false } } := by
  unfold State.frameBegun
  rw [State.cutSweep_eq, State.startSweep_eq]
  rfl

theorem State.frameBegun_sweeps {s : State} (h : s.SweepStarts) : s.frameBegun.acq.converter = .sweep := by
  unfold State.frameBegun
  rw [State.cutSweep_eq, State.startSweep_eq, if_pos (s.sweepMayStart_begun.2 h)]

theorem State.frameBegun_waits {s : State} (h : ¬s.SweepStarts) : s.frameBegun.acq.converter = s.converterCut := by
  unfold State.frameBegun
  rw [State.cutSweep_eq, State.startSweep_eq, if_neg (mt s.sweepMayStart_begun.1 h)]
  rfl

theorem State.acquire_acq (s : State) : s.acquire.acq = s.frameBegun.acq := by
  cases h : s.acq.assembly with
  | none => rw [State.acquire_first h]
  | some a => rw [State.acquire_closes h]; simp

/-! ## The write, and the monitors -/

theorem State.frameBegun_hr (s : State) : s.frameBegun.hr = s.hr := by simp [State.frameBegun]

theorem State.frameBegun_tm (s : State) : s.frameBegun.tm = s.tm := by simp [State.frameBegun]

theorem State.frameBegun_cc (s : State) : s.frameBegun.cc = s.cc := by simp [State.frameBegun]

theorem State.depth_of_hr {s t : State} (h : t.hr = s.hr) : t.depth = s.depth := by simp only [State.depth, h]

theorem State.acquire_hr {s : State} {a : Assembly} (h : s.acq.assembly = some a) :
    s.acquire.hr = { s.hr with
      nextWrite := s.hr.nextWrite + 1
      writePos := (s.hr.writePos + 1) % s.depth
      frames := (if s.hr.frames.length = s.depth then s.hr.frames.drop 1 else s.hr.frames) ++ [a.close] } := by
  rw [State.acquire_closes h, (State.handOn_frame _ _).2.2.1, State.hr_writeFrame, State.keptAtWrite,
    State.depth_of_hr s.frameBegun_hr, State.frameBegun_hr]

theorem evaluate_getElem? (f : Frame) {ps : List MonitorParams} {ms : List MonitorState} {k : Nat} {p : MonitorParams}
    {m : MonitorState} (hp : ps[k]? = some p) (hm : ms[k]? = some m) :
    (evaluate f ps ms).1[k]? = some (monitorStep p (f.valueWord p.entry) m).1 := by
  induction ps generalizing ms k with
  | nil => simp at hp
  | cons p' ps ih =>
    cases ms with
    | nil => simp at hm
    | cons m' ms =>
      cases k with
      | zero =>
        simp only [List.getElem?_cons_zero, Option.some.injEq] at hp hm
        simp [evaluate, hp, hm]
      | succ k => exact ih (by simpa using hp) (by simpa using hm)

theorem State.handOn_tm (f : Frame) (s : State) :
    (s.handOn f).tm = { monitors := (evaluate f s.cfg.monitors s.tm.monitors).1 } := by
  simp [State.handOn]

theorem State.acquire_tm {s : State} {a : Assembly} (h : s.acq.assembly = some a) {k : Nat} {p : MonitorParams}
    {m : MonitorState} (hp : s.cfg.monitors[k]? = some p) (hm : s.tm.monitors[k]? = some m) :
    s.acquire.tm.monitors[k]? = some (monitorStep p ((a.close.values[p.entry - 1]?).getD 0x8000) m).1 := by
  rw [State.acquire_closes h, State.handOn_tm]
  refine evaluate_getElem? a.close ?_ ?_
  · simpa [State.cfg, State.frameBegun] using hp
  · simpa [State.frameBegun] using hm

/-! ## A record beside the copying -/

/-- The record has the same frames, the same part of them flagged, and the same way to go; its phase is left alone once the
answers are closed. -/
structure CapRecord.SameFrames (r r' : CapRecord) : Prop where
  frames     : r'.frames = r.frames
  cursor     : r'.cursor = r.cursor
  done       : r'.framesDone = r.framesDone
  incomplete : r'.flags.incompleteFrames = r.flags.incompleteFrames
  slip       : r'.flags.timeSlip = r.flags.timeSlip
  fixed      : r'.seq = r.seq ∧ r'.mark = r.mark ∧ r'.pre = r.pre ∧ r'.total = r.total ∧ r'.words = r.words
  filling    : ∀ c, r.phase = .filling c → c.answersClosed = true → r'.phase = .filling c
  complete   : ∀ c, r.phase = .complete c → r'.phase = .complete c

theorem CapRecord.SameFrames.refl (r : CapRecord) : r.SameFrames r :=
  ⟨rfl, rfl, rfl, rfl, rfl, ⟨rfl, rfl, rfl, rfl, rfl⟩, fun _ h _ => h, fun _ h => h⟩

theorem CapRecord.SameFrames.trans {r r' r'' : CapRecord} (h : r.SameFrames r') (k : r'.SameFrames r'') :
    r.SameFrames r'' := by
  obtain ⟨seq, mark, pre, total, words⟩ := h.fixed
  obtain ⟨seq', mark', pre', total', words'⟩ := k.fixed
  exact ⟨k.frames.trans h.frames, k.cursor.trans h.cursor, k.done.trans h.done, k.incomplete.trans h.incomplete,
    k.slip.trans h.slip, ⟨seq'.trans seq, mark'.trans mark, pre'.trans pre, total'.trans total, words'.trans words⟩,
    fun c hc closed => k.filling c (h.filling c hc closed) closed, fun c hc => k.complete c (h.complete c hc)⟩

theorem CapRecord.completed_sameFrames {r : CapRecord} {c d : Capture} (phase : r.phase = .filling c)
    (opened : c.answersClosed = false) :
    r.SameFrames (CapRecord.completed { r with phase := .filling d }) := by
  have other : ∀ e, r.phase = .filling e → e.answersClosed = true → False := by
    intro e he closed
    rw [phase] at he
    cases he
    rw [opened] at closed
    cases closed
  have notComplete : ∀ e, r.phase = .complete e → False := by
    intro e he
    rw [phase] at he
    cases he
  rw [CapRecord.completed_of_filling (c := d) rfl]
  split
  · exact ⟨rfl, rfl, rfl, rfl, rfl, ⟨rfl, rfl, rfl, rfl, rfl⟩, fun e he cl => (other e he cl).elim,
      fun e he => (notComplete e he).elim⟩
  · exact ⟨rfl, rfl, rfl, rfl, rfl, ⟨rfl, rfl, rfl, rfl, rfl⟩, fun e he cl => (other e he cl).elim,
      fun e he => (notComplete e he).elim⟩

theorem CapRecord.windowAtEpoch_sameFrames (r : CapRecord) : r.SameFrames r.windowAtEpoch := by
  cases phase : r.phase with
  | opened =>
    have same : r.windowAtEpoch = r := by simp only [CapRecord.windowAtEpoch, phase]
    rw [same]
    exact .refl r
  | complete c =>
    have same : r.windowAtEpoch = r := by simp only [CapRecord.windowAtEpoch, phase]
    rw [same]
    exact .refl r
  | filling c =>
    cases opened : c.answersClosed with
    | true =>
      have same : r.windowAtEpoch = r := by simp [CapRecord.windowAtEpoch, phase, opened]
      rw [same]
      exact .refl r
    | false =>
      by_cases first : c.answerCount = 0
      · rw [CapRecord.windowAtEpoch_first phase opened first]
        refine ⟨rfl, rfl, rfl, rfl, rfl, ⟨rfl, rfl, rfl, rfl, rfl⟩, fun e he closed => ?_, fun e he => ?_⟩
        · rw [phase] at he
          cases he
          rw [opened] at closed
          cases closed
        · rw [phase] at he
          cases he
      · rw [CapRecord.windowAtEpoch_second phase opened first]
        exact CapRecord.completed_sameFrames phase opened

theorem TakesFrames.after {copied : List Frame} {r r₁ r₂ : CapRecord} (h : TakesFrames copied r r₁)
    (k : r₁.SameFrames r₂) : TakesFrames copied r r₂ := by
  obtain ⟨frames, cursor, done, incomplete, slip, phase, seq, mark, pre, total, words⟩ := h
  obtain ⟨seq', mark', pre', total', words'⟩ := k.fixed
  refine ⟨k.frames.trans frames, k.cursor.trans cursor, k.done.trans done, k.incomplete.trans incomplete,
    k.slip.trans slip, fun some_ c hc closed => ?_, seq'.trans seq, mark'.trans mark, pre'.trans pre,
    total'.trans total, words'.trans words⟩
  have taken := phase some_ c hc closed
  split at taken
  · rename_i finished
    rw [if_pos finished]
    exact k.complete c taken
  · rename_i going
    rw [if_neg going]
    exact k.filling c taken closed

theorem TakesFrames.before {copied : List Frame} {r r₁ r₂ : CapRecord} (h : r.SameFrames r₁)
    (k : TakesFrames copied r₁ r₂) : TakesFrames copied r r₂ := by
  obtain ⟨frames, cursor, done, incomplete, slip, phase, seq, mark, pre, total, words⟩ := k
  obtain ⟨seq', mark', pre', total', words'⟩ := h.fixed
  rw [h.frames, total'] at cursor done phase
  rw [h.frames] at frames
  refine ⟨frames, ?_, ?_, ?_, ?_, fun some_ c hc closed => phase some_ c (h.filling c hc closed) closed, seq.trans seq',
    mark.trans mark', pre.trans pre', total.trans total', words.trans words'⟩
  · rw [cursor, h.cursor]
  · rw [done, h.done]
  · rw [incomplete, h.incomplete]
  · rw [slip, h.slip, h.frames, pre']

theorem State.copiedAtWrite_same {s t : State} (hr : t.hr = s.hr) {r r' : CapRecord} (h : r.SameFrames r') (f : Frame) :
    t.copiedAtWrite f r' = s.copiedAtWrite f r := by
  unfold State.copiedAtWrite
  rw [State.depth_of_hr hr, hr, h.cursor, h.frames, h.fixed.2.2.2.1]

/-! ## The alerts, at the records -/

/-- Every record keeps its frames and its way. -/
def State.FramesStay (s t : State) : Prop := ∀ i, Option.Rel CapRecord.SameFrames (s.recordAt i) (t.recordAt i)

namespace State.FramesStay

theorem of_recordAt {s t : State} (h : ∀ i, t.recordAt i = s.recordAt i) : s.FramesStay t := by
  intro i
  rw [h i]
  cases s.recordAt i with
  | none => exact .none
  | some r => exact .some (.refl r)

theorem refl (s : State) : s.FramesStay s := of_recordAt fun _ => rfl

theorem of_cc {s t : State} (h : t.cc = s.cc) : s.FramesStay t := of_recordAt (State.recordAt_of_cc h)

theorem trans {s t u : State} (h : s.FramesStay t) (k : t.FramesStay u) : s.FramesStay u := by
  intro i
  have hi := h i
  have ki := k i
  generalize s.recordAt i = o, t.recordAt i = o', u.recordAt i = o'' at hi ki ⊢
  cases hi with
  | none => exact ki
  | some hr =>
    cases ki with
    | some kr => exact .some (hr.trans kr)

theorem modifyRecord (i : Fin 4) {f : CapRecord → CapRecord} (h : ∀ r : CapRecord, r.SameFrames (f r)) (s : State) :
    s.FramesStay (s.modifyRecord i f) := by
  intro j
  rw [State.recordAt_modifyRecord]
  split
  · rename_i e
    rw [e]
    cases s.recordAt j with
    | none => exact .none
    | some r => exact .some (h r)
  · exact refl s j

theorem loseAnnounce_sameFrames (r : CapRecord) : r.SameFrames r.loseAnnounce :=
  ⟨rfl, rfl, rfl, rfl, rfl, ⟨rfl, rfl, rfl, rfl, rfl⟩, fun _ h _ => h, fun _ h => h⟩

theorem claimLost (id : Nat) (s : State) : s.FramesStay (s.claimLost id) := by
  unfold State.claimLost
  split
  · exact refl s
  · have lost : s.FramesStay (s.modifyMark id (fun m => { m with claim := .lost })) := of_recordAt fun _ => rfl
    dsimp only
    split
    · exact lost
    · exact lost.trans (modifyRecord _ loseAnnounce_sameFrames _)

theorem submitClaim (id : Nat) (s : State) : s.FramesStay (s.submitClaim id) := by
  unfold State.submitClaim
  split
  · exact refl s
  split
  · exact claimLost id s
  · rename_i h
    have sent := of_cc (State.submit_frame h).2.2.1
    exact sent.trans (of_recordAt fun _ => rfl)

theorem originate (m : Mark) (s : State) : s.FramesStay (s.originate m) := by
  have own : s.FramesStay (s.modifyMark m.id (fun x => { x with originator := true })) := of_recordAt fun _ => rfl
  unfold State.originate
  split
  · exact own
  · refine own.trans (modifyRecord _ (fun r => ?_) _)
    exact ⟨rfl, rfl, rfl, rfl, rfl, ⟨rfl, rfl, rfl, rfl, rfl⟩, fun _ h _ => h, fun _ h => h⟩

theorem coOriginate (s : State) : s.FramesStay s.coOriginate := by
  cases line : s.cc.lineEntry with
  | claimed => exact of_recordAt fun _ => by rw [State.coOriginate_claimed line]
  | empty => exact of_recordAt fun _ => by rw [State.coOriginate_empty line]; rfl
  | entry id =>
    cases found : s.markOf id with
    | none => exact of_recordAt fun _ => by simp only [State.coOriginate, line, found]; rfl
    | some m =>
      cases own : m.originator with
      | true =>
        rw [State.coOriginate_own line found own]
        split
        · exact submitClaim id s
        · exact refl s
      | false =>
        rw [State.coOriginate_other line found own]
        exact (originate m s).trans (submitClaim id _)

theorem alert (s : State) : s.FramesStay s.alert := by
  unfold State.alert
  split
  · exact refl s
  split
  · exact of_cc (by simp)
  split
  · exact of_recordAt fun _ => rfl
  split
  · exact refl s
  · exact coOriginate s

theorem handOn (f : Frame) (s : State) : s.FramesStay (s.handOn f) := by
  have many : ∀ n u, State.FramesStay u (State.alerts n u) := by
    intro n
    induction n with
    | zero => exact refl
    | succ n ih => exact fun u => (alert u).trans (ih u.alert)
  have evaluated : s.FramesStay { s with tm := { monitors := (evaluate f s.cfg.monitors s.tm.monitors).1 } } := of_cc rfl
  exact evaluated.trans (many _ _)

theorem some {s t : State} (h : s.FramesStay t) {i : Fin 4} {r : CapRecord} (record : s.recordAt i = some r) :
    ∃ r', t.recordAt i = some r' ∧ r.SameFrames r' := by
  have rel := h i
  rw [record] at rel
  generalize ht : t.recordAt i = o at rel
  cases rel with
  | some same => exact ⟨_, rfl, same⟩

end State.FramesStay

/-- A tick's acquisition at a record: the frame closed is copied there as a write copies it (R55, R61, R62). -/
theorem State.acquire_record {s : State} {a : Assembly} (h : s.acq.assembly = some a) (place : 0 < s.depth)
    (counted : s.depth < 4294967296) {i : Fin 4} {r : CapRecord} (record : s.recordAt i = some r) :
    ∃ r', s.acquire.recordAt i = some r' ∧ TakesFrames (s.copiedAtWrite a.close r) r r' := by
  have depth := State.depth_of_hr s.frameBegun_hr
  have begun : s.frameBegun.recordAt i = some r := (State.recordAt_of_cc s.frameBegun_cc i).trans record
  obtain ⟨r', hr', same⟩ := (State.FramesStay.handOn a.close _).some (State.recordAt_writeFrame_some begun a.close)
  refine ⟨r', by rw [State.acquire_closes h, hr'], ?_⟩
  rw [← State.copiedAtWrite_same s.frameBegun_hr (.refl r)]
  exact (State.takesFrames_afterWrite (by rwa [depth]) (by rwa [depth]) a.close r).after same

end Sys2Proof.Machine
end

