-- ==== Sys2Proof/Proofs/MemberTick.lean ====
section
/-! O26. A tick in MEMBER: AS closes and begins a frame once, among parts that leave what it reads and what it makes. -/

namespace Sys2Proof.Machine

/-! ## AS among the parts -/

/-- What the parts of a tick but AS's own leave: the timebase, the ring and the monitors, AS but for spot requests that CC's
epoch start withdraws, and the FREE records. -/
structure State.BesideFrame (wrapped : Bool) (s t : State) : Prop where
  et      : s.OwnOnly t
  station : t.mu.station = s.mu.station
  config  : t.mu.config = s.mu.config
  hr      : t.hr = s.hr
  tm      : t.tm = s.tm
  acq     : s.SpotListOnly t
  spots   : t.acq.spotList.Sublist s.acq.spotList
  listed  : wrapped = false → t.acq.spotList = s.acq.spotList
  free    : ∀ i, s.recordAt i = none → t.recordAt i = none

namespace State.BesideFrame
variable {wrapped : Bool}

theorem refl (s : State) : s.BesideFrame wrapped s :=
  ⟨.of_eq rfl, rfl, rfl, rfl, rfl, .refl s, .refl _, fun _ => rfl, fun _ h => h⟩

theorem trans {s t u : State} (h : s.BesideFrame wrapped t) (k : t.BesideFrame wrapped u) : s.BesideFrame wrapped u :=
  ⟨h.et.trans k.et, k.station.trans h.station, k.config.trans h.config, k.hr.trans h.hr, k.tm.trans h.tm,
    h.acq.trans k.acq, k.spots.trans h.spots, fun hw => (k.listed hw).trans (h.listed hw),
    fun i hi => k.free i (h.free i hi)⟩

/-- A part that leaves AS and the records alone. -/
theorem of_still {s t : State} (et : s.OwnOnly t) (station : t.mu.station = s.mu.station)
    (config : t.mu.config = s.mu.config) (hr : t.hr = s.hr) (tm : t.tm = s.tm) (acq : t.acq = s.acq)
    (records : ∀ i, t.recordAt i = s.recordAt i) : s.BesideFrame wrapped t :=
  ⟨et, station, config, hr, tm, .of_eq acq, by rw [acq], fun _ => by rw [acq], fun i hi => (records i).trans hi⟩

theorem muEpochStart (s : State) : s.BesideFrame wrapped s.muEpochStart :=
  of_still (.of_eq (by simp)) (State.tickPart_station true s s .muEpoch) (State.tickPart_mu_fixed true s s .muEpoch).2
    (by simp) (by simp) (by simp) (State.recordAt_of_cc (by simp))

theorem tickPart {p : Part} (hp : p ≠ .acquisition) (before s : State) :
    s.BesideFrame wrapped (State.tickPart wrapped before s p) := by
  unfold State.tickPart
  cases p with
  | ccTick =>
    exact of_still (.of_eq (by simp)) (by simp) (by simp) (by simp) (by simp) (by simp) (State.ccTick_tables _ _ s).2
  | acquisition => exact absurd rfl hp
  | epochSubmit =>
    dsimp only
    split
    · exact of_still (.submitEpoch _ s) (by simp) (by simp) (by simp) (by simp) (by simp) (State.recordAt_of_cc (by simp))
    · exact refl s
  | lcEpoch =>
    dsimp only
    split
    · exact of_still (.of_eq (by simp)) (by simp) (by simp) (by simp) (by simp) (by simp) (State.recordAt_of_cc (by simp))
    · exact refl s
  | ccEpoch =>
    dsimp only
    split
    · rename_i wraps
      have work := State.CcWork.ccEpochStart s
      exact ⟨.of_eq work.et, by rw [work.mu], by rw [work.mu], work.hr, work.tm, work.acq, work.spots,
        fun never => absurd wraps (by simp [never]), work.free⟩
    · exact refl s
  | muEpoch =>
    dsimp only
    split
    · exact muEpochStart s
    · exact refl s
  | muTake => exact refl s
  | win => exact refl s

theorem cfg {s t : State} (h : s.BesideFrame wrapped t) : t.cfg = s.cfg := by simp only [State.cfg, h.config]

/-- A waiting place after the parts was waiting before them. -/
theorem waiting {s t : State} (h : s.BesideFrame wrapped t) (none_ : s.acq.spotList.any (fun p => !p.inRun) = false) :
    t.acq.spotList.any (fun p => !p.inRun) = false := by
  rw [List.any_eq_false] at none_ ⊢
  exact fun p hp => none_ p (h.spots.subset hp)

end State.BesideFrame

/-- The tick up to AS's part, and from it on. -/
structure State.TickAround (s u t : State) : Prop where
  before : (s.advanceCounter).BesideFrame s.atEpochEnd u
  after  : u.acquire.BesideFrame s.atEpochEnd t

theorem State.winWith_besideFrame (wrapped : Bool) (order : List Part) (s : State) :
    s.BesideFrame wrapped (s.winWith order) :=
  .of_still (.winWith order s) (by simp) (by simp) (by simp) (by simp) (by simp) (s.winWith_recordAt order)

theorem State.memberTick_acquires (s : State) (order : List Part) : ∃ u, s.TickAround u (s.memberTick order) := by
  obtain ⟨u, before, after⟩ := State.memberTick_around (R := State.BesideFrame s.atEpochEnd) State.BesideFrame.refl
    State.BesideFrame.trans (q := .acquisition) (by decide) (s := s) (fun v p hp => .tickPart hp s v) order
  exact ⟨u, (State.winWith_besideFrame _ order _).trans before, after⟩

/-! ## What the tick makes at ET, AS, HR and TM -/

theorem State.advanceCounter_goes {s : State} (h : s.atEpochEnd = false) :
    s.advanceCounter = { s with et := { s.et with counter := s.et.counter + 1 } } := by
  rw [State.advanceCounter, if_neg (by simp [h])]

namespace State.TickAround
variable {s u t : State}

theorem et (h : s.TickAround u t) : s.advanceCounter.OwnOnly t :=
  (h.before.et.trans (.of_eq (by simp))).trans h.after.et

theorem acqBefore (h : s.TickAround u t) : u.acq = { s.acq with spotList := u.acq.spotList } := by
  simpa [State.SpotListOnly] using h.before.acq

theorem newAssembly (h : s.TickAround u t) : u.newAssembly =
    { tick := t.et.counter, epoch := t.et.epoch, values := List.replicate s.cfg.sweep.length 0x8000
      spot := s.acq.run.isSome, slip := s.acq.slipPending, mark := false, pos := 0 } := by
  have counter : t.et.counter = u.et.counter := by rw [h.after.et.counter]; simp
  have epoch : t.et.epoch = u.et.epoch := by rw [h.after.et.epoch]; simp
  have cfg : u.cfg = s.cfg := by rw [h.before.cfg]; simp [State.cfg]
  have acq := h.acqBefore
  simp only [State.newAssembly, counter, epoch, cfg]
  rw [acq]

theorem acq (h : s.TickAround u t) : t.acq = { s.acq with
    converter := u.frameBegun.acq.converter, assembly := some u.newAssembly, slipPending := false
    spotList := t.acq.spotList } := by
  have acq := h.acqBefore
  rw [h.after.acq, State.acquire_acq, State.frameBegun_eq]
  dsimp only
  rw [acq]

/-- A conversion that no tick cuts goes on (R68, R70). -/
theorem converter_kept (h : s.TickAround u t) (idle : s.acq.converter ≠ .idle) (sweep : s.acq.converter ≠ .sweep) :
    t.acq.converter = s.acq.converter := by
  have acq := h.acqBefore
  have same : u.acq.converter = s.acq.converter := by rw [acq]
  have cut : u.converterCut = s.acq.converter := by rw [State.converterCut, same, if_neg sweep]
  rw [h.acq]
  exact (State.frameBegun_waits fun starts => idle (cut ▸ starts.2)).trans cut

/-- A converter that is free, or sweeping, takes up the sweep of the new frame, unless a place waits (R71). -/
theorem converter_free (h : s.TickAround u t) (station : s.mu.station = .member)
    (free : s.acq.converter = .idle ∨ s.acq.converter = .sweep) :
    (s.cfg.sweep ≠ [] → s.acq.spotList.any (fun p => !p.inRun) = false → t.acq.converter = .sweep) ∧
      ((s.cfg.sweep = [] ∨ t.acq.spotList.any (fun p => !p.inRun) = true) → t.acq.converter = .idle) := by
  have acq := h.acqBefore
  have same : u.acq.converter = s.acq.converter := by rw [acq]
  have cfg : u.cfg = s.cfg := by rw [h.before.cfg]; simp [State.cfg]
  have here : u.mu.station = .member := by rw [h.before.station]; simpa using station
  have cut : u.converterCut = .idle := by
    rw [State.converterCut, same]
    rcases free with idle | sweep
    · rw [if_neg (by simp [idle]), idle]
    · rw [if_pos sweep]
  refine ⟨fun some_ none_ => ?_, fun blocked => ?_⟩
  · rw [h.acq]
    refine State.frameBegun_sweeps ⟨⟨here, ?_, h.before.waiting (by simpa using none_)⟩, cut⟩
    rw [cfg]
    exact List.length_pos_of_ne_nil some_
  · rw [h.acq]
    refine (State.frameBegun_waits fun starts => ?_).trans cut
    obtain ⟨⟨_, left, none_⟩, _⟩ := starts
    rcases blocked with empty | waits
    · rw [cfg, empty] at left
      exact absurd left (by simp)
    · have : t.acq.spotList.any (fun p => !p.inRun) = false := by
        refine h.after.waiting ?_
        rw [State.acquire_acq, State.frameBegun_eq]
        exact none_
      rw [waits] at this
      cases this

theorem spotList (h : s.TickAround u t) (still : s.atEpochEnd = false) : t.acq.spotList = s.acq.spotList := by
  rw [h.after.listed still, State.acquire_acq, State.frameBegun_eq]
  refine (h.before.listed still).trans ?_
  simp

theorem assembly (h : s.TickAround u t) : u.acq.assembly = s.acq.assembly := by
  have acq := h.acqBefore
  rw [acq]

theorem free (h : s.TickAround u t) {i : Fin 4} (hi : s.recordAt i = none) : t.recordAt i = none := by
  refine h.after.free i ?_
  have begun : u.recordAt i = none := h.before.free i ((State.recordAt_of_cc (by simp) i).trans hi)
  exact (State.MarksTurn.tickPart (p := .acquisition) (by decide) false u u).free i begun

theorem still (h : s.TickAround u t) (none_ : s.acq.assembly = none) : t.hr = s.hr ∧ t.tm = s.tm := by
  rw [h.after.hr, h.after.tm, State.acquire_first (h.assembly.trans none_), State.frameBegun_hr, State.frameBegun_tm,
    h.before.hr, h.before.tm]
  simp

theorem hr (h : s.TickAround u t) {a : Assembly} (some_ : s.acq.assembly = some a) :
    t.hr = { s.hr with
      nextWrite := s.hr.nextWrite + 1
      writePos := (s.hr.writePos + 1) % s.depth
      frames := (if s.hr.frames.length = s.depth then s.hr.frames.drop 1 else s.hr.frames) ++ [a.close] } := by
  have same : u.hr = s.hr := by rw [h.before.hr]; simp
  rw [h.after.hr, State.acquire_hr (h.assembly.trans some_), State.depth_of_hr same, same]

theorem monitor (h : s.TickAround u t) {a : Assembly} (some_ : s.acq.assembly = some a) {k : Nat} {p : MonitorParams}
    {m : MonitorState} (hp : s.cfg.monitors[k]? = some p) (hm : s.tm.monitors[k]? = some m) :
    t.tm.monitors[k]? = some (monitorStep p ((a.close.values[p.entry - 1]?).getD 0x8000) m).1 := by
  have cfg : u.cfg = s.cfg := by rw [h.before.cfg]; simp [State.cfg]
  have tm : u.tm = s.tm := by rw [h.before.tm]; simp
  rw [h.after.tm]
  exact State.acquire_tm (h.assembly.trans some_) (by rwa [cfg]) (by rwa [tm])

end State.TickAround

/-! ## A record, at the frame's copying and at the epoch start -/

/-- What the parts of a tick leave that are neither AS's nor CC's at the epoch start: the ring, the frame under assembly,
the entries and the records. -/
structure State.BesideRecords (s t : State) : Prop where
  hr       : t.hr = s.hr
  assembly : t.acq.assembly = s.acq.assembly
  marks    : t.cc.marks = s.cc.marks
  records  : ∀ i, t.recordAt i = s.recordAt i

namespace State.BesideRecords

theorem refl (s : State) : s.BesideRecords s := ⟨rfl, rfl, rfl, fun _ => rfl⟩

theorem trans {s t u : State} (h : s.BesideRecords t) (k : t.BesideRecords u) : s.BesideRecords u :=
  ⟨k.hr.trans h.hr, k.assembly.trans h.assembly, k.marks.trans h.marks, fun i => (k.records i).trans (h.records i)⟩

theorem of_cc {s t : State} (hr : t.hr = s.hr) (acq : t.acq = s.acq) (cc : t.cc = s.cc) : s.BesideRecords t :=
  ⟨hr, by rw [acq], by rw [cc], State.recordAt_of_cc cc⟩

theorem tickPart {p : Part} (frame : p ≠ .acquisition) (start : p ≠ .ccEpoch) (wrapped : Bool) (before s : State) :
    s.BesideRecords (State.tickPart wrapped before s p) := by
  unfold State.tickPart
  cases p with
  | ccTick =>
    obtain ⟨marks, records⟩ := State.ccTick_tables before.markAsserted before.cc.driver s
    exact ⟨by simp, by simp, marks, records⟩
  | acquisition => exact absurd rfl frame
  | ccEpoch => exact absurd rfl start
  | epochSubmit =>
    dsimp only
    split
    · exact of_cc (by simp) (by simp) (by simp)
    · exact refl s
  | lcEpoch =>
    dsimp only
    split
    · exact of_cc (by simp) (by simp) (by simp)
    · exact refl s
  | muEpoch =>
    dsimp only
    split
    · exact of_cc (by simp) (by simp) (by simp)
    · exact refl s
  | muTake => exact refl s
  | win => exact refl s

end State.BesideRecords

/-- No entry that holds the slot would be abandoned at an epoch start, and no later loss of its CLAIM changes that. -/
def State.SparedFor (s : State) (i : Fin 4) : Prop :=
  ∀ m ∈ s.cc.marks, m.slot = some i → m.starts = 0 ∨ m.deferred = true ∨ (m.claim = .inTransmission ∧ m.originator = true)

theorem State.SparedFor.spared {s : State} {i : Fin 4} (h : s.SparedFor i) : s.Spared i := fun m hm slot =>
  (h m hm slot).imp_right fun k => k.imp_right fun moving => moving.1

theorem State.SparedFor.turn {s t : State} {i : Fin 4} (h : s.SparedFor i) (distinct : s.IdsDistinct)
    (turn : s.MarksTurn t) : t.SparedFor i := by
  have stays := turn.marks distinct
  generalize ht : t.cc.marks = l at stays
  intro x hx slot
  rw [ht] at hx
  have back : ∃ m ∈ s.cc.marks, m.Stays x := by
    clear ht h turn distinct
    generalize s.cc.marks = l' at stays
    induction stays with
    | nil => cases hx
    | cons head _ ih =>
      rcases List.mem_cons.1 hx with rfl | hx
      · exact ⟨_, List.mem_cons_self, head⟩
      · obtain ⟨m, hm, k⟩ := ih hx
        exact ⟨m, List.mem_cons_of_mem _ hm, k⟩
  obtain ⟨m, hm, k⟩ := back
  rw [k.starts, k.deferred]
  exact (h m hm (k.slot.symm.trans slot)).imp_right fun o => o.imp_right fun ⟨moving, own⟩ => k.moving moving own

/-- The part of CC's epoch start leaves a spared record, but for its window. -/
theorem State.ccEpochPart_record {v : State} {wrapped : Bool} {before : State} (distinct : v.IdsDistinct) {i : Fin 4}
    (spared : wrapped = true → v.Spared i) {r : CapRecord} (record : v.recordAt i = some r) :
    ∃ r', (State.tickPart wrapped before v .ccEpoch).recordAt i = some r' ∧ r.SameFrames r' := by
  cases wrapped with
  | true =>
    refine ⟨r.windowAtEpoch, ?_, r.windowAtEpoch_sameFrames⟩
    simp only [State.tickPart, if_true]
    rw [State.recordAt_ccEpochStart distinct (spared rfl), record]
    rfl
  | false => exact ⟨r, by simpa [State.tickPart] using record, .refl r⟩

theorem State.ccEpochPart_hr (wrapped : Bool) (before v : State) :
    (State.tickPart wrapped before v .ccEpoch).hr = v.hr ∧
      (State.tickPart wrapped before v .ccEpoch).acq.assembly = v.acq.assembly := by
  cases wrapped with
  | true =>
    have work := State.CcWork.ccEpochStart v
    simp only [State.tickPart, if_true]
    exact ⟨work.hr, by rw [work.acq]⟩
  | false => simp [State.tickPart]

/-- The frames that acquisition copies into a record. -/
def State.copiedAtTick (s : State) (r : CapRecord) : List Frame :=
  match s.acq.assembly with
  | none => []
  | some a => s.copiedAtWrite a.close r

theorem State.acquire_takes {v : State} (place : 0 < v.depth) (counted : v.depth < 4294967296) {i : Fin 4}
    {r : CapRecord} (record : v.recordAt i = some r) :
    ∃ r', v.acquire.recordAt i = some r' ∧ TakesFrames (v.copiedAtTick r) r r' := by
  unfold State.copiedAtTick
  cases h : v.acq.assembly with
  | none =>
    refine ⟨r, ?_, .nil r⟩
    rw [State.acquire_first h, State.recordAt_of_cc v.frameBegun_cc, record]
  | some a => exact State.acquire_record h place counted record

theorem State.copiedAtTick_same {s t : State} (hr : t.hr = s.hr) (assembly : t.acq.assembly = s.acq.assembly)
    {r r' : CapRecord} (h : r.SameFrames r') : t.copiedAtTick r' = s.copiedAtTick r := by
  unfold State.copiedAtTick
  rw [assembly]
  split
  · rfl
  · exact State.copiedAtWrite_same hr h _

theorem State.memberTick_record {s : State} {order : List Part} (place : 0 < s.depth) (counted : s.depth < 4294967296)
    (distinct : s.IdsDistinct) {i : Fin 4} {r : CapRecord} (record : s.recordAt i = some r)
    (spared : s.atEpochEnd = true → (s.winWith order).SparedFor i) :
    ∃ r', (s.memberTick order).recordAt i = some r' ∧ TakesFrames (s.copiedAtTick r) r r' := by
  have calm : s.Calm (s.advanceCounter.winWith order) :=
    State.Calm.trans (.of_frame (by simp) (by simp) (by simp)) (.winWith order _)
  have cc := s.advanceCounter_winWith_cc order
  obtain ⟨u, v, before, halves⟩ := foldl_parts_around_two State.BesideRecords.refl State.BesideRecords.trans
    (f := State.tickPart s.atEpochEnd s) (q := .acquisition) (r := .ccEpoch) (by decide)
    (nodup_completeOrder order (by decide : tickParts.Nodup)) (mem_completeOrder.2 (by decide))
    (mem_completeOrder.2 (by decide)) (fun w p _ frame start => .tickPart frame start _ s w)
    (s.advanceCounter.winWith order)
  have hrU : u.hr = s.hr := by rw [before.hr]; simp
  have assemblyU : u.acq.assembly = s.acq.assembly := by rw [before.assembly]; simp
  have distinctU : u.IdsDistinct := by
    rw [State.IdsDistinct, before.marks]
    exact State.IdsDistinct.calm calm distinct
  have sparedU : s.atEpochEnd = true → u.SparedFor i := fun wraps => by
    rw [State.SparedFor, before.marks, cc]
    exact spared wraps
  have recordU : u.recordAt i = some r := by
    rw [before.records, State.winWith_recordAt]
    exact (State.recordAt_of_cc (by simp) i).trans record
  rcases halves with ⟨between, after⟩ | ⟨between, after⟩
  · have turn := State.MarksTurn.tickPart (p := .acquisition) (by decide) s.atEpochEnd s u
    obtain ⟨r₁, record₁, taken⟩ := State.acquire_takes (by rwa [State.depth_of_hr hrU]) (by rwa [State.depth_of_hr hrU])
      recordU
    have distinctV : v.IdsDistinct := by
      rw [State.IdsDistinct, between.marks]
      exact turn.idsDistinct distinctU
    have sparedV : s.atEpochEnd = true → v.Spared i := fun wraps => by
      have := (sparedU wraps).turn distinctU turn
      refine State.SparedFor.spared ?_
      rw [State.SparedFor, between.marks]
      exact this
    obtain ⟨r₂, record₂, same⟩ := State.ccEpochPart_record (before := s) distinctV sparedV
      ((between.records i).trans record₁)
    refine ⟨r₂, (after.records i).trans record₂, ?_⟩
    rw [← State.copiedAtTick_same hrU assemblyU (.refl r)]
    exact taken.after same
  · obtain ⟨r₁, record₁, same⟩ := State.ccEpochPart_record (before := s) distinctU (fun wraps => (sparedU wraps).spared)
      recordU
    obtain ⟨hrC, assemblyC⟩ := State.ccEpochPart_hr s.atEpochEnd s u
    have hrV : v.hr = s.hr := by rw [between.hr, hrC, hrU]
    have assemblyV : v.acq.assembly = s.acq.assembly := by rw [between.assembly, assemblyC, assemblyU]
    obtain ⟨r₂, record₂, taken⟩ := State.acquire_takes (by rwa [State.depth_of_hr hrV]) (by rwa [State.depth_of_hr hrV])
      ((between.records i).trans record₁)
    refine ⟨r₂, (after.records i).trans record₂, ?_⟩
    rw [State.copiedAtTick_same hrV assemblyV same] at taken
    exact .before same taken

/-- Settles O26: AS's part between two turns of the others; a record, with CC's epoch start before or after that part. -/
theorem memberTick : Obligations.MemberTick := by
  intro s order running station
  obtain ⟨u, around⟩ := s.memberTick_acquires order
  have et := around.et
  have acq := around.acq
  have wraps : s.et.counter.toNat + 1 = s.cfg.epochLen → s.atEpochEnd = true := fun h => decide_eq_true h
  have goes : s.et.counter.toNat + 1 ≠ s.cfg.epochLen → s.atEpochEnd = false := fun h => decide_eq_false h
  refine ⟨_, congrArg Host.Outcome.next (State.takeTick_member running station order), ?_, ?_, fun wrapped => ?_,
    fun going => ?_, ?_, by rw [acq], by rw [acq], around.converter_kept, around.converter_free station,
    fun going => around.spotList (goes going), fun i => around.free, ?_, around.still, fun a some_ => ?_⟩
  · rw [around.after.station, (State.acquire_frame u).1, around.before.station]
    simpa using station
  · have same : s.advanceCounter.et.running = s.et.running := by
      unfold State.advanceCounter
      split <;> rfl
    rw [et.running, same, running]
  · rw [et.counter, et.epoch, State.advanceCounter_wraps (wraps wrapped), ← epochSucc_eq]
    exact ⟨rfl, rfl⟩
  · rw [et.counter, et.epoch, State.advanceCounter_goes (goes going)]
    exact ⟨rfl, rfl⟩
  · refine ⟨u.newAssembly, by rw [acq], ?_⟩
    rw [around.newAssembly]
    exact ⟨rfl, rfl, rfl, rfl, rfl, rfl, rfl⟩
  · intro place counted distinct i r record spared
    obtain ⟨r', record', taken⟩ := State.memberTick_record (order := order) place counted distinct record
      fun wrapped => spared (of_decide_eq_true wrapped)
    refine ⟨fun none_ => ⟨r', record', ?_⟩, fun a some_ => ⟨a.close, r', ?_, record', ?_⟩⟩
    · simpa only [State.copiedAtTick, none_] using taken
    · rw [around.hr some_]
      exact List.getLast?_concat
    · simpa only [State.copiedAtTick, some_] using taken
  · obtain ⟨incomplete, spot, slip, mark⟩ :=
      tagWord_flags a.epoch (a.values.any (· == Config.absentValue)) a.spot a.slip a.mark
    rw [any_absent_iff] at incomplete
    rw [around.hr some_]
    refine ⟨a.close, rfl, rfl, rfl, rfl, rfl, fun n low => tagWord_low _ _ _ _ _ low, ?_, spot, slip, mark,
      fun k p m hp hm => around.monitor some_ hp hm⟩
    rw [← incomplete, ← any_absent_iff]
    rfl

end Sys2Proof.Machine
end

