-- ==== Sys2Proof/Proofs/EpochParts.lean ====
section
/-! SUPPORT. Another station's EPOCH at its delivery: what MU makes of the sender's entry, and what each part of an epoch
start leaves of what the others read and make (R101, R124, R145). -/

namespace Sys2Proof.Machine

theorem decodePayload_epoch (n : Word32) (lag digest : Word) :
    decodePayload (Payload.epoch n lag digest).kind (Payload.epoch n lag digest).encode = some (.epoch n lag digest) := by
  have fields : some (Payload.epoch (word32 (n.extractLsb' 24 8) (n.extractLsb' 16 8) (n.extractLsb' 8 8)
      (n.extractLsb' 0 8)) (word16 (lag.extractLsb' 8 8) (lag.extractLsb' 0 8))
      (word16 (digest.extractLsb' 8 8) (digest.extractLsb' 0 8))) = some (.epoch n lag digest) := by
    rw [word32_bytes, word16_bytes, word16_bytes]
  exact fields

/-! ## Attention causes that an operation does not raise -/

theorem State.hasCause_of_lp {s t : State} (h : t.lp = s.lp) (c : Cause) : t.hasCause c = s.hasCause c := by
  simp only [State.hasCause, h]

theorem State.hasCause_raise_other {c d : Cause} (h : c ≠ d) (s : State) : (s.raise d).hasCause c = s.hasCause c := by
  have bit : d.mask.getLsbD c.index = false := by
    revert h
    cases c <;> cases d <;> decide
  simp [State.hasCause, State.raise, bit]

section
variable {c : Cause}

theorem State.completeIfReady_cause (h : c ≠ .captureComplete) (i : Fin 4) (s : State) :
    (s.completeIfReady i).hasCause c = s.hasCause c := by
  unfold State.completeIfReady
  split
  · rfl
  split
  · split
    · exact State.hasCause_raise_other h _
    · rfl
  · rfl
  · rfl

theorem State.windowEpoch_cause (h : c ≠ .captureComplete) (i : Fin 4) (s : State) :
    (s.windowEpoch i).hasCause c = s.hasCause c := by
  have closed : (s.closeWindow i).hasCause c = s.hasCause c := by
    unfold State.closeWindow
    split
    · rfl
    split
    · split
      · rfl
      · exact State.completeIfReady_cause h i _
    · rfl
    · rfl
  unfold State.windowEpoch
  split
  · rfl
  split
  · split
    · rfl
    split
    · rfl
    · exact closed
  · rfl
  · rfl

theorem State.markEpoch_cause (h : c ≠ .captureAbandoned) (id : Nat) (s : State) :
    (s.markEpoch id).hasCause c = s.hasCause c := by
  rcases s.markEpoch_cases id with e | ⟨f, _, e⟩ | ⟨m, hm, e⟩
  · rw [e]
  · rw [e]
    rfl
  · have freed : ∀ u : State, (u.freeSlotOf m).lp = u.lp := fun u => by
      unfold State.freeSlotOf
      split
      · rfl
      · simp
    have retired : ∀ u : State, (u.retireLine id .empty).lp = u.lp := fun u => by simp
    rw [e, State.abandon_eq hm, State.hasCause_raise_other h]
    exact State.hasCause_of_lp ((retired _).trans (freed _)) c

/-- CC's epoch start raises CAPTURE_ABANDONED and CAPTURE_COMPLETE only. -/
theorem State.ccEpochStart_cause (abandoned : c ≠ .captureAbandoned) (complete : c ≠ .captureComplete) (s : State) :
    s.ccEpochStart.hasCause c = s.hasCause c := by
  have marks : ((s.cc.marks.map Mark.id).foldl State.markEpoch s).hasCause c = s.hasCause c :=
    foldl_keeps (fun u : State => u.hasCause c = s.hasCause c) _ _
      (fun u id hu => (State.markEpoch_cause abandoned id u).trans hu) rfl
  unfold State.ccEpochStart
  exact foldl_keeps (fun u : State => u.hasCause c = s.hasCause c) _ slots
    (fun u i hu => (State.windowEpoch_cause complete i u).trans hu) marks

theorem State.lcEpochStart_cause (h : c ≠ .linkMute) (s : State) : s.lcEpochStart.hasCause c = s.hasCause c := by
  have left : ∀ u : State, (u.raise .linkMute).hasCause c = u.hasCause c := State.hasCause_raise_other h
  unfold State.lcEpochStart
  dsimp only
  split
  · exact left _
  · rfl

theorem State.expirePeers_cause (h : c ≠ .peerChange) (s : State) : s.expirePeers.hasCause c = s.hasCause c := by
  unfold State.expirePeers
  dsimp only
  split
  · exact State.hasCause_raise_other h _
  · rfl

theorem State.muEpochStart_cause (h : c ≠ .peerChange) (s : State) : s.muEpochStart.hasCause c = s.hasCause c := by
  unfold State.muEpochStart
  split
  · rfl
  · refine (State.expirePeers_cause h _).trans (State.hasCause_of_lp ?_ c)
    dsimp only
    split <;> simp

end

/-! ## The peer table, entry by entry -/

theorem State.peerAt_fin (s : State) (j : Fin 24) : s.peerAt j = s.mu.peers[j] := by
  simp [State.peerAt]

theorem State.peerAt_of_mu {s t : State} (h : t.mu.peers = s.mu.peers) (k : Nat) : t.peerAt k = s.peerAt k := by
  simp only [State.peerAt, h]

theorem Peer.expires_eq_dueAt (n : Word32) (p : Peer) : p.expires n = p.dueAt n := rfl

theorem Peer.expire_state_present {n : Word32} {p : Peer} :
    (p.expire n).state = .present ↔ p.state = .present ∧ p.expires n = false := by
  cases h : p.expires n with
  | true => simp [Peer.expire, h]
  | false => simp [Peer.expire, h]

theorem State.any_expires {s : State} {n : Word32} :
    s.mu.peers.toList.any (Peer.expires n) = true ↔ ∃ j : Fin 24, (s.peerAt j).expires n = true := by
  rw [List.any_eq_true]
  constructor
  · rintro ⟨p, hp, due⟩
    obtain ⟨j, hj, rfl⟩ := Vector.getElem_of_mem (Vector.mem_toList_iff.1 hp)
    exact ⟨⟨j, hj⟩, by rwa [State.peerAt_fin]⟩
  · rintro ⟨j, due⟩
    exact ⟨s.peerAt j, by rw [State.peerAt_fin]; exact Vector.mem_toList_iff.2 (Vector.getElem_mem j.isLt), due⟩

/-- MU's epoch start at the table: every entry that is due becomes ABSENT, and PEER_CHANGE is raised for it (R149). -/
theorem State.muEpochStart_peers {s : State} (member : s.isMember = true) :
    (∀ k, s.muEpochStart.peerAt k = (s.peerAt k).expire s.et.epoch) ∧
      s.muEpochStart.hasCause .peerChange =
        (s.hasCause .peerChange || s.mu.peers.toList.any (Peer.expires s.et.epoch)) := by
  have here : (!s.isMember) ≠ true := by simp [member]
  have begun : ∃ u : State, s.muEpochStart = u.expirePeers ∧ u.mu.peers = s.mu.peers ∧ u.et = s.et ∧ u.lp = s.lp := by
    rw [State.muEpochStart, if_neg here]
    refine ⟨_, rfl, ?_⟩
    dsimp only
    split <;> simp
  obtain ⟨u, e, peers, et, lp⟩ := begun
  rw [e]
  constructor
  · intro k
    simp only [State.peerAt, State.expirePeers_mu, peers, et, Vector.getElem?_map]
    cases s.mu.peers[k]? <;> rfl
  · have same := State.hasCause_of_lp lp .peerChange
    unfold State.expirePeers
    dsimp only
    rw [peers, et]
    split
    · rename_i due
      rw [State.hasCause_raise, due, Bool.or_true]
    · rename_i none_
      rw [Bool.eq_false_iff.2 none_, Bool.or_false]
      exact same

/-! ## The sender's entry (Table 8-3, R145) -/

/-- The entry after an EPOCH for `n` with an equal digest, stamped with the epoch as MU reads it. -/
def Peer.heardEpoch (stamp n : Word32) (p : Peer) : Peer :=
  { p with state := .present, lastHeard := some stamp, digestMatches := some true, announced := some n }

/-- MU takes an EPOCH for `n` from station `k`. -/
def State.hearEpoch (k : Nat) (n : Word32) (s : State) : State := s.setPeer k ((s.peerAt k).heardEpoch s.et.epoch n)

theorem Peer.heardEpoch_expire (stamp n e : Word32) (p : Peer) :
    (p.expire e).heardEpoch stamp n = p.heardEpoch stamp n := by
  unfold Peer.expire
  split <;> rfl

/-- An entry that has just been heard does not expire. -/
theorem Peer.heardEpoch_fresh (n : Word32) (p : Peer) : (p.heardEpoch n n).expires n = false := by
  simp [Peer.expires, Peer.heardEpoch, epochsForward, Config.expiryEpochs]

theorem State.muTake_epoch {s : State} {sender : Station} (on : s.receiverOn = true) (other : sender ≠ s.mu.number)
    (known : sender.toNat < 24) (n : Word32) (lag : Word) :
    s.muTake sender (.epoch n lag s.mu.digest) = s.hearEpoch sender.toNat n := by
  have off : (!s.receiverOn) ≠ true := by simp [on]
  rw [State.muTake, if_neg off, if_neg other, if_neg (Nat.not_le.2 known)]
  simp [foreignEpoch, answersHello, State.hearEpoch, Peer.update, Payload.announcement, Peer.heardEpoch]

section
variable (k : Nat) (n : Word32) (s : State)

theorem State.hearEpoch_mu : (s.hearEpoch k n).mu =
    { s.mu with peers := s.mu.peers.setIfInBounds k ((s.peerAt k).heardEpoch s.et.epoch n) } := by
  unfold State.hearEpoch State.setPeer
  dsimp only
  split <;> rfl

theorem State.hearEpoch_frame : (s.hearEpoch k n).et = s.et ∧ (s.hearEpoch k n).lc = s.lc ∧
    (s.hearEpoch k n).cc = s.cc ∧ (s.hearEpoch k n).hr = s.hr ∧ (s.hearEpoch k n).acq = s.acq ∧
    (s.hearEpoch k n).tm = s.tm := by
  simp [State.hearEpoch]

theorem State.hearEpoch_peerAt {k : Nat} (known : k < 24) (j : Nat) :
    (s.hearEpoch k n).peerAt j = if k = j then (s.peerAt k).heardEpoch s.et.epoch n else s.peerAt j := by
  have put := s.peerAt_setIfInBounds k j ((s.peerAt k).heardEpoch s.et.epoch n)
  simp only [known, and_true] at put
  rw [← put]
  exact State.peerAt_of_mu (congrArg Mu.peers (s.hearEpoch_mu k n)) j

theorem State.hearEpoch_peerChange : (s.hearEpoch k n).hasCause .peerChange =
    (s.hasCause .peerChange || decide ((s.peerAt k).state ≠ .present)) := by
  unfold State.hearEpoch State.setPeer
  dsimp only
  split
  · rename_i present
    have : (s.peerAt k).state = .present := present
    simp [this, State.hasCause]
  · rename_i absent
    have : (s.peerAt k).state ≠ .present := absent
    simp [this, State.hasCause_raise]

theorem State.hearEpoch_cause {c : Cause} (h : c ≠ .peerChange) : (s.hearEpoch k n).hasCause c = s.hasCause c := by
  unfold State.hearEpoch State.setPeer
  dsimp only
  split
  · rfl
  · exact State.hasCause_raise_other h _

theorem State.hearEpoch_beside : s.Beside (s.hearEpoch k n) := by
  unfold State.hearEpoch State.setPeer
  dsimp only
  split
  · exact .of_frame rfl rfl rfl rfl
  · refine State.Beside.trans ?_ (.raise .peerChange _)
    exact .of_frame rfl rfl rfl rfl

end

end Sys2Proof.Machine
end

