-- ==== Sys2Proof/Proofs/EpochTurns.lean ====
section
/-! SUPPORT. The parts of a delivery that brings an epoch start: each block takes it once, between two turns of the
others (R101, R124). -/

namespace Sys2Proof.Machine

/-- One part of the delivery of an EPOCH for `n` from station `k` that gives an epoch start. -/
def State.epochPart (k : Nat) (n : Word32) (muDone : Bool) (s : State) (p : Part) : State :=
  match p with
  | .muTake => if muDone then s else s.hearEpoch k n
  | .lcEpoch => s.lcEpochStart
  | .ccEpoch => s.ccEpochStart
  | .muEpoch => s.muEpochStart
  | .ccTick => s
  | .acquisition => s
  | .epochSubmit => s
  | .win => s

/-! ## What all the parts leave -/

/-- Of Membership nothing but the spoken flag and the peer table is touched; ET, HR, TM, slip-pending and SLIP are as they
were; the messages of the queue stay that stand for no entry, and no EPOCH comes. -/
structure State.StartTurn (s t : State) : Prop where
  et          : t.et = s.et
  mu          : t.mu = { s.mu with spoken := t.mu.spoken, peers := t.mu.peers }
  hr          : t.hr = s.hr
  tm          : t.tm = s.tm
  slipPending : t.acq.slipPending = s.acq.slipPending
  slip        : t.hasCause .slip = s.hasCause .slip
  queue       : s.QueueTurn t
  mute        : s.lc.mute = false → t.lc.mute = false

namespace State.StartTurn

theorem refl (s : State) : s.StartTurn s := ⟨rfl, rfl, rfl, rfl, rfl, rfl, .refl s, id⟩

theorem trans {s t u : State} (h : s.StartTurn t) (k : t.StartTurn u) : s.StartTurn u where
  et := k.et.trans h.et
  mu := by rw [k.mu, h.mu]
  hr := k.hr.trans h.hr
  tm := k.tm.trans h.tm
  slipPending := k.slipPending.trans h.slipPending
  slip := k.slip.trans h.slip
  queue := h.queue.trans k.queue
  mute := k.mute ∘ h.mute

theorem station {s t : State} (h : s.StartTurn t) : t.mu.station = s.mu.station := by rw [h.mu]

theorem digest {s t : State} (h : s.StartTurn t) : t.mu.digest = s.mu.digest := by rw [h.mu]

theorem isMember {s t : State} (h : s.StartTurn t) : t.isMember = s.isMember := by rw [State.isMember, h.station]; rfl

theorem hearEpoch (k : Nat) (n : Word32) (s : State) : s.StartTurn (s.hearEpoch k n) := by
  obtain ⟨et, lc, _, hr, acq, tm⟩ := s.hearEpoch_frame k n
  refine ⟨et, ?_, hr, tm, by rw [acq], State.hearEpoch_cause k n s (by decide), .of_lc lc, fun h => by rw [lc, h]⟩
  rw [State.hearEpoch_mu]

theorem lcEpochStart (s : State) : s.StartTurn s.lcEpochStart where
  et := by simp
  mu := by simp
  hr := by simp
  tm := by simp
  slipPending := by simp
  slip := State.lcEpochStart_cause (by decide) s
  queue := .lcEpochStart s
  mute unmuted := by
    have never : ¬s.lc.unmutes := fun h => by simp [h.1] at unmuted
    rw [State.lcEpochStart_stays never]
    exact unmuted

theorem ccEpochStart (s : State) : s.StartTurn s.ccEpochStart where
  et := (State.CcWork.ccEpochStart s).et
  mu := by rw [(State.CcWork.ccEpochStart s).mu]
  hr := (State.CcWork.ccEpochStart s).hr
  tm := (State.CcWork.ccEpochStart s).tm
  slipPending := by rw [(State.CcWork.ccEpochStart s).acq]
  slip := State.ccEpochStart_cause (by decide) (by decide) s
  queue := .ccEpochStart s
  mute h := by rw [(State.QueueOnly.ccEpochStart s).mute, h]

theorem muEpochStart (s : State) : s.StartTurn s.muEpochStart where
  et := by simp
  mu := s.muEpochStart_mu
  hr := by simp
  tm := by simp
  slipPending := by simp
  slip := State.muEpochStart_cause (by decide) s
  queue := .muEpochStart s
  mute h := by rw [(State.QueueOnly.muEpochStart s).mute, h]

theorem epochPart (k : Nat) (n : Word32) (muDone : Bool) (s : State) (p : Part) :
    s.StartTurn (State.epochPart k n muDone s p) := by
  cases p with
  | muTake =>
    cases muDone with
    | true => exact refl s
    | false => exact hearEpoch k n s
  | lcEpoch => exact lcEpochStart s
  | ccEpoch => exact ccEpochStart s
  | muEpoch => exact muEpochStart s
  | ccTick => exact refl s
  | acquisition => exact refl s
  | epochSubmit => exact refl s
  | win => exact refl s

theorem fold (k : Nat) (n : Word32) (muDone : Bool) (l : List Part) (s : State) :
    s.StartTurn (l.foldl (State.epochPart k n muDone) s) :=
  foldl_keeps s.StartTurn _ l (fun _ p h => h.trans (epochPart k n muDone _ p)) (refl s)

end State.StartTurn

/-- The delivery of an EPOCH with an equal digest that gives an epoch start in MEMBER, part by part. -/
theorem State.foldl_deliveryPart_epoch {sender : Station} {n : Word32} {lag : Word} {muDone : Bool} (l : List Part)
    {s : State} (member : s.isMember = true) (other : sender ≠ s.mu.number) (known : sender.toNat < 24) :
    l.foldl (State.deliveryPart sender (.epoch n lag s.mu.digest) muDone true) s =
      l.foldl (State.epochPart sender.toNat n muDone) s := by
  induction l generalizing s with
  | nil => rfl
  | cons p l ih =>
    have on : s.receiverOn = true := by simp [State.receiverOn, member]
    have same : State.deliveryPart sender (.epoch n lag s.mu.digest) muDone true s p =
        State.epochPart sender.toNat n muDone s p := by
      cases p with
      | muTake => simp only [State.deliveryPart, State.epochPart, State.muTake_epoch on other known]
      | _ => rfl
    have turn := State.StartTurn.epochPart sender.toNat n muDone s p
    rw [List.foldl_cons, List.foldl_cons, same, ← turn.digest]
    exact ih (turn.isMember.trans member) (by rw [turn.mu]; exact other)

/-! ## LC -/

section
variable (k : Nat) (n : Word32) (muDone : Bool) (order : List Part) (s : State)

/-- The state after the parts of the delivery. -/
def State.epochParts : State := (completeOrder deliveryParts order).foldl (State.epochPart k n muDone) s

theorem State.epochPart_lcTurn {p : Part} (hp : p ≠ .lcEpoch) : s.LcTurn (State.epochPart k n muDone s p) := by
  have of_beside : ∀ t : State, s.QueueOnly t → s.Beside t → s.LcTurn t := fun t lc beside => ⟨lc, beside.causes⟩
  cases p with
  | lcEpoch => exact absurd rfl hp
  | muTake =>
    cases muDone with
    | true => exact .refl s
    | false => exact of_beside _ (.of_eq (s.hearEpoch_frame k n).2.1) (s.hearEpoch_beside k n)
  | ccEpoch => exact ⟨.ccEpochStart s, (State.Aside.ccEpochStart s).causes⟩
  | muEpoch => exact of_beside _ (.muEpochStart s) (.muEpochStart s)
  | ccTick => exact .refl s
  | acquisition => exact .refl s
  | epochSubmit => exact .refl s
  | win => exact .refl s

theorem State.epochParts_lc : (s.epochParts k n muDone order).LcAtEpochStart s.lc := by
  obtain ⟨u, before, after⟩ := foldl_deliveryParts_around State.LcTurn.refl State.LcTurn.trans (q := .lcEpoch) (by decide)
    (f := State.epochPart k n muDone) (fun v p hp => v.epochPart_lcTurn k n muDone hp) order s
  exact .turns before after

/-! ## CC -/

theorem State.epochPart_beside {p : Part} (hp : p ≠ .ccEpoch) : s.Beside (State.epochPart k n muDone s p) := by
  cases p with
  | ccEpoch => exact absurd rfl hp
  | muTake =>
    cases muDone with
    | true => exact .refl s
    | false => exact s.hearEpoch_beside k n
  | lcEpoch => exact .lcEpochStart s
  | muEpoch => exact .muEpochStart s
  | ccTick => exact .refl s
  | acquisition => exact .refl s
  | epochSubmit => exact .refl s
  | win => exact .refl s

/-- CC's epoch start stands between two turns of parts that it does not see. -/
theorem State.epochParts_cc : ∃ u, s.Beside u ∧ u.ccEpochStart.Beside (s.epochParts k n muDone order) :=
  foldl_deliveryParts_around State.Beside.refl State.Beside.trans (q := .ccEpoch) (by decide)
    (f := State.epochPart k n muDone) (fun v _ hp => v.epochPart_beside k n muDone hp) order s

end

/-! ## MU's submission (R148) -/

/-- What the parts but MU's epoch start leave: no message comes, and the spoken flag is as it was. -/
structure State.MuTurn (s t : State) : Prop extends s.StartTurn t where
  sublist : t.lc.queue.Sublist s.lc.queue
  spoken  : t.mu.spoken = s.mu.spoken

theorem State.MuTurn.refl (s : State) : s.MuTurn s := ⟨.refl s, .refl _, rfl⟩

theorem State.MuTurn.trans {s t u : State} (h : s.MuTurn t) (k : t.MuTurn u) : s.MuTurn u :=
  ⟨h.toStartTurn.trans k.toStartTurn, k.sublist.trans h.sublist, k.spoken.trans h.spoken⟩

theorem State.ccEpochStart_sublist (s : State) : s.ccEpochStart.lc.queue.Sublist s.lc.queue := by
  have marks : ((s.cc.marks.map Mark.id).foldl State.markEpoch s).lc.queue.Sublist s.lc.queue := by
    refine foldl_keeps (fun u : State => u.lc.queue.Sublist s.lc.queue) _ _ (fun u id hu => ?_) (.refl _)
    rcases u.markEpoch_cases id with e | ⟨f, _, e⟩ | ⟨m, hm, e⟩
    · rwa [e]
    · rw [e]
      exact hu
    · rw [e, State.abandon_queue hm]
      exact List.filter_sublist.trans hu
  unfold State.ccEpochStart
  refine foldl_keeps (fun u : State => u.lc.queue.Sublist s.lc.queue) _ slots (fun u i hu => ?_) marks
  rw [State.windowEpoch_frame i u |>.2.2.1]
  exact hu

theorem State.lcEpochStart_queue (s : State) : s.lcEpochStart.lc.queue = s.lc.queue := by
  unfold State.lcEpochStart
  dsimp only
  split <;> simp

theorem State.epochPart_muTurn (k : Nat) (n : Word32) (muDone : Bool) (s : State) {p : Part} (hp : p ≠ .muEpoch) :
    s.MuTurn (State.epochPart k n muDone s p) := by
  refine ⟨.epochPart k n muDone s p, ?_, ?_⟩
  · cases p with
    | muEpoch => exact absurd rfl hp
    | muTake =>
      cases muDone with
      | true => exact .refl _
      | false => simp [State.epochPart, s.hearEpoch_frame k n]
    | lcEpoch => simp [State.epochPart, s.lcEpochStart_queue]
    | ccEpoch => exact s.ccEpochStart_sublist
    | _ => exact .refl _
  · cases p with
    | muEpoch => exact absurd rfl hp
    | muTake =>
      cases muDone with
      | true => rfl
      | false => simp [State.epochPart, s.hearEpoch_mu k n]
    | lcEpoch => simp [State.epochPart]
    | ccEpoch => simp [State.epochPart]
    | _ => rfl

/-- A HELLO or PRESENT enters a queue that holds no HELLO, PRESENT or BYE and has room (R126). -/
theorem State.submit_announcement {s : State} {p : Payload} (hello : p.isHelloOrPresent = true) (member : s.isMember = true)
    (mute : s.lc.mute = false) (first : s.lc.queue.any Msg.ofMembership = false)
    (room : (s.lc.queue.filter (fun q => !q.payload.isEpoch)).length < 11) :
    s.submit p none = some (s.enqueue p none) := by
  have kinds : p.isEpoch = false ∧ p.isBye = false := by
    cases p with
    | hello _ _ _ => exact ⟨rfl, rfl⟩
    | present _ _ _ => exact ⟨rfl, rfl⟩
    | _ => cases hello
  have none_ : s.lc.queue.any (fun m => m.payload.isHelloOrPresent || m.payload.isBye) = false := first
  have plain : s.admission p = .plain := by
    simp [State.admission, member, not_isLeaving_of_isMember member, mute, kinds, hello, none_, room]
  simp only [State.submit, plain]

section
variable {s : State} (member : s.isMember = true)
include member

theorem State.muEpochStart_lc : s.muEpochStart.lc = (if s.mu.spoken then s else s.submitPresent).lc := by
  have here : (!s.isMember) ≠ true := by simp [member]
  rw [State.muEpochStart, if_neg here]
  simp

theorem State.muEpochStart_announces (silent : s.mu.spoken = false) (mute : s.lc.mute = false)
    (first : s.lc.queue.any Msg.ofMembership = false)
    (room : (s.lc.queue.filter (fun q => !q.payload.isEpoch)).length < 11) :
    ∃ m ∈ s.muEpochStart.lc.queue, m.cond = .queued ∧ m.mark = none ∧
      m.payload = .present s.mu.digest s.et.epoch s.freeField := by
  have sent : s.submitPresent = s.enqueue (.present s.mu.digest s.et.epoch s.freeField) none := by
    rw [State.submitPresent, State.submitOrDrop, State.submit_announcement rfl member mute first room]
    rfl
  obtain ⟨m, hm, payload, cond, _, mark⟩ := s.enqueue_new (.present s.mu.digest s.et.epoch s.freeField) none
  refine ⟨m, ?_, cond, mark, payload⟩
  rw [State.muEpochStart_lc member, silent, if_neg Bool.false_ne_true, sent]
  exact hm

variable (k : Nat) (n : Word32) (muDone : Bool) (order : List Part)

theorem State.epochParts_mu :
    ∃ u, s.MuTurn u ∧ u.muEpochStart.MuTurn (s.epochParts k n muDone order) ∧ u.isMember = true := by
  obtain ⟨u, before, after⟩ := foldl_deliveryParts_around State.MuTurn.refl State.MuTurn.trans (q := .muEpoch) (by decide)
    (f := State.epochPart k n muDone) (fun v _ hp => v.epochPart_muTurn k n muDone hp) order s
  exact ⟨u, before, after, before.isMember.trans member⟩

theorem State.epochParts_spoken : (s.epochParts k n muDone order).mu.spoken = false := by
  obtain ⟨u, _, after, memberU⟩ := State.epochParts_mu member k n muDone order
  rw [after.spoken]
  exact State.muEpochStart_spoken memberU

theorem State.epochParts_quiet (spoken : s.mu.spoken = true) :
    ∀ q ∈ (s.epochParts k n muDone order).lc.queue, q ∈ s.lc.queue := by
  obtain ⟨u, before, after, memberU⟩ := State.epochParts_mu member k n muDone order
  intro q hq
  have here := after.sublist.subset hq
  rw [State.muEpochStart_lc memberU, before.spoken, spoken, if_pos rfl] at here
  exact before.sublist.subset here

theorem State.epochParts_announces (silent : s.mu.spoken = false) (mute : s.lc.mute = false)
    (first : s.lc.queue.any Msg.ofMembership = false)
    (room : (s.lc.queue.filter (fun q => !q.payload.isEpoch)).length < 11) :
    ∃ m ∈ (s.epochParts k n muDone order).lc.queue, m.cond = .queued ∧
      ∃ free, m.payload = .present s.mu.digest s.et.epoch free := by
  obtain ⟨u, before, after, memberU⟩ := State.epochParts_mu member k n muDone order
  obtain ⟨m, hm, cond, mark, payload⟩ := State.muEpochStart_announces memberU (before.spoken.trans silent)
    (before.mute mute) (List.any_eq_false.2 fun q hq => List.any_eq_false.1 first q (before.sublist.subset hq))
    ((before.sublist.filter _).length_le.trans_lt room)
  refine ⟨m, after.queue.kept m hm (.inr mark), cond, u.freeField, ?_⟩
  rw [payload, before.digest, before.et]

end

end Sys2Proof.Machine
end

