-- ==== Sys2Proof/Proofs/EpochPeers.lean ====
section
/-! SUPPORT. The peer table at an EPOCH that gives an epoch start: MU hears the sender and examines the entries, the one or
the other first (R145, R146, R149). -/

namespace Sys2Proof.Machine

/-- The same peer table, and PEER_CHANGE the same. -/
structure State.SamePeers (s t : State) : Prop where
  peers : t.mu.peers = s.mu.peers
  told  : t.hasCause .peerChange = s.hasCause .peerChange

theorem State.SamePeers.refl (s : State) : s.SamePeers s := ⟨rfl, rfl⟩

theorem State.SamePeers.trans {s t u : State} (h : s.SamePeers t) (k : t.SamePeers u) : s.SamePeers u :=
  ⟨k.peers.trans h.peers, k.told.trans h.told⟩

theorem State.SamePeers.peerAt {s t : State} (h : s.SamePeers t) (k : Nat) : t.peerAt k = s.peerAt k :=
  State.peerAt_of_mu h.peers k

/-- What the parts that are not MU's leave. -/
structure State.PeersTurn (s t : State) : Prop extends s.StartTurn t, s.SamePeers t

theorem State.PeersTurn.refl (s : State) : s.PeersTurn s := ⟨.refl s, .refl s⟩

theorem State.PeersTurn.trans {s t u : State} (h : s.PeersTurn t) (k : t.PeersTurn u) : s.PeersTurn u :=
  ⟨h.toStartTurn.trans k.toStartTurn, h.toSamePeers.trans k.toSamePeers⟩

theorem State.epochPart_peersTurn (k : Nat) (n : Word32) (muDone : Bool) (s : State) {p : Part} (take : p ≠ .muTake)
    (start : p ≠ .muEpoch) : s.PeersTurn (State.epochPart k n muDone s p) := by
  refine ⟨.epochPart k n muDone s p, ?_⟩
  cases p with
  | muTake => exact absurd rfl take
  | muEpoch => exact absurd rfl start
  | lcEpoch => exact ⟨by simp [State.epochPart], State.lcEpochStart_cause (by decide) s⟩
  | ccEpoch => exact ⟨by simp [State.epochPart], State.ccEpochStart_cause (by decide) (by decide) s⟩
  | _ => exact .refl s

/-- The table that station `k`'s EPOCH for `n` and its epoch start leave: the sender's entry, stamped with `stamp`, and
every other, examined at `n`. -/
structure State.PeersAtEpoch (k : Nat) (n stamp : Word32) (s t : State) : Prop where
  sender : t.peerAt k = ((s.peerAt k).heardEpoch stamp n).expire n
  others : ∀ j, j ≠ k → t.peerAt j = (s.peerAt j).expire n
  told   : ((s.peerAt k).state ≠ .present ∨ ((s.peerAt k).heardEpoch stamp n).expires n = true ∨
    ∃ j : Fin 24, j.val ≠ k ∧ (s.peerAt j).expires n = true) → t.hasCause .peerChange = true
  silent : (s.peerAt k).state = .present → ((s.peerAt k).heardEpoch stamp n).expires n = false →
    (∀ j : Fin 24, (s.peerAt j).expires n = false) → t.hasCause .peerChange = s.hasCause .peerChange

theorem State.PeersAtEpoch.after {k : Nat} {n stamp : Word32} {s t u : State} (h : s.PeersAtEpoch k n stamp t)
    (same : t.SamePeers u) : s.PeersAtEpoch k n stamp u :=
  ⟨(same.peerAt k).trans h.sender, fun j hj => (same.peerAt j).trans (h.others j hj),
    fun due => same.told.trans (h.told due),
    fun present fresh none_ => same.told.trans (h.silent present fresh none_)⟩

theorem State.PeersAtEpoch.before {k : Nat} {n stamp : Word32} {s t u : State} (same : s.SamePeers t)
    (h : t.PeersAtEpoch k n stamp u) : s.PeersAtEpoch k n stamp u := by
  refine ⟨?_, fun j hj => ?_, fun due => h.told ?_, fun present fresh none_ => ?_⟩
  · rw [h.sender, same.peerAt]
  · rw [h.others j hj, same.peerAt]
  · simpa only [same.peerAt] using due
  · rw [h.silent (by rwa [same.peerAt]) (by rwa [same.peerAt]) fun j => by rw [same.peerAt]; exact none_ j, same.told]

section
variable {k : Nat} (known : k < 24) {n : Word32}
include known

/-- The sender is heard, then the entries are examined. -/
theorem State.muEpochStart_heard {s w : State} (same : (s.hearEpoch k n).SamePeers w) (member : w.isMember = true)
    (epoch : w.et.epoch = n) : s.PeersAtEpoch k n s.et.epoch w.muEpochStart := by
  obtain ⟨entries, told⟩ := State.muEpochStart_peers member
  have at_ : ∀ j, w.peerAt j = if k = j then (s.peerAt k).heardEpoch s.et.epoch n else s.peerAt j := fun j =>
    (same.peerAt j).trans (s.hearEpoch_peerAt n known j)
  have sender : w.peerAt k = (s.peerAt k).heardEpoch s.et.epoch n := by rw [at_, if_pos rfl]
  have others : ∀ j, j ≠ k → w.peerAt j = s.peerAt j := fun j hj => by rw [at_, if_neg (Ne.symm hj)]
  rw [epoch] at entries told
  rw [same.told, State.hearEpoch_peerChange] at told
  refine ⟨by rw [entries, sender], fun j hj => by rw [entries, others j hj], fun due => ?_, fun present fresh none_ => ?_⟩
  · rw [told]
    rcases due with absent | expires | ⟨j, hj, expires⟩
    · simp [absent]
    · rw [State.any_expires.2 ⟨⟨k, known⟩, by rwa [sender]⟩, Bool.or_true]
    · rw [State.any_expires.2 ⟨j, by rwa [others j hj]⟩, Bool.or_true]
  · have still : w.mu.peers.toList.any (Peer.expires n) = false := by
      rw [Bool.eq_false_iff, ne_eq, State.any_expires]
      rintro ⟨j, expires⟩
      by_cases hj : j.val = k
      · rw [hj, sender, fresh] at expires
        cases expires
      · rw [others j hj, none_ j] at expires
        cases expires
    simp [told, still, present]

/-- The entries are examined, then the sender is heard. -/
theorem State.hearEpoch_examined {s w : State} (same : s.muEpochStart.SamePeers w) (member : s.isMember = true)
    (epoch : s.et.epoch = n) (stamp : w.et.epoch = n) : s.PeersAtEpoch k n n (w.hearEpoch k n) := by
  obtain ⟨entries, told⟩ := State.muEpochStart_peers member
  have at_ : ∀ j, w.peerAt j = (s.peerAt j).expire n := fun j => by rw [same.peerAt, entries, epoch]
  have fresh := (s.peerAt k).heardEpoch_fresh n
  rw [epoch, ← same.told] at told
  refine ⟨?_, fun j hj => ?_, fun due => ?_, fun present _ none_ => ?_⟩
  · rw [State.hearEpoch_peerAt n w known, if_pos rfl, stamp, at_, Peer.heardEpoch_expire, Peer.expire, fresh,
      if_neg Bool.false_ne_true]
  · rw [State.hearEpoch_peerAt n w known, if_neg (Ne.symm hj), at_]
  · rw [State.hearEpoch_peerChange, told, at_]
    rcases due with absent | expires | ⟨j, _, expires⟩
    · have : ((s.peerAt k).expire n).state ≠ .present := fun h => absent (Peer.expire_state_present.1 h).1
      simp [this]
    · rw [fresh] at expires
      cases expires
    · simp [State.any_expires.2 ⟨j, expires⟩]
  · have here : ((s.peerAt k).expire n).state = .present :=
      Peer.expire_state_present.2 ⟨present, none_ ⟨k, known⟩⟩
    have still : s.mu.peers.toList.any (Peer.expires n) = false := by
      rw [Bool.eq_false_iff, ne_eq, State.any_expires]
      rintro ⟨j, expires⟩
      rw [none_ j] at expires
      cases expires
    rw [State.hearEpoch_peerChange, told, at_, still]
    simp [here]

/-- MU has heard the sender before ET took the number. -/
theorem State.epochParts_peers_done {s x : State} (same : (s.hearEpoch k n).SamePeers x) (member : x.isMember = true)
    (epoch : x.et.epoch = n) (order : List Part) : s.PeersAtEpoch k n s.et.epoch (x.epochParts k n true order) := by
  have others : ∀ (v : State) p, p ≠ .muEpoch → v.PeersTurn (State.epochPart k n true v p) := by
    intro v p hp
    by_cases take : p = .muTake
    · rw [take]
      exact .refl v
    · exact v.epochPart_peersTurn k n true take hp
  obtain ⟨u, before, after⟩ := foldl_deliveryParts_around State.PeersTurn.refl State.PeersTurn.trans (q := .muEpoch)
    (by decide) others order x
  exact (State.muEpochStart_heard known (same.trans before.toSamePeers) (before.isMember.trans member)
    (by rw [before.et, epoch])).after after.toSamePeers

/-- MU hears the sender among the parts. -/
theorem State.epochParts_peers {x : State} (member : x.isMember = true) (epoch : x.et.epoch = n) (order : List Part) :
    x.PeersAtEpoch k n n (x.epochParts k n false order) := by
  obtain ⟨u, v, before, halves⟩ := foldl_parts_around_two State.PeersTurn.refl State.PeersTurn.trans
    (f := State.epochPart k n false) (q := .muTake) (r := .muEpoch) (by decide)
    (nodup_completeOrder order (by decide : deliveryParts.Nodup)) (mem_completeOrder.2 (by decide))
    (mem_completeOrder.2 (by decide)) (fun w p _ take start => w.epochPart_peersTurn k n false take start) x
  have memberU := before.isMember.trans member
  have epochU : u.et.epoch = n := by rw [before.et, epoch]
  rcases halves with ⟨between, after⟩ | ⟨between, after⟩
  · have heard := State.StartTurn.epochPart k n false u .muTake
    have taken := State.muEpochStart_heard known between.toSamePeers (between.isMember.trans (heard.isMember.trans memberU))
      (by rw [between.et, heard.et, epochU])
    rw [epochU] at taken
    exact .before before.toSamePeers (taken.after after.toSamePeers)
  · have started := State.StartTurn.epochPart k n false u .muEpoch
    have taken := State.hearEpoch_examined known between.toSamePeers memberU epochU (by rw [between.et, started.et, epochU])
    exact .before before.toSamePeers (taken.after after.toSamePeers)

end

end Sys2Proof.Machine
end

