-- ==== Sys2Proof/Proofs/EpochRecords.lean ====
section
/-! SUPPORT. The open-mark entries and the records at an epoch start that an accepted EPOCH brings (R22, R26, R42). -/

namespace Sys2Proof.Machine

/-! ## A record at the epoch start -/

theorem CapRecord.isOpen_iff (r : CapRecord) : r.isOpen = true ↔ r.phase = .opened := by
  cases phase : r.phase <;> simp [CapRecord.isOpen, phase]

theorem CapRecord.Follows.isOpen {r r' : CapRecord} (h : r.Follows r') : r'.isOpen = r.isOpen := by
  rw [Bool.eq_iff_iff, CapRecord.isOpen_iff, CapRecord.isOpen_iff]
  exact h.opened

theorem CapRecord.slipped_phase (r : CapRecord) : r.slipped.phase = r.phase := by
  unfold CapRecord.slipped
  split <;> rfl

theorem CapRecord.slipped_timeSlip {r : CapRecord} (going : r.isOpen = true ∨ r.isFilling = true)
    (frames : r.framesDone = false) : r.slipped.flags.timeSlip = true := by
  have due : ((r.isOpen || r.isFilling) && !r.framesDone) = true := by simpa [frames] using going
  rw [CapRecord.slipped, if_pos due]

/-- The first epoch start counts; the second closes the window, and completes the record when its frames are done. -/
theorem CapRecord.windowAtEpoch_start {r : CapRecord} {c : Capture} (phase : r.phase = .filling c)
    (opened : c.answersClosed = false) : WindowAtEpochStart c r.windowAtEpoch := by
  refine ⟨fun first => by rw [CapRecord.windowAtEpoch_first phase opened first], fun second => ?_⟩
  rw [CapRecord.windowAtEpoch_second phase opened second, CapRecord.completed_of_filling rfl]
  have silent : c.close.participants = c.participants ++ ((List.range 24).filter (fun n =>
      c.expected.getLsbD n && !c.participants.any (fun p => p.station.toNat == n))).map
      (fun n => ⟨BitVec.ofNat 5 n, .noAnswer, 0⟩) := by
    simp only [Capture.close, Capture.silent_eq, List.map_map]
    rfl
  cases done : r.framesDone with
  | true => exact ⟨by simp [CapRecord.isComplete, Capture.close], c.close, .inr rfl, rfl, rfl, rfl, silent⟩
  | false => exact ⟨by simp [CapRecord.isComplete], c.close, .inl rfl, rfl, rfl, rfl, silent⟩

/-- The epoch start at CC leaves the record of a slot that no entry holds, but for its answer window. -/
theorem State.Unheld.recordAt_ccEpochStart {s : State} {i : Fin 4} (unheld : s.Unheld i) :
    s.ccEpochStart.recordAt i = (s.recordAt i).map CapRecord.windowAtEpoch := by
  have marks : ((s.cc.marks.map Mark.id).foldl State.markEpoch s).Unheld i ∧
      ((s.cc.marks.map Mark.id).foldl State.markEpoch s).recordAt i = s.recordAt i :=
    foldl_keeps (fun u : State => u.Unheld i ∧ u.recordAt i = s.recordAt i) _ _
      (fun _ id ⟨hu, same⟩ => ⟨State.SlotGoes.markEpoch_unheld hu id, (State.SlotGoes.markEpoch_recordAt hu id).trans same⟩)
      ⟨unheld, rfl⟩
  unfold State.ccEpochStart
  rw [recordAt_foldl_slots (fun t i => t.windowEpoch i) (fun r => some r.windowAtEpoch) (fun t i j => ?_), marks.2]
  · exact (Option.map_eq_bind).symm
  · rw [State.recordAt_windowEpoch]
    split
    · exact Option.map_eq_bind
    · rfl

/-- A record that is COMPLETE after the epoch start has it told, where it was not before. -/
theorem State.Unheld.ccEpochStart_told {s : State} {i : Fin 4} (unheld : s.Unheld i) {r : CapRecord}
    (record : s.recordAt i = some r) (going : r.isComplete = false) (complete : r.windowAtEpoch.isComplete = true) :
    s.ccEpochStart.hasCause .captureComplete = true := by
  have goes : s.SlotGoes i r := ⟨unheld, r, record, .refl, fun h => by rw [going] at h; cases h⟩
  obtain ⟨_, _, after⟩ := goes.ccEpochStart
  obtain ⟨r', record', _, told⟩ := after.record
  rw [unheld.recordAt_ccEpochStart, record] at record'
  cases record'
  exact told complete

/-! ## The delivery -/

section
variable {x : State} (k : Nat) (n : Word32) (muDone : Bool) (order : List Part)

theorem State.epochParts_marks (distinct : x.IdsDistinct) :
    (∀ m ∈ x.cc.marks, MarkAtEpochStart m (x.epochParts k n muDone order)) ∧
      ∀ y ∈ (x.epochParts k n muDone order).cc.marks, ∃ m ∈ x.cc.marks, y.id = m.id := by
  obtain ⟨u, before, after⟩ := x.epochParts_cc k n muDone order
  have distinctU : u.IdsDistinct := by rwa [State.IdsDistinct, before.cc]
  rw [← before.cc]
  refine ⟨fun m hm => ?_, fun y hy => State.ids_ccEpochStart (after.cc ▸ hy)⟩
  exact markAtEpochStart (.refl m) distinctU.ccEpochStart (State.ccEpochStart_taken distinctU hm) (.of_beside after)

theorem State.epochParts_recordAt_spared (distinct : x.IdsDistinct) {i : Fin 4} (spared : x.Spared i) :
    (x.epochParts k n muDone order).recordAt i = (x.recordAt i).map CapRecord.windowAtEpoch := by
  obtain ⟨u, before, after⟩ := x.epochParts_cc k n muDone order
  rw [State.recordAt_of_cc after.cc, State.recordAt_ccEpochStart (by rwa [State.IdsDistinct, before.cc])
    (by rwa [State.Spared, before.cc]), State.recordAt_of_cc before.cc]

theorem State.epochParts_window {i : Fin 4} (unheld : x.Unheld i) {r : CapRecord} {c : Capture}
    (record : x.recordAt i = some r) (phase : r.phase = .filling c) (opened : c.answersClosed = false) :
    ∃ r', (x.epochParts k n muDone order).recordAt i = some r' ∧ WindowAtEpochStart c r' ∧
      (r'.isComplete = true → (x.epochParts k n muDone order).hasCause .captureComplete = true) := by
  obtain ⟨u, before, after⟩ := x.epochParts_cc k n muDone order
  have unheldU : u.Unheld i := by rwa [State.Unheld, before.cc]
  have recordU : u.recordAt i = some r := (State.recordAt_of_cc before.cc i).trans record
  refine ⟨r.windowAtEpoch, ?_, CapRecord.windowAtEpoch_start phase opened, fun complete => after.causes _ ?_⟩
  · rw [State.recordAt_of_cc after.cc, unheldU.recordAt_ccEpochStart, recordU]
    rfl
  · exact unheldU.ccEpochStart_told recordU (by simp [CapRecord.isComplete, phase]) complete

end

end Sys2Proof.Machine
end

