-- ==== Sys2Proof/Proofs/EpochHeard.lean ====
section
/-! SUPPORT. Another station's eligible EPOCH up to ET's adoption of its number, in MEMBER and in LISTEN (R108 to R112). -/

namespace Sys2Proof.Machine

/-! ## The acceptance (R122) -/

/-- The current observation after an acceptance. -/
def Lc.seen (lc : Lc) : Observation := if lc.obsCur = .empty then .accepted else lc.obsCur

theorem State.acceptEffects_lc (p : Nat) (s : State) : (s.acceptEffects p).lc =
    { s.lc with view := .ending 3, idle := 0, vetoCount := 0, obsCur := s.lc.seen } := by
  have left : frameLength p - vetoPlace p = 3 := by
    simp only [frameLength, vetoPlace, Config.frameBits]
    omega
  simp only [State.acceptEffects, State.endFrame, left]
  rfl

/-- The state in which ET takes an EPOCH for `n` from station `k`, MU before it or not. -/
def State.epochReaches (k : Nat) (n : Word32) (muFirst : Bool) (p : Nat) (s : State) : State :=
  if muFirst then (s.acceptEffects p).hearEpoch k n else s.acceptEffects p

section
variable (k : Nat) (n : Word32) (muFirst : Bool) (p : Nat) (s : State)

theorem State.epochReaches_frame : (s.epochReaches k n muFirst p).et = s.et ∧ (s.epochReaches k n muFirst p).cc = s.cc ∧
    (s.epochReaches k n muFirst p).hr = s.hr ∧ (s.epochReaches k n muFirst p).acq = s.acq ∧
    (s.epochReaches k n muFirst p).tm = s.tm ∧
    (s.epochReaches k n muFirst p).lc =
      { s.lc with view := .ending 3, idle := 0, vetoCount := 0, obsCur := s.lc.seen } := by
  have lc := s.acceptEffects_lc p
  cases muFirst with
  | false => exact ⟨rfl, rfl, rfl, rfl, rfl, lc⟩
  | true =>
    obtain ⟨et, lc', cc, hr, acq, tm⟩ := (s.acceptEffects p).hearEpoch_frame k n
    exact ⟨et, cc, hr, acq, tm, lc'.trans lc⟩

theorem State.epochReaches_mu : (s.epochReaches k n muFirst p).mu =
    { s.mu with peers := (s.epochReaches k n muFirst p).mu.peers } := by
  cases muFirst with
  | false => rfl
  | true =>
    simp only [State.epochReaches, if_true, State.hearEpoch_mu]
    rfl

theorem State.epochReaches_cause {c : Cause} (h : c ≠ .peerChange) :
    (s.epochReaches k n muFirst p).hasCause c = s.hasCause c := by
  cases muFirst with
  | false => rfl
  | true => exact State.hearEpoch_cause k n _ h

theorem State.epochReaches_peers : (if muFirst then s.hearEpoch k n else s).SamePeers (s.epochReaches k n muFirst p) := by
  cases muFirst with
  | false => exact ⟨rfl, rfl⟩
  | true =>
    refine ⟨?_, ?_⟩
    · simp only [State.epochReaches, if_true, State.hearEpoch_mu]
      rfl
    · simp only [State.epochReaches, if_true, State.hearEpoch_peerChange]
      rfl

end

section
variable {s : State} {f : WireFrame} {n : Word32} {lag : Word}

/-- The delivery: ET takes the EPOCH, MU before it or among the other parts. -/
theorem State.epoch_delivered (reads : s.ReadsAsReceiver) (carries : Carries f (.epoch n lag s.mu.digest))
    (known : f.sender.toNat < 24) (other : f.sender ≠ s.mu.number) (muFirst : Bool) (order : List Part) :
    let r := (s.epochReaches f.sender.toNat n muFirst f.payload.length).epochAccepted f.sender n lag s.mu.digest
    exec (.frameAccepted f muFirst order) s = .next ((completeOrder deliveryParts order).foldl
      (State.deliveryPart f.sender (.epoch n lag s.mu.digest) muFirst r.2) r.1) := by
  have on : (s.acceptEffects f.payload.length).receiverOn = true := by
    rcases reads.1 with h | h | h <;> simp [State.receiverOn, State.isListen, State.isMember, State.isLeaving, h]
  have first : (if muFirst then (s.acceptEffects f.payload.length).muTake f.sender (.epoch n lag s.mu.digest)
      else s.acceptEffects f.payload.length) = s.epochReaches f.sender.toNat n muFirst f.payload.length := by
    cases muFirst with
    | false => rfl
    | true => exact State.muTake_epoch on (by simpa using other) known n lag
  refine congrArg Host.Outcome.next ?_
  rw [State.frameAccepted_eq reads carries (decodePayload_epoch n lag _) muFirst order, State.deliverOther, first]
  rfl

/-- The EPOCH is eligible where MU has heard it too (R108). -/
theorem State.epochReaches_eligible (known : f.sender.toNat < 24) (other : f.sender ≠ s.mu.number) (positive : n ≠ 0)
    (muFirst : Bool) (p : Nat) :
    (s.epochReaches f.sender.toNat n muFirst p).epochEligible f.sender n s.mu.digest = true := by
  have mu := s.epochReaches_mu f.sender.toNat n muFirst p
  have number : (s.epochReaches f.sender.toNat n muFirst p).mu.number = s.mu.number := by rw [mu]
  have digest : (s.epochReaches f.sender.toNat n muFirst p).mu.digest = s.mu.digest := by rw [mu]
  simp only [State.epochEligible, number, digest, decide_eq_true known, bne_iff_ne.2 other, bne_iff_ne.2 positive,
    beq_self_eq_true, Bool.and_self]

end

/-! ## The adoption in MEMBER (R109, R110) -/

/-- ET takes the number and the counter; an own EPOCH is withdrawn. -/
def State.takeNumber (n : Word32) (lag : Word) (w : State) : State :=
  let t := w.withdrawMsg (fun m => m.payload.isEpoch)
  { t with et := { t.et with counter := w.adoptedCounter lag, epoch := n, own := .none } }

section
variable {n : Word32} (lag : Word) {w : State}

theorem State.adopt_same (h : n = w.et.epoch) : w.adopt n lag = (w.takeNumber n lag, false) := by
  simp only [State.adopt, if_pos h]
  rfl

theorem State.adopt_next (h : n ≠ w.et.epoch) (next : n = epochSucc w.et.epoch) :
    w.adopt n lag = (w.takeNumber n lag, true) := by
  simp only [State.adopt, if_neg h, if_pos next]
  rfl

theorem State.adopt_slips (h : n ≠ w.et.epoch) (slips : n ≠ epochSucc w.et.epoch) :
    w.adopt n lag = ((w.takeNumber n lag).slip, true) := by
  simp only [State.adopt, if_neg h, if_neg slips]
  rfl

end

/-- The state after the adoption, before its epoch start: what both kinds of adoption make. -/
structure State.Adopts (s : State) (n : Word32) (lag : Word) (t : State) : Prop where
  lc : t.lc = { s.lc with
    view := .ending 3, idle := 0, vetoCount := 0, obsCur := s.lc.seen
    queue := s.lc.queue.filter (fun m => !m.payload.isEpoch) }
  et : t.et = { s.et with counter := s.adoptedCounter lag, epoch := n, own := .none }
  mu : t.mu = { s.mu with peers := t.mu.peers }
  hr : t.hr = s.hr
  tm : t.tm = s.tm

/-- Nothing of a slip. -/
structure State.NoSlip (s t : State) : Prop where
  cc   : t.cc = s.cc
  acq  : t.acq = s.acq
  told : t.hasCause .slip = s.hasCause .slip

/-- The slip (R110): SLIP, slip-pending, and TIME_SLIP on the records in progress. -/
structure State.Slips (s t : State) : Prop where
  marks   : t.cc.marks = s.cc.marks
  pending : t.acq.slipPending = true
  told    : t.hasCause .slip = true
  records : ∀ i, t.recordAt i = (s.recordAt i).map CapRecord.slipped

section
variable {s : State} {n : Word32} {lag : Word}

theorem State.Adopts.slip {y : State} (h : s.Adopts n lag y) : s.Adopts n lag y.slip :=
  ⟨by simpa using h.lc, by simpa using h.et, by simpa using h.mu, by simpa using h.hr, by simpa using h.tm⟩

theorem State.NoSlip.slips {y : State} (h : s.NoSlip y) : s.Slips y.slip where
  marks := by
    rw [← h.cc]
    rfl
  pending := by simp [State.slip]
  told := by
    rw [State.slip, State.hasCause_of_lp (State.mapRecords_frame _ _).2.2.2.2.2.2.1]
    exact State.hasCause_raise _ _
  records i := by
    rw [State.slip, State.recordAt_mapRecords, ← State.recordAt_of_cc h.cc i]
    rfl

theorem State.slip_samePeers (y : State) : y.SamePeers y.slip := by
  refine ⟨by simp, ?_⟩
  rw [State.slip, State.hasCause_of_lp (State.mapRecords_frame _ _).2.2.2.2.2.2.1]
  exact State.hasCause_raise_other (by decide) _

theorem State.Adopts.hearEpoch {y : State} (h : s.Adopts n lag y) (k : Nat) : s.Adopts n lag (y.hearEpoch k n) := by
  obtain ⟨et, lc, _, hr, _, tm⟩ := y.hearEpoch_frame k n
  refine ⟨lc.trans h.lc, et.trans h.et, ?_, hr.trans h.hr, tm.trans h.tm⟩
  rw [State.hearEpoch_mu, h.mu]

theorem State.NoSlip.hearEpoch {y : State} (h : s.NoSlip y) (k : Nat) (n : Word32) : s.NoSlip (y.hearEpoch k n) := by
  obtain ⟨_, _, cc, _, acq, _⟩ := y.hearEpoch_frame k n
  exact ⟨cc.trans h.cc, acq.trans h.acq, (State.hearEpoch_cause k n y (by decide)).trans h.told⟩

theorem State.epochReaches_adopts (queued : ∀ m ∈ s.lc.queue, m.cond = .queued) (k : Nat) (muFirst : Bool) (p : Nat) :
    s.Adopts n lag ((s.epochReaches k n muFirst p).takeNumber n lag) := by
  obtain ⟨et, _, hr, _, tm, lc⟩ := s.epochReaches_frame k n muFirst p
  have mu := s.epochReaches_mu k n muFirst p
  have withdrawn : s.lc.queue.filter (fun m => m.moving || !m.payload.isEpoch) =
      s.lc.queue.filter (fun m => !m.payload.isEpoch) :=
    List.filter_congr fun m hm => by simp [Msg.moving, queued m hm]
  have cfg : (s.epochReaches k n muFirst p).cfg = s.cfg := by rw [State.cfg, mu]; rfl
  refine ⟨?_, ?_, mu, hr, tm⟩
  · simp only [State.takeNumber, State.withdrawMsg, lc, withdrawn]
  · simp only [State.takeNumber, State.withdrawMsg, State.adoptedCounter, et, cfg]

theorem State.epochReaches_noSlip (k : Nat) (muFirst : Bool) (p : Nat) :
    s.NoSlip ((s.epochReaches k n muFirst p).takeNumber n lag) := by
  obtain ⟨_, cc, _, acq, _, _⟩ := s.epochReaches_frame k n muFirst p
  exact ⟨cc, acq, s.epochReaches_cause k n muFirst p (by decide)⟩

theorem State.takeNumber_samePeers (n : Word32) (lag : Word) (w : State) : w.SamePeers (w.takeNumber n lag) := ⟨rfl, rfl⟩

end

section
variable {s : State} {f : WireFrame} {n : Word32} {lag : Word} (reads : s.ReadsAsReceiver)
  (carries : Carries f (.epoch n lag s.mu.digest)) (known : f.sender.toNat < 24) (other : f.sender ≠ s.mu.number)
  (positive : n ≠ 0)
include reads carries known other positive

section
variable (station : s.mu.station = .member)
include station

theorem State.epoch_adopted (muFirst : Bool) (order : List Part) :
    let r := (s.epochReaches f.sender.toNat n muFirst f.payload.length).adopt n lag
    exec (.frameAccepted f muFirst order) s = .next ((completeOrder deliveryParts order).foldl
      (State.deliveryPart f.sender (.epoch n lag s.mu.digest) muFirst r.2) r.1) := by
  have same : (s.epochReaches f.sender.toNat n muFirst f.payload.length).mu.station = .member := by
    rw [State.epochReaches_mu, station]
  have member := isMember_iff.2 same
  have listen : State.isListen (s.epochReaches f.sender.toNat n muFirst f.payload.length) = false := by
    simp [State.isListen, same]
  have accepted : (s.epochReaches f.sender.toNat n muFirst f.payload.length).epochAccepted f.sender n lag s.mu.digest =
      (s.epochReaches f.sender.toNat n muFirst f.payload.length).adopt n lag := by
    simp [State.epochAccepted, State.epochReaches_eligible known other positive, listen, member]
  have delivered := State.epoch_delivered reads carries known other muFirst order
  rwa [accepted] at delivered

/-- The number is the station's own: no epoch start. -/
theorem State.epoch_heard_again (same : n = s.et.epoch) (muFirst : Bool) (order : List Part) :
    ∃ t, exec (.frameAccepted f muFirst order) s = .next t ∧ s.Adopts n lag t ∧ s.NoSlip t := by
  have adopts := State.epochReaches_adopts (n := n) (lag := lag) reads.2.2 f.sender.toNat muFirst f.payload.length
  have noSlip := State.epochReaches_noSlip (s := s) (n := n) (lag := lag) f.sender.toNat muFirst f.payload.length
  have delivered := State.epoch_adopted reads carries known other positive station muFirst order
  have et := (s.epochReaches_frame f.sender.toNat n muFirst f.payload.length).1
  simp only [State.adopt_same lag (same.trans (congrArg Et.epoch et).symm), State.deliveryParts_still] at delivered
  generalize (s.epochReaches f.sender.toNat n muFirst f.payload.length).takeNumber n lag = y at adopts noSlip delivered
  cases muFirst with
  | true => exact ⟨y, delivered, adopts, noSlip⟩
  | false =>
    have stationY : y.mu.station = .member := by rw [adopts.mu, station]
    have on : y.receiverOn = true := by simp [State.receiverOn, State.isMember, stationY]
    have digest : y.mu.digest = s.mu.digest := by rw [adopts.mu]
    rw [if_neg Bool.false_ne_true, ← digest,
      State.muTake_epoch on (by rw [adopts.mu]; exact other) known] at delivered
    exact ⟨_, delivered, adopts.hearEpoch _, noSlip.hearEpoch _ n⟩

/-- Another number: the adoption, a slip or none, and the parts of the epoch start. -/
theorem State.epoch_starts (new : n ≠ s.et.epoch) (muFirst : Bool) (order : List Part) :
    ∃ x, exec (.frameAccepted f muFirst order) s = .next (x.epochParts f.sender.toNat n muFirst order) ∧
      s.Adopts n lag x ∧ (if muFirst then s.hearEpoch f.sender.toNat n else s).SamePeers x ∧
      (n = epochSucc s.et.epoch → s.NoSlip x) ∧ (n ≠ epochSucc s.et.epoch → s.Slips x) := by
  have adopts := State.epochReaches_adopts (n := n) (lag := lag) reads.2.2 f.sender.toNat muFirst f.payload.length
  have noSlip := State.epochReaches_noSlip (s := s) (n := n) (lag := lag) f.sender.toNat muFirst f.payload.length
  have peers := (s.epochReaches_peers f.sender.toNat n muFirst f.payload.length).trans
    (State.takeNumber_samePeers n lag _)
  have delivered := State.epoch_adopted reads carries known other positive station muFirst order
  have et : (s.epochReaches f.sender.toNat n muFirst f.payload.length).et.epoch = s.et.epoch := by
    rw [(s.epochReaches_frame f.sender.toNat n muFirst f.payload.length).1]
  have parts : ∀ x, s.Adopts n lag x → (completeOrder deliveryParts order).foldl
      (State.deliveryPart f.sender (.epoch n lag s.mu.digest) muFirst true) x =
      x.epochParts f.sender.toNat n muFirst order := by
    intro x h
    have digest : x.mu.digest = s.mu.digest := by rw [h.mu]
    rw [← digest]
    exact State.foldl_deliveryPart_epoch _ (isMember_iff.2 (by rw [h.mu]; exact station)) (by rw [h.mu]; exact other) known
  by_cases next : n = epochSucc s.et.epoch
  · rw [State.adopt_next lag (by rwa [et]) (by rwa [et])] at delivered
    exact ⟨_, delivered.trans (congrArg _ (parts _ adopts)), adopts, peers, fun _ => noSlip, fun h => absurd next h⟩
  · rw [State.adopt_slips lag (by rwa [et]) (by rwa [et])] at delivered
    exact ⟨_, delivered.trans (congrArg _ (parts _ adopts.slip)), adopts.slip, peers.trans (State.slip_samePeers _),
      fun h => absurd h next, fun _ => noSlip.slips⟩

end

end

end Sys2Proof.Machine
end

