-- ==== Sys2Proof/Proofs/EpochListen.lean ====
section
/-! SUPPORT. Another station's eligible EPOCH in LISTEN: the station becomes MEMBER (R112, R143). -/

namespace Sys2Proof.Machine

/-! ## Becoming MEMBER (R143) -/

/-- The station as MEMBER, its HELLO still to be submitted. -/
def State.memberBegun (s : State) : State :=
  { s with
    mu := { s.mu with station := .member, spoken := false, peers := s.mu.peers.map (Peer.restamp s.et.epoch) }
    hr := ⟨some ⟨s.cfg.sweep.length + 2, ringDepth s.cfg.sweep.length⟩, 0, 0, []⟩
    tm := { monitors := s.cfg.monitors.map (fun _ => ⟨.armed, 0⟩) }
    acq := { s.acq with slipPending := false, assembly := none }
    lc := { s.lc with obsCur := .spoiled, obsPrev := .spoiled }
    cc := { s.cc with stuck := 0, lineEntry := .empty } }

/-- The station in LISTEN that has taken the number and the counter, so begun. -/
def State.listenBegun (n : Word32) (lag : Word) (s : State) : State :=
  State.memberBegun { s with et := { s.et with epoch := n, counter := s.adoptedCounter lag } }

theorem State.listenAdopt_eq (n : Word32) (lag : Word) (s : State) :
    s.listenAdopt n lag = (s.listenBegun n lag).submitHello := rfl

/-- The HELLO enters an empty queue (R126). -/
theorem State.submitHello_first {s : State} (member : s.isMember = true) (mute : s.lc.mute = false)
    (empty : s.lc.queue = []) : ∃ q, s.submitHello.lc.queue = [q] ∧ q.cond = .queued ∧
      q.payload = .hello s.mu.digest s.et.epoch s.freeField := by
  have sent : s.submitHello = s.enqueue (.hello s.mu.digest s.et.epoch s.freeField) none := by
    rw [State.submitHello, State.submitOrDrop,
      State.submit_announcement rfl member mute (by rw [empty]; rfl) (by rw [empty]; decide)]
    rfl
  rw [sent, State.enqueue, empty]
  exact ⟨_, rfl, rfl, rfl⟩

/-- What an EPOCH for `n` makes of the station in LISTEN, the peer table apart. -/
structure State.Joins (s : State) (n : Word32) (lag : Word) (t : State) : Prop where
  mu    : t.mu = { s.mu with station := .member, spoken := false, peers := t.mu.peers }
  et    : t.et = { s.et with counter := s.adoptedCounter lag, epoch := n }
  lc    : t.lc = { s.lc with
    view := .ending 3, idle := 0, vetoCount := 0, obsCur := .spoiled, obsPrev := .spoiled
    queue := t.lc.queue, nextAge := t.lc.nextAge }
  hello : s.lc.mute = false → s.lc.queue = [] → ∃ q, t.lc.queue = [q] ∧ q.cond = .queued ∧
    ∃ free, q.payload = .hello s.mu.digest n free
  hr    : t.hr = ⟨some ⟨s.cfg.sweep.length + 2, 4096 / (s.cfg.sweep.length + 2)⟩, 0, 0, []⟩
  tm    : t.tm = ⟨s.cfg.monitors.map (fun _ => ⟨.armed, 0⟩)⟩
  acq   : t.acq = { s.acq with slipPending := false, assembly := none }
  cc    : t.cc = { s.cc with stuck := 0, lineEntry := .empty }

theorem State.Joins.hearEpoch {s : State} {n : Word32} {lag : Word} {y : State} (h : s.Joins n lag y) (k : Nat) :
    s.Joins n lag (y.hearEpoch k n) := by
  obtain ⟨et, lc, cc, hr, acq, tm⟩ := y.hearEpoch_frame k n
  refine ⟨?_, et.trans h.et, ?_, by rw [lc]; exact h.hello, hr.trans h.hr, tm.trans h.tm, acq.trans h.acq, cc.trans h.cc⟩
  · rw [State.hearEpoch_mu, h.mu]
  · rw [lc]
    exact h.lc

section
variable {n : Word32} {lag : Word} (s : State) (k : Nat) (muFirst : Bool) (p : Nat)

theorem State.epochReaches_joins : s.Joins n lag ((s.epochReaches k n muFirst p).listenAdopt n lag) := by
  obtain ⟨et, cc, _, acq, _, lc⟩ := s.epochReaches_frame k n muFirst p
  have mu := s.epochReaches_mu k n muFirst p
  have cfg : (s.epochReaches k n muFirst p).cfg = s.cfg := by rw [State.cfg, mu]; rfl
  have digest : (s.epochReaches k n muFirst p).mu.digest = s.mu.digest := by rw [mu]
  generalize s.epochReaches k n muFirst p = w at et cc acq lc mu cfg digest
  have cfgBegun : (State.cfg { w with et := { w.et with epoch := n, counter := w.adoptedCounter lag } }) = s.cfg := cfg
  rw [State.listenAdopt_eq]
  refine ⟨?_, ?_, ?_, fun mute empty => ?_, ?_, ?_, ?_, ?_⟩
  · simp only [State.submitHello, State.submitOrDrop_frame, State.listenBegun, State.memberBegun]
    rw [mu]
  · simp only [State.submitHello, State.submitOrDrop_frame, State.listenBegun, State.memberBegun,
      State.adoptedCounter, et, cfg]
  · rw [State.submitHello, State.QueueOnly.submitOrDrop]
    simp only [State.listenBegun, State.memberBegun, lc]
  · obtain ⟨q, queue, cond, payload⟩ := State.submitHello_first (s := w.listenBegun n lag) rfl
      (by simp only [State.listenBegun, State.memberBegun, lc, mute])
      (by simp only [State.listenBegun, State.memberBegun, lc, empty])
    exact ⟨q, queue, cond, (w.listenBegun n lag).freeField, by rw [payload, ← digest]; rfl⟩
  · simp only [State.submitHello, State.submitOrDrop_frame, State.listenBegun, State.memberBegun, cfgBegun]
    rfl
  · simp only [State.submitHello, State.submitOrDrop_frame, State.listenBegun, State.memberBegun, cfgBegun]
  · simp only [State.submitHello, State.submitOrDrop_frame, State.listenBegun, State.memberBegun, acq]
  · simp only [State.submitHello, State.submitOrDrop_frame, State.listenBegun, State.memberBegun, cc]

/-! ## The peer table (R143, R145) -/

theorem State.listenAdopt_peerAt (n : Word32) (lag : Word) (j : Nat) :
    (s.listenAdopt n lag).peerAt j = (s.peerAt j).restamp n := by
  have peers : (s.listenAdopt n lag).mu.peers = s.mu.peers.map (Peer.restamp n) := by
    rw [State.listenAdopt_eq, State.submitHello, (State.submitOrDrop_frame _ _).1]
    rfl
  simp only [State.peerAt, peers, Vector.getElem?_map]
  cases s.mu.peers[j]? <;> rfl

theorem Peer.restamp_heardEpoch (stamp n : Word32) (q : Peer) : (q.heardEpoch stamp n).restamp n = q.heardEpoch n n := rfl

theorem Peer.heardEpoch_restamp (n : Word32) (q : Peer) : (q.restamp n).heardEpoch n n = q.heardEpoch n n := by
  unfold Peer.restamp
  split <;> rfl

theorem Peer.restamp_state (e : Word32) (q : Peer) : (q.restamp e).state = q.state := by
  unfold Peer.restamp
  split <;> rfl

/-- The table after an EPOCH in LISTEN: the sender's entry is heard, every other is stamped anew. -/
structure State.PeersJoin (k : Nat) (n : Word32) (s t : State) : Prop where
  sender : t.peerAt k = (s.peerAt k).heardEpoch n n
  others : ∀ j, j ≠ k → t.peerAt j = (s.peerAt j).restamp n
  told   : t.hasCause .peerChange = (s.hasCause .peerChange || decide ((s.peerAt k).state ≠ .present))

variable {s k} (known : k < 24)
include known

/-- MU hears the sender, then the table is stamped anew. -/
theorem State.listenAdopt_heard {w : State} (same : (s.hearEpoch k n).SamePeers w) :
    s.PeersJoin k n (w.listenAdopt n lag) := by
  have at_ : ∀ j, w.peerAt j = if k = j then (s.peerAt k).heardEpoch s.et.epoch n else s.peerAt j := fun j =>
    (same.peerAt j).trans (s.hearEpoch_peerAt n known j)
  refine ⟨?_, fun j hj => ?_, ?_⟩
  · rw [State.listenAdopt_peerAt, at_, if_pos rfl, Peer.restamp_heardEpoch]
  · rw [State.listenAdopt_peerAt, at_, if_neg (Ne.symm hj)]
  · rw [State.hasCause_of_lp (State.listenAdopt_frame n lag w).1, same.told, State.hearEpoch_peerChange]

/-- The table is stamped anew, then MU hears the sender. -/
theorem State.hearEpoch_joined {w : State} (same : s.SamePeers w) (epoch : (w.listenAdopt n lag).et.epoch = n) :
    s.PeersJoin k n ((w.listenAdopt n lag).hearEpoch k n) := by
  have at_ : ∀ j, (w.listenAdopt n lag).peerAt j = (s.peerAt j).restamp n := fun j => by
    rw [State.listenAdopt_peerAt, same.peerAt]
  refine ⟨?_, fun j hj => ?_, ?_⟩
  · rw [State.hearEpoch_peerAt n _ known, if_pos rfl, epoch, at_, Peer.heardEpoch_restamp]
  · rw [State.hearEpoch_peerAt n _ known, if_neg (Ne.symm hj), at_]
  · rw [State.hearEpoch_peerChange, State.hasCause_of_lp (State.listenAdopt_frame n lag w).1, same.told, at_,
      Peer.restamp_state]

end

/-- Another station's eligible EPOCH in LISTEN, MU before ET or after it. -/
theorem State.epoch_joins {s : State} {f : WireFrame} {n : Word32} {lag : Word} (reads : s.ReadsAsReceiver)
    (carries : Carries f (.epoch n lag s.mu.digest)) (known : f.sender.toNat < 24) (other : f.sender ≠ s.mu.number)
    (positive : n ≠ 0) (station : s.mu.station = .listen) (muFirst : Bool) (order : List Part) :
    ∃ t, exec (.frameAccepted f muFirst order) s = .next t ∧ s.Joins n lag t ∧ s.PeersJoin f.sender.toNat n t := by
  have joins := s.epochReaches_joins (n := n) (lag := lag) f.sender.toNat muFirst f.payload.length
  have peers := s.epochReaches_peers f.sender.toNat n muFirst f.payload.length
  have delivered := State.epoch_delivered reads carries known other muFirst order
  have listen : State.isListen (s.epochReaches f.sender.toNat n muFirst f.payload.length) = true := by
    rw [State.isListen, State.epochReaches_mu, station]
    rfl
  simp only [State.epochAccepted, State.epochReaches_eligible known other positive, listen, Bool.not_true,
    Bool.false_eq_true, if_false, if_true, State.deliveryParts_still] at delivered
  cases muFirst with
  | true => exact ⟨_, delivered, joins, State.listenAdopt_heard known peers⟩
  | false =>
    generalize State.epochReaches f.sender.toNat n false f.payload.length s = w at joins peers delivered
    have stationT : (w.listenAdopt n lag).mu.station = .member := by rw [joins.mu]
    have on : (w.listenAdopt n lag).receiverOn = true := by simp [State.receiverOn, State.isMember, stationT]
    have digest : (w.listenAdopt n lag).mu.digest = s.mu.digest := by rw [joins.mu]
    rw [if_neg Bool.false_ne_true, ← digest, State.muTake_epoch on (by rw [joins.mu]; exact other) known] at delivered
    exact ⟨_, delivered, joins.hearEpoch _, State.hearEpoch_joined known peers (by rw [joins.et])⟩

end Sys2Proof.Machine
end

