-- ==== Sys2Proof/Proofs/EpochAdopted.lean ====
section
/-! O47. Another station's eligible EPOCH: in MEMBER the adoption and, at another number, the parts of its epoch start; in
LISTEN the entry into MEMBER. -/

namespace Sys2Proof.Machine

section
variable {s x : State} {n : Word32} {lag : Word} (adopts : s.Adopts n lag x)
include adopts

/-! ## The adoption at LC -/

theorem State.Adopts.noEpoch : ∀ q ∈ x.lc.queue, q.payload.isEpoch = false := by
  intro q hq
  rw [adopts.lc] at hq
  simpa using (List.mem_filter.1 hq).2

theorem State.Adopts.acceptedAtLc : AcceptedAtLc s x := by
  rw [AcceptedAtLc, adopts.lc]
  exact ⟨rfl, rfl, rfl, rfl, rfl, rfl, rfl⟩

theorem State.Adopts.mute : x.lc.mute = s.lc.mute := by rw [adopts.lc]

theorem State.Adopts.noMembership (first : s.lc.queue.any Msg.ofMembership = false) :
    x.lc.queue.any Msg.ofMembership = false := by
  rw [adopts.lc]
  exact List.any_eq_false.2 fun q hq => List.any_eq_false.1 first q (List.mem_filter.1 hq).1

theorem State.Adopts.room (room : (s.lc.queue.filter (fun m => !m.payload.isEpoch)).length < 11) :
    (x.lc.queue.filter (fun m => !m.payload.isEpoch)).length < 11 := by
  rw [adopts.lc]
  exact (List.length_filter_le _ _).trans_lt room

theorem State.Adopts.spoken : x.mu.spoken = s.mu.spoken := by rw [adopts.mu]

theorem State.Adopts.digest : x.mu.digest = s.mu.digest := by rw [adopts.mu]

theorem State.Adopts.epoch : x.et.epoch = n := by rw [adopts.et]

theorem State.Adopts.isMember (station : s.mu.station = .member) : x.isMember = true :=
  isMember_iff.2 (by rw [adopts.mu, station])

/-! ## Its epoch start -/

variable (k : Nat) (muFirst : Bool) (order : List Part)

theorem State.Adopts.start_noEpoch : ∀ q ∈ (x.epochParts k n muFirst order).lc.queue, q.payload.isEpoch = false := by
  intro q hq
  by_contra epoch
  have old := (State.StartTurn.fold k n muFirst _ x).queue.epochs q hq (by simpa using epoch)
  exact epoch (adopts.noEpoch q old)

/-- LC after the epoch start: the line, the observations, and MUTE (R130, R133). -/
theorem State.Adopts.start_lc :
    let t := x.epochParts k n muFirst order
    (t.lc.vetoCount = 0 ∧ t.lc.view = .ending 3 ∧ t.lc.idle = 0) ∧ t.lc.obsCur = .empty ∧ t.lc.obsPrev = s.lc.seen ∧
      (s.lc.mute = true → s.lc.seen = .accepted → s.lc.obsPrev = .accepted →
        t.lc.mute = false ∧ t.lc.failCount = 0 ∧ t.lc.vetoCount = 0 ∧ t.hasCause .linkMute = true) ∧
      (¬(s.lc.mute = true ∧ s.lc.seen = .accepted ∧ s.lc.obsPrev = .accepted) →
        t.lc.mute = s.lc.mute ∧ t.lc.failCount = s.lc.failCount) := by
  obtain ⟨prev, cur, leaves, stays, view, idle⟩ := x.epochParts_lc k n muFirst order
  rw [adopts.lc] at prev leaves stays view idle
  refine ⟨⟨?_, view, idle⟩, cur, prev, fun mute seen before => leaves ⟨mute, seen, before⟩, fun still => ?_⟩
  · by_cases unmutes : Lc.unmutes { s.lc with
        view := .ending 3, idle := 0, vetoCount := 0, obsCur := s.lc.seen
        queue := s.lc.queue.filter (fun m => !m.payload.isEpoch) }
    · exact (leaves unmutes).2.2.1
    · exact (stays unmutes).2.2
  · obtain ⟨mute, fails, _⟩ := stays still
    exact ⟨mute, fails⟩

/-- MU's PRESENT at the epoch start (R148). -/
theorem State.Adopts.start_present (station : s.mu.station = .member) :
    let t := x.epochParts k n muFirst order
    (s.mu.spoken = true → ∀ q ∈ t.lc.queue, q ∈ s.lc.queue) ∧
      (s.mu.spoken = false → s.lc.mute = false → s.lc.queue.any Msg.ofMembership = false →
        (s.lc.queue.filter (fun m => !m.payload.isEpoch)).length < 11 →
        ∃ m ∈ t.lc.queue, m.cond = .queued ∧ ∃ free, m.payload = .present s.mu.digest n free) := by
  have member := adopts.isMember station
  refine ⟨fun spoken q hq => ?_, fun silent mute first room => ?_⟩
  · have old := State.epochParts_quiet member k n muFirst order (adopts.spoken.trans spoken) q hq
    rw [adopts.lc] at old
    exact (List.mem_filter.1 old).1
  · have sent := State.epochParts_announces member k n muFirst order (adopts.spoken.trans silent)
      (adopts.mute.trans mute) (adopts.noMembership first) (adopts.room room)
    rwa [adopts.digest, adopts.epoch] at sent

/-- The peer table at the epoch start, MU having heard the sender before ET or hearing it among the parts. -/
theorem State.Adopts.start_peers (known : k < 24) (station : s.mu.station = .member)
    (peers : (if muFirst then s.hearEpoch k n else s).SamePeers x) :
    s.PeersAtEpoch k n (if muFirst then s.et.epoch else n) (x.epochParts k n muFirst order) := by
  have member := adopts.isMember station
  cases muFirst with
  | true => exact State.epochParts_peers_done known peers member adopts.epoch order
  | false => exact .before peers (State.epochParts_peers known member adopts.epoch order)

end

/-- The sender's entry expires at the epoch start only under the stamp that MU gave it before the adoption. -/
theorem State.PeersAtEpoch.sender_eq {k : Nat} {n e : Word32} {muFirst : Bool} {s t : State}
    (h : s.PeersAtEpoch k n (if muFirst then e else n) t) :
    ((s.peerAt k).heardEpoch (if muFirst then e else n) n).expires n =
        (muFirst && ((s.peerAt k).heardEpoch e n).expires n) ∧
      t.peerAt k = { (s.peerAt k).heardEpoch (if muFirst then e else n) n with
        state := if (muFirst && ((s.peerAt k).heardEpoch e n).expires n) = true then .absent else .present } := by
  have expired : ((s.peerAt k).heardEpoch (if muFirst then e else n) n).expires n =
      (muFirst && ((s.peerAt k).heardEpoch e n).expires n) := by
    cases muFirst with
    | true => rfl
    | false => exact (s.peerAt k).heardEpoch_fresh n
  refine ⟨expired, ?_⟩
  rw [h.sender, Peer.expire, expired]
  split <;> rfl

/-! ## The records -/

section
variable {s x : State} (k : Nat) (n : Word32) (muFirst : Bool) (order : List Part)

/-- TIME_SLIP on a record in progress that the epoch start leaves (R42, R110). -/
theorem State.Slips.start_record (slips : s.Slips x) (distinct : s.IdsDistinct) {i : Fin 4} {r : CapRecord}
    (record : s.recordAt i = some r) (frames : r.framesDone = false) (going : r.isOpen = true ∨ r.isFilling = true)
    (spared : s.Spared i) : ∃ r', (x.epochParts k n muFirst order).recordAt i = some r' ∧ r'.isOpen = r.isOpen ∧
      r'.flags.timeSlip = true := by
  refine ⟨r.slipped.windowAtEpoch, ?_, ?_, ?_⟩
  · rw [State.epochParts_recordAt_spared k n muFirst order (by rwa [State.IdsDistinct, slips.marks])
      (by rwa [State.Spared, slips.marks]), slips.records, record]
    rfl
  · exact (r.slipped_follows.trans r.slipped.windowAtEpoch_follows).isOpen
  · rw [r.slipped.windowAtEpoch_sameFrames.slip]
    exact CapRecord.slipped_timeSlip going frames

/-- An open answer window at the epoch start, after a slip or without one. -/
theorem State.start_window (adopted : s.NoSlip x ∨ s.Slips x) {i : Fin 4} {r : CapRecord} {c : Capture}
    (record : s.recordAt i = some r) (phase : r.phase = .filling c) (opened : c.answersClosed = false)
    (unheld : s.Unheld i) :
    ∃ r', (x.epochParts k n muFirst order).recordAt i = some r' ∧ WindowAtEpochStart c r' ∧
      (r'.isComplete = true → (x.epochParts k n muFirst order).hasCause .captureComplete = true) := by
  rcases adopted with noSlip | slips
  · exact State.epochParts_window k n muFirst order (by rwa [State.Unheld, noSlip.cc])
      ((State.recordAt_of_cc noSlip.cc i).trans record) phase opened
  · refine State.epochParts_window k n muFirst order (r := r.slipped) (by rwa [State.Unheld, slips.marks]) ?_
      (r.slipped_phase.trans phase) opened
    rw [slips.records, record]
    rfl

end

/-- Settles O47: the adoption without an epoch start; with one, block by block; and the entry into MEMBER. -/
theorem epochAdopted : Obligations.EpochAdopted := by
  intro s f n lag muFirst order reads carries known other positive
  refine ⟨fun station => ?_, fun station => ?_⟩
  · by_cases same : n = s.et.epoch
    · obtain ⟨t, run, adopts, noSlip⟩ :=
        State.epoch_heard_again reads carries known other positive station same muFirst order
      have lc := adopts.acceptedAtLc
      obtain ⟨veto, seen, view, idle, _⟩ := lc
      exact ⟨t, run, adopts.et, by rw [adopts.mu, station], adopts.noEpoch, adopts.hr, adopts.tm, veto, view, idle,
        fun _ => ⟨adopts.acceptedAtLc, seen, adopts.spoken, noSlip.cc, noSlip.acq, noSlip.told⟩,
        fun new => absurd same new, fun new => absurd same new, fun new => absurd same new, fun new => absurd same new,
        fun new => absurd same new, fun new => absurd same new, fun new => absurd same new⟩
    · obtain ⟨x, run, adopts, peers, next, slips⟩ :=
        State.epoch_starts reads carries known other positive station same muFirst order
      have turn : x.StartTurn (x.epochParts f.sender.toNat n muFirst order) := .fold _ n muFirst _ x
      have adopted : s.NoSlip x ∨ s.Slips x := (em _).imp next slips
      have marks : x.cc.marks = s.cc.marks := adopted.elim (fun h => by rw [h.cc]) State.Slips.marks
      obtain ⟨⟨veto, view, idle⟩, lc⟩ := adopts.start_lc f.sender.toNat muFirst order
      obtain ⟨cur, prev, leaves, stays⟩ := lc
      have table := adopts.start_peers f.sender.toNat muFirst order known station peers
      rw [epochSucc_eq] at next slips
      refine ⟨_, run, turn.et.trans adopts.et, by rw [turn.station, adopts.mu, station],
        adopts.start_noEpoch _ muFirst order, turn.hr.trans adopts.hr, turn.tm.trans adopts.tm, veto, view, idle,
        fun h => absurd h same, fun _ succ => ?_, fun _ succ => ?_, fun _ => ⟨cur, prev, ?_, leaves, stays⟩,
        fun _ distinct => ?_, fun _ i r w record phase opened unheld => ?_,
        fun _ => adopts.start_present _ muFirst order station, fun _ => ?_⟩
      · exact ⟨turn.slipPending.trans (by rw [(next succ).acq]), turn.slip.trans (next succ).told⟩
      · have slip := slips succ
        exact ⟨turn.slipPending.trans slip.pending, turn.slip.trans slip.told,
          fun distinct _ _ record frames going spared =>
            slip.start_record _ n muFirst order distinct record frames going spared⟩
      · exact State.epochParts_spoken (adopts.isMember station) _ n muFirst order
      · rw [← marks]
        exact State.epochParts_marks _ n muFirst order (by rwa [State.IdsDistinct, marks])
      · exact State.start_window _ n muFirst order adopted record phase opened unheld
      · obtain ⟨expired, entry⟩ := table.sender_eq
        refine ⟨entry, fun j hj => ?_, fun due => table.told ?_,
          fun present fresh none_ => table.silent present ?_ fun j => ?_⟩
        · rw [← State.peerAt_fin, ← State.peerAt_fin, table.others j hj]
          rfl
        · rw [expired]
          exact due.imp_right fun d => d.imp_right fun ⟨j, hj, dueJ⟩ => ⟨j, hj, by
            rw [State.peerAt_fin, Peer.expires_eq_dueAt]
            exact dueJ⟩
        · rw [expired]
          exact fresh
        · rw [State.peerAt_fin, Peer.expires_eq_dueAt]
          exact none_ j
  · obtain ⟨t, run, joins, peers⟩ := State.epoch_joins reads carries known other positive station muFirst order
    have lc := joins.lc
    refine ⟨t, run, by rw [joins.mu], joins.et, by rw [joins.mu], peers.sender, fun j hj => ?_, peers.told,
      by rw [lc], by rw [lc], by rw [lc], by rw [lc], by rw [lc], by rw [lc], by rw [lc], by rw [joins.hr],
      by rw [joins.hr], by rw [joins.hr], by rw [joins.tm], by rw [joins.acq], by rw [joins.acq], by rw [joins.cc],
      by rw [joins.cc], joins.hello⟩
    rw [← State.peerAt_fin, ← State.peerAt_fin, peers.others j hj]
    rfl

end Sys2Proof.Machine
end

