-- ==== Sys2Proof/Proofs/Submissions.lean ====
section
/-! Table 7-1, row by row, and the order of the transmit queue: O52 (R125, R126). -/

namespace Sys2Proof.Machine

/-! ## The place in the queue (R125) -/

/-- `x` stays ahead of `m`: it is in transmission, or `m` does not come before it by kind and age. -/
def Msg.ahead (m x : Msg) : Bool :=
  decide (x.cond = .inTransmission) ||
    !decide (m.payload.kind < x.payload.kind ∨ (m.payload.kind = x.payload.kind ∧ m.age < x.age))

theorem Msg.ahead_eq (m x : Msg) : m.ahead x = !(!x.moving && m.before x) := by
  simp only [Msg.ahead, Msg.moving, Msg.before, BitVec.lt_def, Bool.decide_or, Bool.decide_and, Bool.not_and, Bool.not_not,
    Bool.beq_eq_decide_eq]

theorem insertMsg_eq (m : Msg) (q : List Msg) : insertMsg m q = q.takeWhile m.ahead ++ m :: q.dropWhile m.ahead := by
  induction q with
  | nil => rfl
  | cons x xs ih =>
    by_cases h : m.ahead x = true
    · have stays : ¬(!x.moving && m.before x) = true := by rwa [Msg.ahead_eq, Bool.not_eq_true', ← Bool.not_eq_true] at h
      rw [insertMsg, if_neg stays, List.takeWhile_cons_of_pos h, List.dropWhile_cons_of_pos h, ih, List.cons_append]
    · have passes : (!x.moving && m.before x) = true := by rwa [Msg.ahead_eq, Bool.not_eq_true', Bool.not_eq_false] at h
      rw [insertMsg, if_pos passes, List.takeWhile_cons_of_neg h, List.dropWhile_cons_of_neg h, List.nil_append]

/-! ## Table 7-1 -/

/-- The message enters a queue of which `kept` has stayed. -/
def State.entered (s : State) (p : Payload) (mark : Option Nat) (kept : List Msg) : State :=
  { s with lc := { s.lc with
    queue := insertMsg { payload := p, age := s.lc.nextAge, fails := 0, cond := .queued, mark := mark } kept
    nextAge := s.lc.nextAge + 1 } }

/-- The number of messages in the queue that are no EPOCH. -/
def State.otherCount (s : State) : Nat := (s.lc.queue.filter (fun x => !x.payload.isEpoch)).length

theorem Payload.eq_bye_of_isBye {p : Payload} (h : p.isBye = true) : p = .bye := by
  cases p with
  | bye => rfl
  | _ => cases h

/-- The station speaks, and this message too: MEMBER or LEAVING, not MUTE, and in LEAVING its BYE alone. -/
structure State.Speaks (s : State) (p : Payload) : Prop where
  station : s.mu.station = .member ∨ s.mu.station = .leaving
  mute    : s.lc.mute = false
  bye     : s.mu.station = .leaving → p = .bye

theorem State.submit_silent {s : State} {p : Payload} (mark : Option Nat)
    (h : (s.mu.station ≠ .member ∧ s.mu.station ≠ .leaving) ∨ s.lc.mute = true ∨ (s.mu.station = .leaving ∧ p ≠ .bye)) :
    s.submit p mark = none := by
  rcases h with ⟨member, leaving⟩ | mute | ⟨leaving, other⟩
  · exact State.submit_outside (by simp [State.isMember, State.isLeaving, member, leaving]) p mark
  · exact State.submit_mute mute p mark
  · have bye : p.isBye = false := Bool.eq_false_iff.2 fun h => other (Payload.eq_bye_of_isBye h)
    have refused : s.admission p = .refused := by simp [State.admission, State.isMember, State.isLeaving, leaving, bye]
    simp only [State.submit, refused]

/-- A row that refuses a message, or admits it with no other leaving. -/
theorem State.submit_of_row {s : State} {p : Payload} {c : Prop} [Decidable c] (mark : Option Nat)
    (row : s.admission p = if c then .refused else .plain) :
    s.submit p mark = if c then none else some (s.entered p mark s.lc.queue) := by
  by_cases h : c
  · rw [if_pos h] at row ⊢
    simp only [State.submit, row]
  · rw [if_neg h] at row ⊢
    simp only [State.submit, row]
    rfl

section
variable {s : State} {p : Payload} (speaks : s.Speaks p) (mark : Option Nat)
include speaks

/-- Rows 4 to 10 of the table: what is left of it at a station that speaks. -/
theorem State.Speaks.admission : s.admission p =
    if p.isEpoch && s.lc.queue.any (fun m => m.payload.isEpoch && m.moving) then .refused
    else if p.isEpoch && s.lc.queue.any (fun m => m.payload.isEpoch) then .replacing
    else if p.isEpoch then .plain
    else if p.isBye && s.lc.queue.any (fun m => m.payload.isHelloOrPresent && !m.moving) then .replacing
    else if p.isBye && s.lc.queue.any (fun m => m.payload.isHelloOrPresent && m.moving) then .refused
    else if p.isHelloOrPresent && s.lc.queue.any (fun m => m.payload.isHelloOrPresent || m.payload.isBye) then .refused
    else if 11 ≤ s.otherCount then .refused
    else .plain := by
  obtain ⟨station, mute, bye⟩ := speaks
  have outside : (!(s.isMember || s.isLeaving)) = false := by
    rcases station with h | h <;> simp [State.isMember, State.isLeaving, h]
  have leaves : (s.isLeaving && !p.isBye) = false := by
    by_cases h : s.mu.station = .leaving
    · simp [bye h, Payload.isBye]
    · simp [State.isLeaving, h]
  unfold State.admission
  simp only [outside, mute, leaves, Bool.false_eq_true, if_false]
  rfl

theorem State.Speaks.submit_epoch_moving (epoch : p.isEpoch = true)
    (moving : ∃ x ∈ s.lc.queue, x.payload.isEpoch = true ∧ x.cond = .inTransmission) : s.submit p mark = none := by
  obtain ⟨x, hx, he, hc⟩ := moving
  have refused : s.admission p = .refused := by
    rw [speaks.admission, if_pos]
    simp only [epoch, Bool.true_and, List.any_eq_true]
    exact ⟨x, hx, by simp [he, Msg.moving, hc]⟩
  simp only [State.submit, refused]

theorem State.Speaks.submit_epoch (epoch : p.isEpoch = true)
    (still : ∀ x ∈ s.lc.queue, x.payload.isEpoch = true → x.cond ≠ .inTransmission) :
    s.submit p mark = some (s.entered p mark (s.lc.queue.filter (fun x => !x.payload.isEpoch))) := by
  have bye : p.isBye = false := by
    cases p with
    | epoch _ _ _ => rfl
    | _ => cases epoch
  have noneMoves : ¬(p.isEpoch && s.lc.queue.any (fun m => m.payload.isEpoch && m.moving)) = true := by
    simp only [epoch, Bool.true_and, List.any_eq_true, not_exists, not_and]
    intro x hx
    have := still x hx
    cases he : x.payload.isEpoch <;> simp_all [Msg.moving]
  by_cases older : s.lc.queue.any (fun m => m.payload.isEpoch) = true
  · have replacing : s.admission p = .replacing := by
      rw [speaks.admission, if_neg noneMoves, if_pos (by simpa [epoch] using older)]
    have kept : (fun m : Msg => !replacedBy p m) = fun x => !x.payload.isEpoch := by
      funext m
      simp [replacedBy, epoch, bye]
    simp only [State.submit, replacing, kept]
    rfl
  · have plain : s.admission p = .plain := by
      rw [speaks.admission, if_neg noneMoves, if_neg (by simpa [epoch] using older), if_pos epoch]
    have kept : s.lc.queue.filter (fun x => !x.payload.isEpoch) = s.lc.queue :=
      List.filter_eq_self.2 fun x hx => by
        have := List.any_eq_false.1 (Bool.eq_false_iff.2 older) x hx
        simpa using this
    simp only [State.submit, plain, kept]
    rfl

theorem State.Speaks.submit_capture (capture : (∃ c, p = .claim c) ∨ ∃ key off out, p = .frozen key off out) :
    s.submit p mark = if 11 ≤ s.otherCount then none else some (s.entered p mark s.lc.queue) := by
  refine State.submit_of_row mark ?_
  rw [speaks.admission]
  obtain ⟨c, rfl⟩ | ⟨key, off, out, rfl⟩ := capture
  · rfl
  · rfl

theorem State.Speaks.submit_presence (presence : p.isHelloOrPresent = true) :
    s.submit p mark = if s.lc.queue.any Msg.ofMembership || decide (11 ≤ s.otherCount) then none
      else some (s.entered p mark s.lc.queue) := by
  have kinds : p.isEpoch = false ∧ p.isBye = false := by
    cases p with
    | hello _ _ _ => exact ⟨rfl, rfl⟩
    | present _ _ _ => exact ⟨rfl, rfl⟩
    | _ => cases presence
  refine State.submit_of_row mark ?_
  have row : (s.lc.queue.any fun m => m.payload.isHelloOrPresent || m.payload.isBye) = s.lc.queue.any Msg.ofMembership := rfl
  rw [speaks.admission, row]
  simp only [kinds.1, kinds.2, presence, Bool.false_and, Bool.true_and, Bool.false_eq_true, if_false]
  cases s.lc.queue.any Msg.ofMembership with
  | false => simp only [Bool.false_eq_true, if_false, Bool.false_or, decide_eq_true_eq]
  | true => simp only [if_true, Bool.true_or]

end

section
variable {s : State} (speaks : s.Speaks .bye) (mark : Option Nat)
include speaks

theorem State.Speaks.submit_bye_replacing
    (waits : ∃ x ∈ s.lc.queue, x.payload.isHelloOrPresent = true ∧ x.cond ≠ .inTransmission) :
    s.submit .bye mark = some (s.entered .bye mark (s.lc.queue.filter (fun x => !x.payload.isHelloOrPresent))) := by
  obtain ⟨x, hx, hp, hc⟩ := waits
  have replacing : s.admission .bye = .replacing := by
    rw [speaks.admission]
    have : s.lc.queue.any (fun m => m.payload.isHelloOrPresent && !m.moving) = true :=
      List.any_eq_true.2 ⟨x, hx, by simp [hp, Msg.moving, hc]⟩
    simp [Payload.isEpoch, Payload.isBye, this]
  simp only [State.submit, replacing]
  rfl

theorem State.Speaks.submit_bye_moving (present : ∃ x ∈ s.lc.queue, x.payload.isHelloOrPresent = true)
    (moving : ∀ x ∈ s.lc.queue, x.payload.isHelloOrPresent = true → x.cond = .inTransmission) :
    s.submit .bye mark = none := by
  obtain ⟨x, hx, hp⟩ := present
  have noneWaits : s.lc.queue.any (fun m => m.payload.isHelloOrPresent && !m.moving) = false :=
    List.any_eq_false.2 fun y hy => by
      cases he : y.payload.isHelloOrPresent
      · simp
      · simp [Msg.moving, moving y hy he]
  have moves : s.lc.queue.any (fun m => m.payload.isHelloOrPresent && m.moving) = true :=
    List.any_eq_true.2 ⟨x, hx, by simp [hp, Msg.moving, moving x hx hp]⟩
  have refused : s.admission .bye = .refused := by
    rw [speaks.admission]
    simp [Payload.isEpoch, Payload.isBye, noneWaits, moves]
  simp only [State.submit, refused]

theorem State.Speaks.submit_bye_alone (absent : ∀ x ∈ s.lc.queue, x.payload.isHelloOrPresent = false) :
    s.submit .bye mark = if 11 ≤ s.otherCount then none else some (s.entered .bye mark s.lc.queue) := by
  have noneIs : ∀ f : Msg → Bool, s.lc.queue.any (fun m => m.payload.isHelloOrPresent && f m) = false :=
    fun f => List.any_eq_false.2 fun x hx => by simp [absent x hx]
  have kinds : Payload.bye.isEpoch = false ∧ Payload.bye.isHelloOrPresent = false := ⟨rfl, rfl⟩
  refine State.submit_of_row mark ?_
  rw [speaks.admission]
  simp only [kinds.1, kinds.2, noneIs, Bool.false_and, Bool.and_false, Bool.false_eq_true, if_false]

end

/-- Settles O52: at a silent station a submission is refused; at one that speaks, the rows of the table by the message's
kind. -/
theorem submissionTable : Obligations.SubmissionTable := by
  unfold Obligations.SubmissionTable
  refine ⟨fun s p mark => ⟨State.submit_silent mark, fun station mute bye => ?_⟩, insertMsg_eq⟩
  have speaks : s.Speaks p := ⟨station, mute, bye⟩
  refine ⟨fun epoch => ⟨speaks.submit_epoch_moving mark epoch, speaks.submit_epoch mark epoch⟩, ?_,
    speaks.submit_presence mark, speaks.submit_capture mark⟩
  rintro rfl
  exact ⟨speaks.submit_bye_replacing mark, speaks.submit_bye_moving mark, speaks.submit_bye_alone mark⟩

end Sys2Proof.Machine
end

