-- ==== Sys2Proof/Proofs/InTurn.lean ====
section
/-! SUPPORT. What keeps the transmit queue within its bounds and spoken from in turn (R118, R125, R129, R131, R132): which
changes of LC the bounds do not notice, and a submission. -/

namespace Sys2Proof.Machine

/-! ## Messages as the bounds see them -/

/-- What the bounds see of a message beside its condition: its kind, and whether it stands for an open-mark entry. -/
def Msg.role (m : Msg) : BitVec 3 × Bool := (m.payload.kind, m.mark.isSome)

/-- The message contends or is in transmission. -/
def Msg.active (m : Msg) : Bool := decide (m.cond ≠ .queued)

theorem Payload.isEpoch_eq_kind (p : Payload) : p.isEpoch = decide (p.kind = 0) := by cases p <;> rfl

theorem Payload.isHelloOrPresent_eq_kind (p : Payload) :
    p.isHelloOrPresent = (decide (p.kind = 3) || decide (p.kind = 4)) := by cases p <;> rfl

theorem Payload.isBye_eq_kind (p : Payload) : p.isBye = decide (p.kind = 5) := by cases p <;> rfl

theorem Payload.eq_bye_iff (p : Payload) : p = .bye ↔ p.kind = 5 := by cases p <;> simp [Payload.kind]

theorem Payload.claim_iff_kind (p : Payload) : (∃ q, p = .claim q) ↔ p.kind = 1 := by cases p <;> simp [Payload.kind]

theorem Msg.active_iff (m : Msg) : m.active = true ↔ m.moving = true ∨ m.contends = true := by
  unfold Msg.active Msg.moving Msg.contends
  cases m.cond <;> decide

/-- A count that the role decides does not grow when the roles become fewer. -/
theorem length_filter_le_of_roles {f : Msg → Bool} (g : BitVec 3 × Bool → Bool) (hf : ∀ m, f m = g m.role)
    {l l' : List Msg} (h : (l.map Msg.role).Subperm (l'.map Msg.role)) : (l.filter f).length ≤ (l'.filter f).length := by
  obtain rfl : f = g ∘ Msg.role := funext hf
  simpa only [← List.countP_eq_length_filter, List.countP_map] using h.countP_le g

theorem forall_of_roles {P : Msg → Prop} (g : BitVec 3 × Bool → Prop) (hP : ∀ m, P m ↔ g m.role) {l l' : List Msg}
    (h : (l.map Msg.role).Subperm (l'.map Msg.role)) (all : ∀ m ∈ l', P m) : ∀ m ∈ l, P m := by
  intro m hm
  obtain ⟨m', hm', e⟩ := List.mem_map.1 (h.subset (List.mem_map_of_mem hm))
  exact (hP m).2 (e ▸ (hP m').1 (all m' hm'))

theorem markedAreClaims_of_roles {s t : State} (h : (t.lc.queue.map Msg.role).Subperm (s.lc.queue.map Msg.role))
    (hs : MarkedAreClaims s) : MarkedAreClaims t := by
  refine forall_of_roles (fun r => r.2 = true → r.1 = 1) (fun m => ?_) h hs
  rw [Payload.claim_iff_kind, ← Option.isSome_iff_ne_none]
  rfl

/-- A member of a list, and the members that are not of its sort. -/
theorem cons_filter_subperm {α : Type} {f : α → Bool} {l : List α} {a : α} (ha : a ∈ l) (hf : f a = true) :
    (a :: l.filter (fun x => !f x)).Subperm l := by
  have one : [a].Subperm (l.filter f) := List.singleton_subperm_iff.2 (List.mem_filter.2 ⟨ha, hf⟩)
  exact (one.append (List.Subperm.refl _)).trans (List.filter_append_perm f l).subperm

theorem subperm_map {α β : Type} (f : α → β) {l l' : List α} (h : l.Subperm l') : (l.map f).Subperm (l'.map f) := by
  obtain ⟨k, perm, sub⟩ := h
  exact ⟨k.map f, perm.map f, sub.map f⟩

/-! ## The invariants together -/

/-- The invariants of the transmit queue, and that of the self-check: at each change of the station state they lean on one
another (R81, R118, R125, R129, R131, R132). -/
structure State.InTurn (s : State) : Prop where
  bounded   : QueueBounded s
  mute      : MuteQueueEmpty s
  turn      : SpeaksInTurn s
  selfCheck : SelfCheckInChecking s

theorem State.inTurn_iff (s : State) :
    s.InTurn ↔ QueueBounded s ∧ MuteQueueEmpty s ∧ SpeaksInTurn s ∧ SelfCheckInChecking s :=
  ⟨fun ⟨bounded, mute, turn, selfCheck⟩ => ⟨bounded, mute, turn, selfCheck⟩,
    fun ⟨bounded, mute, turn, selfCheck⟩ => ⟨bounded, mute, turn, selfCheck⟩⟩

namespace State.InTurn

/-- An empty queue is in turn. -/
theorem of_empty {t : State} (queue : t.lc.queue = []) (selfCheck : SelfCheckInChecking t) : t.InTurn := by
  have none_ : ∀ m, m ∉ t.lc.queue := fun _ => by simp [queue]
  exact ⟨by simp [QueueBounded, queue], fun _ => queue,
    ⟨fun h => absurd queue h, fun _ m hm => absurd hm (none_ m), by simp [queue], fun ⟨m, hm, _⟩ => absurd hm (none_ m)⟩,
    selfCheck⟩

/-- Only a MEMBER or LEAVING station has messages. -/
theorem queue_nil {s : State} (h : s.InTurn) (member : s.isMember = false) (leaving : s.isLeaving = false) :
    s.lc.queue = [] := by
  by_contra hq
  have := h.turn.1 hq
  simp [member, leaving] at this

/-- Outside CHECKING no self-check is in progress. -/
theorem selfCheck_none {s : State} (h : s.InTurn) (checking : s.isChecking = false) : s.acq.selfCheck = none := by
  by_contra hc
  have := h.selfCheck (Option.isSome_iff_ne_none.2 hc)
  rw [checking] at this
  cases this

/-- In LEAVING the queue holds the BYE alone (R129). -/
theorem queue_of_leaving {s : State} (h : s.InTurn) (leaving : s.isLeaving = true) {m : Msg} (hm : m ∈ s.lc.queue) :
    s.lc.queue = [m] := by
  have bye := h.turn.2.1 leaving
  have all : s.lc.queue.filter Msg.ofMembership = s.lc.queue :=
    List.filter_eq_self.2 fun x hx => by simp [Msg.ofMembership, bye x hx, Payload.isBye]
  have one := h.bounded.2.2
  rw [all] at one
  obtain ⟨x, hx⟩ := List.length_eq_one_iff.1 (Nat.le_antisymm one (List.length_pos_of_mem hm))
  rw [hx] at hm ⊢
  rw [List.mem_singleton.1 hm]

/-- At most one message is active. -/
theorem active_le {s : State} (h : s.InTurn) : s.lc.queue.countP Msg.active ≤ 1 := by
  rw [List.countP_eq_length_filter]
  exact h.turn.2.2.1

/-- An active message has a frame in progress. -/
theorem view_of_active {s : State} (h : s.InTurn) {m : Msg} (hm : m ∈ s.lc.queue)
    (active : m.active = true) : s.lc.view = .reading :=
  h.turn.2.2.2 ⟨m, hm, of_decide_eq_true active⟩

/-- Beside an active message the others are queued. -/
theorem others_queued {s : State} (h : s.InTurn) {f : Msg → Bool} {m : Msg} (hm : m ∈ s.lc.queue) (active : m.active = true)
    (hf : f m = true) : ∀ x ∈ s.lc.queue.filter (fun x => !f x), x.active = false := by
  have le := ((cons_filter_subperm hm hf).countP_le Msg.active).trans h.active_le
  rw [List.countP_cons_of_pos active] at le
  intro x hx
  exact Bool.eq_false_iff.2 (List.countP_eq_zero.1 (by omega) x hx)

/-- Fewer messages, in the same station state: what is left to see is that at most one is active, in a frame in
progress. -/
theorem of_roles {s t : State} (h : s.InTurn) (roles : (t.lc.queue.map Msg.role).Subperm (s.lc.queue.map Msg.role))
    (mute : t.lc.mute = true → s.lc.mute = true) (station : t.mu.station = s.mu.station)
    (selfCheck : t.acq.selfCheck = s.acq.selfCheck) (active : t.lc.queue.countP Msg.active ≤ 1)
    (view : ∀ m ∈ t.lc.queue, m.active = true → t.lc.view = .reading) : t.InTurn := by
  have empty : s.lc.queue = [] → t.lc.queue = [] := fun e => by
    rw [e] at roles
    exact List.map_eq_nil_iff.1 (List.subperm_nil.1 roles)
  obtain ⟨epochs, others, membership⟩ := h.bounded
  obtain ⟨outside, leaving, _, _⟩ := h.turn
  refine ⟨⟨?_, ?_, ?_⟩, fun hm => empty (h.mute (mute hm)), ⟨fun hq => ?_, fun hl => ?_, ?_, ?_⟩, fun hc => ?_⟩
  · exact (length_filter_le_of_roles (fun r => decide (r.1 = 0)) (fun m => m.payload.isEpoch_eq_kind) roles).trans epochs
  · refine (length_filter_le_of_roles (fun r => !decide (r.1 = 0)) (fun m => ?_) roles).trans others
    rw [m.payload.isEpoch_eq_kind]
    rfl
  · refine (length_filter_le_of_roles (fun r => (decide (r.1 = 3) || decide (r.1 = 4)) || decide (r.1 = 5)) (fun m => ?_)
      roles).trans membership
    rw [Msg.ofMembership, m.payload.isHelloOrPresent_eq_kind, m.payload.isBye_eq_kind]
    rfl
  · simpa only [State.isMember, State.isLeaving, station] using outside fun e => hq (empty e)
  · refine forall_of_roles (fun r => r.1 = 5) (fun m => m.payload.eq_bye_iff) roles (leaving ?_)
    simpa only [State.isLeaving, station] using hl
  · rw [← List.countP_eq_length_filter]
    exact active
  · rintro ⟨m, hm, hc⟩
    exact view m hm (decide_eq_true hc)
  · rw [selfCheck] at hc
    simpa only [State.isChecking, station] using h.selfCheck hc

end State.InTurn

/-! ## What is said of every command -/

/-- The command keeps the queue in turn, and only CLAIMs stand for open-mark entries. -/
structure State.KeepsTurn (s t : State) : Prop where
  inTurn : s.InTurn → t.InTurn
  marked : MarkedAreClaims s → MarkedAreClaims t

namespace State.KeepsTurn

theorem refl (s : State) : s.KeepsTurn s := ⟨id, id⟩

theorem trans {s t u : State} (h : s.KeepsTurn t) (k : t.KeepsTurn u) : s.KeepsTurn u :=
  ⟨k.inTurn ∘ h.inTurn, k.marked ∘ h.marked⟩

theorem foldl {β : Type} {f : State → β → State} (h : ∀ (s : State) b, s.KeepsTurn (f s b)) (l : List β) (s : State) :
    s.KeepsTurn (l.foldl f s) :=
  foldl_keeps (fun t => s.KeepsTurn t) f l (fun t b ht => ht.trans (h t b)) (refl s)

/-- Messages leave, or none does; a frame in progress with a message of this station stays in progress. -/
theorem of_sublist {s t : State} (queue : t.lc.queue.Sublist s.lc.queue) (mute : t.lc.mute = true → s.lc.mute = true)
    (station : t.mu.station = s.mu.station) (selfCheck : t.acq.selfCheck = s.acq.selfCheck)
    (view : s.InTurn → ∀ m ∈ s.lc.queue, m.active = true → t.lc.view = .reading) :
    s.KeepsTurn t := by
  have roles := (queue.map Msg.role).subperm
  refine ⟨fun h => h.of_roles roles mute station selfCheck ?_ ?_, markedAreClaims_of_roles roles⟩
  · exact (queue.countP_le).trans h.active_le
  · exact fun m hm => view h m (queue.subset hm)

/-- Nothing is touched that the invariants speak of. -/
theorem of_frame {s t : State} (lc : t.lc = s.lc := by simp) (station : t.mu.station = s.mu.station := by simp)
    (selfCheck : t.acq.selfCheck = s.acq.selfCheck := by simp) : s.KeepsTurn t := by
  refine of_sublist (by rw [lc]) (by rw [lc]; exact id) station selfCheck fun h m hm active => ?_
  rw [lc]
  exact h.view_of_active hm active

/-- LC as it was but for its queue, of which messages may have left. -/
theorem of_queue {s : State} (lc : Lc) (queue : lc.queue.Sublist s.lc.queue) (view : lc.view = s.lc.view := by rfl)
    (mute : lc.mute = s.lc.mute := by rfl) : s.KeepsTurn { s with lc := lc } :=
  of_sublist queue (fun h => mute ▸ h) rfl rfl fun h _ hm active => view.trans (h.view_of_active hm active)

/-- A frame comes to another point of its course, no message of this station in it. -/
theorem of_view {s : State} (lc : Lc) (queue : lc.queue = s.lc.queue) (mute : lc.mute = s.lc.mute)
    (quiet : s.InTurn → ∀ m ∈ s.lc.queue, m.active = false) : s.KeepsTurn { s with lc := lc } := by
  refine of_sublist (by rw [queue]) (fun h => mute ▸ h) rfl rfl fun h m hm active => ?_
  rw [quiet h m hm] at active
  cases active

/-- The queue ends empty. -/
theorem of_silent {s t : State} (queue : s.InTurn → t.lc.queue = []) (kept : t.lc.queue ⊆ s.lc.queue)
    (selfCheck : s.InTurn → SelfCheckInChecking t) : s.KeepsTurn t :=
  ⟨fun h => .of_empty (queue h) (selfCheck h), fun h m hm => h m (kept hm)⟩

/-- The queue is flushed. -/
theorem of_flushed {s t : State} (queue : t.lc.queue = []) (selfCheck : s.InTurn → SelfCheckInChecking t) :
    s.KeepsTurn t :=
  of_silent (fun _ => queue) (queue ▸ List.nil_subset _) selfCheck

end State.KeepsTurn

/-! ## Submissions (Table 7-1) -/

/-- What an admission of no BYE leaves of the queue: room for the message within the bounds of R125. -/
structure State.MakesRoom (s : State) (p : Payload) (kept : List Msg) : Prop where
  sublist    : kept.Sublist s.lc.queue
  epoch      : p.isEpoch = true → kept.filter (fun m => m.payload.isEpoch) = []
  others     : p.isEpoch = false → (kept.filter (fun m => !m.payload.isEpoch)).length < 11
  membership : p.isHelloOrPresent = true → kept.filter Msg.ofMembership = []

theorem State.speaks_of_submit {s t : State} {p : Payload} {mark : Option Nat} (h : s.submit p mark = some t) :
    s.Speaks p := by
  by_contra silent
  rw [State.submit_silent mark] at h
  · cases h
  · by_contra speaks
    simp only [not_or, not_and, not_not, Bool.not_eq_true] at speaks
    obtain ⟨station, mute, bye⟩ := speaks
    exact silent ⟨or_iff_not_imp_left.2 station, mute, bye⟩

theorem State.submit_entered {s t : State} {p : Payload} {mark : Option Nat} (bye : p.isBye = false)
    (h : s.submit p mark = some t) : ∃ kept, t = s.entered p mark kept ∧ s.MakesRoom p kept := by
  have speaks := State.speaks_of_submit h
  have limited : ∀ c : Prop, [Decidable c] → s.submit p mark = (if c then none else some (s.entered p mark s.lc.queue)) →
      ¬c ∧ t = s.entered p mark s.lc.queue := by
    intro c _ row
    rw [row] at h
    split at h
    · cases h
    · rename_i hc
      exact ⟨hc, (Option.some.inj h).symm⟩
  have capture : (∃ c, p = .claim c) ∨ (∃ key off out, p = .frozen key off out) → p.isHelloOrPresent = false →
      ∃ kept, t = s.entered p mark kept ∧ s.MakesRoom p kept := by
    intro hp presence
    obtain ⟨room, e⟩ := limited _ (speaks.submit_capture mark hp)
    refine ⟨_, e, .refl _, fun he => ?_, fun _ => not_le.1 room, fun hp => ?_⟩
    · obtain ⟨c, rfl⟩ | ⟨key, off, out, rfl⟩ := hp
      · cases he
      · cases he
    · rw [presence] at hp
      cases hp
  have membership : p.isHelloOrPresent = true → p.isEpoch = false →
      ∃ kept, t = s.entered p mark kept ∧ s.MakesRoom p kept := by
    intro hp other
    obtain ⟨room, e⟩ := limited _ (speaks.submit_presence mark hp)
    simp only [Bool.or_eq_true, decide_eq_true_eq, not_or, not_le, Bool.not_eq_true, List.any_eq_false] at room
    exact ⟨_, e, .refl _, fun he => (by rw [other] at he; cases he), fun _ => room.2,
      fun _ => List.filter_eq_nil_iff.2 fun x hx => Bool.eq_false_iff.1 (room.1 x hx)⟩
  cases p with
  | epoch n lag digest =>
    have still : ∀ x ∈ s.lc.queue, x.payload.isEpoch = true → x.cond ≠ .inTransmission := by
      intro x hx he hc
      rw [speaks.submit_epoch_moving mark rfl ⟨x, hx, he, hc⟩] at h
      cases h
    rw [speaks.submit_epoch mark rfl still] at h
    exact ⟨_, (Option.some.inj h).symm, List.filter_sublist, fun _ => by simp, fun he => (by cases he),
      fun hp => (by cases hp)⟩
  | claim c => exact capture (.inl ⟨c, rfl⟩) rfl
  | frozen key off out => exact capture (.inr ⟨key, off, out, rfl⟩) rfl
  | hello _ _ _ => exact membership rfl rfl
  | present _ _ _ => exact membership rfl rfl
  | bye => cases bye

theorem State.MakesRoom.bounded {s : State} {p : Payload} {kept : List Msg} (h : s.MakesRoom p kept) (bye : p.isBye = false)
    (mark : Option Nat) (hs : QueueBounded s) : QueueBounded (s.entered p mark kept) := by
  obtain ⟨epochs, others, membership⟩ := hs
  have shorter : ∀ f : Msg → Bool, (kept.filter f).length ≤ (s.lc.queue.filter f).length :=
    fun f => (h.sublist.filter f).length_le
  simp only [QueueBounded, State.entered, length_filter_insertMsg, List.filter_cons, Msg.ofMembership, bye, Bool.or_false]
  refine ⟨?_, ?_, ?_⟩
  · cases he : p.isEpoch with
    | true => simp [h.epoch he]
    | false => exact (shorter _).trans epochs
  · cases he : p.isEpoch with
    | true => exact (shorter _).trans others
    | false => exact h.others he
  · cases hp : p.isHelloOrPresent with
    | true => simp [h.membership hp]
    | false => exact (shorter _).trans membership

namespace State.KeepsTurn

/-- An admitted submission that is no BYE; one for an open-mark entry is a CLAIM. -/
theorem submit {p : Payload} {mark : Option Nat} {s t : State} (h : s.submit p mark = some t) (bye : p.isBye = false)
    (claim : mark ≠ none → ∃ q, p = .claim q) : s.KeepsTurn t := by
  obtain ⟨station, mute, leaving⟩ := State.speaks_of_submit h
  obtain ⟨kept, rfl, room⟩ := State.submit_entered bye h
  have mem : ∀ {m}, m ∈ (s.entered p mark kept).lc.queue → (m.payload = p ∧ m.mark = mark ∧ m.cond = .queued) ∨
      m ∈ s.lc.queue := by
    intro m hm
    rcases List.mem_cons.1 ((insertMsg_perm _ _).mem_iff.1 hm) with rfl | old
    · exact .inl ⟨rfl, rfl, rfl⟩
    · exact .inr (room.sublist.subset old)
  refine ⟨fun hs => ⟨room.bounded bye mark hs.bounded, fun hm => ?_, ⟨fun _ => ?_, fun hl => ?_, ?_, ?_⟩, hs.selfCheck⟩,
    fun hs m hm hne => ?_⟩
  · rw [show s.lc.mute = true from hm] at mute
    cases mute
  · simpa [State.isMember, State.isLeaving, State.entered] using station
  · rw [leaving (by simpa [State.isLeaving, State.entered] using hl)] at bye
    cases bye
  · have := (room.sublist.countP_le (p := Msg.active)).trans hs.active_le
    rw [List.countP_eq_length_filter] at this
    show ((insertMsg _ kept).filter Msg.active).length ≤ 1
    rw [length_filter_insertMsg, List.filter_cons_of_neg (by simp [Msg.active])]
    exact this
  · rintro ⟨m, hm, hc⟩
    rcases mem hm with ⟨_, _, queued⟩ | old
    · exact absurd queued hc
    · exact hs.turn.2.2.2 ⟨m, old, hc⟩
  · rcases mem hm with ⟨payload, marked, _⟩ | old
    · rw [payload]
      exact claim (marked ▸ hne)
    · exact hs m old hne

/-- A submission of MU that is no BYE. -/
theorem submitOrDrop {p : Payload} (bye : p.isBye = false) (s : State) : s.KeepsTurn (s.submitOrDrop p) := by
  unfold State.submitOrDrop
  cases h : s.submit p none with
  | none => exact refl s
  | some t => exact submit h bye (fun hne => absurd rfl hne)

/-- The BYE of a station whose queue is flushed (R129, R152). -/
theorem submitBye {s : State} (empty : s.lc.queue = []) : s.KeepsTurn (s.submitOrDrop .bye) := by
  unfold State.submitOrDrop
  cases h : s.submit .bye none with
  | none => exact refl s
  | some t =>
    have speaks := State.speaks_of_submit h
    have row := speaks.submit_bye_alone none (by simp [empty])
    have room : ¬11 ≤ s.otherCount := by simp [State.otherCount, empty]
    rw [if_neg room, h, empty] at row
    obtain rfl := Option.some.inj row
    have one : ∀ m ∈ (s.entered .bye none []).lc.queue, m.payload = .bye ∧ m.cond = .queued ∧ m.mark = none := by
      intro m hm
      obtain rfl := List.mem_singleton.1 hm
      exact ⟨rfl, rfl, rfl⟩
    refine ⟨fun hs => ⟨⟨Nat.zero_le _, Nat.succ_le_of_lt (by decide), Nat.le_refl 1⟩, fun hm => ?_, ⟨fun _ => ?_,
      fun _ m hm => (one m hm).1, Nat.zero_le _, ?_⟩, hs.selfCheck⟩, fun _ m hm hne => absurd (one m hm).2.2 hne⟩
    · have mute := speaks.mute
      rw [show s.lc.mute = true from hm] at mute
      cases mute
    · simpa [State.isMember, State.isLeaving, State.entered] using speaks.station
    · rintro ⟨m, hm, hc⟩
      exact absurd (one m hm).2.1 hc

theorem submitEpoch (n : Word32) (s : State) : s.KeepsTurn (s.submitEpoch n) := by
  unfold State.submitEpoch
  split
  · exact refl s
  split
  · exact of_frame rfl rfl rfl
  · rename_i h
    exact (submit h rfl fun hne => absurd rfl hne).trans (of_frame rfl rfl rfl)

end State.KeepsTurn
end Sys2Proof.Machine
end

