-- ==== Sys2Proof/Proofs/LinkEvents.lean ====
section
/-! SUPPORT. What LC's larger events are made of: the entry into MUTE, and the acceptance of this station's own message. -/

namespace Sys2Proof.Machine

/-! ## LC in MUTE (R131) -/

/-- LC as the entry into MUTE leaves it. -/
def Lc.muted (lc : Lc) : Lc := { lc with mute := true, queue := [], obsCur := .spoiled, obsPrev := .spoiled }

/-- The losses told at the entry into MUTE, LINK_MUTE, and the pulse cut: all that comes before LEAVING ends (R131). -/
def State.flushed (s : State) : State :=
  State.releaseLine ((s.lc.queue.foldl State.noticeLoss { s with lc := s.lc.muted }).raise .linkMute)

theorem State.enterMute_eq (s : State) : s.enterMute = if s.isLeaving then s.flushed.toConfig else s.flushed := by
  have mu : s.flushed.mu = s.mu := by
    unfold State.flushed
    simp only [State.releaseLine_frame, State.raise_frame]
    exact foldl_keeps (fun u : State => u.mu = s.mu) _ _ (fun u m h => by simpa using h) rfl
  have leaving : s.flushed.isLeaving = s.isLeaving := by simp only [State.isLeaving, mu]
  show (if s.flushed.isLeaving = true then s.flushed.toConfig else s.flushed) = _
  rw [leaving]

theorem State.flushed_frame (s : State) : s.flushed.mu = s.mu ∧ s.flushed.lc = s.lc.muted ∧ s.flushed.hr = s.hr ∧
    s.flushed.acq = s.acq ∧ s.flushed.tm = s.tm := by
  unfold State.flushed
  simp only [State.releaseLine_frame, State.raise_frame]
  exact foldl_keeps (fun u : State => u.mu = s.mu ∧ u.lc = s.lc.muted ∧ u.hr = s.hr ∧ u.acq = s.acq ∧ u.tm = s.tm) _ _
    (fun u m h => by simpa using h) ⟨rfl, rfl, rfl, rfl, rfl⟩

/-- What the entry into MUTE leaves (R131, R153). -/
structure State.EntersMute (s t : State) : Prop where
  mute      : t.lc.mute = true
  queue     : t.lc.queue = []
  obsCur    : t.lc.obsCur = .spoiled
  obsPrev   : t.lc.obsPrev = .spoiled
  failCount : t.lc.failCount = s.lc.failCount
  vetoCount : t.lc.vetoCount = s.lc.vetoCount
  cause     : t.hasCause .linkMute = true
  driver    : t.cc.driver = .idle
  hr        : t.hr = s.hr
  tm        : t.tm = s.tm
  acq       : t.acq = s.acq
  leaving   : s.isLeaving = true → t.mu.station = .config ∧ t.lc.view = .none ∧ t.lc.idle = 0
  staying   : s.isLeaving = false → t.mu = s.mu ∧ t.lc.view = s.lc.view ∧ t.lc.idle = s.lc.idle
  cc        : t.cc = s.flushed.cc
  et        : t.et = s.flushed.et

theorem State.entersMute (s : State) : s.EntersMute s.enterMute := by
  obtain ⟨mu, lc, hr, acq, tm⟩ := s.flushed_frame
  have cause : s.flushed.hasCause .linkMute = true := by
    have told := State.hasCause_raise .linkMute (s.lc.queue.foldl State.noticeLoss { s with lc := s.lc.muted })
    simpa only [State.flushed, State.hasCause, State.releaseLine_frame] using told
  have driver : s.flushed.cc.driver = .idle := State.releaseLine_driver _
  rw [State.enterMute_eq]
  cases leaving : s.isLeaving with
  | true =>
    have closed : s.flushed.toConfig.lc = { s.lc.muted with view := .none, idle := 0 } := by rw [← lc]; rfl
    rw [if_pos rfl]
    exact
      { mute := by rw [closed]; rfl
        queue := by rw [closed]; rfl
        obsCur := by rw [closed]; rfl
        obsPrev := by rw [closed]; rfl
        failCount := by rw [closed]; rfl
        vetoCount := by rw [closed]; rfl
        cause := cause
        driver := driver
        hr := hr
        tm := tm
        acq := acq
        leaving := fun _ => ⟨rfl, rfl, rfl⟩
        staying := fun staying => by rw [leaving] at staying; cases staying
        cc := rfl
        et := rfl }
  | false =>
    rw [if_neg Bool.false_ne_true]
    exact
      { mute := by rw [lc]; rfl
        queue := by rw [lc]; rfl
        obsCur := by rw [lc]; rfl
        obsPrev := by rw [lc]; rfl
        failCount := by rw [lc]; rfl
        vetoCount := by rw [lc]; rfl
        cause := cause
        driver := driver
        hr := hr
        tm := tm
        acq := acq
        leaving := fun leaves => by rw [leaving] at leaves; cases leaves
        staying := fun _ => ⟨mu, by rw [lc]; rfl, by rw [lc]; rfl⟩
        cc := rfl
        et := rfl }

/-! ## This station's own message accepted (R123) -/

/-- What the acceptance of the message in transmission does before the delivery: the message has left the queue, and LC and
MU have taken note of it (R123, R130, R133, R148). -/
def State.sentWell (s : State) (m : Msg) : State :=
  { s with
    lc := { (s.acceptEffects m.payload.encode.length).lc with
      queue := s.lc.queue.filter (fun x => !x.moving), failCount := s.lc.failCount - 1 }
    mu := { s.mu with spoken := true } }

section
variable {s : State} {m : Msg}

theorem State.completeOwn_epoch {n : Word32} {lag digest : Word} (h : m.payload = .epoch n lag digest) :
    s.completeOwn m = (s.sentWell m).ownEpochDone n lag := by
  simp only [State.completeOwn, State.deliverOwn, State.sentWell, h]
  rfl

theorem State.completeOwn_claim {p : Point} (h : m.payload = .claim p) :
    s.completeOwn m = ((s.sentWell m).claimAccepted s.mu.number p).settleClaim m.mark := by
  simp only [State.completeOwn, State.deliverOwn, State.sentWell, h]
  rfl

theorem State.completeOwn_frozen {key : Key} {offset outcome : Byte} (h : m.payload = .frozen key offset outcome) :
    s.completeOwn m = (s.sentWell m).frozenAccepted s.mu.number key offset outcome := by
  simp only [State.completeOwn, State.deliverOwn, State.sentWell, h]
  rfl

theorem State.completeOwn_presence (h : m.payload.isHelloOrPresent = true) : s.completeOwn m = s.sentWell m := by
  cases payload : m.payload with
  | hello _ _ _ =>
    simp only [State.completeOwn, State.deliverOwn, State.sentWell, payload]
    rfl
  | present _ _ _ =>
    simp only [State.completeOwn, State.deliverOwn, State.sentWell, payload]
    rfl
  | _ =>
    rw [payload] at h
    cases h

theorem State.completeOwn_bye (h : m.payload = .bye) :
    s.completeOwn m = if s.isLeaving then (s.sentWell m).toConfig else s.sentWell m := by
  simp only [State.completeOwn, State.deliverOwn, State.sentWell, h]
  rfl

end

end Sys2Proof.Machine
end

