-- ==== Sys2Proof/Proofs/TurnExec.lean ====
section
/-! O55. The transmit queue stays within its bounds and is spoken from in turn: the walk over the commands, in the order of
the model's files. -/

namespace Sys2Proof.Machine

namespace State.KeepsTurn

/-! ## CC, HR, TM -/

theorem raise (c : Cause) (s : State) : s.KeepsTurn (s.raise c) := of_frame

theorem freeRecord (i : Fin 4) (s : State) : s.KeepsTurn (s.freeRecord i) := of_frame (selfCheck := rfl)

theorem closeIfAnswered (i : Fin 4) (s : State) : s.KeepsTurn (s.closeIfAnswered i) := of_frame

theorem windowEpoch (s : State) (i : Fin 4) : s.KeepsTurn (s.windowEpoch i) := of_frame

theorem dropMark (id : Nat) (s : State) : s.KeepsTurn (s.dropMark id) := of_frame

theorem retireLine (id : Nat) (d : LineEntry) (s : State) : s.KeepsTurn (s.retireLine id d) := of_frame

theorem submitClaim (id : Nat) (s : State) : s.KeepsTurn (s.submitClaim id) := by
  unfold State.submitClaim
  split
  · exact refl s
  split
  · exact of_frame
  · rename_i m _ _ _ h
    exact (submit h rfl fun _ => ⟨m.point, rfl⟩).trans of_frame

theorem submitFrozen (key : Key) (offset : Byte) (outcome : OutcomeCode) (s : State) :
    s.KeepsTurn (s.submitFrozen key offset outcome) := by
  unfold State.submitFrozen
  split
  · exact of_frame
  · rename_i h
    exact submit h rfl fun hne => absurd rfl hne

theorem withdrawMsg (sel : Msg → Bool) (s : State) : s.KeepsTurn (s.withdrawMsg sel) := of_queue _ List.filter_sublist

theorem abandon (id : Nat) (s : State) : s.KeepsTurn (s.abandon id) := by
  have dropped := (dropMark id s).trans (withdrawMsg (claimOf id) _)
  have told : ∀ u : State, u.KeepsTurn ((u.retireLine id .empty).raise .captureAbandoned) :=
    fun u => (retireLine id .empty u).trans (raise _ _)
  unfold State.abandon
  split
  · exact refl s
  · dsimp only
    split
    · exact dropped.trans (told _)
    · exact (dropped.trans (freeRecord _ _)).trans (told _)

theorem coOriginate (s : State) : s.KeepsTurn s.coOriginate := by
  unfold State.coOriginate
  split
  · exact refl s
  · exact of_frame
  · split
    · exact of_frame
    · split
      · split
        · exact submitClaim _ s
        · exact refl s
      · refine trans ?_ (submitClaim _ _)
        split
        · exact of_frame
        · exact of_frame

theorem alert (s : State) : s.KeepsTurn s.alert := by
  unfold State.alert
  split
  · exact refl s
  split
  · exact of_frame
  split
  · exact of_frame rfl rfl rfl
  split
  · exact refl s
  · exact coOriginate s

theorem alerts (n : Nat) (s : State) : s.KeepsTurn (s.alerts n) := by
  induction n generalizing s with
  | zero => exact refl s
  | succ n ih => exact (alert s).trans (ih s.alert)

theorem acquire (s : State) : s.KeepsTurn s.acquire := by
  have begun := ((State.Calm.cutSweep s).trans (.beginFrame _)).trans (.startSweep _)
  unfold State.acquire
  split
  · exact of_frame (selfCheck := begun.selfCheck)
  · rename_i a _
    have written : s.KeepsTurn (s.cutSweep.beginFrame.startSweep.writeFrame a.close) :=
      of_frame (selfCheck := (begun.trans (.writeFrame _ _)).selfCheck)
    have evaluated : ∀ (u : State) (tm : Tm), u.KeepsTurn { u with tm := tm } := fun _ _ => of_frame rfl rfl rfl
    exact written.trans ((evaluated _ _).trans (alerts _ _))

theorem openSlot {point : Point} {h : Nat} {base : Word32} {o : Bool} {s t : State} {i : Fin 4}
    (hs : s.openSlot point h base o = some (i, t)) : s.KeepsTurn t := by
  obtain ⟨mu, _, lc, _⟩ := State.openSlot_frame hs
  exact of_frame lc (congrArg Mu.station mu) (State.Aside.openSlot hs).selfCheck

theorem addMark (point : Point) (s : State) : s.KeepsTurn (s.addMark point) := by
  have opened : s.KeepsTurn ((s.withMark point).openFor (s.newMark point)) := by
    refine trans (t := s.withMark point) (of_frame rfl rfl rfl) ?_
    unfold State.openFor
    split
    · exact of_frame
    · rename_i ho
      exact (openSlot ho).trans of_frame
  by_cases room : s.cc.marks.length < 6
  · rw [State.addMark_room room]
    split
    · exact opened.trans (submitClaim _ _)
    · exact opened
  · rw [State.addMark_full (not_lt.1 room)]
    exact of_frame rfl rfl rfl

theorem takeMark (s : State) : s.KeepsTurn s.takeMark := by
  unfold State.takeMark
  split
  · exact of_frame rfl rfl rfl
  · refine trans ?_ (addMark _ _)
    exact of_frame rfl rfl rfl

theorem markEdge (s : State) : s.KeepsTurn s.markEdge := by
  have line : ∀ others edge, s.KeepsTurn { s with cc := { s.cc with othersDrive := others, edgePending := edge } } :=
    fun _ _ => of_frame rfl rfl rfl
  unfold State.markEdge
  split
  · dsimp only
    split
    · exact (line _ _).trans (takeMark _)
    · exact line _ _
  · dsimp only
    split
    · exact (line _ _).trans (takeMark _)
    · exact line _ _

theorem fillAndAnswer (i : Fin 4) (key : Key) (outcome : OutcomeCode) (offset : Byte) (expected : BitVec 24) (s : State) :
    s.KeepsTurn (s.fillAndAnswer i key outcome offset expected) := by
  have filled : s.KeepsTurn (s.fillRecord i key outcome offset expected) := of_frame
  exact (filled.trans (submitFrozen key offset outcome _)).trans (closeIfAnswered i _)

theorem matchMark (m : Mark) (sender : Station) (p : Point) (s : State) : s.KeepsTurn (s.matchMark m sender p) := by
  have dropped := ((dropMark m.id s).trans (withdrawMsg (claimOf m.id) _)).trans (retireLine m.id .claimed _)
  unfold State.matchMark
  dsimp only
  split
  · exact dropped.trans (fillAndAnswer _ _ _ _ _ _)
  · exact dropped.trans (submitFrozen _ _ _ _)

theorem lateJoin (sender : Station) (p : Point) (s : State) : s.KeepsTurn (s.lateJoin sender p) := by
  unfold State.lateJoin
  dsimp only
  split
  · exact submitFrozen _ _ _ s
  · split
    · exact (submitFrozen _ _ _ s).trans (raise _ _)
    · rename_i ho
      exact (openSlot ho).trans (fillAndAnswer _ _ _ _ _ _)

theorem claimAccepted (sender : Station) (p : Point) (s : State) : s.KeepsTurn (s.claimAccepted sender p) := by
  unfold State.claimAccepted
  split
  · exact refl s
  split
  · exact refl s
  split
  · exact refl s
  split
  · exact refl s
  split
  · exact refl s
  split
  · exact matchMark _ _ _ s
  split
  · exact refl s
  · exact lateJoin _ _ s

theorem settleClaim (mark : Option Nat) (s : State) : s.KeepsTurn (s.settleClaim mark) := by
  unfold State.settleClaim
  split
  · exact refl s
  split
  · exact refl s
  split
  · exact abandon _ s
  · exact of_frame

theorem markEpoch (s : State) (id : Nat) : s.KeepsTurn (s.markEpoch id) := by
  rcases s.markEpoch_cases id with e | ⟨f, _, e⟩ | ⟨m, _, e⟩
  · rw [e]
    exact refl s
  · rw [e]
    exact of_frame
  · rw [e]
    exact abandon id s

theorem ccEpochStart (s : State) : s.KeepsTurn s.ccEpochStart := by
  unfold State.ccEpochStart
  exact (foldl (f := State.markEpoch) markEpoch _ s).trans (foldl (f := fun t i => t.windowEpoch i) windowEpoch slots _)

/-! ## Membership -/

/-- LEAVING ends with the queue empty (R153). -/
theorem toConfig {s t : State} (leaving : s.isLeaving = true) (queue : s.InTurn → t.lc.queue = [])
    (kept : t.lc.queue ⊆ s.lc.queue) (selfCheck : t.acq.selfCheck = s.acq.selfCheck) : s.KeepsTurn t.toConfig :=
  of_silent queue kept fun h => selfCheckInChecking_of_none <| by
    rw [State.toConfig_frame t |>.2.2.2.1, selfCheck]
    exact h.selfCheck_none (not_isChecking_of_isLeaving leaving).1

theorem enterMute (s : State) : s.KeepsTurn s.enterMute := by
  obtain ⟨mu, lc, _, acq, _⟩ := s.flushed_frame
  have queue : s.flushed.lc.queue = [] := by rw [lc]; rfl
  rw [State.enterMute_eq]
  split
  · rename_i leaving
    exact toConfig leaving (fun _ => queue) (queue ▸ List.nil_subset _) (by rw [acq])
  · exact of_flushed queue fun h => selfCheckInChecking_of_eq (by rw [mu]) (by rw [acq]) h.selfCheck

theorem enterFault (reason : FaultReason) (s : State) : s.KeepsTurn (s.enterFault reason) :=
  of_flushed rfl fun _ => selfCheckInChecking_of_none rfl

theorem leaveStation {s : State} (member : s.isMember = true) : s.KeepsTurn s.leaveStation := by
  have idle : s.InTurn → s.departMember.acq.selfCheck = none := fun h => by
    rw [(State.Safe.departMember_frame s).2.2, h.selfCheck_none (not_isChecking_of_isMember member)]
  have queue : s.departMember.lc.queue = [] := rfl
  have left : s.KeepsTurn { s.departMember with mu := { s.departMember.mu with station := .leaving } } :=
    of_flushed queue fun h => selfCheckInChecking_of_none (idle h)
  unfold State.leaveStation
  dsimp only
  split
  · exact of_flushed queue fun h => selfCheckInChecking_of_none (by simpa using idle h)
  · exact left.trans (submitBye queue)

theorem becomeMember {s : State} (listen : s.isListen = true) : s.KeepsTurn s.becomeMember := by
  have station : s.mu.station = .listen := by simpa [State.isListen] using listen
  unfold State.becomeMember
  refine trans ?_ (submitOrDrop rfl _)
  refine of_silent (fun h => ?_) (List.Subset.refl _) fun h => selfCheckInChecking_of_none ?_
  · exact h.queue_nil (by simp [State.isMember, station]) (by simp [State.isLeaving, station])
  · exact h.selfCheck_none (not_isChecking_of_isListen listen).1

theorem setPeer (n : Nat) (p : Peer) (s : State) : s.KeepsTurn (s.setPeer n p) := of_frame (station := (State.Steady.setPeer n p s).station)

theorem muTake (sender : Station) (m : Payload) (s : State) : s.KeepsTurn (s.muTake sender m) := by
  unfold State.muTake
  split
  · exact refl s
  split
  · split
    · exact refl s
    · exact enterFault _ s
  split
  · exact refl s
  dsimp only
  split
  · exact (setPeer _ _ s).trans (enterFault _ _)
  split
  · exact (setPeer _ _ s).trans (submitOrDrop rfl _)
  · exact setPeer _ _ s

theorem muEpochStart (s : State) : s.KeepsTurn s.muEpochStart := by
  unfold State.muEpochStart
  split
  · exact refl s
  · have spoke : s.KeepsTurn (if s.mu.spoken then s else s.submitPresent) := by
      split
      · exact refl s
      · exact submitOrDrop rfl s
    exact spoke.trans (of_frame (station := State.Safe.expirePeers_station _))

/-! ## AS -/

theorem endSelfCheckConversion (code : Code) (s : State) : s.KeepsTurn (s.endSelfCheckConversion code) := by
  unfold State.endSelfCheckConversion
  split
  · rename_i c _ checks
    have station : s.InTurn → s.mu.station = .checking := fun h => by
      simpa [State.isChecking] using h.selfCheck (by rw [checks]; rfl)
    have queue : s.InTurn → s.lc.queue = [] := fun h =>
      h.queue_nil (by simp [State.isMember, station h]) (by simp [State.isLeaving, station h])
    dsimp only
    split
    · unfold State.endSelfCheck
      dsimp only
      split
      · exact of_silent queue (List.Subset.refl _) fun _ => selfCheckInChecking_of_none rfl
      · exact of_flushed rfl fun _ => selfCheckInChecking_of_none rfl
    · exact of_silent queue (List.Subset.refl _) fun h _ => h.selfCheck (by rw [checks]; rfl)
  · exact refl s

/-! ## Ticks and adoption -/

theorem winArbitration (s : State) : s.KeepsTurn s.winArbitration := by
  cases hc : s.contender with
  | none =>
    rw [State.winArbitration_none hc]
    exact refl s
  | some m =>
    obtain ⟨hm, cond⟩ := State.contender_mem hc
    have contends : m.contends = true := by simp [Msg.contends, cond]
    have active : m.active = true := m.active_iff.2 (.inr contends)
    have lc := State.winArbitration_lc hc
    have role : (s.wonBy m).role = m.role := by
      unfold State.wonBy Msg.role
      cases m.payload <;> rfl
    have roles : (s.winArbitration.lc.queue.map Msg.role).Subperm (s.lc.queue.map Msg.role) := by
      rw [lc]
      simpa [role] using subperm_map Msg.role (cons_filter_subperm hm contends)
    refine ⟨fun h => h.of_roles roles (by rw [lc]; exact id) (by simp) (by simp) ?_ fun x _ _ => ?_,
      markedAreClaims_of_roles roles⟩
    · have rest := h.others_queued hm active contends
      rw [lc, List.countP_cons, List.countP_eq_zero.2 fun x hx => Bool.eq_false_iff.1 (rest x hx)]
      split
      · exact Nat.le_refl _
      · exact Nat.zero_le _
    · rw [lc]
      exact h.view_of_active hm active

theorem winWith (order : List Part) (s : State) : s.KeepsTurn (s.winWith order) := by
  unfold State.winWith
  split
  · exact winArbitration s
  · exact refl s

theorem lcEpochStart (s : State) : s.KeepsTurn s.lcEpochStart := by
  have queue : s.lcEpochStart.lc.queue = s.lc.queue ∧ s.lcEpochStart.lc.view = s.lc.view ∧
      (s.lcEpochStart.lc.mute = true → s.lc.mute = true) := by
    unfold State.lcEpochStart
    dsimp only
    split
    · exact ⟨rfl, rfl, fun h => by cases h⟩
    · exact ⟨rfl, rfl, id⟩
  obtain ⟨queue, view, mute⟩ := queue
  exact of_sublist (by rw [queue]) mute (by simp) (by simp) fun h _ hm active => view.trans (h.view_of_active hm active)

theorem tickPart (wrapped : Bool) (before s : State) (p : Part) : s.KeepsTurn (State.tickPart wrapped before s p) := by
  unfold State.tickPart
  cases p with
  | ccTick => exact of_frame
  | acquisition => exact acquire s
  | epochSubmit =>
    dsimp only
    split
    · exact submitEpoch _ s
    · exact refl s
  | lcEpoch =>
    dsimp only
    split
    · exact lcEpochStart s
    · exact refl s
  | ccEpoch =>
    dsimp only
    split
    · exact ccEpochStart s
    · exact refl s
  | muEpoch =>
    dsimp only
    split
    · exact muEpochStart s
    · exact refl s
  | muTake => exact refl s
  | win => exact refl s

theorem takeTick (order : List Part) (s : State) : s.KeepsTurn (s.takeTick order) := by
  unfold State.takeTick
  split
  · exact refl s
  split
  · rename_i listen
    have counted : ∀ (mu : Mu) (et : Et), mu.station = s.mu.station → s.KeepsTurn { s with mu := mu, et := et } :=
      fun _ _ station => of_frame rfl station rfl
    unfold State.listenTick
    dsimp only
    split
    · refine trans (trans (counted { s.mu with listenCount := s.mu.listenCount + 1 }
        { s.et with epoch := 1, counter := 0 } rfl) (becomeMember ?_)) (submitEpoch 1 _)
      exact listen
    · exact counted _ _ rfl
  split
  · have begun : s.KeepsTurn (s.advanceCounter.winWith order) := trans (t := s.advanceCounter) of_frame (winWith order _)
    exact begun.trans (foldl (tickPart _ s) _ _)
  · exact refl s

theorem tickWhen (due : Bool) (order : List Part) (s : State) : s.KeepsTurn (s.tickWhen due order) := by
  unfold State.tickWhen
  split
  · exact takeTick order s
  · exact refl s

theorem setEt (et : Et) (s : State) : s.KeepsTurn { s with et := et } := of_frame rfl rfl rfl

theorem epochAccepted (sender : Station) (n : Word32) (lag digest : Word) (s : State) :
    s.KeepsTurn (s.epochAccepted sender n lag digest).1 := by
  unfold State.epochAccepted
  split
  · exact refl s
  split
  · rename_i listen
    refine (setEt _ s).trans (becomeMember ?_)
    exact listen
  split
  · have taken := (withdrawMsg (fun m => m.payload.isEpoch) s).trans
      (setEt { s.et with counter := s.adoptedCounter lag, epoch := n, own := .none } _)
    unfold State.adopt
    dsimp only
    split
    · exact taken
    split
    · exact taken
    · exact taken.trans (of_frame (selfCheck := (State.Calm.slip _).selfCheck))
  · exact refl s

/-! ## LC -/

theorem passBits (bits : Nat) (s : State) : s.KeepsTurn (s.passBits bits) := by
  have quiet : s.lc.view ≠ .reading → s.InTurn → ∀ m ∈ s.lc.queue, m.active = false := fun idle h m hm =>
    Bool.eq_false_iff.2 fun active => idle (h.view_of_active hm active)
  unfold State.passBits
  split
  · exact refl s
  split
  · rename_i view
    exact of_view _ rfl rfl (quiet (by simp [view]))
  · rename_i view
    split
    · exact of_view _ rfl rfl (quiet (by simp [view]))
    · exact of_view _ rfl rfl (quiet (by simp [view]))
  · exact refl s
  · exact refl s

theorem readDominant (s : State) : s.KeepsTurn s.readDominant := by
  have quiet : s.lc.view ≠ .reading → s.InTurn → ∀ m ∈ s.lc.queue, m.active = false := fun idle h m hm =>
    Bool.eq_false_iff.2 fun active => idle (h.view_of_active hm active)
  unfold State.readDominant
  split
  · exact refl s
  split
  · rename_i view
    exact of_view _ rfl rfl (quiet (by simp [view]))
  · rename_i view
    exact of_view _ rfl rfl (quiet (by simp [view]))
  · exact refl s
  · exact refl s

/-- A station that begins a frame has the pair idle, so nothing of its queue is in a frame; then the head contends. -/
theorem startFrame (bits : Nat) (s : State) : s.KeepsTurn (s.startFrame bits) := by
  refine (passBits bits s).trans ?_
  unfold State.startFrame
  generalize s.passBits bits = u
  dsimp only
  split
  · rename_i may
    have idle : u.lc.view = .none := by
      simp only [State.mayStart, Bool.and_eq_true, beq_iff_eq] at may
      exact may.1.2
    have roles : (contendHead u.lc.queue).map Msg.role = u.lc.queue.map Msg.role := by
      cases u.lc.queue <;> rfl
    have sub : ((contendHead u.lc.queue).map Msg.role).Subperm (u.lc.queue.map Msg.role) := roles ▸ .refl _
    refine ⟨fun h => h.of_roles (t := u.driveStart) sub id rfl rfl ?_ fun _ _ _ => rfl, markedAreClaims_of_roles sub⟩
    have quiet : u.lc.queue.countP Msg.active = 0 := List.countP_eq_zero.2 fun m hm active => by
      rw [h.view_of_active hm active] at idle
      cases idle
    show (contendHead u.lc.queue).countP Msg.active ≤ 1
    cases hq : u.lc.queue with
    | nil => exact Nat.zero_le _
    | cons m q =>
      rw [hq, List.countP_cons] at quiet
      rw [contendHead, List.countP_cons]
      split <;> omega
  · exact refl u

theorem loseArbitration (s : State) : s.KeepsTurn s.loseArbitration := by
  have roles : s.loseArbitration.lc.queue.map Msg.role = s.lc.queue.map Msg.role := by
    simp only [State.loseArbitration, List.map_map]
    refine List.map_congr_left fun m _ => ?_
    simp only [Function.comp_apply]
    split <;> rfl
  have calmer : ∀ m : Msg, (if m.contends then { m with cond := .queued } else m).active = true → m.active = true := by
    intro m
    split
    · exact fun h => by simp [Msg.active] at h
    · exact id
  have sub : (s.loseArbitration.lc.queue.map Msg.role).Subperm (s.lc.queue.map Msg.role) := roles ▸ .refl _
  refine ⟨fun h => h.of_roles sub id rfl rfl ?_ fun m hm active => ?_, markedAreClaims_of_roles sub⟩
  · refine le_trans ?_ h.active_le
    simp only [State.loseArbitration, List.countP_map]
    exact List.countP_mono_left fun m _ => calmer m
  · obtain ⟨x, hx, rfl⟩ := List.mem_map.1 hm
    exact h.view_of_active hx (calmer x active)

/-- The message in transmission leaves it, its attempt at an end: its frame may come to another point of its course. -/
theorem sent {s : State} {m : Msg} (hm : s.sending = some m) (lc : Lc)
    (roles : (lc.queue.map Msg.role).Subperm (m.role :: (s.lc.queue.filter (fun x => !x.moving)).map Msg.role))
    (quiet : ∀ x ∈ lc.queue, x.active = true → x ∈ s.lc.queue.filter (fun x => !x.moving))
    (mute : lc.mute = s.lc.mute) : s.KeepsTurn { s with lc := lc } := by
  have mem := List.mem_of_find?_eq_some hm
  have moving := List.find?_some hm
  have active : m.active = true := m.active_iff.2 (.inl moving)
  have sub := roles.trans (subperm_map Msg.role (cons_filter_subperm mem moving))
  refine ⟨fun h => ?_, markedAreClaims_of_roles sub⟩
  have still : ∀ x ∈ lc.queue, x.active = false := fun x hx => Bool.eq_false_iff.2 fun ha =>
    absurd ha (Bool.eq_false_iff.1 (h.others_queued mem active moving x (quiet x hx ha)))
  refine h.of_roles (t := { s with lc := lc }) sub (fun h => mute ▸ h) rfl rfl ?_ fun x hx ha => ?_
  · show lc.queue.countP Msg.active ≤ 1
    rw [List.countP_eq_zero.2 fun x hx => Bool.eq_false_iff.1 (still x hx)]
    exact Nat.zero_le _
  · rw [still x hx] at ha
    cases ha

/-- The message in transmission leaves the queue. -/
theorem sentOff {s : State} {m : Msg} (hm : s.sending = some m) (lc : Lc)
    (queue : lc.queue = s.lc.queue.filter (fun x => !x.moving)) (mute : lc.mute = s.lc.mute) :
    s.KeepsTurn { s with lc := lc } :=
  sent hm lc (queue ▸ (List.sublist_cons_self _ _).subperm) (fun _ hx _ => queue ▸ hx) mute

/-- In LEAVING nothing is left once the message in transmission is gone. -/
theorem rest_of_leaving {s : State} {m : Msg} (hm : s.sending = some m) (leaving : s.isLeaving = true) (h : s.InTurn) :
    s.lc.queue.filter (fun x => !x.moving) = [] := by
  rw [h.queue_of_leaving leaving (List.mem_of_find?_eq_some hm)]
  have moving : m.moving = true := by simpa using List.find?_some hm
  simp [moving]

theorem countFailure (s : State) : s.KeepsTurn s.countFailure := by
  have counted : s.KeepsTurn { s with lc := { s.lc with failCount := min Config.failureLimit (s.lc.failCount + 1) } } :=
    of_queue _ (.refl _)
  unfold State.countFailure
  dsimp only
  split
  · exact counted.trans (enterMute _)
  · exact counted

theorem countVeto (s : State) : s.KeepsTurn s.countVeto := by
  have counted : s.KeepsTurn { s with lc := { s.lc with vetoCount := min Config.vetoLimit (s.lc.vetoCount + 1) } } :=
    of_queue _ (.refl _)
  unfold State.countVeto
  dsimp only
  split
  · exact counted.trans (enterMute _)
  · exact counted

/-- A deferred entry is abandoned once its CLAIM has failed (R24). -/
theorem abandonDeferred (id : Nat) (s : State) :
    s.KeepsTurn (match s.markOf id with
      | none => s
      | some e => if e.deferred then s.abandon id else s) := by
  split
  · exact refl s
  · split
    · exact abandon id s
    · exact refl s

theorem resubmitEpoch (n : Word32) (own : OwnEpoch) (s : State) :
    s.KeepsTurn (if n = s.et.epoch then { s with et := { s.et with own := own } }
      else State.submitEpoch s.et.epoch { s with et := { s.et with own := own } }) := by
  split
  · exact setEt _ s
  · exact (setEt _ s).trans (submitEpoch _ _)

theorem noticeRetry (s : State) (m : Msg) : s.KeepsTurn (s.noticeRetry m) := by
  unfold State.noticeRetry
  split
  · exact resubmitEpoch _ _ s
  · split
    · exact refl s
    · rename_i id _
      have told : s.KeepsTurn (s.modifyMark id (fun e => { e with claim := .queued })) := of_frame
      exact told.trans (abandonDeferred id _)
  · exact refl s
  · exact refl s
  · exact refl s
  · exact refl s

theorem noticeDrop {m : Msg} (other : m.payload ≠ .bye) (s : State) : s.KeepsTurn (s.noticeDrop m) := by
  unfold State.noticeDrop
  split
  · exact resubmitEpoch _ _ s
  · split
    · exact refl s
    · rename_i id _
      have told : s.KeepsTurn (s.claimLost id) := of_frame
      exact told.trans (abandonDeferred id _)
  · exact of_frame
  · exact refl s
  · exact refl s
  · rename_i bye
    exact absurd bye other

theorem failAttempt {s : State} {m : Msg} (hm : s.sending = some m) (lc : Lc) (queue : lc.queue = s.lc.queue)
    (mute : lc.mute = s.lc.mute) : s.KeepsTurn (State.failAttempt m { s with lc := lc }) := by
  unfold State.failAttempt
  refine trans ?_ (countFailure _)
  dsimp only
  rw [queue]
  split
  · refine trans ?_ (noticeRetry _ _)
    refine sent hm _ ?_ (fun x hx active => ?_) mute
    · exact ((insertMsg_perm _ _).map Msg.role).subperm
    · rcases List.mem_cons.1 ((insertMsg_perm _ _).mem_iff.1 hx) with rfl | old
      · simp [Msg.active] at active
      · exact old
  · have dropped := sentOff hm { lc with queue := s.lc.queue.filter (fun x => !x.moving) } rfl mute
    by_cases bye : m.payload = .bye
    · unfold State.noticeDrop
      simp only [bye]
      split
      · rename_i leaving
        exact toConfig leaving (rest_of_leaving hm leaving) List.filter_sublist.subset rfl
      · exact dropped
    · exact dropped.trans (noticeDrop bye _)

theorem attemptFails (reason : FailReason) (s : State) : s.KeepsTurn (s.attemptFails reason) := by
  unfold State.attemptFails
  split
  · exact refl s
  · rename_i m hm
    split
    · exact failAttempt hm _ rfl rfl
    · exact failAttempt hm _ rfl rfl

/-- A receiver has no message of its own in the frame. -/
theorem quiet_of_receives {s : State} (receives : s.receives = true) : ∀ m ∈ s.lc.queue, m.active = false := by
  simp only [State.receives, Bool.and_eq_true, Option.isNone_iff_eq_none] at receives
  obtain ⟨⟨_, contender⟩, sending⟩ := receives
  intro m hm
  refine Bool.eq_false_iff.2 fun active => ?_
  rcases m.active_iff.1 active with moving | contends
  · exact List.find?_eq_none.1 sending m hm moving
  · exact List.find?_eq_none.1 contender m hm contends

theorem frameVetoed (f : WireFrame) (s : State) : s.KeepsTurn (s.frameVetoed f) := by
  unfold State.frameVetoed
  split
  · exact attemptFails .veto s
  split
  · rename_i receives
    have ended : s.KeepsTurn (s.endFrame f.payload.length).spoil := of_view _ rfl rfl fun _ => quiet_of_receives receives
    dsimp only
    split
    · exact ended.trans (countVeto _)
    · exact ended
  · exact refl s

theorem frameDiscarded (f : WireFrame) (s : State) : s.KeepsTurn (s.frameDiscarded f) := by
  unfold State.frameDiscarded
  split
  · rename_i discards
    exact of_view _ rfl rfl fun _ => quiet_of_receives (Bool.and_eq_true_iff.1 discards).1
  · exact refl s

theorem ownerTake (sender : Station) (m : Payload) (s : State) : s.KeepsTurn (s.ownerTake sender m).1 := by
  unfold State.ownerTake
  split
  · exact epochAccepted _ _ _ _ s
  · exact claimAccepted _ _ s
  · exact of_frame
  · exact refl s
  · exact refl s
  · exact refl s

theorem deliveryPart (sender : Station) (m : Payload) (muDone started : Bool) (s : State) (p : Part) :
    s.KeepsTurn (s.deliveryPart sender m muDone started p) := by
  unfold State.deliveryPart
  cases p with
  | muTake =>
    dsimp only
    split
    · exact refl s
    · exact muTake sender m s
  | lcEpoch =>
    dsimp only
    split
    · exact lcEpochStart s
    · exact refl s
  | ccEpoch =>
    dsimp only
    split
    · exact ccEpochStart s
    · exact refl s
  | muEpoch =>
    dsimp only
    split
    · exact muEpochStart s
    · exact refl s
  | ccTick => exact refl s
  | acquisition => exact refl s
  | epochSubmit => exact refl s
  | win => exact refl s

theorem deliverOther (sender : Station) (m : Payload) (muFirst : Bool) (order : List Part) (s : State) :
    s.KeepsTurn (s.deliverOther sender m muFirst order) := by
  have first : s.KeepsTurn (if muFirst then s.muTake sender m else s) := by
    split
    · exact muTake sender m s
    · exact refl s
  unfold State.deliverOther
  exact (first.trans (ownerTake sender m _)).trans (foldl (deliveryPart sender m _ _) _ _)

theorem completeOwn {s : State} {m : Msg} (hm : s.sending = some m) : s.KeepsTurn (s.completeOwn m) := by
  have sentOff : s.KeepsTurn (s.sentWell m) := (sentOff hm (s.sentWell m).lc rfl rfl).trans (of_frame rfl rfl rfl)
  cases payload : m.payload with
  | epoch n lag digest =>
    rw [State.completeOwn_epoch payload]
    exact sentOff.trans of_frame
  | claim p =>
    rw [State.completeOwn_claim payload]
    exact (sentOff.trans (claimAccepted _ _ _)).trans (settleClaim _ _)
  | frozen key offset outcome =>
    rw [State.completeOwn_frozen payload]
    exact sentOff.trans of_frame
  | hello digest n free =>
    rw [State.completeOwn_presence (by rw [payload]; rfl)]
    exact sentOff
  | present digest n free =>
    rw [State.completeOwn_presence (by rw [payload]; rfl)]
    exact sentOff
  | bye =>
    rw [State.completeOwn_bye payload]
    split
    · rename_i leaving
      exact toConfig leaving (rest_of_leaving hm leaving) List.filter_sublist.subset rfl
    · exact sentOff

theorem frameAccepted (f : WireFrame) (muFirst : Bool) (order : List Part) (s : State) :
    s.KeepsTurn (s.frameAccepted f muFirst order) := by
  unfold State.frameAccepted
  split
  · rename_i m hm
    exact completeOwn hm
  split
  · rename_i receives
    split
    · have accepted : s.KeepsTurn (s.acceptEffects f.payload.length) :=
        of_view _ rfl rfl fun _ => quiet_of_receives receives
      exact accepted.trans (deliverOther _ _ _ _ _)
    · exact refl s
    · exact refl s
  · exact refl s

/-! ## LP -/

theorem withoutArgs {args : List Byte} {s : State} {r : State × Answer} (h : s.KeepsTurn r.1) :
    s.KeepsTurn (withoutArgs args s r).1 := by
  cases args with
  | nil => exact h
  | cons _ _ => exact refl s

theorem softReset (s : State) : s.KeepsTurn s.softReset := of_flushed rfl fun _ => selfCheckInChecking_of_none rfl

theorem takeConfigure (block : List Byte) (s : State) : s.KeepsTurn (takeConfigure block s).1 := by
  unfold Machine.takeConfigure
  split
  · exact refl s
  split
  · exact refl s
  split
  · exact refl s
  · exact of_frame rfl rfl rfl

/-- A join begins in CONFIG, where the queue is empty. -/
theorem takeJoin (args : List Byte) (s : State) : s.KeepsTurn (takeJoin args s).1 := by
  refine withoutArgs ?_
  split
  · rename_i ready
    have station : s.mu.station = .config := by simpa [State.isConfig] using (Bool.and_eq_true_iff.1 ready).1
    exact of_silent
      (fun h => h.queue_nil (by simp [State.isMember, station]) (by simp [State.isLeaving, station]))
      (List.Subset.refl _) fun _ _ => rfl
  · exact refl s

theorem takeLeave (args : List Byte) (s : State) : s.KeepsTurn (takeLeave args s).1 := by
  refine withoutArgs ?_
  split
  · rename_i member
    exact leaveStation member
  · exact refl s

theorem takeTrigger (args : List Byte) (s : State) : s.KeepsTurn (takeTrigger args s).1 := by
  refine withoutArgs ?_
  split
  · exact alert s
  · exact refl s

theorem takeSpot (args : List Byte) (s : State) : s.KeepsTurn (takeSpot args s).1 := by
  refine withoutArgs ?_
  split
  · exact refl s
  split
  · exact refl s
  · exact of_frame rfl rfl rfl

theorem takeOpenRead (args : List Byte) (s : State) : s.KeepsTurn (takeOpenRead args s).1 := by
  unfold Machine.takeOpenRead
  split
  · exact refl s
  unfold State.openSession
  split
  · exact refl s
  split
  · exact refl s
  split
  · exact refl s
  split
  · exact refl s
  · exact of_frame

theorem takeCloseRead (args : List Byte) (s : State) : s.KeepsTurn (takeCloseRead args s).1 := by
  refine withoutArgs ?_
  split
  · exact of_frame
  · exact refl s

theorem takeRelease (args : List Byte) (s : State) : s.KeepsTurn (takeRelease args s).1 := by
  unfold Machine.takeRelease
  split
  · exact refl s
  unfold State.releaseRecord
  split
  · exact refl s
  split
  · exact refl s
  split
  · exact refl s
  split
  · exact refl s
  · exact freeRecord _ s

theorem takeAckAttn (args : List Byte) (s : State) : s.KeepsTurn (takeAckAttn args s).1 := by
  unfold Machine.takeAckAttn
  split
  · split
    · exact of_frame
    · exact refl s
  · exact refl s

theorem takeCommand (code : Byte) (args : List Byte) (s : State) : s.KeepsTurn (takeCommand code args s).1 := by
  unfold Machine.takeCommand
  split
  · exact withoutArgs (refl s)
  · exact takeConfigure args s
  · exact takeJoin args s
  · exact takeLeave args s
  · exact takeTrigger args s
  · exact takeSpot args s
  · exact withoutArgs (refl s)
  · exact withoutArgs (refl s)
  · exact takeOpenRead args s
  · exact withoutArgs (refl s)
  · exact takeCloseRead args s
  · exact takeRelease args s
  · exact withoutArgs (refl s)
  · exact takeAckAttn args s
  · exact withoutArgs (softReset s)
  · exact refl s

theorem takeFrame (frame : List Byte) (s : State) : s.KeepsTurn (takeFrame frame s).1 := by
  unfold Machine.takeFrame
  split
  · exact refl s
  · exact takeCommand _ _ s

theorem answerFrame {answer : State → State × Answer} (h : ∀ u : State, u.KeepsTurn (answer u).1) (t : Transaction)
    (frame : List Byte) (s : State) : s.KeepsTurn (s.answerFrame t frame answer) := by
  have heard : s.KeepsTurn (s.setTransaction { t with decoder := frame } 0) := of_frame
  have responds : ∀ r : State × Answer, r.1.KeepsTurn (State.respond r) := by
    intro r
    unfold State.respond
    split
    · exact refl _
    · exact of_frame rfl rfl rfl
  exact (heard.trans (h _)).trans (responds _)

theorem clockFrame {answer : State → State × Answer} (h : ∀ u : State, u.KeepsTurn (answer u).1) (frame : List Byte)
    (s : State) : s.KeepsTurn (s.clockFrame frame answer) := by
  unfold State.clockFrame
  split
  · exact refl s
  · split
    · exact answerFrame h _ _ s
    · exact refl s

theorem clockCommand {answer : State → State × Answer} (h : ∀ u : State, u.KeepsTurn (answer u).1) (code : Byte)
    (args : List Byte) (s : State) : s.KeepsTurn (s.clockCommand code args answer) := by
  unfold State.clockCommand
  split
  · exact clockFrame h _ s
  · exact refl s

theorem clockByte (sdi : Byte) (wait : Bool) (s : State) : s.KeepsTurn (s.clockByte sdi wait) := by
  have set : ∀ t b, s.KeepsTurn (s.setTransaction t b) := fun _ _ => of_frame
  unfold State.clockByte
  split
  · exact refl s
  split
  · exact set _ _
  split
  · unfold State.takeByte
    split
    · exact set _ _
    dsimp only
    split
    · exact answerFrame (takeFrame _) _ _ s
    · exact set _ _
  · split
    · exact set _ _
    · exact of_frame

/-- A command of AS that touches neither LC nor the self-check. -/
theorem of_calm {s t : State} (h : s.Calm t) (lc : t.lc = s.lc := by simp) : s.KeepsTurn t :=
  of_frame lc (congrArg Mu.station h.mu) h.selfCheck

end State.KeepsTurn

/-! ## The commands -/

/-- Every command answers a next state and keeps the queue in turn. -/
theorem exec_keepsTurn (c : Instr) (s : State) : ∃ t, exec c s = .next t ∧ s.KeepsTurn t := by
  cases c with
  | pinReset addr rate => exact ⟨_, rfl, .of_flushed rfl fun _ => selfCheckInChecking_of_none rfl⟩
  | initialisationComplete => exact ⟨_, rfl, .of_frame⟩
  | selNRelease => exact ⟨_, rfl, .of_frame⟩
  | readResponseShiftedOut => exact ⟨_, rfl, .of_frame⟩
  | unknownCommand frame =>
    refine ⟨_, rfl, ?_⟩
    split
    · exact .clockFrame (.takeFrame frame) frame s
    · exact .refl s
  | status args => exact ⟨_, rfl, .clockCommand (fun u => .withoutArgs (.refl u)) _ _ s⟩
  | configure args => exact ⟨_, rfl, .clockCommand (.takeConfigure args) _ _ s⟩
  | join args => exact ⟨_, rfl, .clockCommand (.takeJoin args) _ _ s⟩
  | leave args => exact ⟨_, rfl, .clockCommand (.takeLeave args) _ _ s⟩
  | trigger args => exact ⟨_, rfl, .clockCommand (.takeTrigger args) _ _ s⟩
  | spot args => exact ⟨_, rfl, .clockCommand (.takeSpot args) _ _ s⟩
  | spotRead args => exact ⟨_, rfl, .clockCommand (fun u => .withoutArgs (.refl u)) _ _ s⟩
  | records args => exact ⟨_, rfl, .clockCommand (fun u => .withoutArgs (.refl u)) _ _ s⟩
  | openRead args => exact ⟨_, rfl, .clockCommand (.takeOpenRead args) _ _ s⟩
  | read args => exact ⟨_, rfl, .clockCommand (fun u => .withoutArgs (.refl u)) _ _ s⟩
  | closeRead args => exact ⟨_, rfl, .clockCommand (.takeCloseRead args) _ _ s⟩
  | release args => exact ⟨_, rfl, .clockCommand (.takeRelease args) _ _ s⟩
  | peers args => exact ⟨_, rfl, .clockCommand (fun u => .withoutArgs (.refl u)) _ _ s⟩
  | ackAttn args => exact ⟨_, rfl, .clockCommand (.takeAckAttn args) _ _ s⟩
  | softReset args => exact ⟨_, rfl, .clockCommand (fun u => .withoutArgs (.softReset u)) _ _ s⟩
  | tick order => exact ⟨_, rfl, .takeTick order s⟩
  | markPulseEnd order => exact ⟨_, rfl, .tickWhen _ order s⟩
  | markStuck order => exact ⟨_, rfl, .tickWhen _ order s⟩
  | tickWrap order => exact ⟨_, rfl, .tickWhen _ order s⟩
  | peerExpiry order => exact ⟨_, rfl, .tickWhen _ order s⟩
  | claimTimeout order => exact ⟨_, rfl, .tickWhen _ order s⟩
  | answerWindowExpiry order => exact ⟨_, rfl, .tickWhen _ order s⟩
  | listenWindowExpiry order => exact ⟨_, rfl, .tickWhen _ order s⟩
  | markEvent => exact ⟨_, rfl, .markEdge s⟩
  | markRelease => exact ⟨_, rfl, .of_frame⟩
  | copyStep slot => exact ⟨_, rfl, .of_calm (.copyStep slot s)⟩
  | sweepConversionEnd code => exact ⟨_, rfl, .of_calm (.endSweepConversion code s)⟩
  | sweepResume => exact ⟨_, rfl, .of_calm (.startSweep s)⟩
  | spotRunBegin => exact ⟨_, rfl, .of_calm (.beginSpotRun s)⟩
  | spotConversionEnd code => exact ⟨_, rfl, .of_calm (.endSpotConversion code s)⟩
  | selfCheckBegin =>
    refine ⟨_, rfl, .of_frame (selfCheck := ?_)⟩
    unfold State.beginSelfCheck
    split <;> rfl
  | selfCheckConversionEnd code => exact ⟨_, rfl, .endSelfCheckConversion code s⟩
  | frameStart bits => exact ⟨_, rfl, .startFrame bits s⟩
  | arbitrationWin => exact ⟨_, rfl, .winArbitration s⟩
  | arbitrationLoss => exact ⟨_, rfl, .loseArbitration s⟩
  | txAttemptFail reason => exact ⟨_, rfl, .attemptFails reason s⟩
  | frameVetoed frame => exact ⟨_, rfl, .frameVetoed frame s⟩
  | frameDiscarded frame => exact ⟨_, rfl, .frameDiscarded frame s⟩
  | frameAccepted frame muFirst order => exact ⟨_, rfl, .frameAccepted frame muFirst order s⟩
  | transactionBegin => exact ⟨_, rfl, .of_frame⟩
  | wholeByteClocked sdi wait => exact ⟨_, rfl, .clockByte sdi wait s⟩
  | startBitRead bits => exact ⟨_, rfl, (State.KeepsTurn.passBits bits s).trans (.readDominant _)⟩

theorem step_keepsTurn {s t : State} (h : step s = .next t) : s.KeepsTurn t := by
  unfold step at h
  split at h
  · cases h
    exact .refl _
  · rename_i c rest _
    obtain ⟨u, hu, kept⟩ := exec_keepsTurn c { s with pending := rest }
    rw [hu] at h
    cases h
    exact .trans (t := { s with pending := rest }) (.of_frame rfl rfl rfl) kept

/-- Settles O55: of the operations that a command is made of, most make messages leave, or submit one that Table 7-1 makes
room for; the others end with an empty queue, or leave one message active in the frame in progress. -/
theorem queueStaysBounded : Obligations.QueueStaysBounded := by
  simp only [Obligations.QueueStaysBounded, ← State.inTurn_iff]
  exact ⟨fun s t h st => (step_keepsTurn st).inTurn h, fun s t h st => (step_keepsTurn st).marked h⟩

end Sys2Proof.Machine
end

