-- ==== Sys2Proof/Proofs/Messages.lean ====
section
/-! Messages, their frames and the bits of a frame: O53 (R116, R117, R121, R178, R179). -/

namespace Sys2Proof.Machine

/-! ## The bits of a field (R116) -/

theorem length_bitsOf {n : Nat} (w : BitVec n) : (bitsOf w).length = n := by simp [bitsOf]

theorem getElem?_bitsOf {n : Nat} (w : BitVec n) {k : Nat} (hk : k < n) :
    (bitsOf w)[k]? = some (w.getLsbD (n - 1 - k)) := by
  simp [bitsOf, hk, BitVec.getMsbD_eq_getLsbD]

theorem bitsOf_append {n m : Nat} (x : BitVec n) (y : BitVec m) : bitsOf (x ++ y) = bitsOf x ++ bitsOf y := by
  unfold bitsOf
  rw [List.range_add, List.map_append, List.map_map]
  congr 1
  · refine List.map_congr_left fun i hi => ?_
    rw [BitVec.getMsbD_append, if_neg (by simpa using hi)]
  · refine List.map_congr_left fun i _ => ?_
    rw [Function.comp_apply, BitVec.getMsbD_append, if_pos (Nat.le_add_right n i), Nat.add_sub_cancel_left]

theorem length_payloadBits (l : List Byte) : (l.flatMap bitsOf).length = 8 * l.length := by
  induction l with
  | nil => rfl
  | cons b l ih =>
    rw [List.flatMap_cons, List.length_append, length_bitsOf, ih, List.length_cons]
    omega

theorem checkedBits_eq (kind : BitVec 3) (sender : Station) (delimiter : BitVec 2) (payload : List Byte) :
    checkedBits kind sender delimiter payload =
      bitsOf kind ++ bitsOf sender ++ bitsOf delimiter ++ bitsOf (BitVec.ofNat 4 payload.length) ++ payload.flatMap bitsOf := by
  rw [checkedBits, arbitrationField, bitsOf_append, bitsOf_append]

/-! ## The check register (R117) -/

theorem crcStep_eq (r : Word) (b : Bool) :
    crcStep r b = if r.getLsbD 15 = b then r <<< 1 else (r <<< 1) ^^^ 0x1021 := by
  have msb : r.msb = r.getLsbD 15 := BitVec.msb_eq_getLsbD_last r
  unfold crcStep
  rw [msb]
  generalize r.getLsbD 15 = top
  by_cases h : top = b
  · rw [if_pos h, if_neg (by simp [h])]
  · rw [if_neg h, if_pos (by simpa using h)]

/-! ## Decoding (R121, R178, R179) -/

theorem decodePayload_encode (p : Payload) : decodePayload p.kind p.encode = some p := by
  have fields : ∀ (n : Word32) (digest : Word), word32 (n.extractLsb' 24 8) (n.extractLsb' 16 8) (n.extractLsb' 8 8)
      (n.extractLsb' 0 8) = n ∧ word16 (digest.extractLsb' 8 8) (digest.extractLsb' 0 8) = digest :=
    fun n digest => ⟨word32_bytes n, word16_bytes digest⟩
  cases p with
  | epoch n lag digest => exact decodePayload_epoch n lag digest
  | claim p => exact decodePayload_claim p
  | frozen key offset outcome => exact decodePayload_frozen key offset outcome
  | hello digest n free =>
    obtain ⟨hn, hd⟩ := fields n digest
    show some (Payload.hello (word16 _ _) (word32 _ _ _ _) free) = _
    rw [hn, hd]
  | present digest n free =>
    obtain ⟨hn, hd⟩ := fields n digest
    show some (Payload.present (word16 _ _) (word32 _ _ _ _) free) = _
    rw [hn, hd]
  | bye => rfl

theorem bytes16_word16 (hi lo : Byte) : bytes16 (word16 hi lo) = [hi, lo] := by
  rw [bytes16, word16, BitVec.extractLsb'_append_eq_left, BitVec.extractLsb'_append_eq_right]

theorem bytes32_word32 (a b c d : Byte) : bytes32 (word32 a b c d) = [a, b, c, d] := by
  have byte3 : (word32 a b c d).extractLsb' 24 8 = a := by
    rw [word32, BitVec.extractLsb'_append_eq_of_le (by decide)]
    exact BitVec.extractLsb'_append_eq_left
  have byte2 : (word32 a b c d).extractLsb' 16 8 = b := by
    rw [word32, BitVec.extractLsb'_append_eq_of_le (by decide)]
    exact BitVec.extractLsb'_append_eq_right
  have byte1 : (word32 a b c d).extractLsb' 8 8 = c := by
    rw [word32, BitVec.extractLsb'_append_eq_of_add_le (by decide)]
    exact BitVec.extractLsb'_append_eq_left
  have byte0 : (word32 a b c d).extractLsb' 0 8 = d := by
    rw [word32, BitVec.extractLsb'_append_eq_of_add_le (by decide)]
    exact BitVec.extractLsb'_append_eq_right
  rw [bytes32, byte3, byte2, byte1, byte0]

theorem kind_cases (kind : BitVec 3) :
    kind = 0 ∨ kind = 1 ∨ kind = 2 ∨ kind = 3 ∨ kind = 4 ∨ kind = 5 ∨ kind = 6 ∨ kind = 7 := by
  revert kind
  decide

/-- Bytes that decode under a kind are the encoding of what they decode to: no other length makes a message of it. -/
theorem encode_of_decodePayload {kind : BitVec 3} {bytes : List Byte} {m : Payload}
    (h : decodePayload kind bytes = some m) : bytes = m.encode ∧ m.kind = kind := by
  rcases kind_cases kind with rfl | rfl | rfl | rfl | rfl | rfl | rfl | rfl
  · rcases bytes with _ | ⟨a, _ | ⟨b, _ | ⟨c, _ | ⟨d, _ | ⟨e, _ | ⟨f, _ | ⟨g, _ | ⟨i, _ | _⟩⟩⟩⟩⟩⟩⟩⟩
    all_goals cases h
    simp only [Payload.encode, bytes32_word32, bytes16_word16]
    exact ⟨rfl, rfl⟩
  · rcases bytes with _ | ⟨a, _ | ⟨b, _ | ⟨c, _ | ⟨d, _ | ⟨e, _ | ⟨f, _ | _⟩⟩⟩⟩⟩⟩
    all_goals cases h
    simp only [Payload.encode, bytes32_word32, bytes16_word16]
    exact ⟨rfl, rfl⟩
  · rcases bytes with _ | ⟨o, _ | ⟨a, _ | ⟨b, _ | ⟨c, _ | ⟨d, _ | ⟨e, _ | ⟨f, _ | ⟨off, _ | ⟨out, _ | _⟩⟩⟩⟩⟩⟩⟩⟩⟩
    all_goals cases h
    simp only [Payload.encode, bytes32_word32, bytes16_word16]
    exact ⟨rfl, rfl⟩
  · rcases bytes with _ | ⟨g, _ | ⟨i, _ | ⟨a, _ | ⟨b, _ | ⟨c, _ | ⟨d, _ | ⟨free, _ | _⟩⟩⟩⟩⟩⟩⟩
    all_goals cases h
    simp only [Payload.encode, bytes32_word32, bytes16_word16]
    exact ⟨rfl, rfl⟩
  · rcases bytes with _ | ⟨g, _ | ⟨i, _ | ⟨a, _ | ⟨b, _ | ⟨c, _ | ⟨d, _ | ⟨free, _ | _⟩⟩⟩⟩⟩⟩⟩
    all_goals cases h
    simp only [Payload.encode, bytes32_word32, bytes16_word16]
    exact ⟨rfl, rfl⟩
  · rcases bytes with _ | _
    all_goals cases h
    exact ⟨rfl, rfl⟩
  · cases h
  · cases h

/-- The payload's length by the kind (Table 10-2). -/
theorem Payload.length_encode (p : Payload) : p.encode.length = [8, 6, 9, 7, 7, 0].getD p.kind.toNat 0 := by
  cases p <;> rfl

theorem Payload.kind_lt (p : Payload) : p.kind.toNat < 6 := by
  cases p <;> simp [Payload.kind]

/-! ## The frame of a message (R116) -/

theorem carries_wireOf (sender : Station) (p : Payload) : Carries (wireOf sender p) p := by
  simp only [Carries, CrcGood, wireOf, and_self]

theorem sentBits_wireOf (sender : Station) (p : Payload) :
    sentBits (wireOf sender p) false =
      [false] ++ bitsOf p.kind ++ bitsOf sender ++ [true, true] ++ bitsOf (BitVec.ofNat 4 p.encode.length) ++
        p.encode.flatMap bitsOf ++ bitsOf (wireOf sender p).crc ++ [false, true, true, true, true] := by
  have delimiter : bitsOf sentDelimiter = [true, true] := by decide
  rw [sentBits, checkedBits_eq]
  simp only [wireOf, delimiter, List.append_assoc]
  rfl

theorem length_sentBits (sender : Station) (p : Payload) :
    (sentBits (wireOf sender p) false).length = 36 + 8 * p.encode.length := by
  rw [sentBits_wireOf]
  simp only [List.length_append, length_bitsOf, length_payloadBits, List.length_cons, List.length_nil]
  omega

/-- The veto bit goes out recessive, three places before the frame's end. -/
theorem sentBits_vetoPlace (sender : Station) (p : Payload) :
    (sentBits (wireOf sender p) false)[vetoPlace p.encode.length - 1]? = some true := by
  have place : vetoPlace p.encode.length - 1 = 32 + 8 * p.encode.length := by
    unfold vetoPlace
    omega
  rw [sentBits_wireOf, place, List.getElem?_append_right]
  all_goals
    simp only [List.length_append, length_bitsOf, length_payloadBits, List.length_cons, List.length_nil]
  · have last : 32 + 8 * p.encode.length - (0 + 1 + 3 + 5 + (0 + 1 + 1) + 4 + 8 * p.encode.length + 16) = 1 := by omega
    rw [last]
    rfl
  · omega

/-- Settles O53: the bits by the fields that they are made of, the message field by field. -/
theorem payloadRoundTrip : Obligations.PayloadRoundTrip := by
  unfold Obligations.PayloadRoundTrip
  refine ⟨fun kind sender delimiter payload => ?_, crcStep_eq,
    fun n w => ⟨length_bitsOf w, fun k hk => getElem?_bitsOf w hk⟩, fun p sender => ?_⟩
  · rw [crcOf, checkedBits_eq]
  · have carries := carries_wireOf sender p
    have length := length_sentBits sender p
    refine ⟨decodePayload_encode p, carries, by simp [crcGood, wireOf], fun bytes m h => encode_of_decodePayload h, length,
      length, ?_, sentBits_vetoPlace sender p, sentBits_wireOf sender p⟩
    rw [length]
    unfold vetoPlace
    omega

end Sys2Proof.Machine
end

