-- ==== Sys2Proof/Proofs/FrameCourse.lean ====
section
/-! The course of a frame on the pair: idle times, the end field, the start bit: O42 (R115, R118, R120). -/

namespace Sys2Proof.Machine

theorem State.receiverOn_iff (s : State) :
    s.receiverOn = true ↔ s.mu.station = .listen ∨ s.mu.station = .member ∨ s.mu.station = .leaving := by
  simp only [State.receiverOn, State.isListen, State.isMember, State.isLeaving, Bool.or_eq_true, beq_iff_eq, or_assoc]

/-! ## Recessive bit times (R115) -/

/-- The state with another point of the frame's course at LC. -/
def State.viewed (s : State) (view : FrameView) (idle : Nat) : State :=
  { s with lc := { s.lc with idle := idle, view := view } }

/-- Outside a frame, or to the end of the end field and on: what is left of the bit times counts as idle. -/
theorem State.passBits_idle {s : State} {bits idle : Nat} (on : s.receiverOn = true)
    (h : s.lc.view = .none ∧ idle = s.lc.idle + bits ∨
      ∃ left, s.lc.view = .ending left ∧ left ≤ bits ∧ idle = bits - left) :
    s.passBits bits = s.viewed .none (min 11 idle) := by
  have listening : ¬(!s.receiverOn) = true := by simp [on]
  unfold State.passBits
  rw [if_neg listening]
  rcases h with ⟨view, rfl⟩ | ⟨left, view, le, rfl⟩
  · simp only [view, State.viewed]
  · simp only [view]
    rw [if_neg (not_lt.2 le)]
    rfl

/-- Within the end field. -/
theorem State.passBits_ending {s : State} {bits left : Nat} (on : s.receiverOn = true) (view : s.lc.view = .ending left)
    (lt : bits < left) : s.passBits bits = s.viewed (.ending (left - bits)) s.lc.idle := by
  have listening : ¬(!s.receiverOn) = true := by simp [on]
  unfold State.passBits
  rw [if_neg listening]
  simp only [view]
  rw [if_pos lt]
  rfl

/-- With the receiver off, or in a frame up to its veto bit. -/
theorem State.passBits_still {s : State} (bits : Nat)
    (h : s.receiverOn = false ∨ s.lc.view = .reading ∨ s.lc.view = .readingNoVeto) : s.passBits bits = s := by
  unfold State.passBits
  split
  · rfl
  · rename_i on
    rcases h with off | view | view
    · simp [off] at on
    · simp only [view]
    · simp only [view]

/-! ## Beginning a frame (R118) -/

theorem State.mayStart_viewed (s : State) (idle : Nat) : (s.viewed .none (min 11 idle)).mayStart = true ↔
    11 ≤ idle ∧ (s.mu.station = .member ∨ s.mu.station = .leaving) ∧ s.lc.mute = false ∧ s.lc.queue ≠ [] := by
  have full : min 11 idle = 11 ↔ 11 ≤ idle := by omega
  simp only [State.mayStart, State.viewed, State.isMember, State.isLeaving, Bool.and_eq_true, Bool.or_eq_true, beq_iff_eq,
    Bool.not_eq_true', List.isEmpty_eq_false_iff, full]
  tauto

theorem State.mayStart_view {s : State} (h : s.mayStart = true) : s.lc.view = .none := by
  simp only [State.mayStart, Bool.and_eq_true, beq_iff_eq] at h
  exact h.1.2

theorem State.mayStart_on {s : State} (h : s.mayStart = true) : s.receiverOn = true := by
  simp only [State.mayStart, Bool.and_eq_true, Bool.or_eq_true] at h
  simp only [State.receiverOn, Bool.or_eq_true]
  tauto

theorem State.startFrame_of_mayStart {s t : State} {bits : Nat} (passed : s.passBits bits = t) (may : t.mayStart = true) :
    s.startFrame bits = t.driveStart := by
  rw [State.startFrame, passed]
  exact if_pos may

theorem State.startFrame_of_not_mayStart {s t : State} {bits : Nat} (passed : s.passBits bits = t)
    (waits : ¬t.mayStart = true) : s.startFrame bits = t := by
  rw [State.startFrame, passed]
  exact if_neg waits

/-! ## A dominant bit (R115, R120) -/

theorem State.readDominant_idle {s : State} (on : s.receiverOn = true) (idle : Nat) :
    (s.viewed .none (min 11 idle)).readDominant = s.viewed (if 11 ≤ idle then .reading else .none) 0 := by
  have full : min 11 idle = 11 ↔ 11 ≤ idle := by omega
  have listening : ¬(!(s.viewed .none (min 11 idle)).receiverOn) = true := by
    rw [show (s.viewed .none (min 11 idle)).receiverOn = s.receiverOn from rfl, on]
    exact Bool.false_ne_true
  rw [State.readDominant, if_neg listening]
  simp only [State.viewed, full]

theorem State.readDominant_ending {s : State} (on : s.receiverOn = true) (left idle : Nat) :
    (s.viewed (.ending left) idle).readDominant = s.viewed (if left ≤ 1 then .none else .ending (left - 1)) 0 := by
  have listening : ¬(!(s.viewed (.ending left) idle).receiverOn) = true := by
    rw [show (s.viewed (.ending left) idle).receiverOn = s.receiverOn from rfl, on]
    exact Bool.false_ne_true
  rw [State.readDominant, if_neg listening]
  rfl

theorem State.readDominant_still {s : State}
    (h : s.receiverOn = false ∨ s.lc.view = .reading ∨ s.lc.view = .readingNoVeto) : s.readDominant = s := by
  unfold State.readDominant
  split
  · rfl
  · rename_i on
    rcases h with off | view | view
    · simp [off] at on
    · simp only [view]
    · simp only [view]

/-! ## The three places where the bit times end -/

section
variable {s : State} {bits : Nat}

theorem State.frameStart_idle {idle : Nat} (on : s.receiverOn = true) (passed : s.passBits bits = s.viewed .none (min 11 idle)) :
    let begins := 11 ≤ idle ∧ (s.mu.station = .member ∨ s.mu.station = .leaving) ∧ s.lc.mute = false ∧ s.lc.queue ≠ []
    (begins → s.startFrame bits = { s with lc := { s.lc with
      idle := 0, view := .reading
      queue := match s.lc.queue with
        | m :: q => { m with cond := .contending } :: q
        | [] => [] } }) ∧
    (¬begins → s.startFrame bits = s.viewed .none (min 11 idle)) ∧
    s.readStartBit bits = s.viewed (if 11 ≤ idle then .reading else .none) 0 := by
  refine ⟨fun begins => ?_, fun waits => ?_, ?_⟩
  · rw [State.startFrame_of_mayStart passed ((s.mayStart_viewed idle).2 begins)]
    cases hq : s.lc.queue with
    | nil => exact absurd hq begins.2.2.2
    | cons m q => simp only [State.driveStart, State.viewed, hq, contendHead]
  · exact State.startFrame_of_not_mayStart passed (mt (s.mayStart_viewed idle).1 waits)
  · rw [State.readStartBit, passed, State.readDominant_idle on]

theorem State.frameStart_ending {left : Nat} (on : s.receiverOn = true) (view : s.lc.view = .ending left) (lt : bits < left) :
    s.startFrame bits = s.viewed (.ending (left - bits)) s.lc.idle ∧
      s.readStartBit bits = s.viewed (if left - bits ≤ 1 then .none else .ending (left - bits - 1)) 0 := by
  have passed := State.passBits_ending on view lt
  refine ⟨State.startFrame_of_not_mayStart passed fun may => ?_, ?_⟩
  · cases State.mayStart_view may
  · rw [State.readStartBit, passed, State.readDominant_ending on]

theorem State.frameStart_still (bits : Nat)
    (h : s.receiverOn = false ∨ s.lc.view = .reading ∨ s.lc.view = .readingNoVeto) :
    s.readStartBit bits = s ∧ s.startFrame bits = s := by
  have passed := State.passBits_still bits h
  refine ⟨by rw [State.readStartBit, passed, State.readDominant_still h],
    State.startFrame_of_not_mayStart passed fun may => ?_⟩
  have view := State.mayStart_view may
  have on := State.mayStart_on may
  rcases h with off | reading | reading
  · rw [off] at on
    cases on
  · rw [reading] at view
    cases view
  · rw [reading] at view
    cases view

end

/-- Settles O42: each command is what it does after its recessive bit times, and these end in one of three places. -/
theorem frameBegins : Obligations.FrameBegins := by
  unfold Obligations.FrameBegins
  intro s bits
  refine ⟨fun idle on h => ?_, fun left on view lt => ?_, fun h => ?_⟩
  · have on' := s.receiverOn_iff.2 on
    obtain ⟨begins, waits, read⟩ := State.frameStart_idle on' (State.passBits_idle on' h)
    exact ⟨fun hb => congrArg Host.Outcome.next (begins hb), fun hw => congrArg Host.Outcome.next (waits hw),
      congrArg Host.Outcome.next read⟩
  · obtain ⟨start, read⟩ := State.frameStart_ending (s.receiverOn_iff.2 on) view lt
    exact ⟨congrArg Host.Outcome.next start, congrArg Host.Outcome.next read⟩
  · have still := h.imp_left fun off => Bool.eq_false_iff.2 (mt s.receiverOn_iff.1 off)
    obtain ⟨read, start⟩ := State.frameStart_still bits still
    exact ⟨congrArg Host.Outcome.next read, congrArg Host.Outcome.next start⟩

end Sys2Proof.Machine
end

