-- ==== Sys2Proof/Proofs/FramesRefused.lean ====
section
/-! Frames vetoed or discarded: O46 (R117, R121, R122, R130, R131, R133). -/

namespace Sys2Proof.Machine

/-! ## Who reads a frame, and who sends it -/

theorem State.Transmits.sending {s : State} {m : Msg} (h : s.Transmits m) : s.sending = some m := by
  obtain ⟨hm, moving, only⟩ := h
  cases found : s.sending with
  | none =>
    have := List.find?_eq_none.1 found m hm
    simp [Msg.moving, moving] at this
  | some x =>
    have cond : x.cond = .inTransmission := by simpa [Msg.moving] using List.find?_some found
    rw [only x (List.mem_of_find?_eq_some found) cond]

theorem State.ReadsAsReceiver.sending {s : State} (h : s.ReadsAsReceiver) : s.sending = none :=
  List.find?_eq_none.2 fun m hm => by simp [Msg.moving, h.2.2 m hm]

theorem State.ReadsAsReceiver.receives {s : State} (h : s.ReadsAsReceiver) : s.receives = true := by
  have contender : s.contender = none := List.find?_eq_none.2 fun m hm => by simp [Msg.contends, h.2.2 m hm]
  have sending := h.sending
  obtain ⟨station, view, _⟩ := h
  have reads : (s.lc.view == .reading || s.lc.view == .readingNoVeto) = true := by simpa using view
  simp [State.receives, s.receiverOn_iff.2 station, reads, contender, sending]

/-- From its veto bit a frame has three bits to go, whatever its length. -/
theorem State.endFrame_eq (p : Nat) (s : State) : s.endFrame p = s.viewed (.ending 3) 0 := by
  have left : frameLength p - vetoPlace p = 3 := by
    simp only [frameLength, vetoPlace, Config.frameBits]
    omega
  simp only [State.endFrame, State.viewed, left]

/-! ## The judgement (R121) -/

theorem crcGood_iff (f : WireFrame) : crcGood f = true ↔ CrcGood f := by simp [crcGood, CrcGood]

section
variable {s : State} {f : WireFrame}

theorem State.judge_bad (presence : f.presence = true) (bad : ¬CrcGood f) :
    s.judge f = if s.lc.mute = false ∧ s.lc.view = .reading then .veto else .discard := by
  have crc : crcGood f = false := Bool.eq_false_iff.2 (mt (crcGood_iff f).1 bad)
  simp [State.judge, presence, crc]

theorem State.judge_absent (presence : f.presence = false) : s.judge f = .discard := by
  simp [State.judge, presence]

theorem State.judge_good (presence : f.presence = true) (good : CrcGood f) :
    s.judge f = ((decodePayload f.kind f.payload).map Judgement.accept).getD .discard := by
  simp only [State.judge, presence, (crcGood_iff f).2 good, Bool.not_true, Bool.false_eq_true, if_false]
  cases decodePayload f.kind f.payload with
  | none => rfl
  | some m => rfl

theorem State.judge_veto_iff : s.judge f = .veto ↔
    (f.presence = true ∧ ¬CrcGood f) ∧ s.lc.mute = false ∧ s.lc.view = .reading := by
  cases presence : f.presence with
  | false => simp [State.judge_absent presence]
  | true =>
    by_cases good : CrcGood f
    · rw [State.judge_good presence good]
      cases decodePayload f.kind f.payload <;> simp [good]
    · rw [State.judge_bad presence good]
      simp [good]

/-- A kind of no message, or a length that is wrong for the kind. -/
theorem decodePayload_none {kind : BitVec 3} {payload : List Byte}
    (h : 6 ≤ kind.toNat ∨ payload.length ≠ [8, 6, 9, 7, 7, 0].getD kind.toNat 0) : decodePayload kind payload = none := by
  cases found : decodePayload kind payload with
  | none => rfl
  | some m =>
    obtain ⟨rfl, rfl⟩ := encode_of_decodePayload found
    rcases h with h | h
    · exact absurd m.kind_lt (not_lt.2 h)
    · exact absurd m.length_encode h

theorem State.judge_discard (h : f.presence = false ∨ (¬CrcGood f ∧ (s.lc.mute = true ∨ s.lc.view = .readingNoVeto)) ∨
    (CrcGood f ∧ (6 ≤ f.kind.toNat ∨ f.payload.length ≠ [8, 6, 9, 7, 7, 0].getD f.kind.toNat 0))) :
    s.judge f = .discard := by
  cases presence : f.presence with
  | false => exact State.judge_absent presence
  | true =>
    rcases h with h | ⟨bad, mayNot⟩ | ⟨good, kind⟩
    · rw [presence] at h
      cases h
    · rw [State.judge_bad presence bad, if_neg]
      rintro ⟨mute, view⟩
      rcases mayNot with h | h
      · simp [mute] at h
      · simp [view] at h
    · rw [State.judge_good presence good, decodePayload_none kind]
      rfl

end

/-! ## A frame read with its veto bit dominant (R122, R133) -/

/-- LC after a frame read with its veto bit dominant. -/
def Lc.spoiled (lc : Lc) : Lc := { lc with view := .ending 3, idle := 0, obsCur := .spoiled }

theorem State.spoil_endFrame (p : Nat) (s : State) : (s.endFrame p).spoil = { s with lc := s.lc.spoiled } := by
  rw [State.endFrame_eq]
  rfl

section
variable {s : State} {f : WireFrame} (reads : s.ReadsAsReceiver)
include reads

theorem State.ReadsAsReceiver.frameVetoed : s.frameVetoed f =
    if s.judge f = .veto then State.countVeto { s with lc := s.lc.spoiled } else { s with lc := s.lc.spoiled } := by
  simp only [State.frameVetoed, reads.sending, reads.receives, if_true, State.spoil_endFrame]

end

/-- The own veto is counted (R121, R130). -/
theorem State.countVeto_below {s : State} (h : s.lc.vetoCount < 15) :
    s.countVeto = { s with lc := { s.lc with vetoCount := s.lc.vetoCount + 1 } } := by
  have count : min 16 (s.lc.vetoCount + 1) = s.lc.vetoCount + 1 := by omega
  have room : s.lc.vetoCount + 1 ≠ 16 := by omega
  simp only [State.countVeto, Config.vetoLimit, count]
  exact if_neg room

theorem State.countVeto_limit {s : State} (h : 15 ≤ s.lc.vetoCount) :
    s.countVeto = State.enterMute { s with lc := { s.lc with vetoCount := 16 } } := by
  have count : min 16 (s.lc.vetoCount + 1) = 16 := by omega
  simp only [State.countVeto, Config.vetoLimit, count, if_true]

/-- Settles O46: the judgement says whether an own veto is counted, and the sixteenth brings LC into MUTE. -/
theorem framesNotAccepted : Obligations.FramesNotAccepted := by
  unfold Obligations.FramesNotAccepted
  refine ⟨fun s f reads => ⟨fun noVeto => ?_, fun bad mute view => ?_⟩, fun s f reads h => ?_, fun s f m transmits => ?_⟩
  · show Host.Outcome.next (s.frameVetoed f) = _
    rw [reads.frameVetoed, if_neg (mt State.judge_veto_iff.1 noVeto)]
    rfl
  · have vetoed : exec (.frameVetoed f) s = .next (State.countVeto { s with lc := s.lc.spoiled }) := by
      show Host.Outcome.next (s.frameVetoed f) = _
      rw [reads.frameVetoed, if_pos (State.judge_veto_iff.2 ⟨bad, mute, view⟩)]
    refine ⟨fun below => ?_, fun limit => ?_⟩
    · rw [vetoed, State.countVeto_below (s := { s with lc := s.lc.spoiled }) below]
      rfl
    · rw [State.countVeto_limit (s := { s with lc := s.lc.spoiled }) limit] at vetoed
      have muted := State.entersMute { s with lc := { s.lc.spoiled with vetoCount := 16 } }
      refine ⟨_, vetoed, muted.vetoCount, muted.mute, muted.queue, muted.obsCur, muted.obsPrev, muted.cause, muted.driver,
        muted.failCount, muted.hr, muted.tm, muted.acq, fun leaving => ?_, fun staying => ?_⟩
      · exact (muted.leaving (by simp [State.isLeaving, leaving])).1
      · exact (muted.staying (by simp [State.isLeaving, staying])).1
  · show Host.Outcome.next (s.frameDiscarded f) = _
    rw [State.frameDiscarded, reads.receives, State.judge_discard h, State.endFrame_eq]
    rfl
  · show Host.Outcome.next (s.frameVetoed f) = Host.Outcome.next (s.attemptFails .veto)
    simp only [State.frameVetoed, transmits.sending]

end Sys2Proof.Machine
end

