-- ==== Sys2Proof/Proofs/Arbitrations.lean ====
section
/-! Winning and losing arbitration, and the bits that the station drives: O43 (R105, R116, R119, R128). -/

namespace Sys2Proof.Machine

/-! ## The win, field by field -/

/-- ET's following of its own EPOCH after the win of a message (R104). -/
def OwnEpoch.afterWin (own : OwnEpoch) (p : Payload) : OwnEpoch :=
  match p with
  | .epoch n _ _ => .inTransmission n
  | _ => own

/-- The open-mark entries after the win of a message: a CLAIM's entry is told (R14). -/
def marksAfterWin (marks : List Mark) (p : Payload) (mark : Option Nat) : List Mark :=
  match p, mark with
  | .claim _, some id => marks.map (fun e => if e.id = id then { e with claim := .inTransmission } else e)
  | _, _ => marks

theorem State.noticeWin_eq (s : State) (m : Msg) : s.noticeWin m = { s with
    et := { s.et with own := s.et.own.afterWin m.payload }
    cc := { s.cc with marks := marksAfterWin s.cc.marks m.payload m.mark } } := by
  unfold State.noticeWin OwnEpoch.afterWin marksAfterWin
  cases m.payload with
  | claim p =>
    cases m.mark with
    | none => rfl
    | some id => rfl
  | _ => rfl

/-- The fields that a win fixes are no notice's business. -/
theorem afterWin_fixPayload (s : State) (own : OwnEpoch) (marks : List Mark) (p : Payload) (mark : Option Nat) :
    own.afterWin (s.fixPayload p) = own.afterWin p ∧ marksAfterWin marks (s.fixPayload p) mark = marksAfterWin marks p mark := by
  cases p with
  | claim q => exact ⟨rfl, rfl⟩
  | _ => exact ⟨rfl, rfl⟩

theorem State.winArbitration_eq {s : State} {m : Msg} (h : s.contender = some m) : s.winArbitration = { s with
    lc := { s.lc with queue := s.wonBy m :: s.lc.queue.filter (fun x => decide (x.cond ≠ .contending)) }
    et := { s.et with own := s.et.own.afterWin m.payload }
    cc := { s.cc with marks := marksAfterWin s.cc.marks m.payload m.mark } } := by
  have fixed := afterWin_fixPayload s s.et.own s.cc.marks m.payload m.mark
  have others : (fun x : Msg => !x.contends) = fun x => decide (x.cond ≠ .contending) := by
    funext x
    simp [Msg.contends, Bool.beq_eq_decide_eq]
  simp only [State.winArbitration, h, State.noticeWin_eq, fixed.1, fixed.2, others]
  rfl

/-! ## The bits driven (R116) -/

theorem contenderBits_eq (sender : Station) (p : Payload) :
    contenderBits sender p = [false] ++ bitsOf p.kind ++ bitsOf sender ++ [true, true] := by
  have delimiter : bitsOf sentDelimiter = [true, true] := by decide
  rw [contenderBits, arbitrationField, bitsOf_append, bitsOf_append, delimiter]
  simp only [List.append_assoc]

theorem State.drivenBits_contending {s : State} {m : Msg} (contender : s.contender = some m)
    (still : ∀ x ∈ s.lc.queue, x.cond ≠ .inTransmission) :
    s.drivenBits = [false] ++ bitsOf m.payload.kind ++ bitsOf s.mu.number ++ [true, true] := by
  have sending : s.sending = none := List.find?_eq_none.2 fun x hx => by simp [Msg.moving, still x hx]
  simp only [State.drivenBits, sending, contender, contenderBits_eq]

theorem State.drivenBits_won {s : State} {m : Msg} (contender : s.contender = some m) :
    s.winArbitration.drivenBits = sentBits (wireOf s.mu.number (s.fixPayload m.payload)) false := by
  have sending : s.winArbitration.sending = some (s.wonBy m) := by
    rw [State.sending, State.winArbitration_lc contender]
    exact List.find?_cons_of_pos rfl
  have number : s.winArbitration.mu = s.mu := by simp
  simp only [State.drivenBits, sending, number]
  rfl

/-! ## A win with a tick, the tick first (R105) -/

/-- The parts of a tick that does not wrap leave ET and the message in transmission. -/
theorem State.tickParts_unwrapped {before s : State} {q : Msg} (hq : q ∈ s.lc.queue) (moving : q.moving = true)
    (parts : List Part) : (parts.foldl (State.tickPart false before) s).et = s.et ∧
      q ∈ (parts.foldl (State.tickPart false before) s).lc.queue := by
  refine foldl_keeps (fun u : State => u.et = s.et ∧ q ∈ u.lc.queue) _ _ (fun u p ⟨et, mem⟩ => ?_) ⟨rfl, hq⟩
  by_cases hp : p = .epochSubmit
  · subst hp
    exact ⟨et, mem⟩
  · exact ⟨(State.tickPart_et hp false before u).trans et,
      (State.QueueTurn.tickPart hp false before u).kept q mem (.inl moving)⟩

theorem State.memberTick_unwrapped {s : State} (inside : s.et.counter.toNat + 1 ≠ s.cfg.epochLen) (order : List Part) :
    s.memberTick order = (completeOrder tickParts order).foldl (State.tickPart false s)
      (State.winWith order { s with et := { s.et with counter := s.et.counter + 1 } }) := by
  have unwrapped : s.atEpochEnd = false := decide_eq_false inside
  rw [State.memberTick, unwrapped, State.advanceCounter, unwrapped]
  rfl

/-- Settles O43: the contender is the one message that contends; with a tick, the tick's counter comes first. -/
theorem arbitration : Obligations.Arbitration := by
  unfold Obligations.Arbitration
  refine ⟨fun s m hm contends only => ?_, fun s m hm contends only still => ?_,
    fun s m order n lag digest running member win hm contends only payload inside => ?_, fun s => ?_⟩
  · have contender := State.contender_of_only hm contends only
    show Host.Outcome.next s.winArbitration = _
    rw [State.winArbitration_eq contender]
    unfold State.wonBy
    cases m.payload with
    | claim p => cases m.mark <;> rfl
    | _ => rfl
  · have contender := State.contender_of_only hm contends only
    exact ⟨State.drivenBits_contending contender still, _, rfl, State.drivenBits_won contender⟩
  · have contender : State.contender { s with et := { s.et with counter := s.et.counter + 1 } } = some m :=
      State.contender_of_only hm contends only
    refine ⟨_, rfl, ?_⟩
    rw [State.takeTick_member running member, State.memberTick_unwrapped inside, State.winWith, if_pos win]
    have own := State.winArbitration_own contender payload
    have counter := State.OwnOnly.counter (State.OwnOnly.winArbitration { s with et := { s.et with counter := s.et.counter + 1 } })
    have lc := State.winArbitration_lc contender
    generalize State.winArbitration { s with et := { s.et with counter := s.et.counter + 1 } } = u at own counter lc ⊢
    have head : { m with payload := .epoch n (s.et.counter + 1) digest, cond := .inTransmission } ∈ u.lc.queue := by
      rw [lc, State.wonBy, payload]
      exact List.mem_cons_self
    obtain ⟨et, kept⟩ := State.tickParts_unwrapped (before := s) head rfl (completeOrder tickParts order)
    exact ⟨by rw [et, own], by rw [et, counter], kept⟩
  · show Host.Outcome.next s.loseArbitration = _
    simp only [State.loseArbitration, Msg.contends, beq_iff_eq]

end Sys2Proof.Machine
end

