-- ==== Sys2Proof/Proofs/Losses.lean ====
section
/-! SUPPORT. The losses told to CC and ET: ANNOUNCE_LOST on the records, the status of the CLAIMs' entries, ET's own EPOCH,
for one message and for the whole queue at the entry into MUTE (R29, R104, R128, R131). -/

namespace Sys2Proof.Machine

/-! ## Which record a message announces -/

/-- The record with ANNOUNCE_LOST as given. -/
def CapRecord.announced (r : CapRecord) (lost : Bool) : CapRecord := { r with flags := { r.flags with announceLost := lost } }

/-- The message is the CLAIM of the entry. -/
def Msg.Claims (m : Msg) (x : Mark) : Prop := (∃ p, m.payload = .claim p) ∧ m.mark = some x.id

/-- The loss of the message is a loss of the announcement of the slot's record: it is the CLAIM of the record's entry, or a
FROZEN with the record's key. -/
def State.Announces (s : State) (m : Msg) (i : Fin 4) : Prop :=
  (∃ e ∈ s.cc.marks, m.Claims e ∧ e.slot = some i) ∨ ∃ key off out, m.payload = .frozen key off out ∧ s.keyAt i = some key

/-- The slot's record, if there is one, stays but for ANNOUNCE_LOST, which it gets under the condition. -/
def State.LosesAt (s t : State) (i : Fin 4) (condition : Prop) : Prop :=
  ∀ r, s.recordAt i = some r →
    ∃ lost, t.recordAt i = some (r.announced lost) ∧ (lost = true ↔ r.flags.announceLost = true ∨ condition)

section
variable {s t u : State} {i : Fin 4} {P Q : Prop}

theorem State.LosesAt.of_same (same : t.recordAt i = s.recordAt i) (never : ¬P) : s.LosesAt t i P :=
  fun r hr => ⟨r.flags.announceLost, same.trans hr, by simp [never]⟩

theorem State.LosesAt.of_lost (lost : t.recordAt i = (s.recordAt i).map CapRecord.loseAnnounce) (always : P) :
    s.LosesAt t i P :=
  fun r hr => ⟨true, by rw [lost, hr]; rfl, by simp [always]⟩

theorem State.LosesAt.trans (h : s.LosesAt t i P) (k : t.LosesAt u i Q) : s.LosesAt u i (P ∨ Q) := by
  intro r hr
  obtain ⟨lost, ht, iff⟩ := h r hr
  obtain ⟨lost', hu, iff'⟩ := k _ ht
  refine ⟨lost', hu, iff'.trans ?_⟩
  show lost = true ∨ Q ↔ _
  rw [iff, or_assoc]

theorem State.LosesAt.congr (h : s.LosesAt t i P) (iff : P ↔ Q) : s.LosesAt t i Q := by rwa [← propext iff]

theorem State.Calm.announces (h : s.Calm t) (m : Msg) (i : Fin 4) : t.Announces m i ↔ s.Announces m i := by
  have moved : ∀ {l l' : List Mark}, l'.map (fun x => (x.id, x.slot)) = l.map (fun x => (x.id, x.slot)) →
      (∃ e ∈ l', m.Claims e ∧ e.slot = some i) → ∃ e ∈ l, m.Claims e ∧ e.slot = some i := by
    rintro l l' same ⟨e, he, ⟨claim, mark⟩, slot⟩
    obtain ⟨x, hx, id, xs⟩ := exists_mark_of_map_eq same he
    exact ⟨x, hx, ⟨claim, by rw [id, mark]⟩, by rw [xs, slot]⟩
  rw [State.Announces, keyAt_follows (h.records i)]
  exact or_congr_left ⟨moved h.marks, moved h.marks.symm⟩

theorem State.announces_claim {m : Msg} {e : Mark} {p : Point} {id : Nat} (distinct : s.IdsDistinct)
    (payload : m.payload = .claim p) (mark : m.mark = some id) (found : s.markOf id = some e) :
    s.Announces m i ↔ e.slot = some i := by
  obtain ⟨he, eid⟩ := State.markOf_some found
  refine ⟨?_, fun slot => .inl ⟨e, he, ⟨⟨p, payload⟩, by rw [mark, eid]⟩, slot⟩⟩
  rintro (⟨x, hx, ⟨_, same⟩, slot⟩ | ⟨key, off, out, frozen, _⟩)
  · rw [mark, Option.some.injEq] at same
    rwa [← mark_eq_of_id distinct he hx (eid.trans same).symm]
  · rw [payload] at frozen
    cases frozen

theorem State.not_announces_of_unmarked {m : Msg} {p : Point} (payload : m.payload = .claim p)
    (gone : ∀ x ∈ s.cc.marks, m.mark ≠ some x.id) : ¬s.Announces m i := by
  rintro (⟨x, hx, ⟨_, mark⟩, _⟩ | ⟨key, off, out, frozen, _⟩)
  · exact gone x hx mark
  · rw [payload] at frozen
    cases frozen

theorem State.announces_frozen {m : Msg} {key : Key} {off out : Byte} (payload : m.payload = .frozen key off out) :
    s.Announces m i ↔ s.keyAt i = some key := by
  refine ⟨?_, fun held => .inr ⟨key, off, out, payload, held⟩⟩
  rintro (⟨x, _, ⟨⟨p, claim⟩, _⟩, _⟩ | ⟨_, _, _, frozen, held⟩)
  · rw [payload] at claim
    cases claim
  · rw [payload] at frozen
    cases frozen
    exact held

/-- Neither a CLAIM nor a FROZEN: no record is its announcement. -/
theorem State.not_announces {m : Msg} (claim : ∀ p, m.payload ≠ .claim p)
    (frozen : ∀ key off out, m.payload ≠ .frozen key off out) :
    ¬s.Announces m i := by
  rintro (⟨_, _, ⟨⟨p, hp⟩, _⟩, _⟩ | ⟨key, off, out, hp, _⟩)
  · exact claim p hp
  · exact frozen key off out hp

theorem State.markOf_none {id : Nat} (h : s.markOf id = none) : ∀ x ∈ s.cc.marks, x.id ≠ id := by
  simpa [State.markOf, List.find?_eq_none] using h

/-! ## One message lost -/

theorem State.frozenLost_losesAt (key : Key) : s.LosesAt (s.frozenLost key) i (s.keyAt i = some key) := by
  have record : (s.frozenLost key).recordAt i =
      (s.recordAt i).map (fun r => if r.hasKey key then r.loseAnnounce else r) := State.recordAt_mapRecords ..
  cases hr : s.recordAt i with
  | none => exact fun r hr' => absurd (hr.symm.trans hr') nofun
  | some r =>
    have held : s.keyAt i = some key ↔ r.hasKey key = true := by rw [keyAt_some hr, CapRecord.hasKey_iff]
    rw [hr, Option.map_some] at record
    by_cases k : r.hasKey key = true
    · exact .of_lost (by rw [record, hr, if_pos k]; rfl) (held.2 k)
    · exact .of_same (by rw [record, hr, if_neg k]) (mt held.1 k)

theorem State.claimLost_absent {id : Nat} (h : s.markOf id = none) : s.claimLost id = s := by
  simp only [State.claimLost, h]

theorem State.noticeLoss_claim {m : Msg} {p : Point} {id : Nat} (payload : m.payload = .claim p) (mark : m.mark = some id) :
    s.noticeLoss m = s.claimLost id := by simp only [State.noticeLoss, payload, mark]

theorem State.noticeLoss_unmarked {m : Msg} {p : Point} (payload : m.payload = .claim p) (mark : m.mark = none) :
    s.noticeLoss m = s := by simp only [State.noticeLoss, payload, mark]

theorem State.noticeLoss_frozen {m : Msg} {key : Key} {off out : Byte} (payload : m.payload = .frozen key off out) :
    s.noticeLoss m = s.frozenLost key := by simp only [State.noticeLoss, payload]

theorem State.noticeLoss_cc {m : Msg} (claim : ∀ p, m.payload ≠ .claim p)
    (frozen : ∀ key off out, m.payload ≠ .frozen key off out) :
    (s.noticeLoss m).cc = s.cc := by
  cases payload : m.payload with
  | claim p => exact absurd payload (claim p)
  | frozen key off out => exact absurd payload (frozen key off out)
  | _ => simp only [State.noticeLoss, payload]

theorem State.noticeLoss_losesAt (distinct : s.IdsDistinct) (m : Msg) (i : Fin 4) :
    s.LosesAt (s.noticeLoss m) i (s.Announces m i) := by
  have others : (∀ p, m.payload ≠ .claim p) → (∀ key off out, m.payload ≠ .frozen key off out) →
      s.LosesAt (s.noticeLoss m) i (s.Announces m i) := fun claim frozen =>
    .of_same (State.recordAt_of_cc (State.noticeLoss_cc claim frozen) i) (State.not_announces claim frozen)
  cases payload : m.payload with
  | frozen key off out =>
    rw [State.noticeLoss_frozen payload]
    exact (State.frozenLost_losesAt key).congr (State.announces_frozen payload).symm
  | claim p =>
    cases mark : m.mark with
    | none =>
      rw [State.noticeLoss_unmarked payload mark]
      exact .of_same rfl (State.not_announces_of_unmarked payload fun x _ => by rw [mark]; exact nofun)
    | some id =>
      rw [State.noticeLoss_claim payload mark]
      cases found : s.markOf id with
      | none =>
        rw [State.claimLost_absent found]
        refine .of_same rfl (State.not_announces_of_unmarked payload fun x hx same => ?_)
        rw [mark, Option.some.injEq] at same
        exact State.markOf_none found x hx same.symm
      | some e =>
        have announces := State.announces_claim (i := i) distinct payload mark found
        have record := State.claimLost_recordAt found i
        by_cases slot : e.slot = some i
        · exact .of_lost (record.trans (if_pos slot)) (announces.2 slot)
        · exact .of_same (record.trans (if_neg slot)) (mt announces.1 slot)
  | _ => exact others (fun p h => by rw [payload] at h; cases h) (fun key off out h => by rw [payload] at h; cases h)

/-- The entry's own CLAIM, if it is still followed, is lost. -/
def State.ClaimIsLost (s : State) (id : Nat) : Prop := ∀ x ∈ s.cc.marks, x.id = id → x.claim = .lost

theorem State.mem_claimLost {id : Nat} {x : Mark} (hx : x ∈ (s.claimLost id).cc.marks) :
    ∃ y ∈ s.cc.marks, x = if y.id = id then { y with claim := .lost } else y := by
  cases found : s.markOf id with
  | none =>
    rw [State.claimLost_absent found] at hx
    exact ⟨x, hx, (if_neg (State.markOf_none found x hx)).symm⟩
  | some e =>
    rw [State.claimLost_marks found] at hx
    obtain ⟨y, hy, same⟩ := List.mem_map.1 hx
    exact ⟨y, hy, same.symm⟩

theorem State.claimLost_claimIsLost (s : State) (id : Nat) : (s.claimLost id).ClaimIsLost id := by
  intro x hx e
  obtain ⟨y, _, rfl⟩ := State.mem_claimLost hx
  by_cases same : y.id = id
  · rw [if_pos same]
  · rw [if_neg same] at e
    exact absurd e same

/-- A loss changes nothing of an entry but the status of its CLAIM. -/
theorem State.mem_noticeLoss {m : Msg} {x : Mark} (hx : x ∈ (s.noticeLoss m).cc.marks) :
    ∃ y ∈ s.cc.marks, x = y ∨ x = { y with claim := .lost } := by
  cases payload : m.payload with
  | claim p =>
    cases mark : m.mark with
    | none =>
      rw [State.noticeLoss_unmarked payload mark] at hx
      exact ⟨x, hx, .inl rfl⟩
    | some id =>
      rw [State.noticeLoss_claim payload mark] at hx
      obtain ⟨y, hy, rfl⟩ := State.mem_claimLost hx
      refine ⟨y, hy, ?_⟩
      split
      · exact .inr rfl
      · exact .inl rfl
  | frozen key off out =>
    rw [State.noticeLoss_frozen payload] at hx
    exact ⟨x, hx, .inl rfl⟩
  | _ =>
    rw [State.noticeLoss_cc (fun p h => by rw [payload] at h; cases h)
      (fun key off out h => by rw [payload] at h; cases h)] at hx
    exact ⟨x, hx, .inl rfl⟩

theorem State.ClaimIsLost.noticeLoss {id : Nat} (h : s.ClaimIsLost id) (m : Msg) : (s.noticeLoss m).ClaimIsLost id := by
  intro x hx e
  obtain ⟨y, hy, rfl | rfl⟩ := State.mem_noticeLoss hx
  · exact h _ hy e
  · rfl

theorem State.noticeLoss_own (m : Msg) : (s.noticeLoss m).et.own = if m.payload.isEpoch then .none else s.et.own := by
  cases payload : m.payload with
  | claim p =>
    cases mark : m.mark with
    | none => rw [State.noticeLoss_unmarked payload mark]; rfl
    | some id => rw [State.noticeLoss_claim payload mark, (State.claimLost_frame id s).2.1]; rfl
  | frozen key off out => rw [State.noticeLoss_frozen payload, (State.frozenLost_frame key s).2.1]; rfl
  | _ => simp only [State.noticeLoss, payload]; rfl

end

/-! ## The whole queue lost at the entry into MUTE -/

theorem State.noticeLosses_losesAt (queue : List Msg) (i : Fin 4) : ∀ {s : State}, s.IdsDistinct →
    s.LosesAt (queue.foldl State.noticeLoss s) i (∃ q ∈ queue, s.Announces q i) := by
  induction queue with
  | nil => exact fun _ => .of_same rfl (by simp)
  | cons m queue ih =>
    intro s distinct
    have calm := State.Calm.noticeLoss s m
    refine ((State.noticeLoss_losesAt distinct m i).trans (ih (distinct.calm calm))).congr ?_
    simp only [calm.announces, List.exists_mem_cons_iff]

theorem State.noticeLosses_claimIsLost (queue : List Msg) (id : Nat) : ∀ {s : State},
    s.ClaimIsLost id ∨ (∃ q ∈ queue, (∃ p, q.payload = .claim p) ∧ q.mark = some id) →
    (queue.foldl State.noticeLoss s).ClaimIsLost id := by
  induction queue with
  | nil => exact fun h => h.resolve_right (by simp)
  | cons m queue ih =>
    intro s h
    refine ih ?_
    rcases h with lost | ⟨q, hq, ⟨p, payload⟩, mark⟩
    · exact .inl (lost.noticeLoss m)
    · rcases List.mem_cons.1 hq with rfl | hq
      · rw [State.noticeLoss_claim payload mark]
        exact .inl (s.claimLost_claimIsLost id)
      · exact .inr ⟨q, hq, ⟨p, payload⟩, mark⟩

theorem State.noticeLosses_own (queue : List Msg) : ∀ {s : State},
    s.et.own = .none ∨ (∃ q ∈ queue, q.payload.isEpoch = true) → (queue.foldl State.noticeLoss s).et.own = .none := by
  induction queue with
  | nil => exact fun h => h.resolve_right (by simp)
  | cons m queue ih =>
    intro s h
    refine ih ?_
    rw [State.noticeLoss_own]
    by_cases epoch : m.payload.isEpoch = true
    · exact .inl (if_pos epoch)
    · rw [if_neg epoch]
      refine h.imp_right ?_
      rintro ⟨q, hq, hep⟩
      rcases List.mem_cons.1 hq with rfl | hq
      · exact absurd hep epoch
      · exact ⟨q, hq, hep⟩

theorem State.releaseLine_lineEntry (s : State) :
    s.releaseLine.cc.lineEntry = s.cc.lineEntry ∨ s.releaseLine.cc.lineEntry = .empty := by
  unfold State.releaseLine State.observeRelease
  split
  · split
    · exact .inl rfl
    · exact .inr rfl
  · exact .inl rfl

/-- The losses of the queue told, LC already MUTE. -/
def State.losses (s : State) : State := s.lc.queue.foldl State.noticeLoss { s with lc := s.lc.muted }

theorem State.flushed_tables (s : State) : s.flushed.cc.marks = s.losses.cc.marks ∧
    (∀ i, s.flushed.recordAt i = s.losses.recordAt i) ∧
    (s.flushed.cc.lineEntry = s.losses.cc.lineEntry ∨ s.flushed.cc.lineEntry = .empty) :=
  have tables := State.releaseLine_tables (s.losses.raise .linkMute)
  ⟨tables.1, State.recordAt_of_records tables.2, State.releaseLine_lineEntry (s.losses.raise .linkMute)⟩

theorem State.losses_calm (s : State) : State.Calm { s with lc := s.lc.muted } s.losses :=
  State.Calm.foldl State.Calm.noticeLoss s.lc.queue _

section
variable {s t : State}

theorem State.EntersMute.losesAt (h : s.EntersMute t) (distinct : s.IdsDistinct) (i : Fin 4) :
    s.LosesAt t i (∃ q ∈ s.lc.queue, s.Announces q i) := by
  have told : State.LosesAt s s.losses i _ :=
    State.noticeLosses_losesAt s.lc.queue i (s := { s with lc := s.lc.muted }) distinct
  intro r hr
  rw [State.recordAt_of_cc h.cc i, s.flushed_tables.2.1 i]
  exact told r hr

theorem State.EntersMute.claimIsLost (h : s.EntersMute t) {id : Nat}
    (lost : s.ClaimIsLost id ∨ ∃ q ∈ s.lc.queue, (∃ p, q.payload = .claim p) ∧ q.mark = some id) : t.ClaimIsLost id := by
  have told : s.losses.ClaimIsLost id :=
    State.noticeLosses_claimIsLost s.lc.queue id (s := { s with lc := s.lc.muted }) lost
  rw [State.ClaimIsLost, h.cc, s.flushed_tables.1]
  exact told

theorem State.EntersMute.own (h : s.EntersMute t) (ends : s.et.own = .none ∨ ∃ q ∈ s.lc.queue, q.payload.isEpoch = true) :
    t.et.own = .none := by
  rw [h.et]
  unfold State.flushed
  simp only [State.releaseLine_frame, State.raise_frame]
  exact State.noticeLosses_own s.lc.queue (s := { s with lc := s.lc.muted }) ends

theorem State.EntersMute.mem_id (h : s.EntersMute t) {x : Mark} (hx : x ∈ t.cc.marks) : ∃ y ∈ s.cc.marks, y.id = x.id := by
  rw [h.cc, s.flushed_tables.1] at hx
  obtain ⟨y, hy, same, _⟩ := exists_mark_of_map_eq s.losses_calm.marks hx
  exact ⟨y, hy, same⟩

theorem State.EntersMute.recordAt_none (h : s.EntersMute t) {i : Fin 4} (free : s.recordAt i = none) : t.recordAt i = none := by
  rw [State.recordAt_of_cc h.cc i, s.flushed_tables.2.1 i]
  have same : (s.losses.recordAt i).isSome = (s.recordAt i).isSome := follows_isSome (s.losses_calm.records i)
  rw [free] at same
  simpa using same

theorem State.enterMute_causes {c : Cause} (h : s.hasCause c = true) : s.enterMute.hasCause c = true := by
  have lp : s.enterMute.lp = (s.losses.raise .linkMute).lp := by
    rw [State.enterMute_eq, ← (State.releaseLine_frame (s.losses.raise .linkMute)).2.2.2.2.2.2.1]
    split <;> rfl
  rw [State.hasCause, lp]
  exact (s.losses_calm.trans (.raise .linkMute _)).causes c h

theorem State.enterMute_abandoned {m : Mark} (h : s.Abandoned m) : s.enterMute.Abandoned m where
  gone x hx := by
    obtain ⟨y, hy, same⟩ := s.entersMute.mem_id hx
    exact same ▸ h.gone y hy
  told := State.enterMute_causes h.told
  free i hi := s.entersMute.recordAt_none (h.free i hi)
  line := by
    rw [s.entersMute.cc]
    rcases s.flushed_tables.2.2 with same | empty
    · rw [same, s.losses_calm.cc]
      exact h.line
    · rw [empty]
      exact nofun
  queue q hq := by
    rw [s.entersMute.queue] at hq
    cases hq

end

end Sys2Proof.Machine
end

