-- ==== Sys2Proof/Proofs/FailedAttempts.lean ====
section
/-! A failed attempt: what the submitter is told, what follows from it, the failure count: O44 (R24, R107, R127, R130, R131). -/

namespace Sys2Proof.Machine

/-! ## The steps of a failed attempt -/

/-- The message after one more failed attempt, ready to be queued again. -/
def Msg.again (m : Msg) : Msg := { m with fails := m.fails + 1, cond := .queued }

/-- The failed attempt was the message's last (R127). -/
def Msg.spent (m : Msg) : Bool := decide (16 ≤ m.fails + 1)

def State.withQueue (s : State) (queue : List Msg) : State := { s with lc := { s.lc with queue := queue } }

/-- The message has left the queue for good, or is queued again at its place. -/
def State.requeued (s : State) (m : Msg) : State :=
  s.withQueue (if m.spent then s.othersQueued else insertMsg m.again s.othersQueued)

/-- The submitter is told that its message is queued again (R104, Table 1-3). -/
def State.noticeQueued (s : State) (m : Msg) : State :=
  match m.payload with
  | .epoch n _ _ => { s with et := { s.et with own := .queued n } }
  | .claim _ => match m.mark with
    | none => s
    | some id => s.modifyMark id (fun e => { e with claim := .queued })
  | _ => s

/-- The submitter is told of the failed attempt: a loss at the last one. -/
def State.told (s : State) (m : Msg) : State := if m.spent then s.noticeLoss m else s.noticeQueued m

/-- A stale EPOCH is followed by one of the present number (R107). -/
def State.resubmitStale (n : Word32) (s : State) : State := if n = s.et.epoch then s else s.submitEpoch s.et.epoch

/-- A deferred entry goes with its CLAIM's failure (R24). -/
def State.abandonDeferred (id : Nat) (s : State) : State :=
  match s.markOf id with
  | none => s
  | some e => if e.deferred then s.abandon id else s

/-- What follows from the failed attempt at the submitter. -/
def State.afterTold (s : State) (m : Msg) : State :=
  match m.payload with
  | .epoch n _ _ => s.resubmitStale n
  | .claim _ => match m.mark with
    | none => s
    | some id => s.abandonDeferred id
  | .bye => if m.spent && s.isLeaving then s.toConfig else s
  | _ => s

/-- The failed attempt but for the failure count. -/
def State.settled (s : State) (m : Msg) : State := ((s.requeued m).told m).afterTold m

/-- The frame as the failed attempt leaves it: its veto bit read, or still to be read without a veto of this station's. -/
def State.failing (s : State) (reason : FailReason) : State :=
  { s with lc := { s.lc with
    view := if reason = .veto then .ending 3 else .readingNoVeto
    idle := if reason = .veto then 0 else s.lc.idle
    obsCur := if reason = .veto then .spoiled else s.lc.obsCur } }

section
variable {s t u : State} {m : Msg}

theorem State.othersQueued_eq (s : State) : s.othersQueued = s.lc.queue.filter (fun x => !x.moving) := by
  unfold State.othersQueued Msg.moving
  congr 1
  funext x
  simp [Bool.beq_eq_decide_eq]

theorem State.noticeDrop_eq (spent : m.spent = true) (s : State) : s.noticeDrop m.again = (s.noticeLoss m).afterTold m := by
  obtain ⟨payload, age, fails, cond, mark⟩ := m
  cases payload with
  | claim p =>
    cases mark with
    | none => rfl
    | some id => rfl
  | bye =>
    simp only [State.noticeDrop, State.noticeLoss, State.afterTold, Msg.again, spent, Bool.true_and]
  | _ => rfl

theorem State.noticeRetry_eq (spent : m.spent = false) (s : State) : s.noticeRetry m.again = (s.noticeQueued m).afterTold m := by
  obtain ⟨payload, age, fails, cond, mark⟩ := m
  cases payload with
  | claim p =>
    cases mark with
    | none => rfl
    | some id => rfl
  | bye =>
    simp only [State.noticeRetry, State.noticeQueued, State.afterTold, Msg.again, spent, Bool.false_and, Bool.false_eq_true,
      if_false]
  | _ => rfl

theorem State.failAttempt_eq (s : State) (m : Msg) : s.failAttempt m = (s.settled m).countFailure := by
  have limit : Config.attemptLimit = 16 := rfl
  unfold State.failAttempt State.settled State.told State.requeued
  dsimp only
  rw [← State.othersQueued_eq]
  cases spent : m.spent with
  | true =>
    have full : ¬(m.fails + 1 < Config.attemptLimit) := by simpa [Msg.spent, limit] using spent
    rw [if_neg full, if_pos rfl, if_pos rfl, ← State.noticeDrop_eq spent]
    rfl
  | false =>
    have below : m.fails + 1 < Config.attemptLimit := Nat.lt_of_not_le (of_decide_eq_false spent)
    rw [if_pos below, if_neg Bool.false_ne_true, if_neg Bool.false_ne_true, ← State.noticeRetry_eq spent]
    rfl

theorem State.Transmits.attemptFails (sends : s.Transmits m) (reason : FailReason) :
    s.attemptFails reason = ((s.failing reason).settled m).countFailure := by
  simp only [State.attemptFails, sends.sending, ← State.failAttempt_eq, State.spoil_endFrame]
  cases reason <;> rfl

/-! ## LC's side of it -/

/-- What a failed attempt leaves of LC and of the pulse, and what it does to the station: nothing, or the end of LEAVING. -/
structure State.Settles (s t : State) : Prop where
  vetoCount : t.lc.vetoCount = s.lc.vetoCount
  failCount : t.lc.failCount = s.lc.failCount
  mute      : t.lc.mute = s.lc.mute
  obsCur    : t.lc.obsCur = s.lc.obsCur
  obsPrev   : t.lc.obsPrev = s.lc.obsPrev
  driver    : t.cc.driver = s.cc.driver
  station   : (t.mu = s.mu ∧ t.lc.view = s.lc.view ∧ t.lc.idle = s.lc.idle) ∨
    (s.mu.station = .leaving ∧ t.mu.station = .config ∧ t.lc.view = .none ∧ t.lc.idle = 0)

theorem State.Settles.of_queueOnly (lc : s.QueueOnly t) (mu : t.mu = s.mu) (driver : t.cc.driver = s.cc.driver) : s.Settles t where
  vetoCount := by rw [lc]
  failCount := by rw [lc]
  mute := by rw [lc]
  obsCur := by rw [lc]
  obsPrev := by rw [lc]
  driver := driver
  station := .inl ⟨mu, by rw [lc], by rw [lc]⟩

theorem State.Settles.trans (h : s.Settles t) (k : t.Settles u)
    (still : t.mu = s.mu ∧ t.lc.view = s.lc.view ∧ t.lc.idle = s.lc.idle) : s.Settles u where
  vetoCount := k.vetoCount.trans h.vetoCount
  failCount := k.failCount.trans h.failCount
  mute := k.mute.trans h.mute
  obsCur := k.obsCur.trans h.obsCur
  obsPrev := k.obsPrev.trans h.obsPrev
  driver := k.driver.trans h.driver
  station := by
    obtain ⟨mu, view, idle⟩ := still
    rw [← mu, ← view, ← idle]
    exact k.station

theorem State.told_calm (s : State) (m : Msg) : s.Calm (s.told m) := by
  unfold State.told
  split
  · exact State.Calm.noticeLoss s m
  · unfold State.noticeQueued
    split
    · exact .of_frame rfl rfl rfl rfl rfl
    · split
      · exact .refl s
      · refine .modifyMark _ ?_ s
        exact fun _ => ⟨rfl, rfl⟩
    · exact .refl s

theorem State.told_lc (s : State) (m : Msg) : (s.told m).lc = s.lc := by
  unfold State.told
  split
  · simp
  · unfold State.noticeQueued
    split
    · rfl
    · split <;> rfl
    · rfl

theorem State.afterTold_cases {P : State → Prop} (stays : P s)
    (epoch : ∀ n lag digest, m.payload = .epoch n lag digest → n ≠ s.et.epoch → P (s.submitEpoch s.et.epoch))
    (claim : ∀ p id e, m.payload = .claim p → m.mark = some id → s.markOf id = some e → e.deferred = true → P (s.abandon id))
    (bye : m.payload = .bye → m.spent = true → s.isLeaving = true → P s.toConfig) : P (s.afterTold m) := by
  cases payload : m.payload with
  | epoch n lag digest =>
    simp only [State.afterTold, State.resubmitStale, payload]
    split
    · exact stays
    · rename_i stale
      exact epoch n lag digest payload stale
  | claim p =>
    cases mark : m.mark with
    | none =>
      simp only [State.afterTold, payload, mark]
      exact stays
    | some id =>
      simp only [State.afterTold, State.abandonDeferred, payload, mark]
      cases found : s.markOf id with
      | none => exact stays
      | some e =>
        by_cases deferred : e.deferred = true
        · simp only [deferred, if_true]
          exact claim p id e payload mark found deferred
        · simp only [deferred]
          exact stays
  | bye =>
    simp only [State.afterTold, payload, Bool.and_eq_true]
    split
    · rename_i leaves
      exact bye payload leaves.1 leaves.2
    · exact stays
  | _ =>
    simp only [State.afterTold, payload]
    exact stays

theorem State.afterTold_settles (s : State) (m : Msg) : s.Settles (s.afterTold m) := by
  refine State.afterTold_cases ?_ (fun _ _ _ _ _ => ?_) (fun _ id _ _ _ _ _ => ?_) (fun _ _ leaving => ?_)
  · exact .of_queueOnly (.refl s) rfl rfl
  · have calm := State.Calm.submitEpoch s.et.epoch s
    exact .of_queueOnly (.submitEpoch _ s) calm.mu calm.aside.driver
  · have aside := State.Aside.abandon id s
    exact .of_queueOnly (.abandon id s) aside.mu aside.driver
  · have station : s.mu.station = .leaving := by simpa [State.isLeaving] using leaving
    exact ⟨rfl, rfl, rfl, rfl, rfl, rfl, .inr ⟨station, rfl, rfl, rfl⟩⟩

theorem State.settled_settles (s : State) (m : Msg) : s.Settles (s.settled m) := by
  have calm := (s.requeued m).told_calm m
  have lc := (s.requeued m).told_lc m
  have told : s.Settles ((s.requeued m).told m) :=
    .of_queueOnly (by rw [State.QueueOnly, lc]; rfl) calm.mu calm.aside.driver
  exact told.trans (State.afterTold_settles _ m) ⟨calm.mu, by rw [lc]; rfl, by rw [lc]; rfl⟩

theorem State.countFailure_below (h : s.lc.failCount < 31) :
    s.countFailure = { s with lc := { s.lc with failCount := s.lc.failCount + 1 } } := by
  have count : min 32 (s.lc.failCount + 1) = s.lc.failCount + 1 := by omega
  simp only [State.countFailure, Config.failureLimit, count]
  exact if_neg (by omega)

theorem State.countFailure_limit (h : 31 ≤ s.lc.failCount) :
    s.countFailure = State.enterMute { s with lc := { s.lc with failCount := 32 } } := by
  have count : min 32 (s.lc.failCount + 1) = 32 := by omega
  simp only [State.countFailure, Config.failureLimit, count, if_true]

/-! ## The messages that are left to be lost -/

/-- ET does not follow an EPOCH that is not there. -/
def State.OwnEnds (s : State) : Prop := s.et.own = .none ∨ ∃ q ∈ s.lc.queue, q.payload.isEpoch = true

/-- The entry's CLAIM is lost or stands in the queue. -/
def State.ClaimEnds (s : State) (id : Nat) : Prop :=
  s.ClaimIsLost id ∨ ∃ q ∈ s.lc.queue, (∃ p, q.payload = .claim p) ∧ q.mark = some id

/-- A message of the queue is the announcement of the slot's record. -/
def State.Announced (s : State) (i : Fin 4) : Prop := ∃ q ∈ s.lc.queue, s.Announces q i

/-- What follows from a failed attempt keeps every message whose loss would matter, but for those of deferred entries. -/
structure State.KeepsMessages (s t : State) : Prop where
  own       : s.OwnEnds → t.OwnEnds
  claim     : ∀ id, s.ClaimEnds id → t.ClaimEnds id
  recordAt  : ∀ i, (∀ e ∈ s.cc.marks, e.slot = some i → e.deferred = false) → t.recordAt i = s.recordAt i
  announced : ∀ i, (∀ e ∈ s.cc.marks, e.slot = some i → e.deferred = false) → (t.Announced i ↔ s.Announced i)

theorem State.KeepsMessages.of_frame (queue : t.lc.queue = s.lc.queue) (cc : t.cc = s.cc) (et : t.et = s.et) :
    s.KeepsMessages t where
  own h := by rwa [State.OwnEnds, queue, et]
  claim id h := by rwa [State.ClaimEnds, State.ClaimIsLost, queue, cc]
  recordAt i _ := State.recordAt_of_cc cc i
  announced i _ := by
    simp only [State.Announced, State.Announces, queue, cc, keyAt_eq (State.recordAt_of_cc cc i)]

/-- ET's EPOCH submitted while none is in transmission: admitted in place of the older one, or refused for good. -/
theorem State.submitEpoch_still (free : ∀ k, s.et.own ≠ .inTransmission k)
    (still : ∀ q ∈ s.lc.queue, q.cond ≠ .inTransmission) (n : Word32) :
    (s.submitEpoch n = { s with et := { s.et with own := .none } } ∧ ¬(s.mu.station = .member ∧ s.lc.mute = false)) ∨
      s.submitEpoch n = { s.entered (.epoch n 0 s.mu.digest) none (s.lc.queue.filter (fun x => !x.payload.isEpoch)) with
        et := { s.et with own := .queued n } } := by
  have entered : ∀ speaks : s.Speaks (.epoch n 0 s.mu.digest), s.submit (.epoch n 0 s.mu.digest) none = some _ :=
    fun speaks => speaks.submit_epoch none rfl fun q hq _ => still q hq
  unfold State.submitEpoch
  split
  · rename_i k own
    exact absurd own (free k)
  · cases submitted : s.submit (.epoch n 0 s.mu.digest) none with
    | none =>
      refine .inl ⟨rfl, fun speaks => ?_⟩
      rw [entered ⟨.inl speaks.1, speaks.2, by simp [speaks.1]⟩] at submitted
      cases submitted
    | some t =>
      rw [entered (State.speaks_of_submit submitted)] at submitted
      cases submitted
      exact .inr rfl

theorem State.KeepsMessages.submitEpoch (free : ∀ k, s.et.own ≠ .inTransmission k)
    (still : ∀ q ∈ s.lc.queue, q.cond ≠ .inTransmission) (n : Word32) : s.KeepsMessages (s.submitEpoch n) := by
  rcases State.submitEpoch_still free still n with ⟨refused, _⟩ | admitted
  · rw [refused]
    exact ⟨fun _ => .inl rfl, fun _ h => h, fun _ _ => rfl, fun _ _ => .rfl⟩
  · rw [admitted]
    refine ⟨fun _ => .inr ?_, fun id h => h.imp_right ?_, fun _ _ => rfl, fun i _ => ⟨?_, ?_⟩⟩
    · exact ⟨_, (insertMsg_perm _ _).mem_iff.2 List.mem_cons_self, rfl⟩
    · rintro ⟨q, hq, ⟨p, claim⟩, mark⟩
      refine ⟨q, (insertMsg_perm _ _).mem_iff.2 (List.mem_cons_of_mem _ (List.mem_filter.2 ⟨hq, ?_⟩)), ⟨p, claim⟩, mark⟩
      rw [claim]
      rfl
    · rintro ⟨q, hq, announces⟩
      rcases List.mem_cons.1 ((insertMsg_perm _ _).mem_iff.1 hq) with rfl | hq
      · exact absurd announces (State.not_announces (by simp) (by simp))
      · exact ⟨q, (List.mem_filter.1 hq).1, announces⟩
    · rintro ⟨q, hq, announces⟩
      refine ⟨q, (insertMsg_perm _ _).mem_iff.2 (List.mem_cons_of_mem _ (List.mem_filter.2 ⟨hq, ?_⟩)), announces⟩
      cases payload : q.payload with
      | epoch _ _ _ => exact absurd announces (State.not_announces (by simp [payload]) (by simp [payload]))
      | _ => rfl

theorem State.KeepsMessages.abandon {id : Nat} {e : Mark} (distinct : s.IdsDistinct) (marked : MarkedAreClaims s)
    (found : s.markOf id = some e) (deferred : e.deferred = true) : s.KeepsMessages (s.abandon id) := by
  obtain ⟨he, eid⟩ := State.markOf_some found
  have kept : ∀ {q : Msg}, q ∈ s.lc.queue → q.mark ≠ some id → q ∈ (s.abandon id).lc.queue := fun hq other => by
    rw [State.abandon_queue found]
    exact List.mem_filter.2 ⟨hq, by simp [claimOf, other]⟩
  have stayed : ∀ {q : Msg}, q ∈ (s.abandon id).lc.queue → q ∈ s.lc.queue := fun hq => by
    rw [State.abandon_queue found] at hq
    exact (List.mem_filter.1 hq).1
  have record : ∀ i, (∀ e ∈ s.cc.marks, e.slot = some i → e.deferred = false) → (s.abandon id).recordAt i = s.recordAt i :=
    fun i quiet => by
      rw [State.abandon_recordAt found, if_neg]
      intro slot
      rw [quiet e he slot] at deferred
      cases deferred
  refine ⟨fun h => ?_, fun id' h => ?_, record, fun i quiet => ⟨?_, ?_⟩⟩
  · rw [State.OwnEnds, (State.abandon_frame id s).2.1]
    refine h.imp_right ?_
    rintro ⟨q, hq, epoch⟩
    refine ⟨q, kept hq fun mark => ?_, epoch⟩
    obtain ⟨p, claim⟩ := marked q hq (by rw [mark]; exact nofun)
    rw [claim] at epoch
    cases epoch
  · by_cases same : id' = id
    · refine .inl fun x hx xid => absurd (xid.trans same) ?_
      rw [State.abandon_marks found] at hx
      simpa using (List.mem_filter.1 hx).2
    · refine h.imp (fun lost x hx => ?_) ?_
      · rw [State.abandon_marks found] at hx
        exact lost x (List.mem_filter.1 hx).1
      · rintro ⟨q, hq, claim, mark⟩
        exact ⟨q, kept hq fun e => same (Option.some.inj (mark.symm.trans e)), claim, mark⟩
  · rintro ⟨q, hq, ⟨x, hx, claims, slot⟩ | ⟨key, off, out, frozen, held⟩⟩
    · rw [State.abandon_marks found] at hx
      exact ⟨q, stayed hq, .inl ⟨x, (List.mem_filter.1 hx).1, claims, slot⟩⟩
    · exact ⟨q, stayed hq, .inr ⟨key, off, out, frozen, keyAt_eq (record i quiet) ▸ held⟩⟩
  · rintro ⟨q, hq, ⟨x, hx, claims, slot⟩ | ⟨key, off, out, frozen, held⟩⟩
    · have other : x.id ≠ id := fun xid => by
        rw [← mark_eq_of_id distinct hx he (eid.trans xid.symm)] at slot
        rw [quiet e he slot] at deferred
        cases deferred
      refine ⟨q, kept hq ?_, .inl ⟨x, ?_, claims, slot⟩⟩
      · rw [claims.2]
        exact fun same => other (Option.some.inj same)
      · rw [State.abandon_marks found]
        exact List.mem_filter.2 ⟨hx, by simpa using other⟩
    · refine ⟨q, kept hq fun mark => ?_, .inr ⟨key, off, out, frozen, (keyAt_eq (record i quiet)).trans held⟩⟩
      obtain ⟨p, claim⟩ := marked q hq (by rw [mark]; exact nofun)
      rw [claim] at frozen
      cases frozen

theorem State.KeepsMessages.afterTold (distinct : s.IdsDistinct) (marked : MarkedAreClaims s)
    (still : ∀ q ∈ s.lc.queue, q.cond ≠ .inTransmission)
    (free : m.payload.isEpoch = true → ∀ k, s.et.own ≠ .inTransmission k) : s.KeepsMessages (s.afterTold m) := by
  refine State.afterTold_cases ?_ (fun n lag digest payload _ => ?_) (fun p id e _ _ found deferred => ?_) (fun _ _ _ => ?_)
  · exact .of_frame rfl rfl rfl
  · exact .submitEpoch (free (by rw [payload]; rfl)) still _
  · exact .abandon distinct marked found deferred
  · exact .of_frame rfl rfl rfl

/-! ## The message itself: queued again, or lost -/

theorem State.mem_othersQueued {q : Msg} : q ∈ s.othersQueued ↔ q ∈ s.lc.queue ∧ q.cond ≠ .inTransmission := by
  simp [State.othersQueued, List.mem_filter]

theorem State.Transmits.mem_queue (sends : s.Transmits m) {q : Msg} : q ∈ s.lc.queue ↔ q = m ∨ q ∈ s.othersQueued := by
  rw [State.mem_othersQueued]
  refine ⟨fun hq => or_iff_not_imp_right.2 fun rest => sends.2.2 q hq ?_, ?_⟩
  · simpa [hq] using rest
  · rintro (rfl | ⟨hq, _⟩)
    · exact sends.1
    · exact hq

theorem State.mem_requeued {q : Msg} :
    q ∈ (s.requeued m).lc.queue ↔ (m.spent = false ∧ q = m.again) ∨ q ∈ s.othersQueued := by
  unfold State.requeued State.withQueue
  cases m.spent with
  | true => simp
  | false => simp [(insertMsg_perm _ _).mem_iff]

theorem State.requeued_still (s : State) (m : Msg) : ∀ q ∈ (s.requeued m).lc.queue, q.cond ≠ .inTransmission := by
  intro q hq
  rcases State.mem_requeued.1 hq with ⟨_, rfl⟩ | hq
  · exact nofun
  · exact (State.mem_othersQueued.1 hq).2

theorem State.requeued_marked (marked : MarkedAreClaims s) (hm : m ∈ s.lc.queue) : MarkedAreClaims (s.requeued m) := by
  intro q hq
  rcases State.mem_requeued.1 hq with ⟨_, rfl⟩ | hq
  · exact marked m hm
  · exact marked q (State.mem_othersQueued.1 hq).1

theorem State.told_spent (spent : m.spent = true) (s : State) : s.told m = s.noticeLoss m := by rw [State.told, if_pos spent]

theorem State.told_unspent (spent : m.spent = false) (s : State) : s.told m = s.noticeQueued m := by
  rw [State.told, spent, if_neg Bool.false_ne_true]

theorem State.told_free (epoch : m.payload.isEpoch = true) (s : State) (k : Word32) : (s.told m).et.own ≠ .inTransmission k := by
  cases payload : m.payload with
  | epoch n lag digest =>
    cases spent : m.spent with
    | true =>
      rw [State.told_spent spent, State.noticeLoss_own, if_pos epoch]
      exact nofun
    | false =>
      rw [State.told_unspent spent, State.noticeQueued]
      simp [payload]
  | _ =>
    rw [payload] at epoch
    cases epoch

theorem State.noticeQueued_claim {p : Point} {id : Nat} (claim : m.payload = .claim p) (mark : m.mark = some id) :
    s.noticeQueued m = s.modifyMark id (fun e => { e with claim := .queued }) := by
  simp only [State.noticeQueued, claim, mark]

theorem State.noticeQueued_recordAt (s : State) (m : Msg) (i : Fin 4) : (s.noticeQueued m).recordAt i = s.recordAt i := by
  unfold State.noticeQueued
  split
  · rfl
  · split <;> rfl
  · rfl

theorem State.Transmits.told_ownEnds (sends : s.Transmits m) (epoch : ∃ q ∈ s.lc.queue, q.payload.isEpoch = true) :
    ((s.requeued m).told m).OwnEnds := by
  obtain ⟨q, hq, epoch⟩ := epoch
  rw [State.OwnEnds, State.told_lc]
  rcases sends.mem_queue.1 hq with rfl | hq
  · cases spent : q.spent with
    | true => exact .inl (by rw [State.told_spent spent, State.noticeLoss_own, if_pos epoch])
    | false => exact .inr ⟨q.again, State.mem_requeued.2 (.inl ⟨spent, rfl⟩), epoch⟩
  · exact .inr ⟨q, State.mem_requeued.2 (.inr hq), epoch⟩

theorem State.Transmits.told_claimEnds (sends : s.Transmits m) {id : Nat}
    (claims : ∃ q ∈ s.lc.queue, (∃ p, q.payload = .claim p) ∧ q.mark = some id) : ((s.requeued m).told m).ClaimEnds id := by
  obtain ⟨q, hq, ⟨p, claim⟩, mark⟩ := claims
  rw [State.ClaimEnds, State.told_lc]
  rcases sends.mem_queue.1 hq with rfl | hq
  · cases spent : q.spent with
    | true =>
      rw [State.told_spent spent, State.noticeLoss_claim claim mark]
      exact .inl (State.claimLost_claimIsLost _ id)
    | false => exact .inr ⟨q.again, State.mem_requeued.2 (.inl ⟨spent, rfl⟩), ⟨p, claim⟩, mark⟩
  · exact .inr ⟨q, State.mem_requeued.2 (.inr hq), ⟨p, claim⟩, mark⟩

theorem State.Transmits.told_losesAt (sends : s.Transmits m) (distinct : s.IdsDistinct) (i : Fin 4) :
    ∃ P, s.LosesAt ((s.requeued m).told m) i P ∧ (P ∨ ((s.requeued m).told m).Announced i ↔ s.Announced i) := by
  have announces : ∀ q, ((s.requeued m).told m).Announces q i ↔ s.Announces q i :=
    fun q => ((s.requeued m).told_calm m).announces q i
  have parts : s.Announced i ↔ s.Announces m i ∨ ∃ q ∈ s.othersQueued, s.Announces q i := by
    simp only [State.Announced, sends.mem_queue, or_and_right, exists_or, exists_eq_left]
  simp only [State.Announced] at parts ⊢
  simp only [State.told_lc, announces, parts]
  cases spent : m.spent with
  | true =>
    refine ⟨s.Announces m i, ?_, ?_⟩
    · rw [State.told_spent spent]
      exact State.noticeLoss_losesAt (s := s.requeued m) distinct m i
    · simp [State.mem_requeued, spent]
  | false =>
    refine ⟨False, .of_same ?_ id, ?_⟩
    · rw [State.told_unspent spent, State.noticeQueued_recordAt]
      rfl
    · have again : s.Announces m.again i ↔ s.Announces m i := .rfl
      simp [State.mem_requeued, spent, or_and_right, exists_or, again]

/-- Being told changes nothing of an entry but the status of its CLAIM. -/
theorem State.mem_told {x : Mark} (hx : x ∈ (s.told m).cc.marks) :
    ∃ y ∈ s.cc.marks, y.id = x.id ∧ y.slot = x.slot ∧ y.deferred = x.deferred := by
  cases spent : m.spent with
  | true =>
    rw [State.told_spent spent] at hx
    obtain ⟨y, hy, rfl | rfl⟩ := State.mem_noticeLoss hx
    · exact ⟨_, hy, rfl, rfl, rfl⟩
    · exact ⟨y, hy, rfl, rfl, rfl⟩
  | false =>
    rw [State.told_unspent spent] at hx
    unfold State.noticeQueued at hx
    split at hx
    · exact ⟨x, hx, rfl, rfl, rfl⟩
    · split at hx
      · exact ⟨x, hx, rfl, rfl, rfl⟩
      · obtain ⟨y, hy, rfl⟩ := List.mem_map.1 hx
        refine ⟨y, hy, ?_⟩
        split <;> exact ⟨rfl, rfl, rfl⟩
    · exact ⟨x, hx, rfl, rfl, rfl⟩

/-! ## The entry into MUTE at the 32nd failure -/

theorem State.Transmits.settled_keeps (sends : s.Transmits m) (distinct : s.IdsDistinct) (marked : MarkedAreClaims s) :
    ((s.requeued m).told m).KeepsMessages (s.settled m) := by
  have calm := (s.requeued m).told_calm m
  have lc := (s.requeued m).told_lc m
  refine .afterTold (State.IdsDistinct.calm calm distinct) ?_ ?_ fun epoch => State.told_free epoch _
  · rw [MarkedAreClaims, lc]
    exact State.requeued_marked marked sends.1
  · rw [lc]
    exact s.requeued_still m

theorem State.Transmits.settled_losesAt (sends : s.Transmits m) (distinct : s.IdsDistinct) (marked : MarkedAreClaims s)
    {i : Fin 4} (quiet : ∀ e ∈ s.cc.marks, e.slot = some i → e.deferred = false) :
    ∃ P, s.LosesAt (s.settled m) i P ∧ (P ∨ (s.settled m).Announced i ↔ s.Announced i) := by
  have keeps := sends.settled_keeps distinct marked
  have quietTold : ∀ e ∈ ((s.requeued m).told m).cc.marks, e.slot = some i → e.deferred = false := fun e he slot => by
    obtain ⟨y, hy, _, same, deferred⟩ := State.mem_told he
    exact deferred ▸ quiet y hy (same.trans slot)
  obtain ⟨P, loses, iff⟩ := sends.told_losesAt distinct i
  refine ⟨P, fun r hr => ?_, by rw [keeps.announced i quietTold, iff]⟩
  rw [keeps.recordAt i quietTold]
  exact loses r hr

theorem State.settled_distinct (distinct : s.IdsDistinct) (m : Msg) : (s.settled m).IdsDistinct := by
  have told : ((s.requeued m).told m).IdsDistinct := State.IdsDistinct.calm ((s.requeued m).told_calm m) distinct
  refine State.afterTold_cases told (fun _ _ _ _ _ => told.calm (.submitEpoch _ _)) (fun _ _ _ _ _ found _ => ?_)
    (fun _ _ _ => told)
  rw [State.IdsDistinct, State.abandon_marks found]
  exact told.sublist (List.filter_sublist.map _)

/-- The failure that brings LC into MUTE. -/
def State.lastFailure (s : State) (m : Msg) : State :=
  { s.settled m with lc := { (s.settled m).lc with failCount := 32 } }

section
variable (sends : s.Transmits m) (distinct : s.IdsDistinct) (marked : MarkedAreClaims s)
  (mute : (s.lastFailure m).EntersMute t)
include sends distinct marked mute

theorem State.Transmits.muted_own (epoch : ∃ q ∈ s.lc.queue, q.payload.isEpoch = true) : t.et.own = .none :=
  mute.own ((sends.settled_keeps distinct marked).own (sends.told_ownEnds epoch))

theorem State.Transmits.muted_claimIsLost {q : Msg} {p : Point} {id : Nat} (hq : q ∈ s.lc.queue) (claim : q.payload = .claim p)
    (mark : q.mark = some id) : t.ClaimIsLost id :=
  mute.claimIsLost ((sends.settled_keeps distinct marked).claim id (sends.told_claimEnds ⟨q, hq, ⟨p, claim⟩, mark⟩))

theorem State.Transmits.muted_losesAt {i : Fin 4} (quiet : ∀ e ∈ s.cc.marks, e.slot = some i → e.deferred = false) :
    s.LosesAt t i (s.Announced i) := by
  obtain ⟨P, loses, iff⟩ := sends.settled_losesAt distinct marked quiet
  have told : State.LosesAt (s.settled m) t i ((s.settled m).Announced i) := mute.losesAt (s.settled_distinct distinct m) i
  exact (loses.trans told).congr iff

end

theorem State.announced_iff {i : Fin 4} : s.Announced i ↔
    (∃ q ∈ s.lc.queue, ∃ p, q.payload = .claim p ∧ ∃ e ∈ s.cc.marks, q.mark = some e.id ∧ e.slot = some i) ∨
      ∃ q ∈ s.lc.queue, ∃ key off out, q.payload = .frozen key off out ∧ s.keyAt i = some key := by
  simp only [State.Announced, State.Announces, Msg.Claims, and_or_left, exists_or]
  refine or_congr_left (exists_congr fun q => and_congr_right fun _ => ?_)
  exact ⟨fun ⟨e, he, ⟨⟨p, claim⟩, mark⟩, slot⟩ => ⟨p, claim, e, he, mark, slot⟩,
    fun ⟨p, claim, e, he, mark, slot⟩ => ⟨e, he, ⟨⟨p, claim⟩, mark⟩, slot⟩⟩

/-! ## Each message's failure below the limit -/

/-- Neither an EPOCH nor a CLAIM: its retry is told to no one. -/
theorem State.settled_other (epoch : m.payload.isEpoch = false) (claim : ∀ p, m.payload ≠ .claim p) (spent : m.spent = false) :
    s.settled m = s.requeued m := by
  unfold State.settled
  rw [State.told_unspent spent]
  cases payload : m.payload with
  | epoch _ _ _ =>
    rw [payload] at epoch
    cases epoch
  | claim p => exact absurd payload (claim p)
  | _ => simp [State.noticeQueued, State.afterTold, payload, spent]

theorem State.requeued_unspent (spent : m.spent = false) (s : State) :
    (s.requeued m).lc.queue = insertMsg m.again s.othersQueued := by simp [State.requeued, State.withQueue, spent]

theorem State.requeued_spent (spent : m.spent = true) (s : State) : (s.requeued m).lc.queue = s.othersQueued := by
  simp [State.requeued, State.withQueue, spent]

theorem State.settled_other_queue (epoch : m.payload.isEpoch = false) (claim : ∀ p, m.payload ≠ .claim p) :
    (s.settled m).lc.queue = (s.requeued m).lc.queue := by
  rw [← State.told_lc (s.requeued m) m]
  refine State.afterTold_cases (P := fun t => t.lc.queue = ((s.requeued m).told m).lc.queue) rfl
    (fun n lag digest payload _ => ?_) (fun p id e payload => absurd payload (claim p)) (fun _ _ _ => rfl)
  rw [payload] at epoch
  cases epoch

theorem State.settled_bye (bye : m.payload = .bye) (spent : m.spent = true) (leaving : s.mu.station = .leaving) :
    (s.settled m).mu.station = .config := by
  have leaves : ((s.requeued m).told m).isLeaving = true := by
    rw [State.isLeaving, ((s.requeued m).told_calm m).mu]
    simpa [State.requeued, State.withQueue] using leaving
  simp only [State.settled, State.afterTold, bye, spent, leaves]
  rfl

theorem State.settled_frozen {key : Key} {off out : Byte} (frozen : m.payload = .frozen key off out) (spent : m.spent = true) :
    s.settled m = (s.requeued m).frozenLost key := by
  unfold State.settled
  rw [State.told_spent spent, State.noticeLoss_frozen frozen]
  simp only [State.afterTold, frozen]

theorem State.told_epoch {n : Word32} {lag digest : Word} (epoch : m.payload = .epoch n lag digest) (s : State) :
    s.told m = { s with et := { s.et with own := if m.spent then .none else .queued n } } := by
  unfold State.told
  cases m.spent with
  | true => simp only [State.noticeLoss, epoch, if_true]
  | false => simp only [State.noticeQueued, epoch, Bool.false_eq_true, if_false]

theorem State.settled_epoch {n : Word32} {lag digest : Word} (epoch : m.payload = .epoch n lag digest) (current : n = s.et.epoch) :
    s.settled m = (s.requeued m).told m := by
  unfold State.settled
  simp only [State.afterTold, epoch, State.resubmitStale, State.told_epoch epoch]
  exact if_pos current

/-- A stale EPOCH that fails at a station that speaks is followed by one of the present number, the only one then (R107). -/
theorem State.settled_stale {n : Word32} {lag digest : Word} (epoch : m.payload = .epoch n lag digest) (stale : n ≠ s.et.epoch)
    (member : s.mu.station = .member) (mute : s.lc.mute = false) :
    ∃ fresh : Msg, (fresh.fails = 0 ∧ fresh.cond = .queued ∧ fresh.payload = .epoch s.et.epoch 0 s.mu.digest) ∧
      (s.settled m).et = { s.et with own := .queued s.et.epoch } ∧
      (s.settled m).lc.queue = insertMsg fresh ((s.requeued m).lc.queue.filter (fun x => !x.payload.isEpoch)) := by
  have isEpoch : m.payload.isEpoch = true := by rw [epoch]; rfl
  have lc := (s.requeued m).told_lc m
  have told := State.told_epoch epoch (s.requeued m)
  have settled : s.settled m = ((s.requeued m).told m).submitEpoch s.et.epoch := by
    unfold State.settled
    simp only [State.afterTold, epoch, State.resubmitStale, told]
    exact if_neg stale
  have still : ∀ q ∈ ((s.requeued m).told m).lc.queue, q.cond ≠ .inTransmission := by
    rw [lc]
    exact s.requeued_still m
  rcases State.submitEpoch_still (State.told_free isEpoch _) still s.et.epoch with ⟨_, silent⟩ | admitted
  · rw [told] at silent
    exact absurd ⟨member, mute⟩ silent
  · rw [settled, admitted, told]
    exact ⟨_, ⟨rfl, rfl, rfl⟩, rfl, rfl⟩

/-! ## A CLAIM's failure -/

theorem State.markOf_told {id : Nat} {e : Mark} (found : s.markOf id = some e) (distinct : s.IdsDistinct) (m : Msg) :
    ∃ e', ((s.requeued m).told m).markOf id = some e' ∧ e'.id = id ∧
      e'.slot = e.slot ∧ e'.deferred = e.deferred := by
  obtain ⟨he, eid⟩ := State.markOf_some found
  have calm := (s.requeued m).told_calm m
  cases foundTold : ((s.requeued m).told m).markOf id with
  | none =>
    obtain ⟨x, hx, same, _⟩ := exists_mark_of_map_eq calm.marks.symm he
    exact absurd (same.trans eid) (State.markOf_none foundTold x hx)
  | some e' =>
    obtain ⟨he', eid'⟩ := State.markOf_some foundTold
    obtain ⟨y, hy, same, slot, deferred⟩ := State.mem_told he'
    have entry : e = y := mark_eq_of_id distinct hy he (eid.trans (same.trans eid').symm)
    subst entry
    exact ⟨e', rfl, eid', slot.symm, deferred.symm⟩

section
variable {p : Point} {id : Nat} {e : Mark} (claim : m.payload = .claim p) (mark : m.mark = some id)
  (found : s.markOf id = some e) (distinct : s.IdsDistinct)
include claim mark found distinct

theorem State.settled_claim (kept : e.deferred = false) : s.settled m = (s.requeued m).told m := by
  obtain ⟨e', foundTold, _, _, deferred⟩ := State.markOf_told found distinct m
  simp only [State.settled, State.afterTold, State.abandonDeferred, claim, mark, foundTold, deferred, kept]
  rfl

theorem State.settled_deferred (gone : e.deferred = true) :
    (s.settled m).Abandoned e ∧ ∀ q ∈ (s.settled m).lc.queue, q.mark ≠ some id := by
  obtain ⟨e', foundTold, eid', slot, deferred⟩ := State.markOf_told found distinct m
  have settled : s.settled m = ((s.requeued m).told m).abandon id := by
    simp only [State.settled, State.afterTold, State.abandonDeferred, claim, mark, foundTold, deferred, gone, if_true]
  obtain ⟨he, eid⟩ := State.markOf_some found
  subst eid'
  have abandoned := State.abandon_abandoned foundTold
  have same : (s.settled m).Abandoned e := by
    rw [settled]
    exact ⟨eid ▸ abandoned.gone, abandoned.told, slot ▸ abandoned.free, eid ▸ abandoned.line, eid ▸ abandoned.queue⟩
  refine ⟨same, fun q hq withdrawn => ?_⟩
  have moves := same.queue q hq (eid ▸ withdrawn)
  rw [settled, State.abandon_queue foundTold, State.told_lc] at hq
  exact s.requeued_still m q (List.mem_filter.1 hq).1 moves

end

/-! ## The failed attempt as a whole -/

theorem State.failing_settles (s : State) (reason : FailReason) (m : Msg) :
    (s.failing reason).Settles ((s.failing reason).settled m) := State.settled_settles _ m

theorem State.Transmits.failing (sends : s.Transmits m) (reason : FailReason) : (s.failing reason).Transmits m := sends

theorem State.Transmits.attemptFails_below (sends : s.Transmits m) (reason : FailReason) (below : s.lc.failCount < 31) :
    s.attemptFails reason = { (s.failing reason).settled m with
      lc := { ((s.failing reason).settled m).lc with failCount := s.lc.failCount + 1 } } := by
  have same : ((s.failing reason).settled m).lc.failCount = s.lc.failCount := (s.failing_settles reason m).failCount
  rw [sends.attemptFails reason, State.countFailure_below (same ▸ below), same]

theorem State.Transmits.attemptFails_limit (sends : s.Transmits m) (reason : FailReason) (limit : 31 ≤ s.lc.failCount) :
    s.attemptFails reason = ((s.failing reason).lastFailure m).enterMute := by
  have same : ((s.failing reason).settled m).lc.failCount = s.lc.failCount := (s.failing_settles reason m).failCount
  rw [sends.attemptFails reason, State.countFailure_limit (same ▸ limit)]
  rfl

/-- The entry into MUTE leaves the station and the frame as the failed attempt does, but that LEAVING always ends. -/
theorem State.lastFailure_course (s : State) (m : Msg) (mute : (s.lastFailure m).EntersMute t) :
    (s.mu.station ≠ .leaving ∧ t.mu = s.mu ∧ t.lc.view = s.lc.view ∧ t.lc.idle = s.lc.idle) ∨
      (s.mu.station = .leaving ∧ t.mu.station = .config ∧ t.lc.view = .none ∧ t.lc.idle = 0) := by
  have station : (s.lastFailure m).isLeaving = true ↔ (s.settled m).mu.station = .leaving := by
    simp [State.isLeaving, State.lastFailure]
  rcases (s.settled_settles m).station with ⟨mu, view, idle⟩ | ⟨was, config, none, zero⟩
  · rw [mu] at station
    cases leaves : (s.lastFailure m).isLeaving with
    | true => exact .inr ⟨station.1 leaves, mute.leaving leaves⟩
    | false =>
      obtain ⟨mu', view', idle'⟩ := mute.staying leaves
      exact .inl ⟨mt station.2 (by simp [leaves]), mu'.trans mu, view'.trans view, idle'.trans idle⟩
  · have leaves : (s.lastFailure m).isLeaving = false := Bool.eq_false_iff.2 fun h => by
      rw [config] at station
      exact absurd (station.1 h) nofun
    obtain ⟨mu', view', idle'⟩ := mute.staying leaves
    exact .inr ⟨was, (congrArg Mu.station mu').trans config, view'.trans none, idle'.trans zero⟩

/-- The frame and the station after a failed attempt, at the limit or below it. -/
theorem State.Transmits.attemptFails_course (sends : s.Transmits m) (reason : FailReason) (ends : s.attemptFails reason = t) :
    t.lc.vetoCount = s.lc.vetoCount ∧ (reason = .veto → t.lc.obsCur = .spoiled) ∧
      ((t.mu = s.mu ∧ t.lc.view = (s.failing reason).lc.view ∧ t.lc.idle = (s.failing reason).lc.idle) ∨
        (s.mu.station = .leaving ∧ t.mu.station = .config ∧ t.lc.view = .none ∧ t.lc.idle = 0)) := by
  have settles := s.failing_settles reason m
  subst ends
  rcases Nat.lt_or_ge s.lc.failCount 31 with below | limit
  · rw [sends.attemptFails_below reason below]
    have spoiled : reason = .veto → (s.failing reason).lc.obsCur = .spoiled := fun veto => if_pos veto
    exact ⟨settles.vetoCount, fun veto => settles.obsCur.trans (spoiled veto), settles.station⟩
  · rw [sends.attemptFails_limit reason limit]
    have mute := ((s.failing reason).lastFailure m).entersMute
    exact ⟨mute.vetoCount.trans settles.vetoCount, fun _ => mute.obsCur,
      (State.lastFailure_course (s.failing reason) m mute).imp_left And.right⟩

end

/-- Settles O44: the settled attempt, message by message, and then the failure count, below its limit or at it. -/
theorem attemptFails : Obligations.AttemptFails := by
  unfold Obligations.AttemptFails
  intro s m reason sends distinct marked
  refine ⟨_, rfl, ?_⟩
  obtain ⟨vetoCount, spoiled, course⟩ := sends.attemptFails_course reason rfl
  have settles := s.failing_settles reason m
  have failing := sends.failing reason
  have found : ∀ {e : Mark} {id : Nat}, e ∈ s.cc.marks → e.id = id → (s.failing reason).markOf id = some e :=
    fun he eid => State.markOf_of_mem he eid distinct
  refine ⟨vetoCount, fun veto => ⟨?_, spoiled veto, fun staying => ?_, fun leaving => ?_⟩, fun error staying => ?_,
    fun limit => ?_, fun below => ?_, fun p id e claim mark he eid deferred => ?_⟩
  · rcases course with ⟨_, _, idle⟩ | ⟨_, _, _, idle⟩
    · exact idle.trans (if_pos veto)
    · exact idle
  · rcases course with ⟨_, view, _⟩ | ⟨leaving, _⟩
    · exact view.trans (if_pos veto)
    · exact absurd leaving staying
  · rcases course with ⟨mu, view, _⟩ | ⟨_, config, view, _⟩
    · rw [if_pos (by rw [mu, leaving])]
      exact view.trans (if_pos veto)
    · rw [if_neg (by rw [config]; exact nofun)]
      exact view
  · subst error
    rcases course with ⟨_, view, idle⟩ | ⟨leaving, _⟩
    · exact ⟨view, idle⟩
    · exact absurd leaving staying
  · rw [sends.attemptFails_limit reason limit]
    have mute := ((s.failing reason).lastFailure m).entersMute
    have ends := State.lastFailure_course (s.failing reason) m mute
    refine ⟨mute.failCount, mute.mute, mute.queue, mute.obsCur, mute.obsPrev, mute.cause, mute.driver,
      fun leaving => ?_, fun staying => ?_, failing.muted_own distinct marked mute,
      fun q hq p id claim mark => failing.muted_claimIsLost distinct marked mute hq claim mark, fun i r hr quiet => ?_⟩
    · exact (ends.resolve_left fun h => h.1 leaving).2.1
    · exact (ends.resolve_right fun h => staying h.1).2.1
    · obtain ⟨lost, ht, iff⟩ := failing.muted_losesAt distinct marked mute quiet r hr
      exact ⟨lost, ht, iff.trans (or_congr_right State.announced_iff)⟩
  · rw [sends.attemptFails_below reason below]
    refine ⟨rfl, settles.mute, settles.obsPrev, fun error => ?_, settles.driver, ?_, fun unspent => ?_, fun spent => ?_⟩
    · subst error
      exact settles.obsCur
    · intro n lag digest epoch stale member mute
      obtain ⟨fresh, new, et, queue⟩ := State.settled_stale (s := s.failing reason) epoch stale member mute
      refine ⟨et, fun q hq isEpoch => ?_, fresh, ?_, by rw [new.2.2]; rfl⟩
      · rcases List.mem_cons.1 ((insertMsg_perm _ _).mem_iff.1 (queue ▸ hq)) with rfl | old
        · exact new
        · simp [isEpoch] at old
      · exact queue ▸ (insertMsg_perm _ _).mem_iff.2 List.mem_cons_self
    · have retried : m.spent = false := decide_eq_false (by omega)
      have queue := State.requeued_unspent retried (s.failing reason)
      refine ⟨fun epoch claim => ?_, fun n lag digest epoch current => ?_,
        fun p id e claim mark he eid => ⟨fun kept => ?_, fun deferred => ?_⟩⟩
      · rw [State.settled_other epoch claim retried]
        exact ⟨queue, rfl, rfl⟩
      · rw [State.settled_epoch (s := s.failing reason) epoch current, State.told_epoch epoch, retried]
        exact ⟨queue, rfl⟩
      · rw [State.settled_claim claim mark (found he eid) distinct kept, State.told_unspent retried,
          State.noticeQueued_claim claim mark]
        exact ⟨queue, rfl⟩
      · exact (State.settled_deferred claim mark (found he eid) distinct deferred).2
    · have dropped : m.spent = true := decide_eq_true spent
      have queue := State.requeued_spent dropped (s.failing reason)
      refine ⟨fun epoch claim => ?_, fun bye leaving => ?_, fun n lag digest epoch current => ?_,
        fun key off out i r frozen hr held => ?_, fun p id e claim mark he eid kept => ?_⟩
      · exact (State.settled_other_queue epoch claim).trans queue
      · exact State.settled_bye (s := s.failing reason) bye dropped leaving
      · rw [State.settled_epoch (s := s.failing reason) epoch current, State.told_epoch epoch, dropped]
        exact ⟨queue, rfl⟩
      · rw [State.settled_frozen frozen dropped]
        obtain ⟨lost, ht, iff⟩ := State.frozenLost_losesAt (s := (s.failing reason).requeued m) (i := i) key r hr
        rw [iff.2 (.inr held)] at ht
        exact ht
      · rw [State.settled_claim claim mark (found he eid) distinct kept, State.told_spent dropped,
          State.noticeLoss_claim claim mark]
        have foundAgain : ((s.failing reason).requeued m).markOf id = some e := found he eid
        refine ⟨?_, State.claimLost_marks foundAgain, fun i r slot hr => ?_⟩
        · exact (congrArg Lc.queue (State.claimLost_frame id _).2.2.1).trans queue
        · refine (State.claimLost_recordAt foundAgain i).trans ?_
          rw [if_pos slot, show ((s.failing reason).requeued m).recordAt i = some r from hr]
          rfl
  · obtain ⟨abandoned, _⟩ := State.settled_deferred claim mark (found he eid) distinct deferred
    subst eid
    have after : (s.attemptFails reason).Abandoned e := by
      rcases Nat.lt_or_ge s.lc.failCount 31 with below | limit
      · rw [sends.attemptFails_below reason below]
        exact ⟨abandoned.gone, abandoned.told, abandoned.free, abandoned.line, abandoned.queue⟩
      · rw [sends.attemptFails_limit reason limit]
        exact State.enterMute_abandoned
          ⟨abandoned.gone, abandoned.told, abandoned.free, abandoned.line, abandoned.queue⟩
    exact ⟨after.gone, after.told, after.free, after.line⟩

end Sys2Proof.Machine
end

