-- ==== Sys2Proof/Proofs/OwnFrames.lean ====
section
/-! This station's own transmission accepted: its CLAIM at CC, the settlement of the CLAIM's entry, the other messages: O45
(R15 to R18, R24, R27, R106, R123, R148, R153). -/

namespace Sys2Proof.Machine

/-! ## What a CLAIM leaves of the queue and of the open-mark entries -/

/-- At LC nothing but the queue changes, and no open-mark entry is new. -/
structure State.HearsClaim (s t : State) : Prop where
  lc    : s.QueueOnly t
  marks : t.cc.marks.Sublist s.cc.marks

namespace State.HearsClaim

theorem refl (s : State) : s.HearsClaim s := ⟨.refl s, .refl _⟩

theorem trans {s t u : State} (h : s.HearsClaim t) (k : t.HearsClaim u) : s.HearsClaim u :=
  ⟨h.lc.trans k.lc, k.marks.trans h.marks⟩

theorem submitFrozen (key : Key) (offset : Byte) (outcome : OutcomeCode) (s : State) :
    s.HearsClaim (s.submitFrozen key offset outcome) := by
  refine ⟨?_, by rw [State.submitFrozen_marks]⟩
  unfold State.submitFrozen
  split
  · exact .of_eq rfl
  · rename_i h
    exact .submit h

theorem fillAndAnswer (i : Fin 4) (key : Key) (outcome : OutcomeCode) (offset : Byte) (expected : BitVec 24) (s : State) :
    s.HearsClaim (s.fillAndAnswer i key outcome offset expected) := by
  refine ⟨?_, by rw [State.fillAndAnswer_marks]⟩
  have submitted := (submitFrozen key offset outcome (s.fillRecord i key outcome offset expected)).lc
  rw [State.QueueOnly, State.fillAndAnswer_lc, submitted]
  simp

theorem withoutMark (s : State) (m : Mark) : s.HearsClaim (s.withoutMark m) where
  lc := by simp [State.QueueOnly, State.withoutMark, State.withdrawMsg]
  marks := by
    rw [State.withoutMark, State.marks_retireLine]
    exact List.filter_sublist

theorem matchMark (m : Mark) (sender : Station) (p : Point) (s : State) : s.HearsClaim (s.matchMark m sender p) := by
  cases slot : m.slot with
  | none =>
    rw [State.matchMark_none sender p slot]
    exact (withoutMark s m).trans (submitFrozen _ _ _ _)
  | some i =>
    rw [State.matchMark_some sender p slot]
    exact (withoutMark s m).trans (fillAndAnswer _ _ _ _ _ _)

theorem lateJoin (sender : Station) (p : Point) (s : State) : s.HearsClaim (s.lateJoin sender p) := by
  unfold State.lateJoin
  dsimp only
  split
  · exact submitFrozen _ _ _ s
  · split
    · exact (submitFrozen _ _ _ s).trans ⟨.of_eq rfl, .refl _⟩
    · rename_i opened
      obtain ⟨_, _, _, _, _, marks, _⟩ := State.openSlot_some opened
      obtain ⟨_, _, lc, _⟩ := State.openSlot_frame opened
      exact HearsClaim.trans ⟨.of_eq lc, by rw [marks]⟩ (fillAndAnswer _ _ _ _ _ _)

theorem claimAccepted (sender : Station) (p : Point) (s : State) : s.HearsClaim (s.claimAccepted sender p) := by
  unfold State.claimAccepted
  split
  · exact refl s
  split
  · exact refl s
  split
  · exact refl s
  split
  · exact refl s
  split
  · exact refl s
  split
  · exact matchMark _ _ _ s
  split
  · exact refl s
  · exact lateJoin _ _ s

end State.HearsClaim

/-! ## The entry of the CLAIM that completed (R24, Table 1-3) -/

section
variable {s : State} {mark : Option Nat}

theorem State.settleClaim_cases {P : State → Prop} (mark : Option Nat)
    (other : (∀ x ∈ s.cc.marks, mark ≠ some x.id) → P s)
    (deferred : ∀ id e, mark = some id → s.markOf id = some e → e.deferred = true → P (s.abandon id))
    (sent : ∀ id e, mark = some id → s.markOf id = some e → e.deferred = false →
      P (s.modifyMark id (fun m => { m with claim := .sent }))) : P (s.settleClaim mark) := by
  cases hm : mark with
  | none => exact other fun x _ => by rw [hm]; exact nofun
  | some id =>
    cases found : s.markOf id with
    | none =>
      simp only [State.settleClaim, found]
      exact other fun x hx same => State.markOf_none found x hx (Option.some.inj (hm.symm.trans same)).symm
    | some e =>
      simp only [State.settleClaim, found]
      cases d : e.deferred with
      | true => exact deferred id e hm found d
      | false => exact sent id e hm found d

theorem State.QueueOnly.settleClaim (mark : Option Nat) (s : State) : s.QueueOnly (s.settleClaim mark) :=
  State.settleClaim_cases mark (fun _ => .refl s) (fun id _ _ _ _ => .abandon id s) (fun _ _ _ _ _ => .of_eq rfl)

/-- An entry that stays, after the settlement of the CLAIM of `mark`. -/
def Mark.settled (mark : Option Nat) (x : Mark) : Mark := if decide (mark = some x.id) then { x with claim := .sent } else x

/-- The open-mark entries after the settlement: a deferred entry is gone, another has status sent. -/
def settledMarks (mark : Option Nat) (marks : List Mark) : List Mark :=
  (marks.filter (fun x => !(decide (mark = some x.id) && x.deferred))).map (Mark.settled mark)

theorem map_settled_of_other {marks : List Mark} (other : ∀ x ∈ marks, mark ≠ some x.id) :
    marks.map (Mark.settled mark) = marks := by
  have still : ∀ x ∈ marks, Mark.settled mark x = id x := fun x hx => if_neg (by simpa using other x hx)
  rw [List.map_congr_left still, List.map_id]

theorem settledMarks_of_kept {marks : List Mark} (kept : ∀ x ∈ marks, mark = some x.id → x.deferred = false) :
    settledMarks mark marks = marks.map (Mark.settled mark) := by
  have all : marks.filter (fun x => !(decide (mark = some x.id) && x.deferred)) = marks :=
    List.filter_eq_self.2 fun x hx => by
      by_cases own : mark = some x.id
      · simp [kept x hx own]
      · simp [own]
  rw [settledMarks, all]

theorem settledMarks_of_other {marks : List Mark} (other : ∀ x ∈ marks, mark ≠ some x.id) : settledMarks mark marks = marks := by
  rw [settledMarks_of_kept fun x hx own => absurd own (other x hx), map_settled_of_other other]

theorem State.settleClaim_marks (distinct : s.IdsDistinct) (mark : Option Nat) :
    (s.settleClaim mark).cc.marks = settledMarks mark s.cc.marks := by
  refine State.settleClaim_cases (P := fun t => t.cc.marks = settledMarks mark s.cc.marks) mark
    (fun other => (settledMarks_of_other other).symm) (fun id e own found deferred => ?_) (fun id e own found kept => ?_)
  all_goals
    obtain ⟨he, eid⟩ := State.markOf_some found
    have entry : ∀ x ∈ s.cc.marks, x.id = id → x = e := fun x hx xid => mark_eq_of_id distinct he hx (xid.trans eid.symm)
    have same : ∀ x : Mark, mark = some x.id ↔ x.id = id := fun x => by rw [own, Option.some.injEq, eq_comm]
  · have gone : s.cc.marks.filter (fun x => !(decide (mark = some x.id) && x.deferred)) =
        s.cc.marks.filter (fun x => decide (x.id ≠ id)) := List.filter_congr fun x hx => by
      by_cases xid : x.id = id
      · simp [own, xid, entry x hx xid ▸ deferred]
      · simp [same, xid]
    have rest : ∀ x ∈ s.cc.marks.filter (fun x => decide (x.id ≠ id)), mark ≠ some x.id := fun x hx => by
      rw [Ne, same]
      simpa using (List.mem_filter.1 hx).2
    rw [State.abandon_marks found, settledMarks, gone, map_settled_of_other rest]
  · rw [settledMarks_of_kept fun x hx xown => entry x hx ((same x).1 xown) ▸ kept]
    exact List.map_congr_left fun x _ => by simp [Mark.settled, same]

theorem State.settleClaim_sent (distinct : s.IdsDistinct) {x : Mark} (hx : x ∈ (s.settleClaim mark).cc.marks)
    (own : mark = some x.id) : x.claim = .sent ∧ x.deferred = false := by
  rw [State.settleClaim_marks distinct] at hx
  obtain ⟨y, hy, rfl⟩ := List.mem_map.1 hx
  have stays := (List.mem_filter.1 hy).2
  by_cases settled : mark = some y.id
  · rw [Mark.settled, if_pos (by simpa using settled)]
    exact ⟨rfl, by simpa [settled] using stays⟩
  · rw [Mark.settled, if_neg (by simpa using settled)] at own
    exact absurd own settled

theorem State.settleClaim_recordAt {j : Fin 4} (others : ∀ x ∈ s.cc.marks, x.slot ≠ some j) :
    (s.settleClaim mark).recordAt j = s.recordAt j := by
  refine State.settleClaim_cases (P := fun t => t.recordAt j = s.recordAt j) mark (fun _ => rfl)
    (fun id e _ found _ => ?_) (fun _ _ _ _ _ => rfl)
  rw [State.abandon_recordAt found, if_neg (others e (State.markOf_some found).1)]

theorem State.settleClaim_claimed (claimed : s.cc.lineEntry = .claimed) : (s.settleClaim mark).cc.lineEntry = .claimed := by
  refine State.settleClaim_cases (P := fun t => t.cc.lineEntry = .claimed) mark (fun _ => claimed)
    (fun id e _ found _ => ?_) (fun _ _ _ _ _ => claimed)
  rw [State.abandon_lineEntry found, claimed]
  exact if_neg nofun

theorem State.mem_of_settleClaim {q : Msg} (hq : q ∈ (s.settleClaim mark).lc.queue) : q ∈ s.lc.queue := by
  revert hq
  refine State.settleClaim_cases (P := fun t => q ∈ t.lc.queue → q ∈ s.lc.queue) mark (fun _ => id)
    (fun id e _ found _ hq => ?_) (fun _ _ _ _ _ => id)
  rw [State.abandon_queue found] at hq
  exact (List.mem_filter.1 hq).1

theorem State.mem_settleClaim {q : Msg} (hq : q ∈ s.lc.queue) (unmarked : q.mark = none) :
    q ∈ (s.settleClaim mark).lc.queue := by
  refine State.settleClaim_cases (P := fun t => q ∈ t.lc.queue) mark (fun _ => hq)
    (fun id e _ found _ => ?_) (fun _ _ _ _ _ => hq)
  rw [State.abandon_queue found]
  exact List.mem_filter.2 ⟨hq, by simp [claimOf, unmarked]⟩

end

/-! ## The FROZEN submitted, and the window that may close at once (R17, R27, R37) -/

/-- The capture with its window closed if it waits for no station. -/
def Capture.closedIfAlone (c : Capture) : Capture := { c with answersClosed := c.silent.isEmpty }

theorem CapRecord.answeredAll_filling {r : CapRecord} {c : Capture} (phase : r.phase = .filling c)
    (opened : c.answersClosed = false) : r.answeredAll =
      { r with phase := if c.silent.isEmpty && r.framesDone then .complete c.closedIfAlone else .filling c.closedIfAlone } := by
  unfold Capture.closedIfAlone
  by_cases all : c.silent = []
  · rw [CapRecord.answeredAll_closes phase opened all, Capture.close_of_silent all, CapRecord.completed_of_filling rfl, all,
      Bool.and_comm]
    cases r.framesDone <;> rfl
  · have waits : c.silent.isEmpty = false := by simpa using all
    have still : ({ c with answersClosed := false } : Capture) = c := by rw [← opened]
    rw [CapRecord.answeredAll_waiting phase all, waits, still, Bool.false_and, if_neg Bool.false_ne_true, ← phase]

section
variable {s : State} (key : Key) (offset : Byte) (outcome : OutcomeCode)

theorem State.submitFrozen_new (member : s.isMember = true) (room : ¬s.NoRoom s.lc.queue) :
    ∃ q ∈ (s.submitFrozen key offset outcome).lc.queue,
      q.cond = .queued ∧ q.payload = .frozen key offset outcome.code ∧ q.mark = none := by
  rw [State.submitFrozen_room key offset outcome member room]
  obtain ⟨q, hq, payload, cond, _, mark⟩ := s.enqueue_new (.frozen key offset outcome.code) none
  exact ⟨q, hq, cond, payload, mark⟩

variable (i : Fin 4) (expected : BitVec 24)

theorem State.fillAndAnswer_new (member : s.isMember = true) (room : ¬s.NoRoom s.lc.queue) :
    ∃ q ∈ (s.fillAndAnswer i key outcome offset expected).lc.queue,
      q.cond = .queued ∧ q.payload = .frozen key offset outcome.code ∧ q.mark = none := by
  rw [State.fillAndAnswer_lc]
  refine State.submitFrozen_new key offset outcome ?_ ?_
  · simpa [State.isMember] using member
  · simpa [State.NoRoom] using room

/-- The record of the slot takes the key, its window closed at once if no other station is expected; no other record
changes. -/
theorem State.fillAndAnswer_closes {r : CapRecord} {c : Capture} (hc : s.newCapture key outcome offset expected = c)
    (member : s.isMember = true) (hr : s.recordAt i = some r) (new : ∀ j, j ≠ i → s.keyAt j ≠ some key) :
    (∀ j, j ≠ i → (s.fillAndAnswer i key outcome offset expected).recordAt j = s.recordAt j) ∧
      ((c.silent.isEmpty && r.framesDone) = true →
        (s.fillAndAnswer i key outcome offset expected).hasCause .captureComplete = true) ∧
      ∃ lost : Bool, (lost = true ↔ s.NoRoom s.lc.queue) ∧
        (s.fillAndAnswer i key outcome offset expected).recordAt i = some { r with
          phase := if c.silent.isEmpty && r.framesDone then .complete c.closedIfAlone else .filling c.closedIfAlone
          flags := { r.flags with announceLost := r.flags.announceLost || lost } } := by
  have filled := fun j => s.fillRecord_recordAt i key outcome offset expected j
  rw [hc] at filled
  have umember : (s.fillRecord i key outcome offset expected).isMember = true := by simpa [State.isMember] using member
  obtain ⟨lost, full, submitted⟩ := State.submitFrozen_recordAt key offset outcome umember
  have opened : c.answersClosed = false := by rw [← hc]; rfl
  have holds : CapRecord.hasKey key { r with phase := .filling c } = true := by
    simp [CapRecord.hasKey, CapRecord.capture, ← hc, State.newCapture]
  have record : ((s.fillRecord i key outcome offset expected).submitFrozen key offset outcome).recordAt i =
      some { r with phase := .filling c, flags := { r.flags with announceLost := r.flags.announceLost || lost } } := by
    rw [submitted, filled, if_pos rfl, hr]
    simp only [Option.map_some, holds, Bool.and_true]
    cases lost with
    | true => simp [CapRecord.loseAnnounce]
    | false => simp
  have answered := CapRecord.answeredAll_filling (r := { r with
    phase := .filling c, flags := { r.flags with announceLost := r.flags.announceLost || lost } }) rfl opened
  refine ⟨fun j hj => ?_, fun complete => ?_, lost, full.trans (by simp [State.NoRoom]), ?_⟩
  · rw [State.fillAndAnswer, State.recordAt_closeIfAnswered, if_neg (Ne.symm hj), submitted, filled, if_neg (Ne.symm hj)]
    cases hq : s.recordAt j with
    | none => rfl
    | some q =>
      have without : q.hasKey key = false := by
        by_contra held
        exact new j hj (State.keyAt_eq_some.2 ⟨q, hq, by simpa using held⟩)
      simp [without]
  · refine State.closeIfAnswered_told record rfl opened ?_
    rw [answered]
    simp only [complete, if_true]
    rfl
  · rw [State.fillAndAnswer, State.recordAt_closeIfAnswered, if_pos rfl, record, Option.map_some, answered]

end

/-! ## The matched entry while nothing is in transmission (R16 to R18) -/

section
variable {s : State} {m : Mark} (sender : Station) (p : Point) (still : ∀ q ∈ s.lc.queue, q.cond ≠ .inTransmission)
include still

theorem State.withoutMark_queue_still (m : Mark) :
    (s.withoutMark m).lc.queue = s.lc.queue.filter (fun q => decide (q.mark ≠ some m.id)) := by
  have withdrawn : (s.withoutMark m).lc.queue = s.lc.queue.filter (fun q => q.moving || !claimOf m.id q) := by
    simp [State.withoutMark, State.withdrawMsg]
  rw [withdrawn]
  refine List.filter_congr fun q hq => ?_
  have rests := still q hq
  by_cases e : q.mark = some m.id <;> simp [Msg.moving, rests, claimOf, e]

theorem State.withoutMark_noRoom_still (m : Mark) : (s.withoutMark m).NoRoom (s.withoutMark m).lc.queue ↔
    s.NoRoom (s.lc.queue.filter (fun q => decide (q.mark ≠ some m.id))) := by
  rw [State.withoutMark_queue_still still m, State.NoRoom, State.NoRoom, (s.withoutMark_mu m).2]

theorem State.matchMark_withdraws {q : Msg} (hq : q ∈ (s.matchMark m sender p).lc.queue) : q.mark ≠ some m.id := by
  have old : q ∈ (s.withoutMark m).lc.queue ∨ q.mark = none := by
    cases slot : m.slot with
    | none =>
      rw [State.matchMark_none sender p slot] at hq
      exact State.submitFrozen_queue _ _ _ hq
    | some i =>
      rw [State.matchMark_some sender p slot] at hq
      exact State.fillAndAnswer_queue _ _ _ _ _ hq
  rcases old with hq | unmarked
  · rw [State.withoutMark_queue_still still m] at hq
    exact of_decide_eq_true (List.mem_filter.1 hq).2
  · rw [unmarked]
    exact nofun

variable (member : s.isMember = true) (new : ∀ i, s.keyAt i ≠ some (claimKey sender p))
include member new

/-- A matched entry without a record is answered NO_SLOT (R18). -/
theorem State.matchMark_noSlot (slot : m.slot = none) :
    (∀ i, (s.matchMark m sender p).recordAt i = s.recordAt i) ∧
      (¬s.NoRoom (s.lc.queue.filter (fun q => decide (q.mark ≠ some m.id))) →
        ∃ q ∈ (s.matchMark m sender p).lc.queue, q.cond = .queued ∧
          q.payload = .frozen (claimKey sender p) (offsetByte (pointDelta s.cfg.epochLen m.point p)) 3 ∧ q.mark = none) := by
  rw [State.matchMark_none sender p slot, ← State.withoutMark_noRoom_still still]
  refine ⟨fun i => ?_, fun room => State.submitFrozen_new _ _ .noSlot ?_ room⟩
  · rw [State.recordAt_of_cc (State.submitFrozen_cc _ _ _ fun j => ?_), State.withoutMark_recordAt]
    rw [keyAt_eq (s.withoutMark_recordAt m j)]
    exact new j
  · rwa [State.isMember, (s.withoutMark_mu m).1]

/-- The record of a matched entry is FILLING, answered OK, its window closed if no other station is expected (R17, R27). -/
theorem State.matchMark_fills {i : Fin 4} (slot : m.slot = some i) {r : CapRecord} (hr : s.recordAt i = some r) {c : Capture}
    (hc : s.newCapture (claimKey sender p) .ok (offsetByte (pointDelta s.cfg.epochLen m.point p)) (s.expectedSet sender) = c) :
    (∀ j, j ≠ i → (s.matchMark m sender p).recordAt j = s.recordAt j) ∧
      (¬s.NoRoom (s.lc.queue.filter (fun q => decide (q.mark ≠ some m.id))) →
        ∃ q ∈ (s.matchMark m sender p).lc.queue, q.cond = .queued ∧
          q.payload = .frozen (claimKey sender p) (offsetByte (pointDelta s.cfg.epochLen m.point p)) 1 ∧ q.mark = none) ∧
      ((c.silent.isEmpty && r.framesDone) = true → (s.matchMark m sender p).hasCause .captureComplete = true) ∧
      ∃ lost : Bool, (lost = true ↔ s.NoRoom (s.lc.queue.filter (fun q => decide (q.mark ≠ some m.id)))) ∧
        (s.matchMark m sender p).recordAt i = some { r with
          phase := if c.silent.isEmpty && r.framesDone then .complete c.closedIfAlone else .filling c.closedIfAlone
          flags := { r.flags with announceLost := r.flags.announceLost || lost } } := by
  have vmember : (s.withoutMark m).isMember = true := by rwa [State.isMember, (s.withoutMark_mu m).1]
  have capture : (s.withoutMark m).newCapture (claimKey sender p) .ok
      (offsetByte (pointDelta s.cfg.epochLen m.point p)) (s.expectedSet sender) = c := by
    rw [← hc, State.newCapture, State.newCapture, (s.withoutMark_mu m).1]
  obtain ⟨others, told, record⟩ := State.fillAndAnswer_closes _ _ _ i _ capture vmember
    ((s.withoutMark_recordAt m i).trans hr) fun j _ => by rw [keyAt_eq (s.withoutMark_recordAt m j)]; exact new j
  rw [State.matchMark_some sender p slot, ← State.withoutMark_noRoom_still still]
  exact ⟨fun j hj => (others j hj).trans (s.withoutMark_recordAt m j),
    fun room => State.fillAndAnswer_new _ _ .ok _ _ vmember room, told, record⟩

end

/-- The station that answers its own CLAIM waits for nobody else when no other station is PRESENT (R17, R27). -/
theorem State.newCapture_alone {s : State} {key : Key} {outcome : OutcomeCode} {offset : Byte} :
    (s.newCapture key outcome offset (s.expectedSet s.mu.number)).silent.isEmpty = true ↔
      ∀ n, n < 24 → (s.peerAt n).state = .present → n = s.mu.number.toNat := by
  have entry : ∀ t, (s.newCapture key outcome offset (s.expectedSet s.mu.number)).hasEntry t = true ↔ s.mu.number = t := by
    simp [Capture.hasEntry, State.newCapture]
  rw [Capture.silent, List.isEmpty_iff, List.filter_eq_nil_iff]
  simp only [Bool.not_eq_true', Bool.not_eq_false, entry]
  refine ⟨fun all n hn present => ?_, fun all t ht => ?_⟩
  · have expected : BitVec.ofNat 5 n ∈ stationsOf (s.expectedSet s.mu.number) := by
      rw [State.mem_stationsOf, stationOfNat_toNat hn]
      exact ⟨hn, (s.expectedSet_getLsbD _ hn).2 (.inl present)⟩
    rw [all _ expected, stationOfNat_toNat hn]
  · obtain ⟨ht, expected⟩ := State.mem_stationsOf.1 ht
    refine (BitVec.eq_of_toNat_eq ?_).symm
    rcases (s.expectedSet_getLsbD _ ht).1 expected with present | same | same
    · exact all _ ht present
    · exact same
    · exact same

/-! ## The message in transmission accepted (R123) -/

section
variable {s t : State} {m : Msg}

theorem State.sentWell_queue (s : State) (m : Msg) : (s.sentWell m).lc.queue = s.othersQueued := s.othersQueued_eq.symm

theorem State.sentWell_still (s : State) (m : Msg) : ∀ q ∈ (s.sentWell m).lc.queue, q.cond ≠ .inTransmission := by
  rw [State.sentWell_queue]
  exact fun q hq => (State.mem_othersQueued.1 hq).2

/-- Beside the queue, LC and MU only take note of the success of any message but a BYE. -/
theorem State.completeOwn_noted (s : State) (other : m.payload ≠ .bye) :
    (s.sentWell m).QueueOnly (s.completeOwn m) ∧ (s.completeOwn m).mu = (s.sentWell m).mu := by
  cases payload : m.payload with
  | epoch n lag digest =>
    rw [State.completeOwn_epoch payload]
    exact ⟨.of_eq rfl, rfl⟩
  | claim p =>
    rw [State.completeOwn_claim payload]
    exact ⟨(State.HearsClaim.claimAccepted _ p _).lc.trans (.settleClaim _ _), by simp⟩
  | frozen key offset outcome =>
    rw [State.completeOwn_frozen payload]
    exact ⟨.of_eq (by simp), by simp⟩
  | bye => exact absurd payload other
  | _ =>
    rw [State.completeOwn_presence (by rw [payload]; rfl)]
    exact ⟨.of_eq rfl, rfl⟩

/-- The end of the BYE ends LEAVING (R153); otherwise the station stays what it is. -/
theorem State.completeOwn_course (s : State) (m : Msg) :
    (¬(m.payload = .bye ∧ s.mu.station = .leaving) ∧
        (s.sentWell m).QueueOnly (s.completeOwn m) ∧ (s.completeOwn m).mu = (s.sentWell m).mu) ∨
      ((m.payload = .bye ∧ s.mu.station = .leaving) ∧ s.completeOwn m = (s.sentWell m).toConfig) := by
  by_cases bye : m.payload = .bye
  · rw [State.completeOwn_bye bye]
    by_cases leaving : s.mu.station = .leaving
    · rw [if_pos (by simpa [State.isLeaving] using leaving)]
      exact .inr ⟨⟨bye, leaving⟩, rfl⟩
    · rw [if_neg (by simpa [State.isLeaving] using leaving)]
      exact .inl ⟨fun h => leaving h.2, .of_eq rfl, rfl⟩
  · exact .inl ⟨fun h => bye h.1, s.completeOwn_noted bye⟩

theorem State.sentWell_view (s : State) (m : Msg) : (s.sentWell m).lc.view = .ending 3 := by
  show (s.endFrame m.payload.encode.length).lc.view = _
  rw [State.endFrame_eq]
  rfl

/-- LC and MU after the success (R115, R116, R123, R130, R133, R148). -/
theorem State.completeOwn_link (s : State) (m : Msg) {t : State} (ht : s.completeOwn m = t) :
    t.lc.vetoCount = 0 ∧ t.lc.failCount = s.lc.failCount - 1 ∧ t.lc.mute = s.lc.mute ∧
      t.lc.view = (if m.payload = .bye ∧ s.mu.station = .leaving then .none else .ending 3) ∧ t.lc.idle = 0 ∧
      t.lc.obsCur = (if s.lc.obsCur = .empty then .accepted else s.lc.obsCur) ∧
      t.lc.obsPrev = s.lc.obsPrev ∧ t.mu.spoken = true ∧ t.mu.peers = s.mu.peers := by
  subst ht
  rcases s.completeOwn_course m with ⟨stays, lc, mu⟩ | ⟨leaves, gone⟩
  · rw [if_neg stays, lc, mu]
    exact ⟨rfl, rfl, rfl, s.sentWell_view m, rfl, rfl, rfl, rfl, rfl⟩
  · rw [if_pos leaves, gone]
    exact ⟨rfl, rfl, rfl, rfl, rfl, rfl, rfl, rfl, rfl⟩

theorem State.sentWell_claimAccepted {p : Point} {older newer : List Mark} {e : Mark} (member : s.mu.station = .member)
    (number : s.mu.number.toNat < 24) (tick : p.tick.toNat < s.cfg.epochLen)
    (new : ∀ i, s.keyAt i ≠ some (claimKey s.mu.number p)) (marks : s.cc.marks = older ++ e :: newer)
    (near : |pointDelta s.cfg.epochLen e.point p| ≤ 2)
    (before : ∀ x ∈ older, ¬|pointDelta s.cfg.epochLen x.point p| ≤ 2) :
    (s.sentWell m).claimAccepted s.mu.number p = (s.sentWell m).matchMark e s.mu.number p := by
  have takes : (s.sentWell m).TakesClaim s.mu.number p :=
    { member := isMember_iff.2 member
      number := number
      tick := tick
      digest := by simp [State.senderMismatch, State.sentWell]
      new := by
        rw [← Bool.not_eq_true, State.keyHeld_iff]
        exact fun ⟨i, held⟩ => new i held }
  rw [State.claimAccepted_taken takes, State.findMark_oldest (s := s.sentWell m) marks near before]

end

/-- Settles O45: the success at LC, then each message's delivery; a CLAIM at CC by R16's match and the settlement of its own
entry. -/
theorem ownFrameAccepted : Obligations.OwnFrameAccepted := by
  unfold Obligations.OwnFrameAccepted
  intro s m f muFirst order sends
  have run : s.frameAccepted f muFirst order = s.completeOwn m := by simp only [State.frameAccepted, sends.sending]
  refine ⟨_, congrArg Host.Outcome.next run, ?_⟩
  obtain ⟨hr, tm, _⟩ := State.completeOwn_frame m s
  obtain ⟨vetoCount, failCount, mute, view, idle, obsCur, obsPrev, spoken, peers⟩ := s.completeOwn_link m rfl
  refine ⟨vetoCount, failCount, mute, view, idle, obsCur, obsPrev, spoken, peers, hr, tm, fun n lag digest epoch => ?_,
    fun presence => ?_, fun bye => ?_, fun key off out frozen => ?_, fun p id claim mark distinct x hx own => ?_,
    fun p older e newer claim member number tick => ?_⟩
  · rw [State.completeOwn_epoch epoch]
    exact ⟨s.sentWell_queue m, rfl, rfl, rfl, rfl, rfl⟩
  · rw [State.completeOwn_presence presence]
    exact ⟨s.sentWell_queue m, rfl, rfl, rfl, rfl⟩
  · rw [State.completeOwn_bye bye]
    by_cases leaving : s.mu.station = .leaving
    · rw [if_pos (by simpa [State.isLeaving] using leaving), if_pos leaving]
      exact ⟨s.sentWell_queue m, rfl, rfl, rfl⟩
    · rw [if_neg (by simpa [State.isLeaving] using leaving), if_neg leaving]
      exact ⟨s.sentWell_queue m, rfl, rfl, rfl⟩
  · rw [State.completeOwn_frozen frozen]
    simp only [State.frozenAccepted_frame]
    exact ⟨s.sentWell_queue m, rfl⟩
  · rw [State.completeOwn_claim claim] at hx
    have kept : ((s.sentWell m).claimAccepted s.mu.number p).IdsDistinct :=
      List.Nodup.sublist ((State.HearsClaim.claimAccepted _ p _).marks.map _) distinct
    exact State.settleClaim_sent kept hx (by rw [mark, own])
  · intro key near new marks hnear before distinct apart offset noRoom own
    rw [State.completeOwn_claim claim, State.sentWell_claimAccepted member number tick new marks hnear before]
    have still := s.sentWell_still m
    have wmember : (s.sentWell m).isMember = true := isMember_iff.2 member
    have wmarks : ((s.sentWell m).matchMark e s.mu.number p).cc.marks = older ++ newer :=
      State.matchMark_marks s.mu.number p (s := s.sentWell m) marks distinct
    have kept : ((s.sentWell m).matchMark e s.mu.number p).IdsDistinct :=
      List.Nodup.sublist ((State.HearsClaim.matchMark e s.mu.number p _).marks.map _) distinct
    have room : (s.sentWell m).NoRoom ((s.sentWell m).lc.queue.filter (fun q => decide (q.mark ≠ some e.id))) ↔ noRoom := by
      rw [s.sentWell_queue m]
      exact .rfl
    have settles : ∀ j, (∀ x ∈ older ++ newer, x.slot ≠ some j) →
        (((s.sentWell m).matchMark e s.mu.number p).settleClaim m.mark).recordAt j =
          ((s.sentWell m).matchMark e s.mu.number p).recordAt j := fun j others =>
      State.settleClaim_recordAt (by rwa [wmarks])
    refine ⟨?_, fun line => ?_, fun q hq => ?_, fun slot => ?_, fun i r slot hr => ?_⟩
    · rw [State.settleClaim_marks kept, wmarks]
      rfl
    · exact State.settleClaim_claimed (State.matchMark_lineEntry s.mu.number p (s := s.sentWell m) line)
    · exact State.matchMark_withdraws s.mu.number p still (State.mem_of_settleClaim hq)
    · obtain ⟨records, submitted⟩ := State.matchMark_noSlot s.mu.number p still wmember new slot
      refine ⟨fun j others => (settles j others).trans (records j), fun space => ?_⟩
      obtain ⟨q, hq, cond, payload, unmarked⟩ := submitted (mt room.1 space)
      exact ⟨q, State.mem_settleClaim hq unmarked, cond, payload⟩
    · obtain ⟨records, submitted, told, lost, full, filled⟩ :=
        State.matchMark_fills s.mu.number p still wmember new slot (r := r) hr rfl
      refine ⟨fun j hj others => (settles j others).trans (records j hj), fun space => ?_,
        _, lost, _, full.trans room, State.newCapture_alone (s := s), (settles i fun x hx => apart i x slot hx).trans filled,
        rfl, rfl, rfl, rfl, rfl, fun n hn => ?_, fun complete => (State.Aside.settleClaim _ _).causes _ (told complete)⟩
      · obtain ⟨q, hq, cond, payload, unmarked⟩ := submitted (mt room.1 space)
        exact ⟨q, State.mem_settleClaim hq unmarked, cond, payload⟩
      · exact (State.expectedSet_getLsbD (s.sentWell m) s.mu.number hn).trans
          (or_congr_right or_self_iff)

end Sys2Proof.Machine
end

