-- ==== Sys2Proof/Proofs/OwnEntry.lean ====
section
/-! This station's own entry of the peer table stays cleared: O59. Few operations touch the table; each of them clears it
whole, or maps every entry by a function that keeps a cleared one, or writes the entry of another station (R144). -/

namespace Sys2Proof.Machine

/-- What is said of every operation: where this station's own entry was cleared before it, it is cleared after it. -/
def State.KeepsOwn (s t : State) : Prop := OwnEntryCleared s → OwnEntryCleared t

theorem State.ownEntryCleared_iff (s : State) :
    OwnEntryCleared s ↔ s.mu.peers[s.mu.number.toNat]?.getD Peer.cleared = Peer.cleared := Iff.rfl

/-- The cleared entry is ABSENT: becoming MEMBER leaves it alone (R143). -/
theorem Peer.restamp_cleared (e : Word32) : Peer.cleared.restamp e = Peer.cleared := rfl

/-- The cleared entry is not PRESENT: it does not expire (R149). -/
theorem Peer.expire_cleared (e : Word32) : Peer.cleared.expire e = Peer.cleared := rfl

namespace State.KeepsOwn

theorem refl (s : State) : s.KeepsOwn s := id

theorem trans {s t u : State} (h : s.KeepsOwn t) (k : t.KeepsOwn u) : s.KeepsOwn u := k ∘ h

theorem foldl {β : Type} {f : State → β → State} (h : ∀ (s : State) b, s.KeepsOwn (f s b)) (l : List β) (s : State) :
    s.KeepsOwn (l.foldl f s) :=
  foldl_keeps (fun t => s.KeepsOwn t) f l (fun t b ht => ht.trans (h t b)) (refl s)

/-! ## What an operation may do to the table -/

/-- The operation leaves the table and the own number alone. -/
theorem of_table {s t : State} (number : t.mu.number = s.mu.number) (peers : t.mu.peers = s.mu.peers) :
    s.KeepsOwn t := by
  intro h
  rw [State.ownEntryCleared_iff] at h ⊢
  rwa [number, peers]

/-- The operation leaves MU alone. -/
theorem of_mu {s t : State} (mu : t.mu = s.mu := by simp) : s.KeepsOwn t :=
  of_table (by rw [mu]) (by rw [mu])

/-- The operation maps every entry, by a function that keeps a cleared one. -/
theorem of_map {s t : State} {f : Peer → Peer} (number : t.mu.number = s.mu.number)
    (peers : t.mu.peers = s.mu.peers.map f) (cleared : f Peer.cleared = Peer.cleared) : s.KeepsOwn t := by
  intro h
  rw [State.ownEntryCleared_iff] at h ⊢
  rw [number, peers, Vector.getElem?_map]
  cases entry : s.mu.peers[s.mu.number.toNat]? with
  | none => rfl
  | some p =>
    have own : p = Peer.cleared := by simpa [entry] using h
    simp [own, cleared]

/-- The operation clears the table. -/
theorem of_cleared {s t : State} (peers : t.mu.peers = Vector.replicate 24 Peer.cleared) : s.KeepsOwn t := by
  intro _
  rw [State.ownEntryCleared_iff, peers, Vector.getElem?_replicate]
  split
  · rfl
  · rfl

/-- The entry of another station is written. -/
theorem setPeer {k : Nat} {s : State} (other : k ≠ s.mu.number.toNat) (p : Peer) : s.KeepsOwn (s.setPeer k p) := by
  have put : s.KeepsOwn { s with mu := { s.mu with peers := s.mu.peers.setIfInBounds k p } } := by
    intro h
    have entry := s.peerAt_setIfInBounds k s.mu.number.toNat p
    rw [if_neg fun e => other e.1] at entry
    exact entry.trans h
  unfold State.setPeer
  dsimp only
  split
  · exact put
  · exact put.trans of_mu

/-! ## Leaving and faulting -/

theorem toConfig (s : State) : s.KeepsOwn s.toConfig := of_table rfl rfl

theorem departMember (s : State) : s.KeepsOwn s.departMember :=
  of_table (by rw [State.KeepsRange.departMember_mu]) (by rw [State.KeepsRange.departMember_mu])

theorem enterFault (reason : FaultReason) (s : State) : s.KeepsOwn (s.enterFault reason) := by
  have told : ∀ u : State, u.KeepsOwn (State.raise .fault { u.acqFault.flushQueue.lineQuiet with
      et := { u.acqFault.flushQueue.lineQuiet.et with running := false }
      mu := { u.acqFault.flushQueue.lineQuiet.mu with station := .fault reason, spoken := false } }) :=
    fun _ => of_table rfl rfl
  unfold State.enterFault
  dsimp only
  split
  · exact (departMember s).trans (told _)
  · exact told s

theorem leaveStation (s : State) : s.KeepsOwn s.leaveStation := by
  unfold State.leaveStation
  dsimp only
  split
  · exact (departMember s).trans (toConfig _)
  · have leaves : s.departMember.KeepsOwn { s.departMember with mu := { s.departMember.mu with station := .leaving } } :=
      of_table rfl rfl
    exact ((departMember s).trans leaves).trans of_mu

theorem enterMute (s : State) : s.KeepsOwn s.enterMute := by
  have flushed : s.KeepsOwn s.flushed := of_mu s.flushed_frame.1
  rw [State.enterMute_eq]
  split
  · exact flushed.trans (toConfig _)
  · exact flushed

/-- The end of the BYE ends LEAVING (R153). -/
theorem ifLeaving (s : State) : s.KeepsOwn (if s.isLeaving then s.toConfig else s) := by
  split
  · exact toConfig s
  · exact refl s

/-! ## MU -/

/-- MU takes no message of its own number into the table: it is a duplicate (R144, R150). -/
theorem muTake (sender : Station) (m : Payload) (s : State) : s.KeepsOwn (s.muTake sender m) := by
  unfold State.muTake
  split
  · exact refl s
  split
  · split
    · exact refl s
    · exact enterFault _ s
  split
  · exact refl s
  rename_i other _
  have written := setPeer (fun e => other (BitVec.eq_of_toNat_eq e))
    ((s.peerAt sender.toNat).update s.mu.digest s.et.epoch m)
  dsimp only
  split
  · exact written.trans (enterFault _ _)
  split
  · exact written.trans of_mu
  · exact written

theorem expirePeers (s : State) : s.KeepsOwn s.expirePeers := by
  refine of_map (f := Peer.expire s.et.epoch) ?_ ?_ (Peer.expire_cleared _)
  · rw [State.expirePeers_mu]
  · rw [State.expirePeers_mu]

theorem muEpochStart (s : State) : s.KeepsOwn s.muEpochStart := by
  have spoken : ∀ u : State, u.KeepsOwn { u with mu := { u.mu with spoken := false } } := fun _ => of_table rfl rfl
  have present : s.KeepsOwn (if s.mu.spoken then s else s.submitPresent) := by
    split
    · exact refl s
    · exact of_mu
  unfold State.muEpochStart
  split
  · exact refl s
  · exact (present.trans (spoken _)).trans (expirePeers _)

theorem becomeMember (s : State) : s.KeepsOwn s.becomeMember := by
  refine of_map (f := Peer.restamp s.et.epoch) ?_ ?_ (Peer.restamp_cleared _)
  · simp [State.becomeMember]
  · simp [State.becomeMember]

/-! ## ET -/

theorem tickPart (wrapped : Bool) (before s : State) (p : Part) : s.KeepsOwn (State.tickPart wrapped before s p) := by
  by_cases hp : p = .muEpoch
  · subst hp
    unfold State.tickPart
    dsimp only
    split
    · exact muEpochStart s
    · exact refl s
  · exact of_mu (State.tickPart_mu hp wrapped before s)

theorem listenTick (s : State) : s.KeepsOwn s.listenTick := by
  have counted : s.KeepsOwn { s with mu := { s.mu with listenCount := s.mu.listenCount + 1 } } := of_table rfl rfl
  unfold State.listenTick
  dsimp only
  split
  · have timed : ∀ u : State, u.KeepsOwn { u with et := { u.et with epoch := 1, counter := 0 } } :=
      fun _ => of_mu rfl
    have founded := (counted.trans (timed _)).trans (becomeMember _)
    exact founded.trans (of_mu (State.submitEpoch_frame 1 _).1)
  · exact counted

theorem takeTick (order : List Part) (s : State) : s.KeepsOwn (s.takeTick order) := by
  unfold State.takeTick
  split
  · exact refl s
  split
  · exact listenTick s
  split
  · have begun : s.KeepsOwn (s.advanceCounter.winWith order) := of_mu
    exact begun.trans (foldl (tickPart _ s) _ _)
  · exact refl s

theorem tickWhen (due : Bool) (order : List Part) (s : State) : s.KeepsOwn (s.tickWhen due order) := by
  unfold State.tickWhen
  split
  · exact takeTick order s
  · exact refl s

theorem epochAccepted (sender : Station) (n : Word32) (lag digest : Word) (s : State) :
    s.KeepsOwn (s.epochAccepted sender n lag digest).1 := by
  unfold State.epochAccepted
  split
  · exact refl s
  split
  · have timed : s.KeepsOwn { s with et := { s.et with epoch := n, counter := s.adoptedCounter lag } } := of_mu rfl
    exact timed.trans (becomeMember _)
  split
  · unfold State.adopt
    dsimp only
    (repeat' split) <;> exact of_mu
  · exact refl s

/-! ## AS -/

theorem endSelfCheckConversion (code : Code) (s : State) : s.KeepsOwn (s.endSelfCheckConversion code) := by
  have idle : ∀ acq : Acq, s.KeepsOwn { s with acq := acq } := fun _ => of_mu rfl
  unfold State.endSelfCheckConversion
  split
  · dsimp only
    split
    · unfold State.endSelfCheck
      dsimp only
      split
      · exact of_table rfl rfl
      · exact (idle _).trans (enterFault _ _)
    · exact idle _
  · exact refl s

/-! ## LC -/

theorem noticeDrop (s : State) (m : Msg) : s.KeepsOwn (s.noticeDrop m) := by
  by_cases bye : m.payload = .bye
  · unfold State.noticeDrop
    rw [bye]
    exact ifLeaving s
  · refine of_mu ?_
    unfold State.noticeDrop
    dsimp only
    split
    · split <;> simp
    · split
      · rfl
      · (repeat' split) <;> simp
    · simp
    · rfl
    · rfl
    · contradiction

/-- LC alone changes. -/
theorem setLc (s : State) (lc : Lc) : s.KeepsOwn { s with lc := lc } := of_mu rfl

theorem countFailure (s : State) : s.KeepsOwn s.countFailure := by
  unfold State.countFailure
  dsimp only
  split
  · exact (setLc s _).trans (enterMute _)
  · exact setLc s _

theorem countVeto (s : State) : s.KeepsOwn s.countVeto := by
  unfold State.countVeto
  dsimp only
  split
  · exact (setLc s _).trans (enterMute _)
  · exact setLc s _

theorem failAttempt (m : Msg) (s : State) : s.KeepsOwn (s.failAttempt m) := by
  unfold State.failAttempt
  refine trans ?_ (countFailure _)
  split
  · exact of_mu
  · exact (setLc s _).trans (noticeDrop _ _)

theorem attemptFails (reason : FailReason) (s : State) : s.KeepsOwn (s.attemptFails reason) := by
  unfold State.attemptFails
  split
  · exact refl s
  split
  · exact (setLc s _).trans (failAttempt _ _)
  · exact (setLc s _).trans (failAttempt _ _)

theorem frameVetoed (f : WireFrame) (s : State) : s.KeepsOwn (s.frameVetoed f) := by
  unfold State.frameVetoed
  split
  · exact attemptFails .veto s
  split
  · dsimp only
    split
    · exact (setLc s _).trans (countVeto _)
    · exact setLc s _
  · exact refl s

theorem ownerTake (sender : Station) (m : Payload) (s : State) : s.KeepsOwn (s.ownerTake sender m).1 := by
  cases m with
  | epoch n lag digest => exact epochAccepted _ _ _ _ s
  | claim p => exact of_mu (State.claimAccepted_frame _ _ s).1
  | frozen key offset outcome => exact of_mu (State.frozenAccepted_frame _ _ _ _ s).1
  | hello _ _ _ => exact refl s
  | present _ _ _ => exact refl s
  | bye => exact refl s

theorem deliveryPart (sender : Station) (m : Payload) (muDone started : Bool) (s : State) (p : Part) :
    s.KeepsOwn (s.deliveryPart sender m muDone started p) := by
  have whenStarted : ∀ t : State, s.KeepsOwn t → s.KeepsOwn (if started then t else s) := by
    intro t h
    split
    · exact h
    · exact refl s
  cases p with
  | muTake =>
    unfold State.deliveryPart
    dsimp only
    split
    · exact refl s
    · exact muTake sender m s
  | lcEpoch => exact whenStarted _ of_mu
  | ccEpoch => exact whenStarted _ of_mu
  | muEpoch => exact whenStarted _ (muEpochStart s)
  | ccTick => exact refl s
  | acquisition => exact refl s
  | epochSubmit => exact refl s
  | win => exact refl s

theorem deliverOther (sender : Station) (m : Payload) (muFirst : Bool) (order : List Part) (s : State) :
    s.KeepsOwn (s.deliverOther sender m muFirst order) := by
  have first : s.KeepsOwn (if muFirst then s.muTake sender m else s) := by
    split
    · exact muTake sender m s
    · exact refl s
  unfold State.deliverOther
  exact (first.trans (ownerTake sender m _)).trans (foldl (deliveryPart sender m _ _) _ _)

theorem deliverOwn (m : Msg) (s : State) : s.KeepsOwn (s.deliverOwn m) := by
  have spoke : s.KeepsOwn { s with mu := { s.mu with spoken := true } } := of_table rfl rfl
  refine spoke.trans ?_
  unfold State.deliverOwn
  dsimp only
  split
  · exact of_mu
  · exact of_mu
  · exact of_mu
  · exact refl _
  · exact refl _
  · exact ifLeaving _

theorem frameAccepted (f : WireFrame) (muFirst : Bool) (order : List Part) (s : State) :
    s.KeepsOwn (s.frameAccepted f muFirst order) := by
  unfold State.frameAccepted
  split
  · exact (setLc s _).trans (deliverOwn _ _)
  split
  · split
    · exact (setLc s _).trans (deliverOther _ _ _ _ _)
    · exact refl s
    · exact refl s
  · exact refl s

/-! ## LP -/

/-- An answer without arguments. -/
theorem withoutArgs {args : List Byte} {s : State} {r : State × Answer} (h : s.KeepsOwn r.1) :
    s.KeepsOwn (withoutArgs args s r).1 := by
  cases args with
  | nil => exact h
  | cons _ _ => exact refl s

/-- A command that LP takes leaves MU alone, or configures, joins or leaves, or resets the station. -/
theorem takeCommand (code : Byte) (args : List Byte) (s : State) : s.KeepsOwn (takeCommand code args s).1 := by
  unfold Machine.takeCommand
  split
  · exact withoutArgs (refl s)
  · unfold takeConfigure
    (repeat' split)
    · exact refl s
    · exact refl s
    · exact refl s
    · exact of_table (by simp [State.configured]) (by simp [State.configured])
  · refine withoutArgs ?_
    split
    · exact of_cleared rfl
    · exact refl s
  · refine withoutArgs ?_
    split
    · exact leaveStation s
    · exact refl s
  · refine withoutArgs ?_
    split <;> exact of_mu
  · refine withoutArgs ?_
    (repeat' split) <;> exact of_mu
  · exact withoutArgs (refl s)
  · exact withoutArgs (refl s)
  · unfold takeOpenRead State.openSession
    (repeat' split) <;> exact of_mu
  · exact withoutArgs (refl s)
  · refine withoutArgs ?_
    split <;> exact of_mu
  · unfold takeRelease State.releaseRecord
    (repeat' split) <;> exact of_mu
  · exact withoutArgs (refl s)
  · unfold takeAckAttn
    (repeat' split) <;> exact of_mu
  · refine withoutArgs (of_cleared ?_)
    simp [State.softReset, Mu.softReset]
  · exact refl s

theorem answerFrame {answer : State → State × Answer} (h : ∀ u : State, u.KeepsOwn (answer u).1) (t : Transaction)
    (frame : List Byte) (s : State) : s.KeepsOwn (s.answerFrame t frame answer) := by
  have heard : s.KeepsOwn (s.setTransaction { t with decoder := frame } 0) := of_mu
  have responds : ∀ r : State × Answer, r.1.KeepsOwn (State.respond r) := by
    intro r
    unfold State.respond
    split
    · exact refl _
    · exact of_mu rfl
  exact (heard.trans (h _)).trans (responds _)

theorem clockFrame {answer : State → State × Answer} (h : ∀ u : State, u.KeepsOwn (answer u).1) (frame : List Byte)
    (s : State) : s.KeepsOwn (s.clockFrame frame answer) := by
  unfold State.clockFrame
  (repeat' split)
  · exact refl s
  · exact answerFrame h _ _ s
  · exact refl s

theorem clockCommand (code : Byte) (args : List Byte) (s : State) :
    s.KeepsOwn (s.clockCommand code args (Machine.takeCommand code args)) := by
  unfold State.clockCommand
  split
  · exact clockFrame (takeCommand code args) _ s
  · exact refl s

/-- A frame is taken as a command, or its check fails (R159). -/
theorem takeFrame (frame : List Byte) (s : State) : s.KeepsOwn (takeFrame frame s).1 := by
  unfold Machine.takeFrame
  split
  · exact refl s
  · exact takeCommand _ _ s

theorem clockByte (sdi : Byte) (wait : Bool) (s : State) : s.KeepsOwn (s.clockByte sdi wait) := by
  unfold State.clockByte
  split
  · exact refl s
  split
  · exact of_mu
  split
  · unfold State.takeByte
    dsimp only
    (repeat' split)
    · exact of_mu
    · exact answerFrame (takeFrame _) _ _ s
    · exact of_mu
  · split <;> exact of_mu

end State.KeepsOwn

/-- Every command keeps this station's own entry cleared. -/
theorem exec_keepsOwn (c : Instr) (s : State) : ∃ t, exec c s = .next t ∧ s.KeepsOwn t := by
  cases c with
  | pinReset addr rate => exact ⟨_, rfl, .of_cleared rfl⟩
  | initialisationComplete => exact ⟨_, rfl, .of_mu⟩
  | selNRelease => exact ⟨_, rfl, .of_mu⟩
  | readResponseShiftedOut => exact ⟨_, rfl, .of_mu⟩
  | unknownCommand frame =>
    refine ⟨_, rfl, ?_⟩
    split
    · exact .clockFrame (.takeFrame frame) frame s
    · exact .refl s
  | status args => exact ⟨_, rfl, .clockCommand 0x01 args s⟩
  | configure args => exact ⟨_, rfl, .clockCommand 0x02 args s⟩
  | join args => exact ⟨_, rfl, .clockCommand 0x03 args s⟩
  | leave args => exact ⟨_, rfl, .clockCommand 0x04 args s⟩
  | trigger args => exact ⟨_, rfl, .clockCommand 0x05 args s⟩
  | spot args => exact ⟨_, rfl, .clockCommand 0x06 args s⟩
  | spotRead args => exact ⟨_, rfl, .clockCommand 0x07 args s⟩
  | records args => exact ⟨_, rfl, .clockCommand 0x08 args s⟩
  | openRead args => exact ⟨_, rfl, .clockCommand 0x09 args s⟩
  | read args => exact ⟨_, rfl, .clockCommand 0x0A args s⟩
  | closeRead args => exact ⟨_, rfl, .clockCommand 0x0B args s⟩
  | release args => exact ⟨_, rfl, .clockCommand 0x0C args s⟩
  | peers args => exact ⟨_, rfl, .clockCommand 0x0D args s⟩
  | ackAttn args => exact ⟨_, rfl, .clockCommand 0x0E args s⟩
  | softReset args => exact ⟨_, rfl, .clockCommand 0x0F args s⟩
  | tick order => exact ⟨_, rfl, .takeTick order s⟩
  | markPulseEnd order => exact ⟨_, rfl, .tickWhen _ order s⟩
  | markStuck order => exact ⟨_, rfl, .tickWhen _ order s⟩
  | tickWrap order => exact ⟨_, rfl, .tickWhen _ order s⟩
  | peerExpiry order => exact ⟨_, rfl, .tickWhen _ order s⟩
  | claimTimeout order => exact ⟨_, rfl, .tickWhen _ order s⟩
  | answerWindowExpiry order => exact ⟨_, rfl, .tickWhen _ order s⟩
  | listenWindowExpiry order => exact ⟨_, rfl, .tickWhen _ order s⟩
  | markEvent => exact ⟨_, rfl, .of_mu⟩
  | markRelease => exact ⟨_, rfl, .of_mu⟩
  | copyStep slot => exact ⟨_, rfl, .of_mu⟩
  | sweepConversionEnd code => exact ⟨_, rfl, .of_mu⟩
  | sweepResume => exact ⟨_, rfl, .of_mu⟩
  | spotRunBegin => exact ⟨_, rfl, .of_mu⟩
  | spotConversionEnd code => exact ⟨_, rfl, .of_mu⟩
  | selfCheckBegin => exact ⟨_, rfl, .of_mu⟩
  | selfCheckConversionEnd code => exact ⟨_, rfl, .endSelfCheckConversion code s⟩
  | frameStart bits => exact ⟨_, rfl, .of_mu⟩
  | arbitrationWin => exact ⟨_, rfl, .of_mu⟩
  | arbitrationLoss => exact ⟨_, rfl, .of_mu⟩
  | txAttemptFail reason => exact ⟨_, rfl, .attemptFails reason s⟩
  | frameVetoed frame => exact ⟨_, rfl, .frameVetoed frame s⟩
  | frameDiscarded frame =>
    refine ⟨_, rfl, .of_mu ?_⟩
    unfold State.frameDiscarded
    split
    · simp
    · rfl
  | frameAccepted frame muFirst order => exact ⟨_, rfl, .frameAccepted frame muFirst order s⟩
  | transactionBegin => exact ⟨_, rfl, .of_mu⟩
  | wholeByteClocked sdi wait => exact ⟨_, rfl, .clockByte sdi wait s⟩
  | startBitRead bits => exact ⟨_, rfl, .of_mu⟩

/-- Settles O59: no operation that a command is made of writes the entry of this station's own number, and those that write
the whole table leave a cleared entry cleared. -/
theorem ownEntryStaysCleared : Obligations.OwnEntryStaysCleared := by
  intro s t cleared stepped
  unfold step at stepped
  split at stepped
  · cases stepped
    exact cleared
  · rename_i c rest _
    obtain ⟨u, executed, kept⟩ := exec_keepsOwn c { s with pending := rest }
    rw [executed] at stepped
    cases stepped
    exact kept cleared

end Sys2Proof.Machine
end

