-- ==== Sys2Proof/Proofs/Departure.lean ====
section
/-! The join and the departure: O14, O15. What leaving MEMBER does at every block (R30, R51, R64, R83, R98, R129), said
once for LEAVE and for a fault. -/

namespace Sys2Proof.Machine

/-! ## Leaving at the records (R51) -/

theorem CapRecord.cut_eq (r : CapRecord) : r.cut =
    { r with
      cursor := none, framesDone := true, flags := { r.flags with cutShort := true }
      spotRequest := if r.spotRequest = .placed then .withdrawn else r.spotRequest } := by
  unfold CapRecord.cut CapRecord.withdrawSpot
  dsimp only
  split
  · rfl
  · rfl

/-- A FILLING record that is left: it is COMPLETE, cut short, with its window closed if it was open. -/
theorem CapRecord.left_filling {r : CapRecord} {c : Capture} (phase : r.phase = .filling c) :
    r.left = some { r.cut with phase := .complete (if c.answersClosed then c else c.close) } := by
  have filling : r.cut.phase = .filling c := r.cut_phase.trans phase
  have done : r.cut.framesDone = true := by rw [CapRecord.cut_eq]
  have left : r.left = some r.cut.windowClosed.completed := by simp only [CapRecord.left, phase]
  rw [left]
  cases closed : c.answersClosed with
  | true =>
    have windowClosed : r.cut.windowClosed = r.cut := by simp [CapRecord.windowClosed, filling, closed]
    rw [windowClosed, CapRecord.completed_of_filling filling, if_pos (by rw [done, closed]; rfl)]
    rfl
  | false =>
    have closes : c.close.answersClosed = true := rfl
    have windowClosed : r.cut.windowClosed = { r.cut with phase := .complete c.close } := by
      simp [CapRecord.windowClosed, filling, closed, CapRecord.completed, done, closes]
    rw [windowClosed]
    rfl

/-- Whatever is left of a record is COMPLETE. -/
theorem CapRecord.left_complete {r r' : CapRecord} (left : r.left = some r') : r'.isComplete = true := by
  cases phase : r.phase with
  | opened => simp [CapRecord.left, phase] at left
  | filling c =>
    rw [CapRecord.left_filling phase, Option.some_inj] at left
    rw [← left]
    rfl
  | complete c =>
    have same : r = r' := by simpa [CapRecord.left, phase] using left
    simp [← same, CapRecord.isComplete, phase]

/-- The window of a FILLING record as leaving closes it, the silent stations by their numbers (R25). -/
theorem Capture.left_eq (c : Capture) : (if c.answersClosed then c else c.close) =
    { c with
      answersClosed := true
      participants := c.participants ++
        (if c.answersClosed then []
         else ((List.range 24).filter (fun n =>
            c.expected.getLsbD n && !c.participants.any (fun p => p.station.toNat == n))).map
          (fun n => ⟨BitVec.ofNat 5 n, .noAnswer, 0⟩)) } := by
  cases closed : c.answersClosed with
  | true => simp [← closed]
  | false =>
    rw [Capture.close, Capture.silent_eq, List.map_map]
    rfl

/-- What leaving at a slot keeps: all of CC but the records and their order, all of AS but the records' places, and LP but
for the causes raised. -/
structure State.LeavesSlots (s t : State) : Prop where
  cc     : t.cc = { s.cc with records := t.cc.records, opening := t.cc.opening }
  acq    : t.acq = { s.acq with spotList := t.acq.spotList }
  locals : t.acq.spotList.filter SpotPlace.isLocal = s.acq.spotList.filter SpotPlace.isLocal
  lp     : t.lp = { s.lp with causes := t.lp.causes }
  causes : ∀ c, s.hasCause c = true → t.hasCause c = true

namespace State.LeavesSlots

theorem refl (s : State) : s.LeavesSlots s := ⟨rfl, rfl, rfl, rfl, fun _ => id⟩

theorem trans {s t u : State} (h : s.LeavesSlots t) (k : t.LeavesSlots u) : s.LeavesSlots u where
  cc := by rw [k.cc, h.cc]
  acq := by rw [k.acq, h.acq]
  locals := k.locals.trans h.locals
  lp := by rw [k.lp, h.lp]
  causes c := k.causes c ∘ h.causes c

/-- A place of the local requester is of no slot. -/
theorem withdrawPlace (i : Fin 4) (s : State) : s.LeavesSlots (s.withdrawPlace i) := by
  refine ⟨rfl, rfl, ?_, rfl, fun _ => id⟩
  rw [State.withdrawPlace, List.filter_filter]
  refine List.filter_congr fun p _ => ?_
  cases requester : p.requester with
  | capture j seq => simp [SpotPlace.isLocal, requester]
  | localPort => simp [SpotPlace.isLocal, SpotPlace.ofSlot, requester]

theorem freeRecord (i : Fin 4) (s : State) : s.LeavesSlots (s.freeRecord i) := by
  obtain ⟨_, acq, locals, _, _⟩ := withdrawPlace i s
  exact ⟨rfl, acq, locals, rfl, fun _ => id⟩

theorem setRecord (i : Fin 4) (r : Option CapRecord) (s : State) : s.LeavesSlots (s.setRecord i r) :=
  ⟨rfl, rfl, rfl, rfl, fun _ => id⟩

theorem raise (c : Cause) (s : State) : s.LeavesSlots (s.raise c) :=
  ⟨rfl, rfl, rfl, rfl, (Calm.raise c s).causes⟩

theorem completeIfReady (i : Fin 4) (s : State) : s.LeavesSlots (s.completeIfReady i) := by
  unfold State.completeIfReady
  (repeat' split)
  · exact refl s
  · exact (setRecord _ _ _).trans (raise _ _)
  · exact refl s
  · exact refl s
  · exact refl s

theorem closeWindow (i : Fin 4) (s : State) : s.LeavesSlots (s.closeWindow i) := by
  unfold State.closeWindow
  (repeat' split)
  · exact refl s
  · exact refl s
  · exact (setRecord _ _ _).trans (completeIfReady _ _)
  · exact refl s
  · exact refl s

theorem leaveRecord (i : Fin 4) (s : State) : s.LeavesSlots (s.leaveRecord i) := by
  unfold State.leaveRecord
  (repeat' split)
  · exact refl s
  · exact freeRecord i s
  · exact (((withdrawPlace i s).trans (setRecord _ _ _)).trans (closeWindow _ _)).trans (completeIfReady _ _)
  · exact withdrawPlace i s

theorem foldl (l : List (Fin 4)) (s : State) : s.LeavesSlots (l.foldl (fun t i => t.leaveRecord i) s) :=
  foldl_keeps (fun t => s.LeavesSlots t) _ l (fun t i h => h.trans (leaveRecord i t)) (refl s)

theorem ccLeave (s : State) : (Tables.cleared s).LeavesSlots s.ccLeave := foldl slots _

end State.LeavesSlots

/-- The end of a FILLING record at its slot is told (R37). -/
theorem State.leaveRecord_told {s : State} {i : Fin 4} {r : CapRecord} {c : Capture} (record : s.recordAt i = some r)
    (phase : r.phase = .filling c) : (s.leaveRecord i).hasCause .captureComplete = true := by
  have left : s.leaveRecord i = (((s.withdrawPlace i).setRecord i (some r.cut)).closeWindow i).completeIfReady i := by
    simp only [State.leaveRecord, record, phase]
  rw [left]
  generalize hu : (s.withdrawPlace i).setRecord i (some r.cut) = u
  have filling : r.cut.phase = .filling c := r.cut_phase.trans phase
  have cut : u.recordAt i = some r.cut := by rw [← hu, State.recordAt_setRecord, if_pos rfl]
  have done : r.cut.framesDone = true := by rw [CapRecord.cut_eq]
  cases closed : c.answersClosed with
  | true =>
    have stays : u.closeWindow i = u := by simp [State.closeWindow, cut, filling, closed]
    rw [stays]
    refine State.completeIfReady_told cut (fun complete => ?_) ?_
    · simp [CapRecord.isComplete, filling] at complete
    · simp [CapRecord.completed, filling, done, closed, CapRecord.isComplete]
  | false =>
    have closes : u.closeWindow i =
        (u.setRecord i (some { r.cut with phase := .filling c.close })).completeIfReady i := by
      simp [State.closeWindow, cut, filling, closed]
    rw [closes]
    refine (State.LeavesSlots.completeIfReady i _).causes _ (State.completeIfReady_told
      (q := { r.cut with phase := .filling c.close }) (by rw [State.recordAt_setRecord, if_pos rfl]) (fun complete => ?_) ?_)
    · cases complete
    · have all : c.close.answersClosed = true := rfl
      simp [CapRecord.completed, done, all, CapRecord.isComplete]

/-- Leaving tells of every FILLING record among the slots that it walks through. -/
theorem State.foldl_leaveRecord_told {l : List (Fin 4)} {s : State} {i : Fin 4} {r : CapRecord} {c : Capture}
    (mem : i ∈ l) (record : s.recordAt i = some r) (phase : r.phase = .filling c) :
    (l.foldl (fun t i => t.leaveRecord i) s).hasCause .captureComplete = true := by
  induction l generalizing s with
  | nil => cases mem
  | cons j l ih =>
    rw [List.foldl_cons]
    by_cases here : j = i
    · subst here
      exact (State.LeavesSlots.foldl l _).causes _ (State.leaveRecord_told record phase)
    · refine ih (List.mem_of_ne_of_mem (fun e => here e.symm) mem) ?_
      rw [State.recordAt_leaveRecord, if_neg here, record]

theorem State.ccLeave_told {s : State} {i : Fin 4} {r : CapRecord} {c : Capture} (record : s.recordAt i = some r)
    (phase : r.phase = .filling c) : s.ccLeave.hasCause .captureComplete = true :=
  State.foldl_leaveRecord_told (s := Tables.cleared s) (Tables.mem_slots i) record phase

/-! ## Leaving at every block (Table 8-4) -/

/-- What the departure from MEMBER does, block by block. -/
structure State.Departs (s t : State) : Prop where
  mu      : t.mu = { s.mu with spoken := false }
  et      : t.et = { s.et with running := false, own := .none }
  lc      : t.lc = { s.lc with queue := [] }
  cc      : t.cc = { s.cc with
    driver := .idle, edgePending := false, lineEntry := .empty, stuck := 0, marks := []
    records := t.cc.records, opening := t.cc.opening }
  records : ∀ i, t.recordAt i = (s.recordAt i).bind CapRecord.left
  told    : ∀ i r c, s.recordAt i = some r → r.phase = .filling c → t.hasCause .captureComplete = true
  hr      : t.hr = s.hr.softReset
  acq     : t.acq = { s.acq with
    converter := t.acq.converter, assembly := none, slipPending := false
    spotList := s.acq.spotList.filter SpotPlace.isLocal }
  lp      : t.lp = { s.lp with causes := t.lp.causes }

theorem State.departMember_departs (s : State) : s.Departs s.departMember := by
  have left := State.LeavesSlots.ccLeave s
  have frame := s.ccLeave_frame
  have lp : s.departMember.lp = s.ccLeave.lp := by simp [State.departMember]
  have cc : s.departMember.cc = s.ccLeave.cc := by simp [State.departMember]
  exact
    { mu := State.KeepsRange.departMember_mu s
      et := by simp [State.departMember, State.flushQueue]
      lc := by simp [State.departMember, State.flushQueue]
      cc := by rw [cc]; exact left.cc
      records := fun i => (State.recordAt_of_cc cc i).trans (Tables.recordAt_ccLeave s i)
      told := fun i r c record phase => by
        have told := State.ccLeave_told record phase
        rwa [State.hasCause, ← lp] at told
      hr := State.KeepsRange.departMember_hr s
      acq := by
        have acq : s.departMember.acq = s.ccLeave.acqLeave.acq := by
          simp [State.departMember, State.acqLeave, State.withdrawRecordPlaces]
        have locals : s.ccLeave.acq.spotList.filter SpotPlace.isLocal = s.acq.spotList.filter SpotPlace.isLocal :=
          left.locals
        have kept : s.ccLeave.acq = { s.acq with spotList := s.ccLeave.acq.spotList } := left.acq
        rw [acq, State.acqLeave, State.withdrawRecordPlaces]
        dsimp only
        rw [locals, kept]
      lp := by rw [lp]; exact left.lp }

/-! ## LEAVE (R152) -/

theorem State.leaveStation_mute {s : State} (mute : s.lc.mute = true) : s.leaveStation = s.departMember.toConfig := by
  have muted : s.departMember.lc.mute = true := by rw [s.departMember_departs.lc]; exact mute
  simp only [State.leaveStation, muted, if_true]

/-- Not MUTE, the station is LEAVING, and its BYE enters the empty queue. -/
theorem State.leaveStation_speaks {s : State} (mute : s.lc.mute = false) : s.leaveStation =
    State.entered { s.departMember with mu := { s.departMember.mu with station := .leaving } } .bye none [] := by
  have lc := s.departMember_departs.lc
  have quiet : s.departMember.lc.mute = false := by rw [lc]; exact mute
  have empty : s.departMember.lc.queue = [] := by rw [lc]
  have speaks : ({ s.departMember with mu := { s.departMember.mu with station := .leaving } } : State).Speaks .bye :=
    ⟨.inr rfl, quiet, fun _ => rfl⟩
  have admitted := speaks.submit_bye_alone none (by simp [empty])
  rw [if_neg (by simp [State.otherCount, empty])] at admitted
  simp only [State.leaveStation, quiet, Bool.false_eq_true, if_false, State.submitOrDrop, admitted, Option.getD_some, empty]

/-- What LEAVE does once the departure has come to `d` (R152). -/
structure State.LeavesStation (s d t : State) : Prop where
  silent   : s.lc.mute = true → t.mu.station = .config ∧ t.lc.queue = []
  speaking : s.lc.mute = false → t.mu.station = .leaving ∧
    ∃ m, t.lc.queue = [m] ∧ m.payload = .bye ∧ m.cond = .queued ∧ m.fails = 0
  mu       : t.mu = { d.mu with station := t.mu.station }
  lc       : t.lc = { s.lc with queue := t.lc.queue, nextAge := t.lc.nextAge, view := t.lc.view, idle := t.lc.idle }
  et       : t.et = d.et
  cc       : t.cc = d.cc
  hr       : t.hr = d.hr
  acq      : t.acq = d.acq
  lp       : t.lp = d.lp
  tm       : t.tm = d.tm

theorem State.leaveStation_leaves (s : State) : s.LeavesStation s.departMember s.leaveStation := by
  have lc := s.departMember_departs.lc
  cases mute : s.lc.mute with
  | true =>
    rw [State.leaveStation_mute mute]
    generalize s.departMember = d at *
    exact ⟨fun _ => ⟨rfl, congrArg Lc.queue lc⟩, fun quiet => absurd quiet (by simp [mute]), rfl,
      by simp [State.toConfig, State.lineQuiet, lc], rfl, rfl, rfl, rfl, rfl, rfl⟩
  | false =>
    rw [State.leaveStation_speaks mute]
    generalize s.departMember = d at *
    exact ⟨fun muted => absurd muted (by simp [mute]), fun _ => ⟨rfl, _, rfl, rfl, rfl, rfl⟩, rfl,
      by simp [State.entered, lc], rfl, rfl, rfl, rfl, rfl, rfl⟩

theorem takeLeave_member {s : State} (member : s.mu.station = .member) : takeLeave [] s = (s.leaveStation, .ok []) :=
  if_pos (isMember_iff.2 member)

theorem takeLeave_outside {s : State} (outside : s.mu.station ≠ .member) : takeLeave [] s = (s, .bare codeBadState) :=
  if_neg fun member => outside (isMember_iff.1 member)

/-- In MEMBER the station leaves in the state that has heard the command, and answers OK. -/
theorem exec_leave_member {s u : State} (h : s.AwaitsCommand 0x04 []) (member : s.mu.station = .member)
    (leaves : (s.heard 0x04 []).leaveStation = u) (transaction : u.lp.transaction = (s.heard 0x04 []).lp.transaction) :
    exec (.leave []) s = .next { u with lp := { u.lp with
      transaction := (s.answered 0x04 [] 0x80 [] none).lp.transaction } } := by
  refine congrArg Host.Outcome.next ((h.clockCommand (takeLeave [])).trans ?_)
  rw [takeLeave_member (s := s.heard 0x04 []) member, leaves, State.respond_of_transaction (transaction.trans rfl)]
  rfl

/-- Settles O15: the departure block by block, then the station state and the BYE, which turn on MUTE. -/
theorem leaveDeparts : Obligations.LeaveDeparts := by
  unfold Obligations.LeaveDeparts
  refine fun s h => ⟨fun outside => ?_, fun member => ?_⟩
  · exact congrArg Host.Outcome.next (h.clockCommand_answered (takeLeave_outside (s := s.heard 0x04 []) outside))
  have departs := (s.heard 0x04 []).departMember_departs
  have leaves := (s.heard 0x04 []).leaveStation_leaves
  have tm := (s.heard 0x04 []).departMember_frame.1
  generalize (s.heard 0x04 []).departMember = d at *
  generalize left : (s.heard 0x04 []).leaveStation = u at *
  have mu := leaves.mu.trans (congrArg (fun mu : Mu => { mu with station := u.mu.station }) departs.mu)
  have cc := leaves.cc.trans departs.cc
  have hr := leaves.hr.trans departs.hr
  have acq := leaves.acq.trans departs.acq
  have lp := leaves.lp.trans departs.lp
  have records : ∀ i, u.recordAt i = (s.recordAt i).bind CapRecord.left := fun i =>
    (State.recordAt_of_cc leaves.cc i).trans (departs.records i)
  refine ⟨_, exec_leave_member h member left (congrArg Lp.transaction lp :), rfl, leaves.silent, leaves.speaking,
    (congrArg Mu.spoken mu :), (congrArg Mu.peers mu :), (congrArg Mu.config mu :), (congrArg Mu.digest mu :),
    leaves.et.trans departs.et, leaves.tm.trans tm,
    (congrArg Lc.failCount leaves.lc :), (congrArg Lc.vetoCount leaves.lc :), (congrArg Lc.mute leaves.lc :),
    (congrArg Cc.driver cc :), (congrArg Cc.lineEntry cc :), (congrArg Cc.stuck cc :), (congrArg Cc.marks cc :),
    (congrArg Cc.seqCounter cc :),
    (congrArg Lp.session lp :), (congrArg Hr.geometry hr :), (congrArg Hr.frames hr :), (congrArg Hr.nextWrite hr :),
    (congrArg Acq.assembly acq :), (congrArg Acq.slipPending acq :), (congrArg Acq.run acq :),
    (congrArg Acq.localPending acq :),
    fun i free => ?_, fun i r record opened => ?_, fun i r c record complete => ?_, (congrArg Acq.spotList acq :),
    fun i r c record filling => ⟨?_, ?_⟩⟩
  · exact (records i).trans (by rw [free]; rfl)
  · exact (records i).trans (by simp [record, CapRecord.left, opened])
  · exact (records i).trans (by simp [record, CapRecord.left, complete])
  · have told := departs.told i r c record filling
    rwa [State.hasCause, ← leaves.lp] at told
  · refine (records i).trans ?_
    rw [record, Option.bind_some, CapRecord.left_filling filling, Capture.left_eq, CapRecord.cut_eq]

/-! ## JOIN (R139) -/

theorem takeJoin_ready {s : State} {c : Configuration} (station : s.mu.station = .config) (config : s.mu.config = some c) :
    takeJoin [] s = (s.beginJoin, .ok []) :=
  if_pos (by simp [State.isConfig, station, config])

theorem takeJoin_refused {s : State} (refused : ¬(s.mu.station = .config ∧ s.mu.config.isSome = true)) :
    takeJoin [] s = (s, .bare codeBadState) :=
  if_neg (by simpa [State.isConfig] using refused)

/-- Settles O14: the join that begins is a state written out, with W by the formula of R103. -/
theorem joinBegins : Obligations.JoinBegins := by
  unfold Obligations.JoinBegins
  refine fun s h => ⟨fun c station config => ?_, fun refused => ?_⟩
  · refine congrArg Host.Outcome.next ((h.clockCommand_answered (u := s.beginJoin)
      (takeJoin_ready (s := s.heard 0x03 []) station config)).trans ?_)
    have inForce : s.cfg = c := State.cfg_of_some config
    rw [State.beginJoin, inForce]
    rfl
  · exact congrArg Host.Outcome.next (h.clockCommand_answered (takeJoin_refused (s := s.heard 0x03 []) refused))

end Sys2Proof.Machine
end

