-- ==== Sys2Proof/Proofs/ListenExpiry.lean ====
section
/-! The listen window expires: O25. The station founds the timebase, becomes MEMBER as on an EPOCH heard (R112, R143), and
submits HELLO and then EPOCH(1) (R113). -/

namespace Sys2Proof.Machine

/-! ## The two submissions (R113, R126, R143) -/

theorem State.founding_frame (s : State) : (s.submitHello.submitEpoch 1).mu = s.mu ∧
    (s.submitHello.submitEpoch 1).cc = s.cc ∧ (s.submitHello.submitEpoch 1).hr = s.hr ∧
    (s.submitHello.submitEpoch 1).acq = s.acq ∧ (s.submitHello.submitEpoch 1).tm = s.tm ∧
    (s.submitHello.submitEpoch 1).lp = s.lp := by
  simp

theorem State.founding_et (s : State) : (s.submitHello.submitEpoch 1).et =
    { s.et with own := (s.submitHello.submitEpoch 1).et.own } := by
  have et : s.submitHello.et = s.et := s.submitHello_frame.2.1
  rw [State.OwnOnly.submitEpoch, et]

theorem State.founding_lc (s : State) : s.QueueOnly (s.submitHello.submitEpoch 1) :=
  (State.QueueOnly.submitOrDrop _ s).trans (.submitEpoch 1 _)

/-- In MUTE neither HELLO nor EPOCH is admitted. -/
theorem State.founding_mute {s : State} (mute : s.lc.mute = true) (own : s.et.own = .none) :
    s.submitHello.submitEpoch 1 = s := by
  have refused : s.submitHello = s := by
    simp only [State.submitHello, State.submitOrDrop, State.submit_mute mute, Option.getD_none]
  rw [refused, State.submitEpoch_refused (by simp [own]) mute, ← own]

/-- Into an empty queue the HELLO goes first, and the EPOCH comes before it (R125). -/
theorem State.founding_announces {s : State} (station : s.mu.station = .member) (mute : s.lc.mute = false)
    (empty : s.lc.queue = []) (own : s.et.own = .none) :
    (s.submitHello.submitEpoch 1).et.own = .queued 1 ∧ ∃ e h lag free, (s.submitHello.submitEpoch 1).lc.queue = [e, h] ∧
      e.payload = .epoch 1 lag s.mu.digest ∧ h.payload = .hello s.mu.digest s.et.epoch free := by
  obtain ⟨h, queue, cond, payload⟩ := State.submitHello_first (isMember_iff.2 station) mute empty
  obtain ⟨mu, et, _⟩ := s.submitHello_frame
  have quiet : s.submitHello.lc.mute = s.lc.mute := (State.QueueOnly.submitOrDrop _ s).mute
  generalize s.submitHello = u at queue mu et quiet ⊢
  have speaks : u.Speaks (.epoch 1 0 u.mu.digest) :=
    ⟨.inl (by rw [mu]; exact station), quiet.trans mute, fun leaving => absurd (mu ▸ leaving) (by simp [station])⟩
  have admitted := speaks.submit_epoch none rfl fun x hx => by
    have only : x = h := by simpa [queue] using hx
    simp [only, cond]
  have kept : u.lc.queue.filter (fun x => !x.payload.isEpoch) = [h] := by simp [queue, payload, Payload.isEpoch]
  have entered : u.submitEpoch 1 = { u.entered (.epoch 1 0 u.mu.digest) none [h] with
      et := { u.et with own := .queued 1 } } := by
    rw [kept] at admitted
    simp only [State.submitEpoch, et, own, admitted]
    rw [← et]
    rfl
  rw [entered]
  refine ⟨rfl, _, h, 0, _, if_pos ?_, by rw [← mu], payload⟩
  simp [Msg.moving, cond, Msg.before, payload, Payload.kind]

/-! ## The timebase founded -/

/-- The station as MEMBER of the timebase that it founds, its messages still to be submitted. -/
def State.foundBegun (s : State) : State := State.memberBegun { s with et := { s.et with epoch := 1, counter := 0 } }

theorem State.foundTimebase_eq (s : State) : s.foundTimebase = s.foundBegun.submitHello.submitEpoch 1 := rfl

theorem State.listenTick_expires {s : State} (expires : s.mu.listenCount + 1 = s.mu.listenLength) : s.listenTick =
    State.foundTimebase { s with mu := { s.mu with listenCount := s.mu.listenCount + 1 } } :=
  if_pos expires

/-- Settles O25: LISTEN's tick at the end of the window, the messages apart, is a state written out. -/
theorem listenExpiryFounds : Obligations.ListenExpiryFounds := by
  unfold Obligations.ListenExpiryFounds
  intro s c order running station config expires own
  have due : s.listenExpiresNext = true := by simp [State.listenExpiresNext, running, State.isListen, station, expires]
  have ticked : s.takeTick order =
      State.foundTimebase { s with mu := { s.mu with listenCount := s.mu.listenCount + 1 } } :=
    (State.takeTick_listen running station order).trans (State.listenTick_expires expires)
  have expired : exec (.listenWindowExpiry order) s = .next (s.takeTick order) :=
    congrArg Host.Outcome.next (if_pos due)
  refine ⟨_, expired.trans (congrArg _ ticked), congrArg Host.Outcome.next ticked, ?_⟩
  rw [State.foundTimebase_eq]
  have inForce : s.cfg = c := State.cfg_of_some config
  generalize begun : State.foundBegun { s with mu := { s.mu with listenCount := s.mu.listenCount + 1 } } = w
  obtain ⟨mu, cc, hr, acq, tm, lp⟩ := w.founding_frame
  have et := w.founding_et
  have lc := w.founding_lc
  have silent : s.lc.mute = true → w.submitHello.submitEpoch 1 = w := fun mute =>
    State.founding_mute (by rw [← begun]; exact mute) (by rw [← begun]; exact own)
  have speaking := fun (mute : s.lc.mute = false) (empty : s.lc.queue = []) =>
    State.founding_announces (s := w) (by rw [← begun]; rfl) (by rw [← begun]; exact mute) (by rw [← begun]; exact empty)
      (by rw [← begun]; exact own)
  generalize w.submitHello.submitEpoch 1 = t at *
  subst begun
  refine ⟨(congrArg Mu.station mu :), (congrArg Et.epoch et :), (congrArg Et.counter et :),
    (congrArg Et.running et :).trans running, (congrArg Mu.spoken mu :), fun n p entry => ?_, ?_, (congrArg Hr.frames hr :),
    (congrArg Hr.nextWrite hr :), ?_, (congrArg Acq.assembly acq :), (congrArg Acq.slipPending acq :),
    (congrArg Lc.obsCur lc :), (congrArg Lc.obsPrev lc :), (congrArg Cc.stuck cc :), (congrArg Cc.lineEntry cc :),
    State.recordAt_of_records (congrArg Cc.records cc :), lp, fun mute => ?_, speaking⟩
  · have peers : t.mu.peers = s.mu.peers.map (Peer.restamp 1) := (congrArg Mu.peers mu :)
    rw [peers, Vector.getElem?_map, entry]
    rfl
  · rw [← inForce]
    exact (congrArg Hr.geometry hr :)
  · rw [← inForce]
    exact (congrArg Tm.monitors tm :)
  · rw [silent mute]
    exact ⟨rfl, own⟩

end Sys2Proof.Machine
end

