-- ==== Sys2Proof/Proofs/AlertQueue.lean ====
section
/-! SUPPORT. What the alerts of one tick do to the transmit queue and to the attention causes: however many monitors trip,
one CLAIM at most comes, for the entry that the line stands for (R4, R93). -/

namespace Sys2Proof.Machine

/-! ## One CLAIM for the entry on the line (R4) -/

/-- The entry that the line stands for is this station's, and its CLAIM is not lost: an alert submits none. -/
def State.ClaimStands (s : State) : Prop :=
  ∃ id m, s.cc.lineEntry = .entry id ∧ s.markOf id = some m ∧ m.originator = true ∧ m.claim ≠ .lost

theorem State.ClaimStands.of_cc {s t : State} (h : s.ClaimStands) (line : t.cc.lineEntry = s.cc.lineEntry)
    (marks : t.cc.marks = s.cc.marks) : t.ClaimStands := by
  obtain ⟨id, m, entry, found, own, kept⟩ := h
  exact ⟨id, m, line.trans entry, by rwa [State.markOf, marks], own, kept⟩

theorem State.markOf_modifyMark {id : Nat} {f : Mark → Mark} (same : ∀ m, (f m).id = m.id) (s : State) :
    (s.modifyMark id f).markOf id = (s.markOf id).map f := by
  simp only [State.markOf, State.modifyMark]
  induction s.cc.marks with
  | nil => rfl
  | cons x xs ih =>
    by_cases here : x.id = id
    · simp [here, same]
    · simpa [here] using ih

theorem State.markOf_originate {s : State} {m : Mark} (found : s.markOf m.id = some m) :
    (s.originate m).markOf m.id = some { m with originator := true } := by
  have own : (s.modifyMark m.id (fun x => { x with originator := true })).markOf m.id =
      some { m with originator := true } := by
    rw [State.markOf_modifyMark (f := fun x => { x with originator := true }) (fun _ => rfl), found]
    rfl
  have marks : (s.originate m).cc.marks = (s.modifyMark m.id (fun x => { x with originator := true })).cc.marks :=
    s.originate_marks m
  rwa [State.markOf, marks]

/-- A CLAIM has come into the queue, and nothing else. -/
def State.ClaimCame (s t : State) : Prop := ∃ q p, q.payload = .claim p ∧ t.lc.queue.Perm (q :: s.lc.queue)

/-- A CLAIM submitted for the entry on the line stands from then on, or is refused. -/
theorem State.submitClaim_stands {s : State} {id : Nat} {m : Mark} (member : s.isMember = true)
    (line : s.cc.lineEntry = .entry id) (found : s.markOf id = some m) (own : m.originator = true) :
    (s.submitClaim id).lc = s.lc ∨ ((s.submitClaim id).ClaimStands ∧ s.ClaimCame (s.submitClaim id)) := by
  by_cases full : s.NoRoom s.lc.queue
  · rw [State.submitClaim_noRoom full]
    exact .inl (by simp)
  · have queued := State.markOf_modifyMark (id := id) (f := fun x => { x with claim := .queued }) (fun _ => rfl)
      (s.enqueue (.claim m.point) (some id))
    have same : (s.enqueue (.claim m.point) (some id)).markOf id = some m := found
    rw [same] at queued
    rw [State.submitClaim_room member full found]
    exact .inr ⟨⟨id, _, line, queued, own, nofun⟩, _, m.point, rfl, insertMsg_perm _ _⟩

theorem State.coOriginate_claim {s : State} (member : s.isMember = true) :
    s.coOriginate.lc = s.lc ∨ (s.coOriginate.ClaimStands ∧ s.ClaimCame s.coOriginate) := by
  cases line : s.cc.lineEntry with
  | claimed => exact .inl (by rw [State.coOriginate_claimed line])
  | empty => exact .inl (by rw [State.coOriginate_empty line]; simp)
  | entry id =>
    cases found : s.markOf id with
    | none => exact .inl (by simp [State.coOriginate, line, found])
    | some m =>
      cases own : m.originator with
      | true =>
        rw [State.coOriginate_own line found own]
        split
        · exact State.submitClaim_stands member line found own
        · exact .inl rfl
      | false =>
        obtain ⟨_, rfl⟩ := State.markOf_some found
        have calm := s.originate_calm m
        have came := State.submitClaim_stands (s := s.originate m) (by rw [State.isMember, calm.mu]; exact member)
          (calm.lineEntry.trans line) (State.markOf_originate found) rfl
        rw [State.coOriginate_other line found own]
        simpa only [State.ClaimCame, State.originate_lc] using came

theorem State.coOriginate_stands {s : State} (stands : s.ClaimStands) : s.coOriginate = s := by
  obtain ⟨id, m, line, found, own, kept⟩ := stands
  rw [State.coOriginate_own line found own, if_neg kept]

/-- An alert leaves LC alone, or brings a CLAIM that stands; where one stands it leaves LC alone. -/
theorem State.alert_claim (s : State) : (s.alert.lc = s.lc ∧ (s.ClaimStands → s.alert.ClaimStands)) ∨
    (¬s.ClaimStands ∧ s.alert.ClaimStands ∧ s.ClaimCame s.alert) := by
  unfold State.alert
  split
  · exact .inl ⟨rfl, id⟩
  rename_i member
  split
  · exact .inl ⟨by simp, fun h => h.of_cc rfl rfl⟩
  split
  · exact .inl ⟨rfl, fun h => h.of_cc rfl rfl⟩
  split
  · exact .inl ⟨rfl, id⟩
  by_cases stands : s.ClaimStands
  · rw [State.coOriginate_stands stands]
    exact .inl ⟨rfl, id⟩
  · rcases State.coOriginate_claim (by simpa using member) with same | ⟨now, came⟩
    · exact .inl ⟨same, fun h => absurd h stands⟩
    · exact .inr ⟨stands, now, came⟩

/-! ## Many alerts (R93) -/

/-- Of the messages that are no CLAIM and no EPOCH none has come, and of those that are no EPOCH `n` at most. -/
structure State.AtMostClaims (n : Nat) (s t : State) : Prop where
  members : ∀ q ∈ t.lc.queue, q.ofMembership = true → q ∈ s.lc.queue
  room    : t.otherCount ≤ s.otherCount + n

theorem State.AtMostClaims.of_lc {s t : State} (h : t.lc = s.lc) (n : Nat) : s.AtMostClaims n t :=
  ⟨fun q hq _ => h ▸ hq, by simp [State.otherCount, h]⟩

theorem State.AtMostClaims.trans {m n : Nat} {s t u : State} (h : s.AtMostClaims m t) (k : t.AtMostClaims n u) :
    s.AtMostClaims (m + n) u :=
  ⟨fun q hq hm => h.members q (k.members q hq hm) hm, by have := h.room; have := k.room; omega⟩

theorem State.AtMostClaims.mono {m n : Nat} {s t : State} (h : s.AtMostClaims m t) (le : m ≤ n) : s.AtMostClaims n t :=
  ⟨h.members, by have := h.room; omega⟩

theorem State.ClaimCame.atMost {s t : State} (h : s.ClaimCame t) : s.AtMostClaims 1 t := by
  obtain ⟨q, p, payload, perm⟩ := h
  refine ⟨fun x hx member => ?_, ?_⟩
  · rcases List.mem_cons.1 (perm.mem_iff.1 hx) with rfl | old
    · simp [Msg.ofMembership, payload, Payload.isHelloOrPresent, Payload.isBye] at member
    · exact old
  · have count := (perm.filter (fun x => !x.payload.isEpoch)).length_eq
    rw [List.filter_cons, payload] at count
    simpa [State.otherCount, Payload.isEpoch] using count.le

theorem State.alerts_claim (n : Nat) (s : State) : s.AtMostClaims 1 (State.alerts n s) := by
  have many : ∀ n u, s.AtMostClaims 0 u ∨ (s.AtMostClaims 1 u ∧ u.ClaimStands) → s.AtMostClaims 1 (State.alerts n u) := by
    intro n
    induction n with
    | zero => exact fun u hu => hu.elim (fun h => h.mono (by omega)) And.left
    | succ n ih =>
      refine fun u hu => ih u.alert ?_
      rcases u.alert_claim with ⟨same, stands⟩ | ⟨before, now, came⟩
      · exact hu.imp (fun h => h.trans (.of_lc same 0)) fun ⟨h, k⟩ => ⟨h.trans (.of_lc same 0), stands k⟩
      · exact .inr ⟨(hu.resolve_right fun h => before h.2).trans came.atMost, now⟩
  exact many n s (.inl (.of_lc rfl 0))

/-- AS, HR and TM at a tick: one CLAIM at most, and none where no monitor is in use. -/
theorem State.acquire_claim (s : State) :
    s.AtMostClaims 1 s.acquire ∧ (s.tm.monitors = [] → s.AtMostClaims 0 s.acquire) := by
  have begun : s.cutSweep.beginFrame.startSweep.lc = s.lc ∧ s.cutSweep.beginFrame.startSweep.tm = s.tm := by simp
  unfold State.acquire
  split
  · exact ⟨.of_lc begun.1 1, fun _ => .of_lc begun.1 0⟩
  · rename_i a _
    obtain ⟨_, _, lc, _, tm, _⟩ := s.cutSweep.beginFrame.startSweep.writeFrame_frame a.close
    generalize s.cutSweep.beginFrame.startSweep.writeFrame a.close = w at lc tm
    have same : w.lc = s.lc := lc.trans begun.1
    refine ⟨?_, fun none_ => .of_lc ?_ 0⟩
    · refine State.AtMostClaims.trans (.of_lc ?_ 0) (State.alerts_claim _ _)
      exact same
    · rw [State.handOn, tm, begun.2, none_, evaluate_nil]
      exact same

/-! ## The causes that a tick's operations raise -/

section
variable {c : Cause}

theorem State.alert_cause (suppressed : c ≠ .alertSuppressed) (refused : c ≠ .captureRefused) (s : State) :
    s.alert.hasCause c = s.hasCause c := by
  have submitted : ∀ (id : Nat) (u : State), (u.submitClaim id).hasCause c = u.hasCause c := fun id u =>
    State.hasCause_of_lp (by simp) c
  have together : s.coOriginate.hasCause c = s.hasCause c := by
    unfold State.coOriginate
    split
    · rfl
    · exact State.hasCause_raise_other refused s
    · split
      · exact State.hasCause_raise_other refused s
      · split
        · split
          · exact submitted _ s
          · rfl
        · refine (submitted _ _).trans (State.hasCause_of_lp ?_ c)
          dsimp only
          split <;> simp
  unfold State.alert
  split
  · rfl
  split
  · exact State.hasCause_raise_other suppressed s
  split
  · rfl
  split
  · rfl
  · exact together

theorem State.writeFrame_cause (complete : c ≠ .captureComplete) (f : Frame) (s : State) :
    (s.writeFrame f).hasCause c = s.hasCause c := by
  have copied : ∀ i f (u : State), (u.copyInto i f).hasCause c = u.hasCause c := fun i f u =>
    (State.completeIfReady_cause complete i _).trans (State.hasCause_of_lp (by simp) c)
  have all : ∀ k f (u : State), (u.copyToAll k f).hasCause c = u.hasCause c := by
    intro k f u
    refine foldl_keeps (fun t : State => t.hasCause c = u.hasCause c) _ slots (fun t i ht => ?_) rfl
    split
    · exact (copied i f t).trans ht
    · exact ht
  have room : s.makeRoom.hasCause c = s.hasCause c := by
    unfold State.makeRoom
    split
    · rfl
    · split
      · exact all _ _ s
      · rfl
  exact (State.hasCause_of_lp (State.advanceRing_frame _).2.2.2.2.2.2.1 c).trans
    ((all _ _ _).trans ((State.hasCause_of_lp (State.storeFrame_frame f _).2.2.2.2.2.2.1 c).trans room))

theorem State.acquire_cause (complete : c ≠ .captureComplete) (suppressed : c ≠ .alertSuppressed)
    (refused : c ≠ .captureRefused) (s : State) : s.acquire.hasCause c = s.hasCause c := by
  have many : ∀ n u, State.hasCause (State.alerts n u) c = u.hasCause c := by
    intro n
    induction n with
    | zero => exact fun _ => rfl
    | succ n ih => exact fun u => (ih u.alert).trans (State.alert_cause suppressed refused u)
  have begun : s.cutSweep.beginFrame.startSweep.hasCause c = s.hasCause c := State.hasCause_of_lp (by simp) c
  unfold State.acquire
  split
  · exact begun
  · rename_i a _
    have written := (State.writeFrame_cause complete a.close s.cutSweep.beginFrame.startSweep).trans begun
    generalize s.cutSweep.beginFrame.startSweep.writeFrame a.close = w at written
    exact (many _ _).trans written

theorem State.ccTick_cause (stuck : c ≠ .markStuck) (asserted : Bool) (driver : Driver) (s : State) :
    (s.ccTick asserted driver).hasCause c = s.hasCause c := by
  have counted : (s.countStuck asserted).hasCause c = s.hasCause c := by
    unfold State.countStuck
    dsimp only
    split
    · split
      · exact State.hasCause_raise_other stuck _
      · rfl
    · rfl
  exact (State.hasCause_of_lp (by simp [State.ccTick]) c).trans counted

end

end Sys2Proof.Machine
end

