-- ==== Sys2Proof/Proofs/PeersTick.lean ====
section
/-! The epoch start of a tick at MU: O29. MU takes it once, between two turns of the other parts, which leave the peer table
and its cause alone and leave room for the PRESENT (R148, R149). -/

namespace Sys2Proof.Machine

/-! ## MU's epoch start -/

theorem State.muEpochStart_table {s : State} (member : s.isMember = true) :
    s.muEpochStart.mu.peers = s.mu.peers.map (Peer.expire s.et.epoch) := by
  have here : (!s.isMember) ≠ true := by simp [member]
  rw [State.muEpochStart, if_neg here]
  dsimp only
  rw [State.expirePeers_mu]
  dsimp only
  split <;> simp

/-! ## The turns of the other parts -/

/-- An EPOCH takes the place of another: the other messages are as they were (R126). -/
theorem State.submitEpoch_others (n : Word32) (s : State) :
    ((s.submitEpoch n).lc.queue.filter (fun x => !x.payload.isEpoch)).Perm
      (s.lc.queue.filter (fun x => !x.payload.isEpoch)) := by
  unfold State.submitEpoch
  split
  · exact .refl _
  split
  · exact .refl _
  · rename_i t submitted
    obtain ⟨_, _, l, kept, rfl⟩ := State.submit_some submitted
    have others : l.filter (fun x => !x.payload.isEpoch) = s.lc.queue.filter (fun x => !x.payload.isEpoch) := by
      rcases kept with ⟨_, rfl⟩ | ⟨_, rfl⟩
      · rfl
      · rw [List.filter_filter]
        refine List.filter_congr fun x _ => ?_
        simp [replacedBy, Payload.isEpoch, Payload.isBye]
    rw [← others]
    exact (insertMsg_perm _ _).filter _

/-- A win leaves no more messages in the queue, and brings none of Membership's (R119). -/
theorem State.winWith_queue (order : List Part) (s : State) :
    (s.winWith order).otherCount ≤ s.otherCount ∧
      (s.lc.queue.any Msg.ofMembership = false → (s.winWith order).lc.queue.any Msg.ofMembership = false) := by
  unfold State.winWith
  split
  swap
  · exact ⟨le_refl _, id⟩
  cases won : s.contender with
  | none =>
    rw [State.winArbitration_none won]
    exact ⟨le_refl _, id⟩
  | some m =>
    obtain ⟨mem, contends⟩ := State.contender_mem won
    have lc := State.winArbitration_lc won
    have kind : (s.wonBy m).payload.isEpoch = m.payload.isEpoch := State.fixPayload_isEpoch s m.payload
    have member : (s.wonBy m).ofMembership = m.ofMembership := by
      cases payload : m.payload <;>
        simp [State.wonBy, State.fixPayload, Msg.ofMembership, payload, Payload.isHelloOrPresent, Payload.isBye]
    refine ⟨?_, fun none_ => ?_⟩
    · have split := (List.filter_append_perm Msg.contends s.lc.queue).countP_eq (fun x => !x.payload.isEpoch)
      rw [List.countP_append] at split
      have here : m ∈ s.lc.queue.filter Msg.contends := List.mem_filter.2 ⟨mem, by simp [Msg.contends, contends]⟩
      simp only [State.otherCount, lc, ← List.countP_eq_length_filter, List.countP_cons, kind]
      split_ifs with other
      · have := (List.countP_pos_iff (p := fun x : Msg => !x.payload.isEpoch)).2 ⟨m, here, other⟩
        omega
      · omega
    · rw [List.any_eq_false] at none_ ⊢
      intro q hq
      rw [lc] at hq
      rcases List.mem_cons.1 hq with rfl | old
      · rw [member]
        exact none_ m mem
      · exact none_ q (List.mem_filter.1 old).1

/-- What the parts but MU's leave of what MU reads and makes; `n` messages more may stand in the queue. -/
structure State.PresenceTurn (n : Nat) (s t : State) : Prop where
  mu       : t.mu = s.mu
  epoch    : t.et.epoch = s.et.epoch
  monitors : t.tm.monitors = [] ↔ s.tm.monitors = []
  mute     : s.lc.mute = false → t.lc.mute = false
  told     : t.hasCause .peerChange = s.hasCause .peerChange
  kept     : ∀ q ∈ s.lc.queue, q.mark = none → q.payload.isEpoch = false → q ∈ t.lc.queue
  claims   : s.AtMostClaims n t

namespace State.PresenceTurn

theorem refl (s : State) : s.PresenceTurn 0 s :=
  ⟨rfl, rfl, Iff.rfl, id, rfl, fun _ hq _ _ => hq, .of_lc rfl 0⟩

theorem trans {m n : Nat} {s t u : State} (h : s.PresenceTurn m t) (k : t.PresenceTurn n u) : s.PresenceTurn (m + n) u where
  mu := k.mu.trans h.mu
  epoch := k.epoch.trans h.epoch
  monitors := k.monitors.trans h.monitors
  mute := k.mute ∘ h.mute
  told := k.told.trans h.told
  kept q hq mark epoch := k.kept q (h.kept q hq mark epoch) mark epoch
  claims := h.claims.trans k.claims

theorem mono {m n : Nat} {s t : State} (h : s.PresenceTurn m t) (le : m ≤ n) : s.PresenceTurn n t :=
  ⟨h.mu, h.epoch, h.monitors, h.mute, h.told, h.kept, h.claims.mono le⟩

theorem submitEpoch (n : Word32) (s : State) : s.PresenceTurn 0 (s.submitEpoch n) := by
  have others := s.submitEpoch_others n
  have same : ∀ q : Msg, q.payload.isEpoch = false → (q ∈ (s.submitEpoch n).lc.queue ↔ q ∈ s.lc.queue) := fun q other => by
    simpa [other] using others.mem_iff (a := q)
  have count : (s.submitEpoch n).otherCount = s.otherCount := others.length_eq
  refine ⟨by simp, (State.OwnOnly.submitEpoch n s).epoch, by simp,
    fun mute => (State.QueueOnly.submitEpoch n s).mute.trans mute, State.hasCause_of_lp (by simp) _, fun q hq _ epoch => (same q epoch).2 hq, fun q hq member => ?_, count.le⟩
  refine (same q ?_).1 hq
  cases payload : q.payload <;> simp_all [Msg.ofMembership, Payload.isEpoch, Payload.isHelloOrPresent, Payload.isBye]

theorem lcEpochStart (s : State) : s.PresenceTurn 0 s.lcEpochStart where
  mu := by simp
  epoch := by simp
  monitors := by simp
  mute := (State.StartTurn.lcEpochStart s).mute
  told := State.lcEpochStart_cause (by decide) s
  kept q hq _ _ := by rwa [State.lcEpochStart_queue]
  claims := ⟨fun q hq _ => by rwa [State.lcEpochStart_queue] at hq, by rw [State.otherCount, State.lcEpochStart_queue]; rfl⟩

theorem ccEpochStart (s : State) : s.PresenceTurn 0 s.ccEpochStart where
  mu := by simp
  epoch := by simp
  monitors := by simp
  mute := (State.StartTurn.ccEpochStart s).mute
  told := State.ccEpochStart_cause (by decide) (by decide) s
  kept q hq mark _ := (State.QueueTurn.ccEpochStart s).kept q hq (.inr mark)
  claims := ⟨fun q hq _ => s.ccEpochStart_sublist.subset hq, (s.ccEpochStart_sublist.filter _).length_le⟩

theorem ccTick (asserted : Bool) (driver : Driver) (s : State) : s.PresenceTurn 0 (s.ccTick asserted driver) where
  mu := by simp
  epoch := by simp
  monitors := by simp
  mute := by simp
  told := State.ccTick_cause (by decide) asserted driver s
  kept q hq _ _ := by simpa using hq
  claims := .of_lc (by simp) 0

theorem acquire (s : State) : s.PresenceTurn 1 s.acquire ∧ (s.tm.monitors = [] → s.PresenceTurn 0 s.acquire) := by
  have one : s.PresenceTurn 1 s.acquire :=
    { mu := by simp
      epoch := by simp
      monitors := State.acquire_keeps (P := fun u => u.tm.monitors = [] ↔ s.tm.monitors = [])
        (fun u v k hu => k.monitors.trans hu) (fun u i _ f _ hu => by simpa using hu) (fun u _ hu => by simpa using hu)
        Iff.rfl
      mute := fun mute => (State.QueueOnly.acquire s).mute.trans mute
      told := State.acquire_cause (by decide) (by decide) (by decide) s
      kept := fun q hq mark _ => (State.QueueTurn.acquire s).kept q hq (.inr mark)
      claims := s.acquire_claim.1 }
  exact ⟨one, fun none_ => { one with claims := s.acquire_claim.2 none_ }⟩

/-- The parts of a tick but MU's and AS's. -/
theorem tickPart {p : Part} (start : p ≠ .muEpoch) (acquires : p ≠ .acquisition) (wrapped : Bool) (before s : State) :
    s.PresenceTurn 0 (State.tickPart wrapped before s p) := by
  have whenWrapped : ∀ t : State, s.PresenceTurn 0 t → s.PresenceTurn 0 (if wrapped then t else s) := by
    intro t h
    split
    · exact h
    · exact refl s
  cases p with
  | muEpoch => exact absurd rfl start
  | acquisition => exact absurd rfl acquires
  | ccTick => exact ccTick _ _ s
  | epochSubmit => exact whenWrapped _ (submitEpoch _ s)
  | lcEpoch => exact whenWrapped _ (lcEpochStart s)
  | ccEpoch => exact whenWrapped _ (ccEpochStart s)
  | muTake => exact refl s
  | win => exact refl s

end State.PresenceTurn

/-- What the tick does before its parts: the counter wraps, and a message may win (R100, R105). -/
theorem State.wrapBegun {s : State} (wraps : s.atEpochEnd = true) (order : List Part) :
    (s.advanceCounter.winWith order).mu = s.mu ∧ (s.advanceCounter.winWith order).et.epoch = epochSucc s.et.epoch ∧
      (s.advanceCounter.winWith order).tm = s.tm ∧ (s.advanceCounter.winWith order).lc.mute = s.lc.mute ∧
      (s.advanceCounter.winWith order).lp = s.lp := by
  refine ⟨by simp, ?_, by simp, ?_, by simp⟩
  · rw [(State.OwnOnly.winWith order _).epoch, State.advanceCounter_wraps wraps]
  · rw [(s.advanceCounter.winWith_queueOnly order).mute, (s.advanceCounter_frame).2.1]

/-- MU's epoch start stands between two turns of the other parts; AS takes its tick before it or after it. -/
theorem State.memberTick_presence {s : State} (wraps : s.atEpochEnd = true) (order : List Part) :
    ∃ n u, n ≤ (if s.tm.monitors = [] then 0 else 1) ∧ (s.advanceCounter.winWith order).PresenceTurn n u ∧
      u.muEpochStart.PresenceTurn 1 (s.memberTick order) := by
  obtain ⟨_, _, tm, _, _⟩ := State.wrapBegun wraps order
  obtain ⟨u, v, before, halves⟩ := foldl_parts_around_two State.PresenceTurn.refl (fun h k => h.trans k)
    (f := State.tickPart s.atEpochEnd s) (q := .muEpoch) (r := .acquisition) (by decide)
    (l := completeOrder tickParts order) (nodup_completeOrder order (by decide)) (mem_completeOrder.2 (by decide))
    (mem_completeOrder.2 (by decide))
    (fun w p _ start acquires => .tickPart start acquires _ s w) (s.advanceCounter.winWith order)
  rw [← State.memberTick] at halves
  simp only [State.tickPart, wraps, if_true] at halves
  rcases halves with ⟨between, after⟩ | ⟨between, after⟩
  · exact ⟨0, u, Nat.zero_le _, before, (between.trans (State.PresenceTurn.acquire v).1).trans after⟩
  · obtain ⟨one, none_⟩ := State.PresenceTurn.acquire u
    split
    · rename_i unused
      exact ⟨0, v, le_refl _, (before.trans (none_ (before.monitors.2 (by rw [tm]; exact unused)))).trans between,
        after.mono (Nat.zero_le _)⟩
    · exact ⟨1, v, le_refl _, (before.trans one).trans between, after.mono (Nat.zero_le _)⟩

/-- Settles O29: what the other parts leave before MU's epoch start and after it. -/
theorem peersExpire : Obligations.PeersExpire := by
  unfold Obligations.PeersExpire
  refine ⟨fun s order e running station wraps number => ?_, fun s station => ?_⟩
  · have atEnd : s.atEpochEnd = true := decide_eq_true wraps
    have member := isMember_iff.2 station
    rw [← epochSucc_eq] at number
    obtain ⟨mu, epoch, tm, mute, lp⟩ := State.wrapBegun atEnd order
    obtain ⟨count, absent⟩ := s.advanceCounter.winWith_queue order
    simp only [State.otherCount, State.advanceCounter_frame] at count absent
    obtain ⟨n, u, bound, before, after⟩ := State.memberTick_presence atEnd order
    have muU : u.mu = s.mu := before.mu.trans mu
    have epochU : u.et.epoch = e := (before.epoch.trans epoch).trans number.symm
    have memberU : u.isMember = true := by rw [State.isMember, muU]; exact member
    have told : (s.memberTick order).hasCause .peerChange =
        (s.hasCause .peerChange || s.mu.peers.toList.any (Peer.dueAt e)) := by
      rw [after.told, (State.muEpochStart_peers memberU).2, before.told, State.hasCause_of_lp lp, muU, epochU]
      rfl
    refine ⟨_, congrArg Host.Outcome.next (State.takeTick_member running station order), fun due => ⟨?_, ?_⟩,
      fun none_ => ?_, fun k p entry => ?_, State.memberTick_spoken atEnd member order, fun spoken first => ?_,
      fun silent unmuted first room => ?_⟩
    · have next : s.peerExpiresNext = true := by
        rw [State.peerExpiresNext, (State.wrapsNext_iff running station).2 wraps, ← number]
        exact due
      exact congrArg Host.Outcome.next (State.tickWhen_member running station next order)
    · rw [told, due, Bool.or_true]
    · rw [told, none_, Bool.or_false]
    · rw [after.mu, State.muEpochStart_table memberU, muU, epochU, Vector.getElem?_map, entry]
      rfl
    · have lc := State.muEpochStart_lc memberU
      rw [muU, spoken, if_pos rfl] at lc
      rw [List.any_eq_false]
      intro q hq ofMembership
      have here := after.claims.members q hq ofMembership
      rw [lc] at here
      exact List.any_eq_false.1 (absent first) q (before.claims.members q here ofMembership) ofMembership
    · have roomU : u.otherCount < 11 := by
        have turned := before.claims.room
        simp only [State.otherCount] at turned ⊢
        split_ifs at bound room <;> omega
      obtain ⟨m, mem, cond, mark, payload⟩ := State.muEpochStart_announces memberU (by rw [muU]; exact silent)
        (before.mute (mute.trans unmuted)) (List.any_eq_false.2 fun q hq ofMembership =>
          List.any_eq_false.1 (absent first) q (before.claims.members q hq ofMembership) ofMembership) roomU
      exact ⟨m, after.kept m mem mark (by rw [payload]; rfl), cond, u.freeField, by rw [payload, muU, epochU]⟩
  · have member := isMember_iff.2 station
    refine ⟨State.muEpochStart_spoken member, fun spoken => ?_, fun silent mute first room => ?_⟩
    · rw [State.muEpochStart_lc member, if_pos spoken]
    · obtain ⟨m, mem, cond, _, payload⟩ := State.muEpochStart_announces member silent mute first room
      exact ⟨m, mem, cond, _, payload⟩

end Sys2Proof.Machine
end

