-- ==== Sys2Proof/Proofs/FaultEntry.lean ====
section
/-! SUPPORT. The entry into FAULT, from MEMBER and from outside it (R30, R51, R84, R151), and the causes that an accepted
CLAIM or FROZEN raises (R15, R28). -/

namespace Sys2Proof.Machine

/-! ## The entry into FAULT -/

/-- What the entry into FAULT does, block by block; from MEMBER it is a departure too. -/
structure State.Faults (reason : FaultReason) (s t : State) : Prop where
  mu     : t.mu = { s.mu with station := .fault reason, spoken := false }
  et     : t.et = { s.et with running := false, own := .none }
  queue  : t.lc.queue = []
  view   : t.lc.view = .none
  acq    : t.acq.assembly = none ∧ t.acq.spotList = [] ∧ t.acq.run = none
  told   : t.hasCause .fault = true
  others : s.isMember = false → ∀ c, c ≠ .fault → t.hasCause c = s.hasCause c
  cc     : s.isMember = true → t.cc.marks = [] ∧ t.cc.driver = .idle ∧ t.cc.lineEntry = .empty
  ring   : s.isMember = true → t.hr.frames = []
  kept   : s.isMember = true → ∀ i r, t.recordAt i = some r → r.isComplete = true

theorem State.enterFault_faults (reason : FaultReason) (s : State) : s.Faults reason (s.enterFault reason) := by
  cases member : s.isMember with
  | false =>
    have inside : s.isMember ≠ true := by simp [member]
    rw [State.enterFault_of_not_member member]
    exact
      { mu := rfl, et := rfl, queue := rfl, view := rfl, acq := ⟨rfl, rfl, rfl⟩
        told := State.hasCause_raise _ _
        others := fun _ c h => State.hasCause_raise_other h _
        cc := fun h => absurd h inside
        ring := fun h => absurd h inside
        kept := fun h => absurd h inside }
  | true =>
    have departs := s.departMember_departs
    have fault : s.enterFault reason = State.raise .fault { s.departMember.acqFault.flushQueue.lineQuiet with
        et := { s.departMember.acqFault.flushQueue.lineQuiet.et with running := false }
        mu := { s.departMember.mu with station := .fault reason, spoken := false } } := by
      rw [State.enterFault, if_pos member]
      rfl
    generalize s.departMember = d at departs fault
    rw [fault]
    have told := State.hasCause_raise .fault { d.acqFault.flushQueue.lineQuiet with
      et := { d.acqFault.flushQueue.lineQuiet.et with running := false }
      mu := { d.mu with station := .fault reason, spoken := false } }
    have cc := departs.cc
    exact
      { mu := by rw [departs.mu]; rfl
        et := by simp only [State.raise, State.lineQuiet, State.flushQueue, State.acqFault, departs.et]
        queue := rfl, view := rfl, acq := ⟨rfl, rfl, rfl⟩
        told := told
        others := fun outside => absurd member (by simp [outside])
        cc := fun _ => ⟨(congrArg Cc.marks cc :), (congrArg Cc.driver cc :), (congrArg Cc.lineEntry cc :)⟩
        ring := fun _ => (congrArg Hr.frames departs.hr :)
        kept := fun _ i r record => by
          have left : (s.recordAt i).bind CapRecord.left = some r := (departs.records i).symm.trans record
          obtain ⟨r', _, left⟩ := Option.bind_eq_some_iff.1 left
          exact CapRecord.left_complete left }

/-! ## The causes of an accepted CLAIM or FROZEN -/

section
variable {c : Cause}

theorem State.closeIfAnswered_cause (complete : c ≠ .captureComplete) (i : Fin 4) (s : State) :
    (s.closeIfAnswered i).hasCause c = s.hasCause c := by
  have closed : (s.closeWindow i).hasCause c = s.hasCause c := by
    unfold State.closeWindow
    (repeat' split)
    · rfl
    · rfl
    · exact State.completeIfReady_cause complete i _
    · rfl
    · rfl
  unfold State.closeIfAnswered
  (repeat' split)
  · rfl
  · exact closed
  · rfl
  · rfl
  · rfl

theorem State.fillAndAnswer_cause (complete : c ≠ .captureComplete) (i : Fin 4) (key : Key) (outcome : OutcomeCode)
    (offset : Byte) (expected : BitVec 24) (s : State) :
    (s.fillAndAnswer i key outcome offset expected).hasCause c = s.hasCause c :=
  (State.closeIfAnswered_cause complete i _).trans (State.hasCause_of_lp (by simp) c)

theorem State.matchMark_cause (complete : c ≠ .captureComplete) (m : Mark) (sender : Station) (p : Point) (s : State) :
    (s.matchMark m sender p).hasCause c = s.hasCause c := by
  have without : (s.withoutMark m).hasCause c = s.hasCause c := State.hasCause_of_lp (by simp [State.withoutMark]) c
  cases slot : m.slot with
  | none =>
    rw [State.matchMark_none sender p slot]
    exact (State.hasCause_of_lp (by simp) c).trans without
  | some i =>
    rw [State.matchMark_some sender p slot]
    exact (State.fillAndAnswer_cause complete i _ _ _ _ _).trans without

theorem State.lateJoin_cause (complete : c ≠ .captureComplete) (refused : c ≠ .captureRefused) (sender : Station) (p : Point)
    (s : State) : (s.lateJoin sender p).hasCause c = s.hasCause c := by
  have submitted : ∀ key offset outcome, (s.submitFrozen key offset outcome).hasCause c = s.hasCause c := fun _ _ _ =>
    State.hasCause_of_lp (by simp) c
  unfold State.lateJoin
  dsimp only
  split
  · exact submitted _ _ _
  split
  · exact (State.hasCause_raise_other refused _).trans (submitted _ _ _)
  · rename_i opened
    obtain ⟨_, _, _, _, _, lp, _⟩ := State.openSlot_frame opened
    exact (State.fillAndAnswer_cause complete _ _ _ _ _ _).trans (State.hasCause_of_lp lp c)

/-- A CLAIM raises CAPTURE_COMPLETE and CAPTURE_REFUSED only. -/
theorem State.claimAccepted_cause (complete : c ≠ .captureComplete) (refused : c ≠ .captureRefused) (sender : Station)
    (p : Point) (s : State) : (s.claimAccepted sender p).hasCause c = s.hasCause c := by
  unfold State.claimAccepted
  (repeat' split)
  · rfl
  · rfl
  · rfl
  · rfl
  · rfl
  · exact State.matchMark_cause complete _ sender p s
  · rfl
  · exact State.lateJoin_cause complete refused sender p s

/-- A FROZEN raises CAPTURE_COMPLETE only. -/
theorem State.frozenAccepted_cause (complete : c ≠ .captureComplete) (sender : Station) (key : Key) (offset outcome : Byte)
    (s : State) : (s.frozenAccepted sender key offset outcome).hasCause c = s.hasCause c := by
  unfold State.frozenAccepted
  (repeat' split)
  · rfl
  · rfl
  · rfl
  · rfl
  · exact (State.closeIfAnswered_cause complete _ _).trans (State.hasCause_of_lp (by simp) c)
  · rfl

end

end Sys2Proof.Machine
end

