-- ==== Sys2Proof/Proofs/PeersHeard.lean ====
section
/-! The peer table at another station's message: O51. MU takes the message before its owner or after it, and neither sees
the other (R142, R144 to R147, R150). -/

namespace Sys2Proof.Machine

/-! ## The sender's entry (Table 8-3) -/

/-- MU puts the sender's entry into the table. -/
def State.heardFrom (sender : Station) (m : Payload) (s : State) : State :=
  s.setPeer sender.toNat ((s.peerAt sender.toNat).update s.mu.digest s.et.epoch m)

section
variable {sender : Station} {m : Payload} {s : State}

/-- What MU does at another station's message besides the table: a fault, a PRESENT, or nothing (R142, R147). -/
theorem State.muTake_other (on : s.receiverOn = true) (other : sender ≠ s.mu.number) (known : sender.toNat < 24) :
    s.muTake sender m =
      if s.isListen && foreignEpoch s.mu.digest m then (s.heardFrom sender m).enterFault .mismatch
      else if s.isMember && answersHello (s.peerAt sender.toNat) s.mu.digest m then (s.heardFrom sender m).submitPresent
      else s.heardFrom sender m := by
  have off : (!s.receiverOn) ≠ true := by simp [on]
  rw [State.muTake, if_neg off, if_neg other, if_neg (Nat.not_le.2 known)]
  rfl

theorem State.muTake_unknown (other : sender ≠ s.mu.number) (unknown : 24 ≤ sender.toNat) : s.muTake sender m = s := by
  rw [State.muTake, if_neg other, if_pos unknown, ite_self]

theorem State.muTake_own_leaving (own : sender = s.mu.number) (leaving : s.isLeaving = true) : s.muTake sender m = s := by
  rw [State.muTake, if_pos own, if_pos leaving, ite_self]

theorem State.muTake_duplicate (on : s.receiverOn = true) (own : sender = s.mu.number) (stays : s.isLeaving = false) :
    s.muTake sender m = s.enterFault .duplicate := by
  have off : (!s.receiverOn) ≠ true := by simp [on]
  rw [State.muTake, if_neg off, if_pos own, if_neg (by simp [stays])]

theorem State.heardFrom_mu : (s.heardFrom sender m).mu = { s.mu with
    peers := s.mu.peers.setIfInBounds sender.toNat ((s.peerAt sender.toNat).update s.mu.digest s.et.epoch m) } := by
  unfold State.heardFrom State.setPeer
  dsimp only
  split <;> rfl

/-- PEER_CHANGE is raised exactly when the entry's state changes (R146). -/
theorem State.heardFrom_told : (s.heardFrom sender m).hasCause .peerChange = (s.hasCause .peerChange ||
    decide ((s.peerAt sender.toNat).state ≠ ((s.peerAt sender.toNat).update s.mu.digest s.et.epoch m).state)) := by
  unfold State.heardFrom State.setPeer
  dsimp only
  split
  · rename_i same
    have : (s.peerAt sender.toNat).state = ((s.peerAt sender.toNat).update s.mu.digest s.et.epoch m).state := same
    simp [← this, State.hasCause]
  · rename_i changed
    have : (s.peerAt sender.toNat).state ≠ ((s.peerAt sender.toNat).update s.mu.digest s.et.epoch m).state := changed
    simp [this, State.hasCause_raise]

theorem State.heardFrom_frame : (s.heardFrom sender m).et = s.et ∧ (s.heardFrom sender m).lc = s.lc := by
  simp [State.heardFrom]

end

/-- The table and its cause after the message. -/
structure State.TableHears (sender : Station) (m : Payload) (s t : State) : Prop where
  peers : t.mu.peers =
    s.mu.peers.setIfInBounds sender.toNat ((s.peerAt sender.toNat).update s.mu.digest s.et.epoch m)
  told  : t.hasCause .peerChange = (s.hasCause .peerChange ||
    decide ((s.peerAt sender.toNat).state ≠ ((s.peerAt sender.toNat).update s.mu.digest s.et.epoch m).state))

/-- The station state is as it was, and LC but for its queue. -/
structure State.Stays (s t : State) : Prop where
  station : t.mu.station = s.mu.station
  lc      : s.QueueOnly t

theorem State.Stays.trans {s t u : State} (h : s.Stays t) (k : t.Stays u) : s.Stays u :=
  ⟨k.station.trans h.station, h.lc.trans k.lc⟩

/-- What the owner of a message leaves that MU reads, with no epoch start. -/
structure State.OwnerTurn (s t : State) : Prop where
  mu    : t.mu = s.mu
  epoch : t.et.epoch = s.et.epoch
  told  : t.hasCause .peerChange = s.hasCause .peerChange
  lc    : s.QueueOnly t

theorem State.OwnerTurn.refl (s : State) : s.OwnerTurn s := ⟨rfl, rfl, rfl, .refl s⟩

theorem State.OwnerTurn.stays {s t : State} (h : s.OwnerTurn t) : s.Stays t := ⟨by rw [h.mu], h.lc⟩

theorem State.OwnerTurn.peerAt {s t : State} (h : s.OwnerTurn t) (k : Nat) : t.peerAt k = s.peerAt k :=
  State.peerAt_of_mu (by rw [h.mu]) k

section
variable {sender : Station} {m : Payload} {s t u : State}

theorem State.OwnerTurn.then_hears (h : s.OwnerTurn t) (k : t.TableHears sender m u) : s.TableHears sender m u :=
  ⟨by rw [k.peers, h.peerAt, h.mu, h.epoch], by rw [k.told, h.told, h.peerAt, h.mu, h.epoch]⟩

theorem State.TableHears.then_owner (h : s.TableHears sender m t) (k : t.OwnerTurn u) : s.TableHears sender m u :=
  ⟨by rw [k.mu, h.peers], by rw [k.told, h.told]⟩

theorem State.heardFrom_hears : s.TableHears sender m (s.heardFrom sender m) :=
  ⟨by rw [State.heardFrom_mu], State.heardFrom_told⟩

variable (on : s.receiverOn = true) (other : sender ≠ s.mu.number) (known : sender.toNat < 24)
include on other known

theorem State.muTake_hears : s.TableHears sender m (s.muTake sender m) := by
  have hears : s.TableHears sender m (s.heardFrom sender m) := State.heardFrom_hears
  rw [State.muTake_other on other known]
  split
  · rename_i foreign
    have listen : s.mu.station = .listen := by
      simpa [State.isListen] using (Bool.and_eq_true_iff.1 foreign).1
    have outside : (s.heardFrom sender m).isMember = false := by
      rw [State.isMember, State.heardFrom_mu]
      simp [listen]
    have faults := State.enterFault_faults .mismatch (s.heardFrom sender m)
    exact ⟨by rw [faults.mu]; exact hears.peers, (faults.others outside _ (by decide)).trans hears.told⟩
  split
  · exact ⟨by rw [State.submitPresent_frame _ |>.1]; exact hears.peers,
      (State.hasCause_of_lp (State.submitPresent_frame _).2.2.2.2.2.2.1 _).trans hears.told⟩
  · exact hears

theorem State.muTake_stays (near : (s.isListen && foreignEpoch s.mu.digest m) = false) : s.Stays (s.muTake sender m) := by
  have heard : s.Stays (s.heardFrom sender m) := ⟨by rw [State.heardFrom_mu], .of_eq State.heardFrom_frame.2⟩
  rw [State.muTake_other on other known, if_neg (by simp [near])]
  split
  · exact heard.trans ⟨by simp, .submitOrDrop _ _⟩
  · exact heard

end

/-! ## The owner (R124) -/

/-- ET does not adopt the message as an EPOCH, or adopts it with the station's own number: no epoch start (R108, R109). -/
def State.NoStart (sender : Station) (m : Payload) (s : State) : Prop :=
  ∀ n lag digest, m = .epoch n lag digest → s.epochEligible sender n digest = true →
    s.mu.station = .leaving ∨ (s.mu.station = .member ∧ n = s.et.epoch)

section
variable {s : State} {sender : Station}

theorem State.epochAccepted_ineligible {n : Word32} {digest : Word} (h : s.epochEligible sender n digest = false)
    (lag : Word) : s.epochAccepted sender n lag digest = (s, false) := by
  simp [State.epochAccepted, h]

theorem State.takeNumber_ownerTurn {n : Word32} (lag : Word) (same : n = s.et.epoch) : s.OwnerTurn (s.takeNumber n lag) :=
  ⟨rfl, same, rfl, rfl⟩

/-- The owner brings no epoch start, and leaves what MU reads. -/
theorem State.ownerTake_turn {m : Payload} (quiet : s.NoStart sender m) :
    (s.ownerTake sender m).2 = false ∧ s.OwnerTurn (s.ownerTake sender m).1 := by
  cases m with
  | epoch n lag digest =>
    show (s.epochAccepted sender n lag digest).2 = false ∧ s.OwnerTurn (s.epochAccepted sender n lag digest).1
    cases eligible : s.epochEligible sender n digest with
    | false =>
      rw [State.epochAccepted_ineligible eligible]
      exact ⟨rfl, .refl s⟩
    | true =>
      rcases quiet n lag digest rfl eligible with leaving | ⟨member, same⟩
      · have still : s.epochAccepted sender n lag digest = (s, false) := by
          simp [State.epochAccepted, State.isListen, State.isMember, leaving]
        rw [still]
        exact ⟨rfl, .refl s⟩
      · have adopted : s.epochAccepted sender n lag digest = (s.takeNumber n lag, false) := by
          simp [State.epochAccepted, eligible, State.isListen, State.isMember, member, State.adopt_same lag same]
        rw [adopted]
        exact ⟨rfl, State.takeNumber_ownerTurn lag same⟩
  | claim p =>
    obtain ⟨mu, et, _⟩ := State.claimAccepted_frame sender p s
    exact ⟨rfl, mu, congrArg Et.epoch et, State.claimAccepted_cause (by decide) (by decide) sender p s,
      (State.HearsClaim.claimAccepted sender p s).lc⟩
  | frozen key offset outcome =>
    obtain ⟨mu, et, lc, _⟩ := State.frozenAccepted_frame sender key offset outcome s
    exact ⟨rfl, mu, congrArg Et.epoch et, State.frozenAccepted_cause (by decide) sender key offset outcome s, .of_eq lc⟩
  | hello _ _ _ => exact ⟨rfl, .refl s⟩
  | present _ _ _ => exact ⟨rfl, .refl s⟩
  | bye => exact ⟨rfl, .refl s⟩

/-- A message that no owner takes: an EPOCH that is not eligible, a CLAIM or FROZEN outside MEMBER or of no station. -/
theorem State.ownerTake_ignored {m : Payload}
    (epoch : ∀ n lag digest, m = .epoch n lag digest → s.epochEligible sender n digest = false)
    (capture : m.OfCapture → s.isMember = false ∨ 24 ≤ sender.toNat) : s.ownerTake sender m = (s, false) := by
  cases m with
  | epoch n lag digest => exact State.epochAccepted_ineligible (epoch n lag digest rfl) lag
  | claim p =>
    have ignored : s.claimAccepted sender p = s :=
      State.claimAccepted_ignored ((capture (Payload.claim_ofCapture p)).imp_right .inl)
    exact congrArg (·, false) ignored
  | frozen key offset outcome =>
    have ignored : s.frozenAccepted sender key offset outcome = s :=
      State.frozenAccepted_ignored ((capture (Payload.frozen_ofCapture key offset outcome)).imp_right .inl)
    exact congrArg (·, false) ignored
  | hello _ _ _ => rfl
  | present _ _ _ => rfl
  | bye => rfl

end

/-! ## The delivery (R124, R145) -/

section
variable {s : State} {sender : Station} {m : Payload}

/-- Without an epoch start MU's taking and the owner's are all of the delivery. -/
theorem State.deliverOther_still (muFirst : Bool) (order : List Part)
    (after : ((s.muTake sender m).ownerTake sender m).2 = false) (before : (s.ownerTake sender m).2 = false) :
    s.deliverOther sender m muFirst order =
      if muFirst then ((s.muTake sender m).ownerTake sender m).1 else (s.ownerTake sender m).1.muTake sender m := by
  cases muFirst with
  | true => simp only [State.deliverOther, if_true, after, State.deliveryParts_still]
  | false => simp only [State.deliverOther, Bool.false_eq_true, if_false, before, State.deliveryParts_still]

/-- A message that no owner takes is MU's alone. -/
theorem State.deliverOther_unowned (muFirst : Bool) (order : List Part)
    (after : (s.muTake sender m).ownerTake sender m = (s.muTake sender m, false))
    (before : s.ownerTake sender m = (s, false)) : s.deliverOther sender m muFirst order = s.muTake sender m := by
  rw [State.deliverOther_still muFirst order (congrArg Prod.snd after) (congrArg Prod.snd before), after, before, ite_self]

variable (on : s.receiverOn = true) (other : sender ≠ s.mu.number) (known : sender.toNat < 24)
include on other known

/-- What ET reads of the station is as it was after MU's taking, the station state apart where MU faults. -/
theorem State.muTake_fixed : (s.muTake sender m).mu.digest = s.mu.digest ∧ (s.muTake sender m).mu.number = s.mu.number ∧
    (s.muTake sender m).et.epoch = s.et.epoch := by
  have mu := State.heardFrom_mu (sender := sender) (m := m) (s := s)
  have et := (State.heardFrom_frame (sender := sender) (m := m) (s := s)).1
  rw [State.muTake_other on other known]
  split
  · have faults := State.enterFault_faults .mismatch (s.heardFrom sender m)
    rw [faults.mu, faults.et, mu, et]
    exact ⟨rfl, rfl, rfl⟩
  split
  · obtain ⟨mu', et', _⟩ := (s.heardFrom sender m).submitPresent_frame
    rw [mu', et', mu, et]
    exact ⟨rfl, rfl, rfl⟩
  · rw [mu, et]
    exact ⟨rfl, rfl, rfl⟩

theorem State.muTake_noStart (quiet : s.NoStart sender m) : (s.muTake sender m).NoStart sender m := by
  obtain ⟨digest', number', epoch'⟩ := State.muTake_fixed (m := m) on other known
  intro n lag digest hm eligible
  have same : (s.muTake sender m).epochEligible sender n digest = s.epochEligible sender n digest := by
    simp only [State.epochEligible, digest', number']
  rw [same] at eligible
  have near : (s.isListen && foreignEpoch s.mu.digest m) = false := by
    have equal : digest = s.mu.digest := by
      simpa using (Bool.and_eq_true_iff.1 eligible).2
    simp [hm, foreignEpoch, equal]
  rw [(State.muTake_stays on other known near).station, epoch']
  exact quiet n lag digest hm eligible

/-- The table after the delivery, and, where MU does not fault, the station state and LC. -/
theorem State.deliverOther_hears (quiet : s.NoStart sender m) (muFirst : Bool) (order : List Part) :
    s.TableHears sender m (s.deliverOther sender m muFirst order) ∧
      ((s.isListen && foreignEpoch s.mu.digest m) = false → s.Stays (s.deliverOther sender m muFirst order)) := by
  obtain ⟨still, turn⟩ := State.ownerTake_turn quiet
  obtain ⟨still', turn'⟩ := State.ownerTake_turn (State.muTake_noStart on other known quiet)
  rw [State.deliverOther_still muFirst order still' still]
  cases muFirst with
  | true =>
    exact ⟨(State.muTake_hears on other known).then_owner turn', fun near =>
      (State.muTake_stays on other known near).trans turn'.stays⟩
  | false =>
    have onW : (s.ownerTake sender m).1.receiverOn = true := by
      simpa only [State.receiverOn, State.isListen, State.isMember, State.isLeaving, turn.mu] using on
    have otherW : sender ≠ (s.ownerTake sender m).1.mu.number := by rwa [turn.mu]
    refine ⟨turn.then_hears (State.muTake_hears onW otherW known), fun near =>
      turn.stays.trans (State.muTake_stays onW otherW known ?_)⟩
    rwa [State.isListen, turn.mu]

end

/-! ## The messages that only MU takes (R108, R142, R147) -/

section
variable {s : State} {sender : Station} (on : s.receiverOn = true) (other : sender ≠ s.mu.number)
  (known : sender.toNat < 24)
include on other known

/-- An EPOCH of another digest, or of epoch 0, is MU's alone. -/
theorem State.deliverOther_ineligible {n : Word32} {lag digest : Word} (h : digest ≠ s.mu.digest ∨ n = 0) (muFirst : Bool)
    (order : List Part) :
    s.deliverOther sender (.epoch n lag digest) muFirst order = s.muTake sender (.epoch n lag digest) := by
  have ineligible : ∀ u : State, u.mu.digest = s.mu.digest → u.epochEligible sender n digest = false := by
    intro u same
    rw [State.epochEligible, same]
    rcases h with foreign | zero
    · simp [foreign]
    · simp [zero]
  exact State.deliverOther_unowned muFirst order
    (State.epochAccepted_ineligible (ineligible _ (State.muTake_fixed on other known).1) lag)
    (State.epochAccepted_ineligible (ineligible s rfl) lag)

/-- An EPOCH of another digest faults a LISTEN station (R142). -/
theorem State.deliverOther_foreign {n : Word32} {lag digest : Word} (foreign : digest ≠ s.mu.digest)
    (listen : s.mu.station = .listen) (muFirst : Bool) (order : List Part) :
    (s.heardFrom sender (.epoch n lag digest)).Faults .mismatch
      (s.deliverOther sender (.epoch n lag digest) muFirst order) := by
  rw [State.deliverOther_ineligible on other known (.inl foreign), State.muTake_other on other known,
    if_pos (by simp [State.isListen, listen, foreignEpoch, foreign])]
  exact State.enterFault_faults _ _

/-- An EPOCH of epoch 0 and an equal digest changes the sender's entry alone (R108). -/
theorem State.deliverOther_zero (lag : Word) (muFirst : Bool) (order : List Part) :
    s.deliverOther sender (.epoch 0 lag s.mu.digest) muFirst order = s.hearEpoch sender.toNat 0 := by
  rw [State.deliverOther_ineligible on other known (.inr rfl), State.muTake_epoch on other known]

/-- A HELLO of an ABSENT peer with an equal digest is answered with PRESENT (R147). -/
theorem State.deliverOther_hello {n : Word32} {free : Byte} (member : s.isMember = true)
    (absent : (s.peerAt sender.toNat).state = .absent) (muFirst : Bool) (order : List Part) :
    s.deliverOther sender (.hello s.mu.digest n free) muFirst order =
      (s.heardFrom sender (.hello s.mu.digest n free)).submitPresent := by
  rw [State.deliverOther_unowned muFirst order rfl rfl, State.muTake_other on other known, if_neg (by simp [foreignEpoch]),
    if_pos (by simp [member, answersHello, absent])]

end

/-! ## This station's own number (R150) -/

section
variable {s : State} {sender : Station} {m : Payload} (own : sender = s.mu.number)
include own

theorem State.epochEligible_own (n : Word32) (digest : Word) : s.epochEligible sender n digest = false := by
  simp [State.epochEligible, own]

/-- In LEAVING it is ignored. -/
theorem State.deliverOther_own_leaving (leaving : s.mu.station = .leaving) (muFirst : Bool) (order : List Part) :
    s.deliverOther sender m muFirst order = s := by
  have ignored : s.ownerTake sender m = (s, false) :=
    State.ownerTake_ignored (fun n _ digest _ => State.epochEligible_own own n digest)
      fun _ => .inl (by simp [State.isMember, leaving])
  have taken : s.muTake sender m = s := State.muTake_own_leaving own (by simp [State.isLeaving, leaving])
  rw [State.deliverOther_unowned muFirst order (by rw [taken, ignored]) ignored, taken]

/-- In LISTEN and MEMBER the station faults, the owner having taken the message before, or not at all. -/
theorem State.deliverOther_duplicate (on : s.receiverOn = true) (stays : s.mu.station ≠ .leaving) (muFirst : Bool)
    (order : List Part) : ∃ w, s.OwnerTurn w ∧ s.deliverOther sender m muFirst order = w.enterFault .duplicate := by
  have duplicate : ∀ u : State, u.mu = s.mu → u.muTake sender m = u.enterFault .duplicate := fun u same =>
    State.muTake_duplicate (by simpa only [State.receiverOn, State.isListen, State.isMember, State.isLeaving, same] using on)
      (by rw [same]; exact own) (by simpa [State.isLeaving, same] using stays)
  obtain ⟨still, turn⟩ := State.ownerTake_turn (m := m) (s := s) (sender := sender)
    fun n _ digest _ eligible => absurd eligible (by simp [State.epochEligible_own own])
  have mu : (s.muTake sender m).mu = { s.mu with station := .fault .duplicate, spoken := false } := by
    rw [duplicate s rfl, (State.enterFault_faults _ s).mu]
  have ignored : (s.muTake sender m).ownerTake sender m = (s.muTake sender m, false) :=
    State.ownerTake_ignored (fun n _ digest _ => State.epochEligible_own (by rw [mu]; exact own) n digest)
      fun _ => .inl (by simp [State.isMember, mu])
  rw [State.deliverOther_still muFirst order (congrArg Prod.snd ignored) still]
  cases muFirst with
  | true => exact ⟨s, .refl s, by rw [if_pos rfl, ignored, duplicate s rfl]⟩
  | false => exact ⟨_, turn, duplicate _ turn.mu⟩

end

/-! ## The frame (R122) -/

theorem AcceptedAtLc.of_queueOnly {s t : State} {p : Nat} (h : (s.acceptEffects p).QueueOnly t) : AcceptedAtLc s t := by
  rw [AcceptedAtLc, h, State.acceptEffects_lc]
  exact ⟨rfl, rfl, rfl, rfl, rfl, rfl, rfl⟩

theorem Peer.afterCapture_eq (p : Peer) : p.afterCapture = match p.state with
    | .absent => if p.digestMatches = some false then .mismatch else .present
    | st => st := by
  obtain ⟨state, _, _, _, _⟩ := p
  cases state <;> rfl

/-- MU faults on no message but a LISTEN station's foreign EPOCH (R142). -/
theorem State.near_of_equal {s : State} {m : Payload}
    (equal : s.mu.station = .listen → ∀ n lag digest, m = .epoch n lag digest → digest = s.mu.digest) :
    (s.isListen && foreignEpoch s.mu.digest m) = false := by
  by_cases listen : s.mu.station = .listen
  · cases m with
    | epoch n lag digest => simp [foreignEpoch, equal listen n lag digest rfl]
    | _ => exact Bool.and_false _
  · simp [State.isListen, listen]

/-- The PRESENT that answers a HELLO finds its place in the queue (R126, R147). -/
theorem State.submitPresent_announces {s : State} (member : s.isMember = true) (mute : s.lc.mute = false)
    (first : s.lc.queue.any Msg.ofMembership = false)
    (room : (s.lc.queue.filter (fun q => !q.payload.isEpoch)).length < 11) :
    ∃ q ∈ s.submitPresent.lc.queue, q.cond = .queued ∧ q.payload = .present s.mu.digest s.et.epoch s.freeField := by
  have sent : s.submitPresent = s.enqueue (.present s.mu.digest s.et.epoch s.freeField) none := by
    rw [State.submitPresent, State.submitOrDrop, State.submit_announcement rfl member mute first room]
    rfl
  obtain ⟨q, hq, payload, cond, _⟩ := s.enqueue_new (.present s.mu.digest s.et.epoch s.freeField) none
  rw [sent]
  exact ⟨q, hq, cond, payload⟩

/-- Settles O51: the delivery of a message from the state that LC leaves, by whose number the message carries. -/
theorem peerTableUpdated : Obligations.PeerTableUpdated := by
  unfold Obligations.PeerTableUpdated
  intro s f m muFirst order reads carries
  have delivered : exec (.frameAccepted f muFirst order) s =
      .next ((s.acceptEffects f.payload.length).deliverOther f.sender m muFirst order) :=
    congrArg Host.Outcome.next (State.frameAccepted_eq reads carries (decodePayload_encode m) muFirst order)
  have on : (s.acceptEffects f.payload.length).receiverOn = true := by
    rcases reads.1 with h | h | h <;> simp [State.receiverOn, State.isListen, State.isMember, State.isLeaving, h]
  obtain ⟨mu, et, _, _, _, _, lp, _⟩ := s.acceptEffects_frame f.payload.length
  have lc := s.acceptEffects_lc f.payload.length
  have atLc := fun t => AcceptedAtLc.of_queueOnly (s := s) (t := t) (p := f.payload.length)
  generalize s.acceptEffects f.payload.length = v at delivered on mu et lp lc atLc
  have peerAt : ∀ k, v.peerAt k = s.peerAt k := State.peerAt_of_mu (by rw [mu])
  refine ⟨fun other known quiet => ?_, fun other unknown => ?_, fun own leaving => ?_, fun own stays => ?_⟩
  · intro old heard new
    have entry : old.update s.mu.digest s.et.epoch m = new := by
      cases m with
      | claim p => exact congrArg (fun st => { old with lastHeard := some s.et.epoch, state := st }) old.afterCapture_eq
      | frozen key offset outcome =>
        exact congrArg (fun st => { old with lastHeard := some s.et.epoch, state := st }) old.afterCapture_eq
      | _ => rfl
    have otherV : f.sender ≠ v.mu.number := by rwa [mu]
    have noStart : v.NoStart f.sender m := by
      intro n lag digest hm eligible
      obtain ⟨⟨_, positive⟩, equal⟩ : ((_ ∧ _) ∧ n ≠ 0) ∧ digest = v.mu.digest := by
        simpa [State.epochEligible] using eligible
      rw [mu] at equal
      rw [mu, et]
      exact (quiet n lag digest hm).imp_right fun h => (h.resolve_left (not_not.2 equal)).resolve_left positive
    obtain ⟨hears, stays⟩ := State.deliverOther_hears on otherV known noStart muFirst order
    have peers := hears.peers
    have told := hears.told
    rw [peerAt, mu, et, entry] at peers told
    refine ⟨_, delivered, fun k => ?_, told.trans ?_, fun n lag digest hm listen foreign => ?_, fun near => ?_,
      fun n lag digest hm equal zero => ?_, fun digest n free member hm absent equal mute first room => ?_⟩
    · rw [Fin.getElem_fin, Fin.getElem_fin, peers, Vector.getElem_setIfInBounds]
      exact if_congr eq_comm rfl rfl
    · rw [State.hasCause_of_lp lp]
    · subst hm
      have faults := State.deliverOther_foreign (lag := lag) (n := n) on otherV known (by rwa [mu]) (by rwa [mu]) muFirst
        order
      exact ⟨by rw [faults.mu], faults.told, by rw [faults.et], faults.view⟩
    · have stayed := stays (State.near_of_equal (by rwa [mu]))
      exact ⟨by rw [stayed.station, mu], atLc _ stayed.lc⟩
    · subst hm equal zero
      rw [← mu, State.deliverOther_zero on otherV known]
      obtain ⟨et', lc', _⟩ := v.hearEpoch_frame f.sender.toNat 0
      exact ⟨et'.trans et, by rw [lc', lc]⟩
    · subst hm equal
      have memberV : v.isMember = true := isMember_iff.2 (by rwa [mu])
      rw [← mu, State.deliverOther_hello on otherV known memberV (by rwa [peerAt])]
      have mu' := State.heardFrom_mu (sender := f.sender) (m := .hello v.mu.digest n free) (s := v)
      obtain ⟨et', lc'⟩ := State.heardFrom_frame (sender := f.sender) (m := .hello v.mu.digest n free) (s := v)
      generalize v.heardFrom f.sender (.hello v.mu.digest n free) = w at mu' et' lc'
      obtain ⟨q, hq, cond, payload⟩ := State.submitPresent_announces (s := w) (by rw [State.isMember, mu']; exact memberV)
        (by rw [lc', lc]; exact mute) (by rw [lc', lc]; exact first) (by rw [lc', lc]; exact room)
      exact ⟨q, hq, cond, w.freeField, by rw [payload, mu', et', et]⟩
  · have ignored : ∀ u : State, u.ownerTake f.sender m = (u, false) := fun u =>
      State.ownerTake_ignored (fun n _ digest _ => by simp [State.epochEligible, Nat.not_lt.2 unknown])
        fun _ => .inr unknown
    rw [State.deliverOther_unowned muFirst order (ignored _) (ignored _),
      State.muTake_unknown (by rwa [mu]) unknown] at delivered
    exact ⟨v, delivered, mu, lp, et, atLc v (.refl v)⟩
  · rw [State.deliverOther_own_leaving (by rw [mu]; exact own) (by rwa [mu])] at delivered
    exact ⟨v, delivered, mu, lp, atLc v (.refl v)⟩
  · obtain ⟨w, turn, faulted⟩ := State.deliverOther_duplicate (sender := f.sender) (m := m) (by rw [mu]; exact own) on
      (by rwa [mu]) muFirst order
    have faults := State.enterFault_faults .duplicate w
    rw [faulted] at delivered
    generalize w.enterFault .duplicate = t at faults delivered
    have muT : t.mu = { s.mu with station := .fault .duplicate, spoken := false } := by rw [faults.mu, turn.mu, mu]
    obtain ⟨assembly, spotList, run⟩ := faults.acq
    refine ⟨t, delivered, by rw [muT], faults.told, by rw [muT], by rw [muT], by rw [muT], by rw [muT], by rw [faults.et],
      by rw [faults.et], faults.queue, faults.view, assembly, spotList, run, fun station => ?_⟩
    have member : w.isMember = true := isMember_iff.2 (by rw [turn.mu, mu, station])
    obtain ⟨marks, driver, line⟩ := faults.cc member
    exact ⟨marks, driver, line, faults.ring member, faults.kept member⟩

end Sys2Proof.Machine
end
